-- ==== Sys2Proof/Word.lean ====
section
/-!
DEFINITION. Word.lean: the word types of the TK-4620 (00 R1, R5) and their plainest arithmetic.
-/
namespace Sys2Proof

/-- A byte of memory. -/
abbrev Byte := BitVec 8
/-- A 32-bit register of one lane, or an instruction word. -/
abbrev Word := BitVec 32
/-- A 64-bit value: an even-odd register pair, low word first (R1). -/
abbrev DWord := BitVec 64

/-- The low word of a 64-bit value, held in the even register (R1). -/
def DWord.lo (x : DWord) : Word := x.setWidth 32
/-- The high word of a 64-bit value, held in the odd register (R1). -/
def DWord.hi (x : DWord) : Word := (x >>> 32).setWidth 32
/-- The 64-bit value of a pair. -/
def DWord.ofPair (lo hi : Word) : DWord := hi ++ lo

end Sys2Proof
end

