-- ==== Sys2Proof/Config.lean ====
section
/-!
DEFINITION. Config.lean: what an implementation fixes and the spec leaves open. Every one is opaque: nothing can
evaluate it, and a claim that mentions one holds for every value of it (log entries 8, 9, 11, 12, 14 to 16, 18, 19, 40, 49, 53 and 63).
-/
namespace Sys2Proof

/-- The bytes an encoder lane writes for a frame: codec, width, height, target bits, frame number, pixels (R269, R271; log 8). -/
opaque Config.bitstream : List Nat → List Byte → List Byte
/-- The package identity key: an RSA-3072 modulus, a private exponent, and the salt of a signature of bytes (R396; log 9). -/
opaque Config.identityModulus : Nat
opaque Config.identityExponent : Nat
opaque Config.signatureSalt : List Byte → List Byte
/-- The package identity certificate (R394; log 9). -/
opaque Config.certificate : List Byte
/-- The boot ROM's measurement (R396; log 9). -/
opaque Config.romMeasurement : List Byte
/-- The fused hash of the image-signing modulus (R393; log 9). -/
opaque Config.fusedKeyHash : List Byte
/-- The fused minimum security version (R393; log 9). -/
opaque Config.fusedMinSvn : Nat
/-- The fabric port that a copy's unit arrives at, and the synchronisation engine that holds an object, by number (R8, R382, R403; log 63). -/
opaque Config.portOf : Nat → Nat
opaque Config.objectEngine : Nat → Nat
/-- The separation of two list nodes when a depth read from memory is NaN (R258 states none; log 11). -/
opaque Config.nanSeparation : Word → Word → Nat
/-- The package's own number on the fabric, 0 to 131,071 (R387; log 12). -/
opaque Config.packageId : Fin 131072
def Config.packageNumber : Nat := Config.packageId.val
/-- The detail of an `ILLEGAL_ENCODING` that a clause header raises (R23; R68 numbers the checks of a word; log 14). -/
opaque Config.headerDetail : Nat
/-- The cause of a `PAGE_FAULT` on an address whose bits [63:51] are not zero (R160, R34; R376 lists none; log 14). -/
opaque Config.addressCause : Nat
/-- Whether a command that may go to a home array or to the lent one goes to the lent one, by its number (R364; log 15). -/
opaque Config.lentChoice : Nat → Bool
/-- Where the search for a free entry of the copy status ring begins, by the copies issued before (R227, R235; log 16). -/
opaque Config.copyEntry : Nat → Nat
/-- The line that a core's full L1 evicts, by core and time (R12, R168 name no replacement; log 19). -/
opaque Config.l1Victim : Nat → Nat → Nat
/-- The word that a core's full instruction cache gives up, by core and address (R12; log 19). -/
opaque Config.icacheVictim : Nat → Nat → Nat
/-- The binary32 word delivered for a decoded BFPm element of -2^128 (E = 254 and the least mantissa), which no finite binary32 holds
(R88 and R130 call decoding exact; log 49). -/
opaque Config.bfpLeast : Word
/-- The range and size that the boot ROM writes into a die's carve-out register, bits [51:20] (R393; log 18). -/
opaque Config.carveOut : Nat → Nat
/-- Which of a slice's three channels holds a sector (R9 gives no interleaving; log 18). -/
opaque Config.channelWithin : Nat → Nat
/-- The slew the servo picks for a time base at a time, in parts per million (R391; log 18). -/
opaque Config.slewRate : Nat → Int
/-- The path source of a function's time bases: the fabric, or the host link (R391 names no request that chooses; log 53). -/
opaque Config.fabricTime : Nat → Bool
/-- The syndrome that an error record gives as its detail, by time (R403; log 40). -/
opaque Config.syndrome : Nat → Nat
/-- Whether a replica's launch, by package and function, has completed on another package at a time (R390, R395 give no message; log 18). -/
opaque Config.replicaDone : Nat × Nat → Nat → Bool
/-- The cause and the unit of the class 2 record of a function-level reset (R420, R422 give neither; log 18). -/
opaque Config.resetRecord : Nat × Nat
/-- The trap field of a launch that a function-level reset ends (R420, R422 give none; log 18). -/
opaque Config.resetTrap : Nat

end Sys2Proof
end

