-- ==== Sys2Proof/Machine/Bits.lean ====
section
/-!
DEFINITION. Machine/Bits.lean: sparse maps in canonical form, bit fields, byte order and sign extension. Everything
that reads a field of a word or a byte of a record goes through these.
-/
namespace Sys2Proof.Machine

/-- A sparse map: keys strictly rising, no entry equal to the default value an absent key reads as. -/
abbrev SMap (α : Type) := List (Nat × α)

/-- The value at a key: the first entry that carries it, else the default. -/
def smGet {α : Type} (dflt : α) : SMap α → Nat → α
  | [], _ => dflt
  | (j, x) :: t, k => if j = k then x else smGet dflt t k

/-- The map without a key. -/
def smDel {α : Type} : SMap α → Nat → SMap α
  | [], _ => []
  | (j, x) :: t, k => if j = k then smDel t k else (j, x) :: smDel t k

/-- Puts an entry before the first greater key. -/
def smIns {α : Type} : SMap α → Nat → α → SMap α
  | [], k, v => [(k, v)]
  | (j, x) :: t, k, v => if k < j then (k, v) :: (j, x) :: t else (j, x) :: smIns t k v

/-- Writes a key; a write of the default value removes the entry. -/
def smSet {α : Type} [DecidableEq α] (dflt : α) (m : SMap α) (k : Nat) (v : α) : SMap α :=
  if v = dflt then smDel m k else smIns (smDel m k) k v

/-- Every key of a map is above a bound, and the keys rise strictly. -/
def smSortedFrom {α : Type} : Option Nat → SMap α → Bool
  | _, [] => true
  | lo, (j, _) :: t => (match lo with | none => true | some b => decide (b < j)) && smSortedFrom (some j) t

/-- The canonical form. -/
def smWf {α : Type} [DecidableEq α] (dflt : α) (m : SMap α) : Bool :=
  smSortedFrom none m && m.all (fun e => decide (e.2 ≠ dflt))

/-- Drops every key in [lo, hi). -/
def smClear {α : Type} (m : SMap α) (lo hi : Nat) : SMap α := m.filter (fun e => decide (e.1 < lo ∨ hi ≤ e.1))

/-- Writes consecutive keys. -/
def smSetMany {α : Type} [DecidableEq α] (dflt : α) : SMap α → Nat → List α → SMap α
  | m, _, [] => m
  | m, k, v :: vs => smSetMany dflt (smSet dflt m k v) (k + 1) vs

/-- Reads `n` consecutive keys. -/
def smGetMany {α : Type} (dflt : α) (m : SMap α) (k n : Nat) : List α := (List.range n).map (fun i => smGet dflt m (k + i))

/-- Bits [hi:lo] of a number. -/
def bits (x hi lo : Nat) : Nat := x / 2 ^ lo % 2 ^ (hi + 1 - lo)

/-- Bit i of a number. -/
def bitOf (x i : Nat) : Bool := x / 2 ^ i % 2 == 1

/-- Rounds up to a multiple. -/
def roundUp (x m : Nat) : Nat := (x + m - 1) / m * m
/-- Ceiling division. -/
def ceilDiv (x m : Nat) : Nat := (x + m - 1) / m

/-- A little-endian number from bytes. -/
def leNat : List Byte → Nat
  | [] => 0
  | b :: bs => b.toNat + 256 * leNat bs

/-- The little-endian bytes of a number. -/
def natLe : Nat → Nat → List Byte
  | 0, _ => []
  | n + 1, x => BitVec.ofNat 8 x :: natLe n (x / 256)

/-- n bytes of a list from an offset, zero past its end. -/
def bytesAt (l : List Byte) (off n : Nat) : List Byte := (List.range n).map (fun i => l.getD (off + i) 0)

/-- A little-endian field of a record. -/
def fieldAt (l : List Byte) (off n : Nat) : Nat := leNat (bytesAt l off n)

/-- Bytes as 32-bit words, low first. -/
def wordsOf : Nat → List Byte → List Word
  | 0, _ => []
  | n + 1, l => BitVec.ofNat 32 (leNat (l.take 4)) :: wordsOf n (l.drop 4)

/-- The bytes of words. -/
def bytesOfWords : List Word → List Byte
  | [] => []
  | w :: ws => natLe 4 w.toNat ++ bytesOfWords ws

/-- The signed value of the low n bits. -/
def sx (n x : Nat) : Int := let y := x % 2 ^ n; if 2 ^ (n - 1) ≤ y then (y : Int) - 2 ^ n else y

/-- wrap(x, n) of 00 R1: the two's-complement bits. -/
def wrapN (n : Nat) (x : Int) : Nat := (x % (2 ^ n : Int)).toNat

/-- sat(x, lo, hi) of the spec. -/
def satI (x lo hi : Int) : Int := if x < lo then lo else if hi < x then hi else x

/-- The lanes of a mask below a width, ascending. -/
def lanesOf (w : Nat) (m : BitVec 64) : List Nat := (List.range w).filter (fun i => m.getLsbD i)

/-- The mask of a list of lanes. -/
def maskOf : List Nat → BitVec 64
  | [] => 0
  | l :: ls => (1#64 <<< l) ||| maskOf ls

/-- The lanes below a width as a mask. -/
def fullMask (w : Nat) : BitVec 64 := BitVec.ofNat 64 (2 ^ w - 1)

/-- The number of bits set among the low n. -/
def popN : Nat → Nat → Nat
  | 0, _ => 0
  | n + 1, x => x % 2 + popN n (x / 2)

/-- Replaces the element at an index. -/
def setAt {α : Type} : List α → Nat → α → List α
  | [], _, _ => []
  | _ :: t, 0, v => v :: t
  | x :: t, n + 1, v => x :: setAt t n v

/-- Updates every element a test picks. -/
def updIf {α : Type} (p : α → Bool) (f : α → α) (l : List α) : List α := l.map (fun x => if p x then f x else x)

/-- The first element a test picks. -/
def findFirst {α : Type} (p : α → Bool) : List α → Option α
  | [] => none
  | x :: t => if p x then some x else findFirst p t

/-- The least of a list under a key compared as a list of numbers, the first on a tie. -/
def lexLt : List Nat → List Nat → Bool
  | [], [] => false
  | [], _ :: _ => true
  | _ :: _, [] => false
  | a :: as, b :: bs => if a < b then true else if b < a then false else lexLt as bs

/-- The element of least key, the first on a tie. -/
def minBy {α : Type} (key : α → List Nat) : List α → Option α
  | [] => none
  | x :: t => match minBy key t with
    | none => some x
    | some y => if lexLt (key y) (key x) then some y else some x

/-- Stable insertion into a list sorted by key. -/
def insBy {α : Type} (key : α → List Nat) (x : α) : List α → List α
  | [] => [x]
  | y :: t => if lexLt (key x) (key y) then x :: y :: t else y :: insBy key x t

/-- A stable sort by key. -/
def sortBy {α : Type} (key : α → List Nat) (l : List α) : List α := l.foldl (fun acc x => insBy key x acc) []

/-- Cuts a list into runs of n (n above 0), with fuel for its length. -/
def chunksOf {α : Type} (n : Nat) : Nat → List α → List (List α)
  | 0, _ => []
  | _, [] => []
  | f + 1, l => l.take n :: chunksOf n f (l.drop n)

end Sys2Proof.Machine
end

