-- ==== Sys2Proof/Machine/Aes.lean ====
section
/-!
DEFINITION. Machine/Aes.lean: XTS-AES-128 over a 32-byte sector (19 R377). The S-box is computed from the field it is
defined over, so no table stands here.
-/
namespace Sys2Proof.Machine

/-- Multiplication by x in GF(2^8) modulo x^8 + x^4 + x^3 + x + 1. -/
def gfDouble (a : Nat) : Nat := if a < 128 then 2 * a else Nat.xor (2 * a - 256) 27
/-- Multiplication in that field; fuel 8 takes the bits of b. -/
def gfMul : Nat → Nat → Nat → Nat
  | 0, _, _ => 0
  | n + 1, a, b => Nat.xor (if b % 2 = 1 then a else 0) (gfMul n (gfDouble a) (b / 2))
/-- a^254, the inverse, 0 for 0: by squarings. -/
def gfInv (a : Nat) : Nat :=
  let sq (x : Nat) : Nat := gfMul 8 x x
  let a2 := sq a
  let a4 := sq a2
  let a8 := sq a4
  let a16 := sq a8
  let a32 := sq a16
  let a64 := sq a32
  let a128 := sq a64
  gfMul 8 a128 (gfMul 8 a64 (gfMul 8 a32 (gfMul 8 a16 (gfMul 8 a8 (gfMul 8 a4 a2)))))
def rotl8 (a k : Nat) : Nat := (a * 2 ^ k + a / 2 ^ (8 - k)) % 256
def sBox (a : Nat) : Nat :=
  let b := gfInv a
  Nat.xor (Nat.xor (Nat.xor (Nat.xor (Nat.xor b (rotl8 b 1)) (rotl8 b 2)) (rotl8 b 3)) (rotl8 b 4)) 99
def invSBox (a : Nat) : Nat := gfInv (Nat.xor (Nat.xor (Nat.xor (rotl8 a 1) (rotl8 a 3)) (rotl8 a 6)) 5)

def xorList : List Nat → List Nat → List Nat
  | a :: as, b :: bs => Nat.xor a b :: xorList as bs
  | _, _ => []

/-- One round of the key schedule, from 16 bytes to the next 16. -/
def nextKey (k : List Nat) (rcon : Nat) : List Nat :=
  let t := [Nat.xor (sBox (k.getD 13 0)) rcon, sBox (k.getD 14 0), sBox (k.getD 15 0), sBox (k.getD 12 0)]
  let w0 := xorList (k.take 4) t
  let w1 := xorList ((k.drop 4).take 4) w0
  let w2 := xorList ((k.drop 8).take 4) w1
  let w3 := xorList ((k.drop 12).take 4) w2
  w0 ++ w1 ++ w2 ++ w3
/-- The round keys from a key on, n of them. -/
def keySchedule : Nat → List Nat → Nat → List (List Nat)
  | 0, k, _ => [k]
  | n + 1, k, rcon => k :: keySchedule n (nextKey k rcon) (gfDouble rcon)

def shiftRows (inv : Bool) (l : List Nat) : List Nat :=
  (List.range 16).map (fun i => l.getD (if inv then (i + 16 - 4 * (i % 4)) % 16 else (i + 4 * (i % 4)) % 16) 0)
/-- A column under the four coefficients of its matrix row. -/
def mixCol (c : List Nat) (col : List Nat) : List Nat :=
  (List.range 4).map (fun i => (List.range 4).foldl (fun acc j => Nat.xor acc (gfMul 8 (col.getD j 0) (c.getD ((j + 4 - i) % 4) 0))) 0)
def mixColumns (c : List Nat) (l : List Nat) : List Nat :=
  mixCol c (l.take 4) ++ mixCol c ((l.drop 4).take 4) ++ mixCol c ((l.drop 8).take 4) ++ mixCol c ((l.drop 12).take 4)

def aesEnc (key blk : List Nat) : List Nat :=
  match keySchedule 10 key 1 with
  | [] => blk
  | k0 :: ks =>
    let mid := (ks.take 9).foldl (fun st k => xorList (mixColumns [2, 3, 1, 1] (shiftRows false (st.map sBox))) k) (xorList blk k0)
    xorList (shiftRows false (mid.map sBox)) (ks.getD 9 [])
def aesDec (key blk : List Nat) : List Nat :=
  match (keySchedule 10 key 1).reverse with
  | [] => blk
  | k10 :: ks =>
    let mid := (ks.take 9).foldl (fun st k => mixColumns [14, 11, 13, 9] (xorList ((shiftRows true st).map invSBox) k)) (xorList blk k10)
    xorList ((shiftRows true mid).map invSBox) (ks.getD 9 [])

/-- Multiplication of a tweak by x in GF(2^128), little-endian (IEEE 1619). -/
def tweakDouble (t : List Nat) : List Nat :=
  let v := t.foldr (fun b acc => b + 256 * acc) 0
  let w := 2 * v
  let u := if w < 2 ^ 128 then w else Nat.xor (w - 2 ^ 128) 135
  (List.range 16).map (fun i => u / 256 ^ i % 256)

def natBytes16 (x : Nat) : List Nat := (List.range 16).map (fun i => x / 256 ^ i % 256)

/-- Encrypts or decrypts a 32-byte sector: the data-unit key and the tweak key as little-endian numbers, the tweak
SPA[51:5] (R377). -/
def xtsSector (enc : Bool) (kv : Nat × Nat) (sec : Nat) (bs : List Byte) : List Byte :=
  let k1 := natBytes16 kv.1
  let t0 := aesEnc (natBytes16 kv.2) (natBytes16 sec)
  let f (t blk : List Nat) : List Nat := xorList ((if enc then aesEnc else aesDec) k1 (xorList blk t)) t
  let l := bs.map (·.toNat)
  (f t0 (l.take 16) ++ f (tweakDouble t0) (l.drop 16)).map (BitVec.ofNat 8)

end Sys2Proof.Machine
end

