-- ==== Sys2Proof/Syntax.lean ====
section
/-!
DEFINITION. Syntax.lean: the operands and the steps of the TK-4620. `Instr` has one constructor per row of
spec/opcode_table.json: first the 167 rows that have a word (03), then the 88 events (95), which have none.
-/
namespace Sys2Proof

/-- A field an instruction writes, or reads under R38 and R56: a vector register v0 to v119, or ZERO. -/
inductive Dst where
  | reg (n : Nat)
  | zero
  deriving DecidableEq, Repr, Inhabited

/-- A source field (R36). -/
inductive Src where
  | reg (n : Nat)
  | zero
  | lane
  | grpix
  | teamix
  | lit32 (w : Word)
  | lit64 (w : DWord)
  deriving DecidableEq, Repr, Inhabited

/-- Integer types of 32 and 64 bits (R57, R69). -/
inductive IntTy where
  | s32 | n32 | s64 | n64
  deriving DecidableEq, Repr, Inhabited

/-- Floating types of the float code (R58). -/
inductive FloatTy where
  | f32 | f16 | bf16
  deriving DecidableEq, Repr, Inhabited

/-- Rounding modes of an instruction's own field (R58, R74). -/
inductive Rnd where
  | rne | rtz | rup | rdn
  deriving DecidableEq, Repr, Inhabited

/-- Type codes of CVT (R60). -/
inductive CvtTy where
  | f32 | f16 | bf16 | e4m3 | e5m2 | s32 | n32 | s64 | n64 | s16 | n16 | s8 | n8
  deriving DecidableEq, Repr, Inhabited

/-- Reduction codes 0 to 11 (R61, R126). -/
inductive RedOp where
  | add32 | addF32 | minS32 | minN32 | maxS32 | maxN32 | minF32 | maxF32 | and32 | or32 | xor32 | add64
  deriving DecidableEq, Repr, Inhabited

/-- Selectors of MOVS (R117). -/
inductive Sel where
  | width | teamsize | ginteam | teams | regs | origgrp | origlane | active | flags | flagsclr | srseq
  | time | cycle | coreid | regionid | krec | lrec | args | skey | slot (k : Nat) | deadline
  deriving DecidableEq, Repr, Inhabited

/-- Memory spaces (R35). -/
inductive Space where
  | g | s | rg | c | p
  deriving DecidableEq, Repr, Inhabited

/-- Ordering codes (R35). -/
inductive MOrd where
  | rlx | acq | rel | sc
  deriving DecidableEq, Repr, Inhabited

/-- Scope codes (R35, R174). -/
inductive Scope where
  | grp | core | team | dev | sys
  deriving DecidableEq, Repr, Inhabited

/-- Access sizes (R35). -/
inductive Sz where
  | b1 | b2 | b4 | b8 | b16 | b32
  deriving DecidableEq, Repr, Inhabited

/-- What a patrol read or a hop finds in a datum (R398, R399). -/
inductive Check where
  | clean | corrected | uncorrectable
  deriving DecidableEq, Repr, Inhabited

/-- The datum a link retry delivers (R398). -/
inductive Hop where
  /-- a sector on its way to the L2, or from host memory to its reader -/
  | sector (sec : Nat)
  /-- what a copy reads, on its way to its engine or its fabric port; with link 1 on the die-to-die link, with link 2 on the host link -/
  | copy (id link : Nat)
  /-- what a copy, a stage, a lane or a front end writes to a sector, on its way to the L2 or to host memory; die says of the die-to-die link, here and of the next five -/
  | write (sec : Nat) (die : Bool)
  /-- a sector on its way to a core's L1, under a key index: from the L2, or over the host link -/
  | beat (core sec key : Nat) (die : Bool)
  /-- a sector on its way to a core past its L1: for the instruction cache, or the reply to an atomic or to another access at the L2 -/
  | fetch (core sec : Nat) (die : Bool)
  | reply (core sec : Nat) (die : Bool)
  /-- a sector of a function's chip scratchpad: on its way to a core that reads it, or with what a core stores there -/
  | chip (core fn sec : Nat) (store die : Bool)
  /-- the dirty bytes of a sector on their way from a core's L1 to the L2 -/
  | back (core sec : Nat) (die : Bool)
  /-- what the host writes through BAR 2 of a function, on the host link, and what it reads there -/
  | bar (fn va : Nat) (bytes : List Byte)
  | barRead (fn : Nat)
  /-- a flit of another package with a copy's unit or a remote atomic, for a function, at a fabric port -/
  | flit (srcPkg srcFn fn port : Nat)
  deriving DecidableEq, Repr, Inhabited

/-- A host access through BAR 2 (R383). -/
inductive BarAccess where
  | read (n : Nat)
  | write (bytes : List Byte)
  deriving DecidableEq, Repr, Inhabited

/-- What the fabric reports of a CPYR unit or of a RATOMIC (R241, R387, R388). -/
inductive AckResult where
  | ok (value : DWord)
  | refused (reason : Nat)
  | poisoned
  deriving DecidableEq, Repr, Inhabited

/-- One step of the part: a row of spec/opcode_table.json. -/
inductive Instr where
  -- ALU, 0x00 to 0x1D (R59, R98 to R107, R117, R120)
  | add (d : Dst) (a b : Src) (ty : IntTy) (sat : Bool)
  | sub (d : Dst) (a b : Src) (ty : IntTy) (sat : Bool)
  | mul (d : Dst) (a b : Src) (ty : IntTy) (sat : Bool)
  | mulh (d : Dst) (a b : Src) (ty : IntTy)
  | mad (d : Dst) (a b : Src) (ty : IntTy)
  | min (d : Dst) (a b : Src) (ty : IntTy)
  | max (d : Dst) (a b : Src) (ty : IntTy)
  | neg (d : Dst) (a : Src) (wide : Bool)
  | abs (d : Dst) (a : Src) (wide : Bool)
  | and (d : Dst) (a b : Src) (wide : Bool)
  | or (d : Dst) (a b : Src) (wide : Bool)
  | xor (d : Dst) (a b : Src) (wide : Bool)
  | andn (d : Dst) (a b : Src) (wide : Bool)
  | orn (d : Dst) (a b : Src) (wide : Bool)
  | xnor (d : Dst) (a b : Src) (wide : Bool)
  | shl (d : Dst) (a b : Src) (wide : Bool)
  | shrN (d : Dst) (a b : Src) (wide : Bool)
  | shrS (d : Dst) (a b : Src) (wide : Bool)
  | rol (d : Dst) (a b : Src) (wide : Bool)
  | popc (d : Dst) (a : Src) (wide : Bool)
  | clz (d : Dst) (a : Src) (wide : Bool)
  | ctz (d : Dst) (a : Src) (wide : Bool)
  | brev (d : Dst) (a : Src) (wide : Bool)
  | bfx (d : Dst) (a b : Src) (signed : Bool)
  | bfi (d : Dst) (a b : Src)
  | cmpeq32 (d : Dst) (a b : Src) (unsigned : Bool)
  | cmpne32 (d : Dst) (a b : Src) (unsigned : Bool)
  | cmplt32 (d : Dst) (a b : Src) (unsigned : Bool)
  | cmple32 (d : Dst) (a b : Src) (unsigned : Bool)
  | cmpgt32 (d : Dst) (a b : Src) (unsigned : Bool)
  | cmpge32 (d : Dst) (a b : Src) (unsigned : Bool)
  | cmpeq64 (d : Dst) (a b : Src) (unsigned : Bool)
  | cmpne64 (d : Dst) (a b : Src) (unsigned : Bool)
  | cmplt64 (d : Dst) (a b : Src) (unsigned : Bool)
  | cmple64 (d : Dst) (a b : Src) (unsigned : Bool)
  | cmpgt64 (d : Dst) (a b : Src) (unsigned : Bool)
  | cmpge64 (d : Dst) (a b : Src) (unsigned : Bool)
  | sel (d : Dst) (a b : Src) (wide : Bool)
  | mov (d : Dst) (a : Src) (wide : Bool)
  | lea (d : Dst) (a b : Src) (shift : Nat)
  | movs (d : Dst) (sel : Sel)
  | rng (d : Dst) (a : Src) (b : Dst)
  | addImm32 (d : Dst) (a : Src) (imm : BitVec 11)
  | addImm64 (d : Dst) (a : Src) (imm : BitVec 11)
  | andImm (d : Dst) (a : Src) (imm : BitVec 11)
  | orImm (d : Dst) (a : Src) (imm : BitVec 11)
  | xorImm (d : Dst) (a : Src) (imm : BitVec 11)
  | shlImm (d : Dst) (a : Src) (imm : BitVec 11)
  | shrNImm (d : Dst) (a : Src) (imm : BitVec 11)
  | shrSImm (d : Dst) (a : Src) (imm : BitVec 11)
  | mulImm (d : Dst) (a : Src) (imm : BitVec 11)
  | movImm (d : Dst) (imm : BitVec 11)
  -- ALU, floating point, 0x20 to 0x2B (R59, R60, R108 to R116)
  | addF (d : Dst) (a b : Src) (ty : FloatTy) (rnd : Rnd)
  | subF (d : Dst) (a b : Src) (ty : FloatTy) (rnd : Rnd)
  | mulF (d : Dst) (a b : Src) (ty : FloatTy) (rnd : Rnd)
  | fma (d : Dst) (a b : Src) (ty : FloatTy) (rnd : Rnd)
  | minF (d : Dst) (a b : Src) (ty : FloatTy)
  | maxF (d : Dst) (a b : Src) (ty : FloatTy)
  | cmpeqF (d : Dst) (a b : Src) (half : Bool)
  | cmpneF (d : Dst) (a b : Src) (half : Bool)
  | cmpltF (d : Dst) (a b : Src) (half : Bool)
  | cmpleF (d : Dst) (a b : Src) (half : Bool)
  | cmpgtF (d : Dst) (a b : Src) (half : Bool)
  | cmpgeF (d : Dst) (a b : Src) (half : Bool)
  | cmpun (d : Dst) (a b : Src) (half : Bool)
  | cmpor (d : Dst) (a b : Src) (half : Bool)
  | negF (d : Dst) (a : Src) (ty : FloatTy)
  | absF (d : Dst) (a : Src) (ty : FloatTy)
  | rnd (d : Dst) (a : Src) (ty : FloatTy) (rnd : Rnd)
  | rcp (d : Dst) (a : Src) (half : Bool)
  | rsq (d : Dst) (a : Src) (half : Bool)
  | sqrt (d : Dst) (a : Src) (half : Bool)
  | exp2 (d : Dst) (a : Src) (half : Bool)
  | log2 (d : Dst) (a : Src) (half : Bool)
  | sin (d : Dst) (a : Src) (half : Bool)
  | cos (d : Dst) (a : Src) (half : Bool)
  | tanh (d : Dst) (a : Src) (half : Bool)
  | cvt (d : Dst) (a : Src) (dst src : CvtTy) (rnd : Rnd) (sat : Bool)
  | cvts (d : Dst) (a : Src) (slot : Nat) (fromSlot : Bool)
  | packlo (d : Dst) (a b : Src)
  | packhi (d : Dst) (a b : Src)
  -- XLANE (R61, 06)
  | shfl (d : Dst) (a b : Src) (wide : Bool)
  | shflup (d : Dst) (a b : Src) (wide : Bool)
  | shfldn (d : Dst) (a b : Src) (wide : Bool)
  | shflx (d : Dst) (a b : Src) (wide : Bool)
  | vany (d : Dst) (a : Src)
  | vall (d : Dst) (a : Src)
  | vbal (d : Dst) (a : Src)
  | vmatch (d : Dst) (a b : Src)
  | red (d : Dst) (a : Src) (op : RedOp)
  | scan (d : Dst) (a : Src) (op : RedOp)
  | xscan (d : Dst) (a : Src) (op : RedOp)
  | cvtb (d : Dst) (a : Src) (slot : Nat) (fromSlot : Bool)
  -- MEM (R63, 10)
  | ld (t : Dst) (a : Src) (sz : Sz) (ord : MOrd) (scp : Scope) (sp : Space)
  | ldSigned (t : Dst) (a : Src) (half : Bool) (ord : MOrd) (scp : Scope) (sp : Space)
  | st (t : Src) (a : Src) (sz : Sz) (ord : MOrd) (scp : Scope) (sp : Space)
  | ldm (d : Dst) (a : Src) (count : Nat) (sp : Space)
  | stm (d : Dst) (a : Src) (count : Nat) (sp : Space)
  | ldf (t : Dst) (a : Src) (ord : MOrd) (scp : Scope) (sp : Space)
  | ldfe (t : Dst) (a : Src) (ord : MOrd) (scp : Scope) (sp : Space)
  | stef (t : Src) (a : Src) (ord : MOrd) (scp : Scope) (sp : Space)
  | setf (a : Src) (region : Bool)
  | sete (a : Src) (region : Bool)
  | trd (d : Dst) (a : Src) (region : Bool)
  | atadd (t : Dst) (a : Src) (wide : Bool) (ord : MOrd) (scp : Scope) (sp : Space)
  | atminS (t : Dst) (a : Src) (wide : Bool) (ord : MOrd) (scp : Scope) (sp : Space)
  | atminN (t : Dst) (a : Src) (wide : Bool) (ord : MOrd) (scp : Scope) (sp : Space)
  | atmaxS (t : Dst) (a : Src) (wide : Bool) (ord : MOrd) (scp : Scope) (sp : Space)
  | atmaxN (t : Dst) (a : Src) (wide : Bool) (ord : MOrd) (scp : Scope) (sp : Space)
  | atand (t : Dst) (a : Src) (wide : Bool) (ord : MOrd) (scp : Scope) (sp : Space)
  | ator (t : Dst) (a : Src) (wide : Bool) (ord : MOrd) (scp : Scope) (sp : Space)
  | atxor (t : Dst) (a : Src) (wide : Bool) (ord : MOrd) (scp : Scope) (sp : Space)
  | atxch (t : Dst) (a : Src) (wide : Bool) (ord : MOrd) (scp : Scope) (sp : Space)
  | atcas (t : Dst) (a : Src) (wide : Bool) (ord : MOrd) (scp : Scope) (sp : Space)
  | atfadd (t : Dst) (a : Src) (ord : MOrd) (scp : Scope) (sp : Space)
  | faddCp (t : Dst) (a : Src) (ord : MOrd) (scp : Scope) (sp : Space)
  | fence (ord : MOrd) (scp : Scope)
  -- ENG (R64, 07, 11)
  | mma (tile : Nat) (d : Dst) (a b : Src)
  | mmap (tile : Nat) (d : Dst) (a b : Src)
  | mconv (tile : Nat) (d : Dst) (a b : Src)
  | mrd (tile : Nat) (d : Dst) (a : Src)
  | mwr (tile : Nat) (d : Dst) (a : Src)
  | mzero (tile : Nat)
  | mst (tile : Nat) (d : Dst) (a : Src)
  | mtake (tile : Nat)
  | mfree (tile : Nat)
  | cpy (d : Dst) (a : Src)
  | cpyn (d : Dst) (a : Src) (slot : Nat) (compact : Bool)
  | cpyr (d : Dst) (a : Src)
  | publish (a : Src)
  | cpyq (d : Dst) (a : Src)
  -- GFX (R65, 12, 17)
  | prim (d : Dst) (a : Src)
  | fins (d : Dst) (a : Src)
  | fpeek (d : Dst) (a b : Src)
  | fres (d : Dst) (a b : Src) (clear : Bool)
  | fclr (a b : Src)
  | encTile (a : Src)
  | trvbox (d : Dst) (a : Dst) (b : Src)
  | trvtri (d : Dst) (a : Dst) (b : Src)
  | trvpsh (a : Src)
  | trvpop (d : Dst)
  | trvinstEnter (a : Src)
  | trvinstLeave
  | trvrd (d : Dst) (a : Src)
  -- CTL (R66, 14)
  | bra (off : BitVec 21)
  | brt (c : Nat) (off : BitVec 21)
  | brf (c : Nat) (off : BitVec 21)
  | join (off : BitVec 21)
  | dbrt (c : Nat) (off : BitVec 21)
  | dbrf (c : Nat) (off : BitVec 21)
  | call (off : BitVec 21)
  | ret
  | exit
  | rett
  | brkpt
  | barGrp
  | barTeam (id : Nat)
  | barArv (id : Nat)
  | barWait (id : Nat)
  | semacq (d : Dst) (a b : Src)
  | semrel (a b : Src)
  | dbar (a : Src)
  | dbara (a : Src)
  | dbarw (a : Src)
  | sbar (a : Src)
  | enq (d : Dst) (a b : Src)
  | regroup (k : Dst) (site : Nat) (n8 : Nat)
  -- events of a group and of its core (g names a group slot)
  | clauseFetch (g : Nat)
  | waitMaskSatisfied (g : Nat)
  | storeQueueDrain (g : Nat)
  | loadDataReturn (g : Nat)
  | tagWaitSatisfied (g : Nat)
  | tagTimeout (g : Nat)
  | issueStallEnd (g : Nat)
  | tileBind (g : Nat)
  -- events of engines (c names a command)
  -- (a residue mismatch in the first or only array, and in the second)
  | matrixStep (c : Nat) (mismatch : Bool × Bool)
  | mstPerform (c : Nat)
  | mzeroPerform (c : Nat)
  | engineOff (region eng : Nat)
  | copyUnit (c : Nat)
  | turn (c : Nat)
  -- events of graphics and traversal units
  | primitiveRasterise (pass : Nat)
  | fragmentInsert (i : Nat)
  | tileAccept (h : Nat)
  | frameEncode (fn : Nat) (stream : Nat) (frame : Nat)
  | traversalResult (r : Nat)
  | regroupTimeout (core launch site : Nat)
  -- events of the front end and of pre-emption
  | queueFetch (fn q : Nat)
  | queueTorn (fn q : Nat)
  | launchRelease (pkt : Nat)
  | teamPlace (fn : Nat)
  | groupStop (g : Nat)
  | bobbinSave (g : Nat)
  | teamResume (team : Nat)
  | launchComplete (l : Nat)
  | watchdog (g : Nat)
  | hang (slice unit : Nat)
  | functionLevelReset (fn : Nat)
  -- (a function, and the slice whose walker walks)
  | pageWalk (walker : Nat × Nat) (va : Nat)
  -- events of memory, links, clocks and power
  | patrolRead (sec : Nat) (found : Check)
  | channelStep (ch : Nat)
  | channelRetrainDone (ch : Nat)
  | thermal (die : Nat)
  | clockStepUp (die : Nat)
  | thermalTrip (die : Nat)
  | powerUp
  | powerRemoval
  | linkDown (link : Nat)
  | linkRetry (hop : Hop) (fails : Nat)
  -- (a function, and whether the message comes over the fabric)
  | ptpEventMessage (source : Nat × Bool) (ns : DWord)
  -- events of the host
  | hostBarAccess (fn va : Nat) (acc : BarAccess)
  | registerWrite (fn off : Nat) (bytes : List Byte)
  -- Aqmal requests (fn is the function whose mailbox posted it)
  | fuse (fn : Nat)
  | split (fn : Nat)
  | move (fn : Nat)
  | ways (fn : Nat)
  | keys (fn : Nat)
  | leaseLender (fn : Nat)
  | leaseBorrower (fn : Nat)
  | reclaim (fn : Nat)
  | leaseReturn (fn : Nat)
  | leaseNoticeExpiry (lease : Nat)
  | leaseQuota (lease : Nat)
  | window (fn : Nat)
  | admitEntry (fn : Nat)
  | root (fn : Nat)
  | invalRange (fn : Nat)
  | invalSpace (fn : Nat)
  | keyload (fn : Nat)
  | keyErase (fn : Nat)
  | queueCreate (fn : Nat)
  | queueOpen (fn : Nat)
  | queueClose (fn : Nat)
  | queueRestart (fn : Nat)
  | objectCreate (fn : Nat)
  | objectDestroy (fn : Nat)
  | objectRead (fn : Nat)
  | ageing (fn : Nat)
  | pool (fn : Nat)
  | replsetRegister (fn : Nat)
  | replsetRelease (fn : Nat)
  | meter (fn : Nat)
  | capture (fn : Nat)
  | restore (fn : Nat)
  | ratomic (fn : Nat)
  | attest (fn : Nat)
  | cert (fn : Nat)
  -- events of the fabric and of other packages
  | remoteCopyWrite (srcPkg srcFn fn va : Nat) (bytes : List Byte)
  | cpyrAckTimeout (c : Nat)
  | remoteAtomicMessage (srcPkg fn va op size : Nat) (x cmp : DWord)
  -- (source: a package and its function)
  | startBarrierArrival (fn gen : Nat) (source : Nat × Nat)
  | replicaTimeout (fn gen pkg : Nat)
  | coreDrain (g : Nat)
  | remoteAcknowledgement (c : Nat) (res : AckResult)
  | hostWrite (off : Nat) (bytes : List Byte)
  deriving DecidableEq, Repr, Inhabited

end Sys2Proof
end

