-- ==== Sys2Proof/Machine/State.lean ====
section
/-!
DEFINITION. Machine/State.lean: everything the spec gives the machine, as plain data, and the machine after reset.
Physical numbering: slice 0 to 15 (8 x die + slice), region = 3 x slice + r (0 to 47), core = 8 x region + c (0 to 383).
-/
namespace Sys2Proof.Machine

/-- A format slot (R43). kind: 0 unbound, 1 BFPm, 2 E4M3, 3 E5M2, 4 bfloat16, 5 binary16; round 0 to 4. -/
structure Slot where
  kind : Nat := 0
  m : Nat := 0
  block : Nat := 0
  round : Nat := 0
  sat : Bool := false
  /-- the eight bytes as read at release (R45) -/
  raw : Nat := 0
  deriving DecidableEq, Repr, Inhabited

/-- A kernel record as checked at release (R41); regs is the register count, width the number of lanes. -/
structure Kernel where
  entry : Nat := 0
  handler : Nat := 0
  regs : Nat := 120
  width : Nat := 16
  team : Nat := 1
  regroup : Bool := false
  ftz : Bool := false
  travtrap : Bool := false
  fptrap : BitVec 5 := 0
  divblocks : Nat := 0
  scratch : Nat := 0
  region : Nat := 0
  priv : Nat := 0
  trav : Nat := 0
  deriving DecidableEq, Repr, Inhabited

/-- A launch record as read at release (R42). -/
structure LaunchRec where
  kernel : Nat := 0
  args : Nat := 0
  teams : Nat := 1
  fresh : Bool := false
  slots : List Slot := []
  skey : DWord := 0
  deriving DecidableEq, Repr, Inhabited

/-- What a group takes from its launch. `areaIx` says that the group's areas are those of index 0 (fragment groups, R442). -/
structure Ctx where
  fn : Nat := 0
  launch : Nat := 0
  lrecVA : Nat := 0
  kernel : Kernel := {}
  lrec : LaunchRec := {}
  pbase : Nat := 0
  areas : Nat := 1
  deadline : Nat := 0
  repl : Bool := false
  gen : Nat := 0
  frag : Bool := false
  pass : Nat := 0
  tree : Nat := 0
  deriving DecidableEq, Repr, Inhabited

/-- Where a group stands. none: the slot holds no group; window: stalled in a re-pack window; stopped: at a stopping point (R328);
saved: in its bobbin; placed: given a core again and not yet restored. -/
inductive Phase where
  | none | fetch | waitMask | issue | window | stopped | saved | placed
  deriving DecidableEq, Repr, Inhabited

/-- What a waiting instruction that has already arrived waits for (R302, R306, R307, R305). -/
inductive Waiting where
  | no
  | barTeam (id phase : Nat)
  | dbar (obj phase : Nat)
  | sbar (gen : Nat)
  | semaphore (obj : Nat) (d : Dst) (words : Nat)
  /-- held by the range-overlap scoreboard behind commands and copies of the group, by number; slots: the owed slots of those of them
  that have failed meanwhile (R156, R409) -/
  | held (ops slots : List Nat)
  /-- in a fence or an access with ord sc that waits for earlier loads or writes (R182, R223), or in an atomic between two of its lanes (R217): it completes before a stop
  (R225) -/
  | fence
  deriving DecidableEq, Repr, Inhabited

/-- A reconvergence entry (R278): deferred is kind 1. -/
structure RcEntry where
  mask : BitVec 64
  target : Nat
  deferred : Bool
  deriving DecidableEq, Repr, Inhabited

/-- A filled owed slot (R409). seq orders operations by issue. -/
structure Owed where
  code : Nat
  unit : Nat
  pos : Nat
  off : Nat
  addr : Nat
  lanes : BitVec 64
  done : Nat
  detail : Nat
  more : Nat
  remote : Bool
  seq : Nat
  /-- of an MMAP, whose failure discards later commands on m(K + 8) too (R153) -/
  pair : Bool := false
  deriving DecidableEq, Repr, Inhabited

/-- A lane's part of a store in the store queue (R168): for space g the SPA and key of its translation; all is set once
a BAR.GRP lets every lane of the group read it (R300). -/
structure StEntry where
  lane : Nat
  sp : Space
  addr : Nat
  va : Nat
  key : Nat
  df : Bool
  data : List Byte
  all : Bool
  /-- the last unit of a store of 32 bytes, which writes its sector whole (R206, R400) -/
  whole : Bool := false
  deriving DecidableEq, Repr, Inhabited

/-- A load that has been performed and whose registers are not yet written (R204): register keys and values, and the
register numbers the scoreboard holds. -/
structure Load where
  writes : List (Nat × Word)
  holds : List Nat
  deriving DecidableEq, Repr, Inhabited

/-- A held accumulator tile (R133, R134): elements by 128 x row + column, and poisoned elements. -/
structure Tile where
  m : Nat
  elems : SMap Word
  poison : SMap Bool
  deriving DecidableEq, Repr, Inhabited

/-- A thread's traversal stack (R344): on-chip entries top first, blocks spilled, base index. -/
structure TStack where
  entries : List DWord := []
  blocks : Nat := 0
  base : Option Nat := none
  deriving DecidableEq, Repr, Inhabited

/-- A fragment thread's state (R249): pixel and sequence number. -/
structure Frag where
  x : Nat := 0
  y : Nat := 0
  seq : Nat := 0
  deriving DecidableEq, Repr, Inhabited

/-- A wave slot's group. -/
structure Group where
  id : Nat := 0
  ctx : Ctx := {}
  core : Nat := 0
  team : Nat := 0
  grpix : Nat := 0
  teamix : Nat := 0
  ginteam : Nat := 0
  phase : Phase := .none
  hollow : Bool := false
  -- position (R27) and the fetched clause, header first
  pos : Nat := 0
  off : Nat := 0
  clause : List Word := []
  -- lanes (R273)
  active : BitVec 64 := 0
  exited : BitVec 64 := 0
  vacant : BitVec 64 := 0
  -- reconvergence stack (R277), on-chip entries top first, and the held join (R296) with the word after its clause
  rc : List RcEntry := []
  rcblocks : Nat := 0
  joinAt : Nat := 0
  joinNext : Nat := 0
  -- registers: key 64 x register + lane
  regs : SMap Word := []
  regPoison : SMap Bool := []
  flags : BitVec 5 := 0
  srseq : BitVec 32 := 0
  -- origin tags by lane (R275)
  origGrp : List Nat := []
  origLane : List Nat := []
  frags : List (Nat × Frag) := []
  -- progress (R209, R211), handler (R412)
  p : Nat := 0
  m : BitVec 64 := 0
  hnd : Bool := false
  trec : Nat := 0
  /-- the return position of the trap whose handler runs: P and M belong to the instruction there (R209, R210) -/
  trpos : Nat × Nat := (0, 0)
  /-- operations with a number from here on were issued inside the current clause, which its header does not wait for (R25); trsince: the
  same of the clause that the handler returns to -/
  since : Nat := 0
  trsince : Nat := 0
  /-- after a return into a clause, operations with a number from here on were issued by the handler, in earlier clauses (R25); trtill: the same
  bound for the clause that the handler returns to -/
  till : Option Nat := none
  trtill : Nat := 0
  /-- owed slots that the held access at trpos still serves (R409) -/
  trheld : List Nat := []
  /-- the barrier wait at trpos, whose arrival stands while the handler runs (R311) -/
  trwait : Waiting := .no
  owed : List (Nat × Owed) := []
  -- memory in flight
  stq : List StEntry := []
  loads : List Load := []
  /-- The model's own: what lanes have read, before the others, for the load at the group's position or for loads after it: its offset, the lane and the bytes (R185, R205) -/
  early : List (Nat × Nat × List Byte) := []
  tiles : List Tile := []
  tstacks : List (Nat × TStack) := []
  -- arrivals (R302, R306, R307, R311)
  arv : BitVec 16 := 0
  phases : List Nat := []
  darv : Option (Nat × Nat) := none
  sarv : Option Nat := none
  waiting : Waiting := .no
  stalled : Bool := false
  -- counts: cycles a tag wait has lasted while resident, cycles without progress (R212, R417)
  tagWait : Option Nat := none
  idle : Nat := 0
  preempt : Bool := false
  drainReq : Bool := false
  bobbin : Option Nat := none
  deriving DecidableEq, Repr, Inhabited

/-- On-chip SRAM with a full/empty tag for each 32-bit word and poison for each word (R165, R166, R400). -/
structure Sram where
  bytes : SMap Byte := []
  full : SMap Bool := []
  poison : SMap Bool := []
  deriving DecidableEq, Repr, Inhabited

/-- A team barrier (R302): completed phases and the slots arrived in the current one. -/
structure Bar where
  phase : Nat := 0
  arrived : BitVec 16 := 0
  deriving DecidableEq, Repr, Inhabited

/-- A placed or saved team (R272): region memory, the scratchpad reservations by core, barriers, ended slots. -/
structure Team where
  id : Nat := 0
  launch : Nat := 0
  teamix : Nat := 0
  region : Nat := 0
  resident : Bool := true
  evicting : Bool := false
  size : Nat := 1
  rg : Sram := {}
  scratch : List (Nat × Sram) := []
  bars : List Bar := []
  ended : BitVec 16 := 0
  hollow : BitVec 16 := 0
  deriving DecidableEq, Repr, Inhabited

/-- A launch packet's 64 bytes and what the front end knows of it (R315, R318). -/
structure Packet where
  id : Nat
  fn : Nat
  queue : Option Nat
  ix : Nat
  va : Nat
  bytes : List Byte
  tree : Nat
  order : Nat
  /-- posted by `ENQ` (R198) -/
  posted : Bool := false
  deriving DecidableEq, Repr, Inhabited

/-- A released launch that has not completed (R318, R324). seq is its release sequence number and context id. -/
structure Launch where
  id : Nat := 0
  fn : Nat := 0
  kind : Nat := 0
  packet : List Byte := []
  queue : Option Nat := none
  order : Nat := 0
  seq : Nat := 0
  released : Nat := 0
  deadline : Nat := 0
  cls : Nat := 0
  ctx : Ctx := {}
  nextTeam : Nat := 0
  tree : Nat := 0
  status : Nat := 0
  node : Nat := 0
  code : Nat := 0
  trap : Nat := 0
  /-- the detail of the trap that ended it: of WATCHDOG, 1 a group and 2 a unit (R408, R417, R418) -/
  detail : Nat := 0
  offset : Nat := 0
  krec : Bool := false
  nrec : Bool := false
  stopped : Bool := false
  pass : Option Nat := none
  /-- the cores on which its groups have stood, whose L1s its completion cleans (R196) -/
  used : List Nat := []
  deriving DecidableEq, Repr, Inhabited

/-- A spawn tree (R309): its counter and the status word TREE is written into. One whose counter is 0 is complete, and waits for the engine's report (R325). -/
structure Tree where
  id : Nat
  fn : Nat
  count : Nat
  status : Nat
  deriving DecidableEq, Repr, Inhabited

/-- The operations an engine queue holds. -/
inductive CmdKind where
  | mma | mmap | mconv | mzero | mst
  deriving DecidableEq, Repr, Inhabited

/-- A matrix command as read at issue (R145, R157, R332). array: 0, 1 the home arrays, 2 the lent one. -/
structure Cmd where
  id : Nat
  group : Nat
  launch : Nat
  region : Nat
  kind : CmdKind
  /-- the instruction word (R332) -/
  word : Word
  tile : Nat
  ctl : Word
  a : DWord
  b : DWord
  shape : List Byte
  /-- steps performed: of a command, or of the half of an MMAP on mK -/
  steps : Nat
  /-- steps performed of the half on m(K + 8) (R146) -/
  steps2 : Nat := 0
  started : Bool
  /-- mismatches of the current step: of the first half, and of the half on m(K + 8) (R146, R154) -/
  attempts : Nat
  attempts2 : Nat := 0
  array : Nat
  /-- an MMAP whose halves have run one after the other (R155) -/
  serial : Bool
  pos : Nat
  off : Nat
  /-- orders the queues by arrival; a resumed command arrives again (R156, R173) -/
  arrived : Nat := 0
  deriving DecidableEq, Repr, Inhabited

inductive CopyKind where
  | cpy | cpyn | cpyr | publish
  deriving DecidableEq, Repr, Inhabited

/-- A copy command (R227 to R241). eng is 2 x physical slice + engine; done counts bytes performed; sent is the time of the
CPYR unit that awaits its acknowledgement. -/
structure Copy where
  id : Nat
  fn : Nat
  kind : CopyKind
  group : Option Nat
  launch : Nat
  core : Nat
  team : Option Nat
  entry : Nat
  rcd : List Byte
  desc : DWord
  slot : Slot
  compact : Bool
  skey : DWord
  eng : Nat
  done : Nat
  started : Bool
  awaiting : Bool
  sent : Nat
  pos : Nat
  off : Nat
  deriving DecidableEq, Repr, Inhabited

/-- An entry of a copy status ring (R227, R235): generation, state 0 to 3, trap code. -/
structure CopyStatus where
  gen : Nat := 0
  state : Nat := 2
  code : Nat := 0
  deriving DecidableEq, Repr, Inhabited

/-- A tester request of one thread (R337 to R343). -/
structure TrvReq where
  id : Nat
  group : Nat
  launch : Nat
  region : Nat
  tri : Bool
  lane : Nat
  d : Dst
  ray : List Word
  addr : Nat
  /-- the request of the instruction's lowest lane -/
  first : Nat
  pos : Nat
  off : Nat
  /-- the record as the L2 held it when the request was issued (R338) -/
  bytes : List Byte := []
  /-- the code and the cause of a read that failed (R339) -/
  fault : Option (Nat × Nat) := none
  deriving DecidableEq, Repr, Inhabited

/-- A primitive in a pass's buffer (R244): the submitting group and its record. -/
structure Prim where
  grpix : Nat
  seq : Nat
  /-- its 128 bytes of the primitive buffer (R242) -/
  place : Nat
  rcd : List Byte
  deriving DecidableEq, Repr, Inhabited

/-- A fragment not yet packed into a group, or packed and waiting for placement (R248). -/
structure FragRec where
  x : Nat
  y : Nat
  seq : Nat
  cover : Nat
  face : Bool
  depth : Word
  attrs : List Word
  deriving DecidableEq, Repr, Inhabited

/-- A pass (R242, R244, R248). -/
structure Pass where
  id : Nat
  fn : Nat
  launch : Nat
  va : Nat
  rcd : List Byte
  slice : Nat
  ctx : Ctx
  prims : List Prim
  nextSeq : Nat
  opened : List FragRec
  ready : List (Nat × List FragRec)
  nextGroup : Nat
  /-- pixels with, for each, the sequence numbers whose fragments have not exited (R257) -/
  live : List (Nat × Nat)
  deriving DecidableEq, Repr, Inhabited

/-- An insert queued or parked at a stage (R256, R261). -/
structure Insert where
  id : Nat
  group : Nat
  launch : Nat
  fn : Nat
  pass : Nat
  lane : Nat
  seq : Nat
  fins : Nat
  px : Nat
  py : Nat
  node : List Word
  targetVA : Nat
  target : List Byte
  parked : Bool
  /-- the trap code it failed with, 0 when it has not failed -/
  code : Nat
  cause : Nat
  /-- what the trap record of its failure names as its address (R261, R375) -/
  at_ : Nat := 0
  pos : Nat
  off : Nat
  deriving DecidableEq, Repr, Inhabited

/-- A tile hand-off not yet accepted (R270). -/
structure HandOff where
  id : Nat
  group : Nat
  launch : Nat
  fn : Nat
  deadline : Nat
  tile : List Byte
  stream : List Byte
  pos : Nat
  off : Nat
  deriving DecidableEq, Repr, Inhabited

/-- A frame with accepted tiles, until its done is written (R271). -/
structure Frame where
  fn : Nat
  stream : Nat
  frame : Nat
  tiles : List (Nat × List Byte)
  /-- the stream record at the last hand-off -/
  rcd : List Byte
  deadline : Nat
  error : Bool
  /-- the launches that handed its tiles off -/
  launches : List Nat
  /-- once it is being encoded, the part of its bitstream that is not in the ring yet; and the bytes of the whole -/
  rest : Option (List Byte) := none
  total : Nat := 0
  deriving DecidableEq, Repr, Inhabited

/-- An open re-pack window (R283). -/
structure Window where
  core : Nat
  launch : Nat
  site : Nat
  opened : Nat
  arrivals : List Nat
  deriving DecidableEq, Repr, Inhabited

/-- An object of the synchronisation engine (R304 to R306). value: a semaphore's value, or a barrier's phase count;
count: participants; arrived: arrivals in this phase; waiters: group and count, oldest first. -/
structure Obj where
  fn : Nat
  num : Nat
  barrier : Bool
  value : Nat
  count : Nat
  arrived : Nat
  waiters : List (Nat × Nat)
  corrupt : Bool
  deriving DecidableEq, Repr, Inhabited

/-- A registered replica set and its start barrier (R307, R326, R390). members: package and function. -/
structure RepSet where
  fn : Nat
  gen : Nat
  members : List (Nat × Nat)
  /-- replicas, by package and function, whose share has arrived in full or that count as ended -/
  arrived : List (Nat × Nat)
  /-- local groups that have arrived or ended -/
  local_ : Nat
  completed : Bool
  /-- replicas on which the launch has completed -/
  done : List (Nat × Nat)
  /-- when the set was registered -/
  since : Nat := 0
  deriving DecidableEq, Repr, Inhabited

/-- A queue descriptor (R312), whether it is open, and what the fetcher found at rd (R313). -/
structure Queue where
  ring : Nat := 0
  lg : Nat := 0
  dev : Bool := false
  stop : Bool := false
  rd : Nat := 0
  wix : Nat := 0
  rix : Nat := 0
  opened : Bool := false
  /-- the cycles that have passed since the first read of the slot at rd, which was torn, on the clock of the front end that serves the function -/
  tornAt : Option Nat := none
  /-- the detail of the `QUEUE_TORN` last reported, 0 for none -/
  torn : Nat := 0
  /-- indices that `ENQ` wrote, with the spawn tree each launch joins (R309) -/
  posts : List (Nat × Nat) := []
  deriving DecidableEq, Repr, Inhabited

/-- A cached translation (R373): virtual page base and size, and the leaf entry. -/
structure Tlb where
  fn : Nat
  base : Nat
  size : Nat
  leaf : Nat
  deriving DecidableEq, Repr, Inhabited

/-- What the package holds for one function (R349, R368, R383, R394). -/
structure Fn where
  /-- the slice indirection table: physical slices in logical order -/
  slices : List Nat := []
  root : Nat := 0
  /-- sixteen windows: base SPA and length, length 0 for none -/
  windows : List (Nat × Nat) := []
  keyBlocks : BitVec 128 := 0
  queues : SMap Queue := []
  /-- the queue that the fetcher served last (R313) -/
  served : Nat := 255
  ageing : Nat := 50000000
  pool : Nat × Nat := (0, 0)
  admission : SMap (Nat × Nat × Bool) := []
  /-- BAR 0: the mailbox and the error ring, by offset -/
  bar0 : SMap Byte := []
  /-- L2 ways, 32 x die + way -/
  cacheWays : List Nat := []
  spadWays : List Nat := []
  chip : SMap Byte := []
  chipPoison : SMap Bool := []
  ring : SMap CopyStatus := []
  nextCopy : Nat := 0
  /-- the number that the last release took (R318) -/
  releaseSeq : Nat := 0
  /-- bobbins in the pool: start, length -/
  bobbins : List (Nat × Nat) := []
  quiesced : Bool := false
  /-- a CAPTURE has left it quiesced, until a function-level reset or a RESTORE (R423) -/
  captured : Bool := false
  /-- physical slices that have left placement (R356, R357) -/
  leaving : List Nat := []
  /-- of the error-ring records, by place: the millisecond of detection and the unit's index, by which records merge (R403) -/
  errAt : SMap (Nat × Nat) := []
  deriving DecidableEq, Repr, Inhabited

/-- A slice's time base (R9, R16): nanoseconds, whether discipline has set it, the slew in parts per million, millionths of a nanosecond (R391). -/
structure TimeBase where
  value : Nat := 0
  set : Bool := false
  rate : Int := 0
  frac : Nat := 0
  deriving DecidableEq, Repr, Inhabited

/-- A granted or offered lease (R362): the record, the lender, the end of its notice. -/
structure Lease where
  id : Nat
  lender : Nat
  rcd : List Byte
  granted : Bool
  noticeEnd : Nat
  /-- the host region and the lent array, by physical number -/
  host : Nat
  key : Nat
  deriving DecidableEq, Repr, Inhabited

/-- An L1 sector of a core (R168): data, dirty bytes, whether the clean bytes are valid; the key of its page and
whether it is a host sector. -/
structure L1Sec where
  core : Nat
  sec : Nat
  data : List Byte
  dirty : List Bool
  valid : Bool
  key : Nat
  /-- the sector's poison bit (R400) -/
  poison : Bool := false
  /-- bytes that a store has written since the sector became poisoned: the poison does not cover them (R206) -/
  fresh : List Bool := []
  deriving DecidableEq, Repr, Inhabited

/-- A matrix array (R155, R405). -/
structure Arr where
  out : Bool := false
  /-- cycles at which corrected mismatches were found -/
  residues : List Nat := []
  lease : Option Nat := none
  deriving DecidableEq, Repr, Inhabited

/-- A GDDR7 channel (R404). -/
structure Chan where
  rate : Nat := 40
  errors : Nat := 0
  window : Nat := 0
  /-- a window's count has passed 4,096, and the channel has not stepped for it yet -/
  due : Bool := false
  training : Bool := false
  deriving DecidableEq, Repr, Inhabited

/-- A die's clock (R406): units of 100 MHz, cycles run, the last change. -/
structure Die where
  clock : Nat := 20
  cycles : Nat := 0
  changed : Nat := 0
  deriving DecidableEq, Repr, Inhabited

/-- Where the package stands between power-up and running Aqmal (R393). -/
inductive Boot where
  | rom | running | failed (code : Nat) | off
  deriving DecidableEq, Repr, Inhabited

/-- A message the fabric carries out of the package (R387, R388, R390): a CPYR unit with its source function, a RATOMIC, an arrival, a
completion. -/
inductive FabricMsg where
  | write (copy srcFn pkg fn va : Nat) (bytes : List Byte)
  | atomic (pkg fn va op size : Nat) (x cmp : DWord)
  | reply (pkg : Nat) (res : AckResult)
  | arrival (pkg fn srcFn gen : Nat)
  | complete (pkg fn gen : Nat)
  deriving DecidableEq, Repr, Inhabited

/-- A captured partition (R423): what RESTORE loads, under the digest of its image. -/
structure Snapshot where
  digest : List Byte
  teams : List Team
  groups : List Group
  launches : List Launch
  packets : List Packet
  trees : List Tree
  objs : List Obj
  cmds : List Cmd
  queues : SMap Queue
  openQueues : List Nat
  root : Nat
  releaseSeq : Nat
  chip : SMap Byte
  chipPoison : SMap Bool
  keyBlocks : BitVec 128
  edges : List (Nat × Nat × Nat × Nat)
  /-- a bound above every number in it -/
  top : Nat
  deriving DecidableEq, Repr, Inhabited

/-- What an error record says (R403). -/
structure ErrRec where
  cause : Nat
  cls : Nat
  unit : Nat
  slice : Option Nat
  where_ : Nat
  count : Nat := 1
  detail : Nat := 0
  /-- the unit's index in its slice or in the package, by which records merge -/
  ix : Nat := 0
  deriving DecidableEq, Repr, Inhabited

/-- An event in Aqmal's queues (R392). -/
inductive AqEvent where
  /-- a function has posted a request (R394) -/
  | request (fn : Nat)
  /-- a queue of a function has stopped (R313) -/
  | stop (fn queue : Nat)
  /-- an error record of a function, with its time base and the millisecond since power-up at detection (R402, R403) -/
  | record (fn : Nat) (e : ErrRec) (time ms : Nat)
  /-- the notice of a lease is over; a quota of it is reached (R365, R366) -/
  | notice (lease : Nat)
  | quota (lease : Nat)
  /-- a function-level reset is asked for (R422) -/
  | reset (fn : Nat)
  /-- a unit of a slice has made no progress, or its control state has an error (R418, R419) -/
  | hang (slice unit : Nat)
  | control (slice unit idx : Nat)
  deriving DecidableEq, Repr, Inhabited

/-- Whose read the selvedge drops (R353): a group's, for a register (key 64 x register + lane), of its instruction fetch, or of the atomic or the list operation that it
stands at; that of a copy, a tester request, a matrix command, an insert or a tile hand-off, by number. -/
inductive StrayRead where
  | reg (g key : Nat)
  | fetch (g : Nat)
  | access (g : Nat)
  | copy (id : Nat)
  | tester (id : Nat)
  | command (id : Nat)
  | insert (id : Nat)
  | tile (id : Nat)
  deriving DecidableEq, Repr, Inhabited

/-- A turn: what moves next (log entry 2). -/
inductive Turn where
  /-- an event of the table, with what it acts on -/
  | event (e : Instr)
  /-- the group that issues becomes this one -/
  | issue (g : Nat)
  /-- a group makes its next move: it fetches, passes its wait mask, or issues -/
  | run (g : Nat)
  /-- another package answers (R390) -/
  | answer (pkg : Nat)
  /-- the bobbin write of a group meets an uncorrectable error (R334) -/
  | badSave (g : Nat)
  /-- time passes, in units of 10 ns: a die's clock in units of 100 MHz then makes that many cycles -/
  | tick (n : Nat)
  /-- a core evicts a sector of its L1 (R168) -/
  | evict (core sec : Nat)
  /-- an uncorrectable error is found in a sector, a register, a scratchpad word or a tile element (R400); of a sector, the unit that finds it, or whose
  two paths mismatch twice in the result it delivers there, with its slice and its index in it (R398); maker: that unit, of a word on chip -/
  | poisonSector (sec unit slice idx : Nat)
  | poisonL1 (core sec : Nat)
  | poisonChip (fn sec : Nat) (maker : Option (Nat × Nat × Nat))
  | poisonReg (g key : Nat)
  | poisonWord (team : Nat) (core : Option Nat) (word : Nat) (maker : Option (Nat × Nat × Nat))
  | poisonTile (g tile elem : Nat)
  /-- an uncorrectable error is found in a synchronisation-engine object, or in a waiter's entry of its queue alone (R401) -/
  | corruptObj (fn num : Nat)
  | corruptWaiter (fn num g : Nat)
  /-- an uncorrectable error is found in the queue entry, the state or the staging buffer of a copy (R401) -/
  | corruptCopy (id : Nat)
  /-- an uncorrectable error is found in control state of a unit of a slice (R401, R419) -/
  | controlError (slice unit idx : Nat)
  /-- a structure finds and corrects an error (R399): the unit, its index in the slice or, of a unit that slices share, in the package, and the SPA where
  the structure is memory or a cache -/
  | corrected (slice unit idx place : Nat)
  /-- the synchronisation engine corrects an error in its SRAM, where an object stands (R399) -/
  | correctedObj (fn num : Nat)
  /-- a sector that only its reader receives reaches it poisoned, the ninth arrival of the hop having failed too: the reader is an event, or the group's
  next move (R398) -/
  | delivered (hop : Hop) (g : Nat) (e : Option Instr)
  /-- lanes of a load at which a group stands read now, before the other lanes do; with ahead, lanes that have read for that load, for the load that stands so many loads
  after it (R185, R205) -/
  | readLanes (g ahead : Nat) (lanes : BitVec 64)
  /-- the first n lanes left of the atomic at which a group stands perform now, the others after the turns that follow (R217) -/
  | atomicLanes (g n : Nat)
  /-- the synchronisation engine reports a spawn tree that is complete (R325) -/
  | treeReport (tree : Nat)
  /-- Aqmal completes a posted request whose code the host has overwritten with one that no row lists (R394) -/
  | badRequest (fn : Nat)
  /-- a request of a faulty slice for a unit of another; lent: for an array, as the lease has it that it serves. The selvedge of the target slice, or the carve-out's guard,
  drops what may not pass (R352, R353, R393): a write, or a read of one of the slice's units -/
  | stray (slice target : Nat) (carve lent : Bool) (read : Option StrayRead)
  deriving DecidableEq, Repr, Inhabited

/-- The whole package. -/
structure State where
  /-- turns to take, head first; with none the group `g` goes on -/
  agenda : List Turn
  /-- The model's own: clauses fetched since the last fair turn (log entry 2). -/
  quantum : Nat
  /-- the group that issues -/
  g : Group
  /-- every other group, resident or saved -/
  others : List Group
  teams : List Team
  launches : List Launch
  packets : List Packet
  trees : List Tree
  /-- GDDR7 and host memory by SPA (host memory at bit 51), as the L2 holds it -/
  mem : List Host.Cell
  /-- the key value a sector was last written under: data-unit key, tweak key -/
  memKey : SMap (Nat × Nat)
  /-- poisoned sectors, at the L2 or below -/
  poison : SMap Bool
  l1 : List L1Sec
  /-- instruction-cache words: core, SPA of the word, key index of its page (R377), word -/
  icache : List (Nat × Nat × Nat × Word)
  tlb : List Tlb
  keys : SMap (Nat × Nat)
  cmds : List Cmd
  copies : List Copy
  trvs : List TrvReq
  passes : List Pass
  inserts : List Insert
  handoffs : List HandOff
  frames : List Frame
  /-- the highest frame number of a stream that has started encoding: function, stream, number -/
  encoded : List (Nat × Nat × Nat)
  windows : List Window
  objs : List Obj
  repsets : List RepSet
  fns : List Fn
  /-- the time bases, by physical slice (R16) -/
  bases : SMap TimeBase
  /-- the default key range that each physical slice brings, by the slice it is the default range of (R357, R361) -/
  ranges : List Nat
  /-- the events that wait for Aqmal, in the order of their arrival (R392) -/
  mailq : List AqEvent
  /-- units with pending work: 1,024 x slice + unit, since when it stands still, and the work, item by item (R418) -/
  watch : List (Nat × Nat × List (List Nat))
  leases : List Lease
  arrays : SMap Arr
  chans : SMap Chan
  dies : List Die
  /-- the die cycle at which a slice's cycle selector last restarted (R118, R420) -/
  cycleBase : SMap Nat
  /-- regions reserved for a waiting team (R321): region, launch, team index -/
  reserved : List (Nat × Nat × Nat)
  /-- regions carried by completed edges, until their successor's release (R196, R318): function, packet address, base, length -/
  edges : List (Nat × Nat × Nat × Nat)
  boot : Boot
  /-- carve-out range registers of the two dies (R393) -/
  carve : List DWord
  measurement : List Byte
  svn : Nat
  /-- the physical function's boot word -/
  bootWord : DWord
  /-- modules left out of each package link (R381) -/
  linksDown : List Nat
  msix : List (Nat × Nat)
  fabric : List FabricMsg
  /-- when the outstanding RATOMIC was sent (R388) -/
  ratomic : Option Nat
  /-- when another package last answered (R390) -/
  heard : SMap Nat
  /-- what the last host read through BAR 2 completed with; none for poisoned data (R383, R400) -/
  hostData : Option (List Byte)
  images : List Snapshot
  thermalTrip : Bool
  /-- nanoseconds since power-up -/
  now : Nat
  /-- numbers given to launches, teams, groups, commands and requests -/
  nextId : Nat
  deriving DecidableEq, Repr, Inhabited

/-- Why the machine stops with no next state. -/
inductive Fault where
  /-- Raised by PATROL_READ of a sector that the package's 288 GiB do not hold (R15): safe, no such sector is read. -/
  | spaAbsent
  deriving DecidableEq, Repr, Inhabited

/-- Why a step has no meaning. -/
inductive Refusal where
  /-- An instruction of the table that the model gives no meaning to: safe. -/
  | notModelled (mnemonic : String)
  deriving DecidableEq, Repr, Inhabited

/-- The default of a channel, an array and a queue: as at reset. -/
def Chan.fresh : Chan := {}

/-- The package right after power is applied, before the boot ROM has run (R20, R393): nothing placed, nothing loaded,
every time base zero and unset, memory with nothing listed. -/
def State.reset : State where
  agenda := []
  quantum := 0
  g := {}
  others := []
  teams := []
  launches := []
  packets := []
  trees := []
  mem := []
  memKey := []
  poison := []
  l1 := []
  icache := []
  tlb := []
  keys := []
  cmds := []
  copies := []
  trvs := []
  passes := []
  inserts := []
  handoffs := []
  frames := []
  encoded := []
  windows := []
  objs := []
  repsets := []
  fns := List.replicate 17 {}
  bases := []
  ranges := List.range 16
  mailq := []
  watch := []
  leases := []
  arrays := []
  chans := []
  dies := [{}, {}]
  cycleBase := []
  reserved := []
  edges := []
  boot := .rom
  carve := [0, 0]
  measurement := List.replicate 32 0
  svn := 0
  bootWord := 0
  linksDown := [0, 0]
  msix := []
  fabric := []
  ratomic := none
  heard := []
  hostData := some []
  images := []
  thermalTrip := false
  now := 0
  nextId := 1

end Sys2Proof.Machine
end

