-- ==== Sys2Proof/Machine/Memory.lean ====
section
/-!
DEFINITION. Machine/Memory.lean: the storage behind an access: memory under its keys, translation (19), the L1s and
their directory (08 R168, R169), on-chip SRAM, and the group store queues. No operation here advances a group.
-/
namespace Sys2Proof.Machine

/-- The first host SPA (R370). -/
def hostBase : Nat := 2251799813685248
/-- Bytes of GDDR7 (R15): 288 GiB. -/
def gddrBytes : Nat := 309237645312

/-- The canonical form of memory: addresses strictly rising, no entry 0, which an unlisted address reads as (log entry 4). -/
def Memory.wf (m : List Host.Cell) : Bool := smWf 0 m

-- functions and groups

def getFn (s : State) (f : Nat) : Fn := s.fns.getD f {}
def setFn (s : State) (f : Nat) (x : Fn) : State := { s with fns := setAt s.fns f x }
/-- The time base of a function: that of its logical slice 0 (R118). -/
def baseOf (s : State) (f : Nat) : TimeBase := ((getFn s f).slices.head?.map (smGet {} s.bases)).getD {}
def getGroup (s : State) (id : Nat) : Option Group :=
  if s.g.id = id then some s.g else findFirst (fun h => decide (h.id = id)) s.others
def setGroup (s : State) (h : Group) : State :=
  if s.g.id = h.id then { s with g := h } else { s with others := updIf (fun x => decide (x.id = h.id)) (fun _ => h) s.others }
/-- Runs a step on a group as the current one, and puts the former current group back. -/
def withGroup (s : State) (id : Nat) (f : State → State) : State :=
  if s.g.id = id then f s
  else match findFirst (fun h => decide (h.id = id)) s.others with
    | none => s
    | some h =>
      let t := f { s with g := h, others := updIf (fun x => decide (x.id = id)) (fun _ => s.g) s.others }
      match findFirst (fun x => decide (x.id = s.g.id)) t.others with
      | none => t
      | some o => { t with g := o, others := (updIf (fun x => decide (x.id = s.g.id)) (fun _ => t.g) t.others).filter (fun x => decide (x.phase ≠ .none ∨ x.id ≠ t.g.id)) }
def allGroups (s : State) : List Group := s.g :: s.others
def getTeam (s : State) (id : Nat) : Option Team := findFirst (fun t => decide (t.id = id)) s.teams
def updTeam (s : State) (id : Nat) (f : Team → Team) : State := { s with teams := updIf (fun t => decide (t.id = id)) f s.teams }
def getLaunch (s : State) (id : Nat) : Option Launch := findFirst (fun l => decide (l.id = id)) s.launches
def updLaunch (s : State) (id : Nat) (f : Launch → Launch) : State := { s with launches := updIf (fun l => decide (l.id = id)) f s.launches }

-- memory under keys (R377)

def keyVal (s : State) (key : Nat) : Nat × Nat := smGet (0, 0) s.keys key
def secKey (s : State) (sec : Nat) : Nat × Nat := smGet (0, 0) s.memKey sec

/-- The 32 bytes of a sector as a given key value reads them: what was written under another key comes back through
the cipher of one and the inverse of the other (R377). Host memory is not encrypted (R370). -/
def sectorUnder (s : State) (kv : Nat × Nat) (sec : Nat) : List Byte :=
  let raw := smGetMany 0 s.mem (32 * sec) 32
  if hostBase ≤ 32 * sec ∨ secKey s sec = kv then raw else xtsSector false kv sec (xtsSector true (secKey s sec) sec raw)

/-- One byte of memory under a key index. -/
def memByte (s : State) (key a : Nat) : Byte :=
  if hostBase ≤ a ∨ secKey s (a / 32) = keyVal s key then smGet 0 s.mem a else (sectorUnder s (keyVal s key) (a / 32)).getD (a % 32) 0
def memRead (s : State) (key a n : Nat) : List Byte := (List.range n).map (fun i => memByte s key (a + i))

/-- Puts a sector under a key value, its plaintext kept under that key. -/
def rekey (s : State) (kv : Nat × Nat) (sec : Nat) : State :=
  if hostBase ≤ 32 * sec ∨ secKey s sec = kv then s
  else { s with mem := smSetMany 0 s.mem (32 * sec) (sectorUnder s kv sec), memKey := smSet (0, 0) s.memKey sec kv }
/-- Rekeys the sectors [sec, sec + n). -/
def rekeyMany (s : State) (kv : Nat × Nat) (sec : Nat) : Nat → State
  | 0 => s
  | n + 1 => rekeyMany (rekey s kv sec) kv (sec + 1) n

/-- Clears the poison of the sectors that [a, a + n) covers whole (R400). -/
def unpoison (p : SMap Bool) (a n : Nat) : SMap Bool :=
  (List.range ((a + n) / 32 - ceilDiv a 32)).foldl (fun q i => smSet false q (ceilDiv a 32 + i) false) p

/-- Writes bytes to memory under a key index, at the L2. -/
def memWrite (s : State) (key a : Nat) (bs : List Byte) : State :=
  let t := rekeyMany s (keyVal s key) (a / 32) ((a + bs.length + 31) / 32 - a / 32)
  { t with mem := smSetMany 0 t.mem a bs, poison := unpoison t.poison a bs.length }
/-- Whether a byte range touches a poisoned sector at the L2 or below. -/
def memPoisoned (s : State) (a n : Nat) : Bool :=
  (List.range ((a + n + 31) / 32 - a / 32)).any (fun i => smGet false s.poison (a / 32 + i))

-- translation (R368 to R376)

/-- A failed translation: trap code and cause (R376). -/
structure XErr where
  code : Nat
  cause : Nat
  deriving DecidableEq, Repr
/-- A translated address. -/
structure Phys where
  spa : Nat
  key : Nat
  df : Bool
  leaf : Nat
  deriving DecidableEq, Repr

inductive Perm where
  | r | w | rw | x
  deriving DecidableEq, Repr

def pageFault (c : Nat) : XErr := ⟨4, c⟩
def protection (c : Nat) : XErr := ⟨5, c⟩

/-- Whether a range lies wholly within one window of the function (R374). -/
def inWindow (f : Fn) (a n : Nat) : Bool := f.windows.any (fun w => decide (w.2 ≠ 0 ∧ w.1 ≤ a ∧ a + n ≤ w.1 + w.2))
/-- Whether a key index lies in a block of the function (R361). -/
def hasKey (f : Fn) (k : Nat) : Bool := f.keyBlocks.getLsbD (k / 64)
def entKey (e : Nat) : Nat := bits e 14 2
def entSpa (e : Nat) : Nat := bits e 51 15 * 32768
def pageSize (level : Nat) : Nat := if level = 0 then 32768 else if level = 1 then 134217728 else 549755813888

/-- The checks of a pointer entry (R376): V, reserved bits, window, key. -/
def ptrErr (f : Fn) (e : Nat) : Option XErr :=
  if ¬ bitOf e 0 then some (pageFault 1)
  else if bits e 63 52 ≠ 0 then some (pageFault 2)
  else if ¬ inWindow f (entSpa e) 32768 then some (protection 5)
  else if ¬ hasKey f (entKey e) then some (protection 6)
  else none
/-- The checks of a leaf at a level (R370, R376). -/
def leafErr (f : Fn) (level e : Nat) : Option XErr :=
  if bits e 63 57 ≠ 0 then some (pageFault 2)
  else if entSpa e % (if bitOf e 55 then 65536 else pageSize level) ≠ 0 ∨ (bitOf e 55 ∧ level ≠ 0) then some (pageFault 3)
  else if ¬ inWindow f (entSpa e) (if bitOf e 55 then 65536 else pageSize level) then some (protection 5)
  else if ¬ hasKey f (entKey e) then some (protection 6)
  else none

/-- Reads an entry of a node at the L2 and goes on from it: fuel and level fall together (R372). Answers the leaf, its
level, and the SPA and the key of its entry. -/
def walkFrom (s : State) (f : Fn) (va : Nat) : Nat → Nat → Except XErr (Nat × Nat × Nat × Nat)
  | 0, _ => .error (pageFault 3)
  | n + 1, ptr =>
    let a := entSpa ptr + 8 * (va / 2 ^ (15 + 12 * n) % 4096)
    if memPoisoned s a 8 then .error ⟨6, 7⟩
    else
      let e := leNat (memRead s (entKey ptr) a 8)
      if ¬ bitOf e 0 then .error (pageFault 1)
      else if bitOf e 1 then (match leafErr f n e with | some x => .error x | none => .ok (e, n, a, entKey ptr))
      else if bits e 63 52 ≠ 0 then .error (pageFault 2)
      else if n = 0 then .error (pageFault 3)
      else match ptrErr f e with
        | some x => .error x
        | none => walkFrom s f va n e

/-- A walk of a function's tables (R372, R374). -/
def walk (s : State) (fn va : Nat) : Except XErr (Nat × Nat × Nat × Nat) :=
  let f := getFn s fn
  match ptrErr f (f.root) with
  | some x => .error x
  | none => walkFrom s f va 3 f.root

/-- A cached translation of the function's address (R373). -/
def tlbFind (s : State) (fn va : Nat) : Option Tlb :=
  findFirst (fun t => decide (t.fn = fn ∧ t.base ≤ va ∧ va < t.base + t.size)) s.tlb

def permOk (p : Perm) (leaf : Nat) : Bool :=
  match p with
  | .r => bitOf leaf 52
  | .w => bitOf leaf 53
  | .rw => bitOf leaf 52 && bitOf leaf 53
  | .x => bitOf leaf 54

/-- Translates one address for an access (R371, R376); lining picks the face that copies write (R380). Host memory is under no key (R370). -/
def translate (s : State) (fn va : Nat) (p : Perm) (lining : Bool := false) : Except XErr Phys :=
  if 2251799813685248 ≤ va then .error (pageFault Config.addressCause)
  else
    let r : Except XErr (Nat × Nat × Nat × Nat) := match tlbFind s fn va with
      | some t => .ok (t.leaf, (if t.size = 32768 then 0 else if t.size = 134217728 then 1 else 2), 0, 0)
      | none => walk s fn va
    match r with
    | .error x => .error x
    | .ok (e, lv, _) =>
      if ¬ permOk p e then .error (protection 4)
      else
        let df := bitOf e 55
        let face := if df ∧ (bitOf e 56 ≠ lining) then 32768 else 0
        let spa := entSpa e + face + va % pageSize lv
        .ok { spa := spa, key := if hostBase ≤ spa then 0 else entKey e, df := df, leaf := e }

/-- The first failing address of a range, or the translation of its first byte. Pages are 32 KiB or more, so a range is
checked at its start and at each 32 KiB boundary inside it. -/
def translateRange (s : State) (fn va n : Nat) (p : Perm) (lining : Bool := false) : Except (XErr × Nat) Phys :=
  let starts := va :: (List.range ((va + n - 1) / 32768 - va / 32768)).map (fun i => (va / 32768 + 1 + i) * 32768)
  match findFirst (fun a => match translate s fn a p lining with | .error _ => true | .ok _ => false) starts with
  | some a => (match translate s fn a p lining with | .error x => .error (x, a) | .ok q => .ok q)
  | none => (match translate s fn va p lining with | .error x => .error (x, va) | .ok q => .ok q)

-- the L1s (R168, R169)

def l1Find (s : State) (core sec : Nat) : Option L1Sec := findFirst (fun x => decide (x.core = core ∧ x.sec = sec)) s.l1
def l1Put (l : List L1Sec) (x : L1Sec) : List L1Sec :=
  insBy (fun y => [y.core, y.sec]) x (l.filter (fun y => decide (¬ (y.core = x.core ∧ y.sec = x.sec))))
def l1Del (l : List L1Sec) (core sec : Nat) : List L1Sec := l.filter (fun y => decide (¬ (y.core = core ∧ y.sec = sec)))

/-- Merges an L1 sector's dirty bytes into the L2 (R168); all 32 dirty clear the sector's poison (R206). -/
def mergeDirty (s : State) (x : L1Sec) : State :=
  let t := rekey s (keyVal s x.key) x.sec
  let m := (List.range 32).foldl (fun m i => if x.dirty.getD i false then smSet 0 m (32 * x.sec + i) (x.data.getD i 0) else m) t.mem
  { t with mem := m, poison := if x.dirty.all id && x.dirty.length == 32 then smSet false t.poison x.sec false else t.poison }
/-- An uncorrectable error is found in a sector of an L1: every byte of it is lost until a store writes it (R206, R400). -/
def poisonSec (x : L1Sec) : L1Sec := { x with poison := true, fresh := [] }
/-- A store of n bytes from offset off into a poisoned sector: the poison keeps the other bytes, and goes once all 32 have been written (R206). -/
def freshen (x : L1Sec) (off n : Nat) : L1Sec :=
  let l := (List.range 32).map (fun i => x.fresh.getD i false || decide (off ≤ i ∧ i < off + n))
  if ¬ x.poison then x else if l.all id then { x with poison := false, fresh := [] } else { x with fresh := l }
/-- A poisoned sector goes to the next level as poisoned (R400). -/
def passPoison (s : State) (x : L1Sec) : State := if x.poison then { s with poison := smSet false s.poison x.sec true } else s
def isDirty (x : L1Sec) : Bool := x.dirty.any id
/-- Writes a sector back and keeps it clean when its bytes are valid and not poisoned. -/
def writeBack (s : State) (x : L1Sec) : State :=
  let t := passPoison (if isDirty x then mergeDirty s x else s) x
  if x.valid ∧ ¬ x.poison then { t with l1 := l1Put t.l1 { x with dirty := List.replicate 32 false } } else { t with l1 := l1Del t.l1 x.core x.sec }
/-- Writes a sector back and drops it: an eviction or a call back (R169). -/
def evictSec (s : State) (x : L1Sec) : State :=
  let t := passPoison (if isDirty x then mergeDirty s x else s) x
  { t with l1 := l1Del t.l1 x.core x.sec }
/-- Writes back and keeps every dirty sector a test picks. -/
def cleanL1 (s : State) (p : L1Sec → Bool) : State := (s.l1.filter (fun x => isDirty x && p x)).foldl writeBack s
/-- Drops every clean sector a test picks; a sector with dirty bytes keeps only those. -/
def invalClean (s : State) (p : L1Sec → Bool) : State :=
  { s with l1 := (s.l1.filter (fun x => !(p x) || isDirty x)).map (fun x => if p x then { x with valid := false } else x) }
/-- Writes back and drops every sector a test picks. -/
def flushL1 (s : State) (p : L1Sec → Bool) : State := (s.l1.filter p).foldl evictSec s
/-- Recalls a sector's dirty bytes from every core that a test picks (R169, R220). -/
def callBack (s : State) (sec : Nat) (p : Nat → Bool) : State := flushL1 s (fun x => decide (x.sec = sec) && isDirty x && p x.core)

def isHostSec (sec : Nat) : Bool := decide (hostBase ≤ 32 * sec)

/-- Stores bytes of one sector into a core's L1 and makes the core its owner (R168, R169). -/
def l1StoreSec (s : State) (core key sec off : Nat) (bs : List Byte) : State :=
  let s1 := callBack s sec (fun c => decide (c ≠ core))
  let s2 := match l1Find s1 core sec with
    | some x => if x.key = key then s1 else evictSec s1 x
    | none => s1
  let x := (l1Find s2 core sec).getD { core := core, sec := sec, data := List.replicate 32 0, dirty := List.replicate 32 false, valid := false, key := key }
  let put {α : Type} (l : List α) (f : Nat → α) : List α := (List.range 32).map (fun i => if off ≤ i ∧ i < off + bs.length then f i else l.getD i (f i))
  { s2 with l1 := l1Put s2.l1 (freshen { x with data := put x.data (fun i => bs.getD (i - off) 0), dirty := put x.dirty (fun _ => true) } off bs.length) }

/-- Stores a byte range through a core's L1, sector by sector; fuel bounds the sectors. -/
def l1Store (core key : Nat) : Nat → State → Nat → List Byte → State
  | 0, s, _, _ => s
  | f + 1, s, a, bs =>
    if bs.length = 0 then s
    else
      let n := 32 - a % 32
      l1Store core key f (l1StoreSec s core key (a / 32) (a % 32) (bs.take n)) (a + n) (bs.drop n)

/-- One byte as a core's L1 or the L2 serves it; none when it must come from a poisoned sector (R206, R400). bypass skips a clean copy. -/
def l1Byte (s : State) (core key a : Nat) (bypass : Bool) : Option Byte :=
  let below : Option Byte := if smGet false s.poison (a / 32) then none else some (memByte s key a)
  match l1Find s core (a / 32) with
  | none => below
  | some x =>
    if x.key ≠ key then below
    else if x.dirty.getD (a % 32) false ∨ (x.valid ∧ ¬ bypass) then
      (if x.poison ∧ ¬ x.fresh.getD (a % 32) false then none else some (x.data.getD (a % 32) 0))
    else below

/-- The lines of 128 bytes that a core's L1 holds, in rising order (R168). -/
def l1Lines (l : List L1Sec) (core : Nat) : List Nat :=
  l.foldr (fun x acc => if x.core = core ∧ acc.head? ≠ some (x.sec / 4) then x.sec / 4 :: acc else acc) []
/-- A core's L1 holds more than the 1,024 lines of its 128 KiB (R12): it evicts before the core issues again (log entry 19). -/
def l1Over (s : State) (core : Nat) : Bool := decide (1024 < (l1Lines s.l1 core).length)
/-- Evicts one line of a core's L1; which one is a free value. -/
def l1EvictLine (s : State) (core : Nat) : State :=
  let ls := l1Lines s.l1 core
  let v := ls.getD (Config.l1Victim core s.now % max ls.length 1) 0
  flushL1 s (fun x => decide (x.core = core ∧ x.sec / 4 = v))

/-- A load's sector stands in the core's L1 afterwards, valid (R168); a poisoned sector is not filled. -/
def l1Fill (s : State) (core key sec : Nat) : State :=
  if smGet false s.poison sec then s
  else
    let m := memRead s key (32 * sec) 32
    match l1Find s core sec with
    | none => { s with l1 := l1Put s.l1 { core := core, sec := sec, data := m, dirty := List.replicate 32 false, valid := true, key := key } }
    | some x =>
      if x.key ≠ key ∨ x.valid ∨ x.poison then s
      else { s with l1 := l1Put s.l1 { x with valid := true, data := (List.range 32).map (fun i => if x.dirty.getD i false then x.data.getD i 0 else m.getD i 0) } }

/-- The fill of an acquiring load, which has taken its location from below: the clean copy it bypassed is replaced, so that no later load of the
thread reads an older write (R182, R185). -/
def l1Refill (s : State) (core key sec : Nat) (bypass : Bool) : State :=
  if bypass then l1Fill (invalClean s (fun x => decide (x.core = core ∧ x.sec = sec))) core key sec else l1Fill s core key sec

-- on-chip SRAM (R163 to R167)

def sramRead (m : Sram) (a n : Nat) : List Byte := smGetMany 0 m.bytes a n
def sramPoisoned (m : Sram) (a n : Nat) : Bool := (List.range ((a + n + 3) / 4 - a / 4)).any (fun i => smGet false m.poison (a / 4 + i))
/-- Writes bytes; a word written whole loses its poison (R400). -/
def sramWrite (m : Sram) (a : Nat) (bs : List Byte) : Sram :=
  { m with bytes := smSetMany 0 m.bytes a bs,
           poison := (List.range ((a + bs.length) / 4 - ceilDiv a 4)).foldl (fun q i => smSet false q (ceilDiv a 4 + i) false) m.poison }
def tagFull (m : Sram) (a : Nat) : Bool := smGet false m.full (a / 4)
def setTag (m : Sram) (a : Nat) (b : Bool) : Sram := { m with full := smSet false m.full (a / 4) b }

/-- A team's scratchpad reservation on a core (R163). -/
def teamScratch (t : Team) (core : Nat) : Sram := ((findFirst (fun e => decide (e.1 = core)) t.scratch).map (·.2)).getD {}
def setScratch (t : Team) (core : Nat) (m : Sram) : Team :=
  { t with scratch := insBy (fun e => [e.1]) (core, m) (t.scratch.filter (fun e => decide (e.1 ≠ core))) }

/-- The SRAM that space s or rg names for a group. -/
def sramOf (s : State) (h : Group) (rg : Bool) : Sram :=
  match getTeam s h.team with
  | none => {}
  | some t => if rg then t.rg else teamScratch t h.core
def setSramOf (s : State) (h : Group) (rg : Bool) (m : Sram) : State :=
  updTeam s h.team (fun t => if rg then { t with rg := m } else setScratch t h.core m)

def chipRead (f : Fn) (a n : Nat) : List Byte := smGetMany 0 f.chip a n
def chipPoisoned (f : Fn) (a n : Nat) : Bool := (List.range ((a + n + 31) / 32 - a / 32)).any (fun i => smGet false f.chipPoison (a / 32 + i))
/-- A write of all 32 bytes of a chip scratchpad's sector clears its poison (R400). -/
def chipWrite (s : State) (fn a : Nat) (bs : List Byte) : State :=
  let f := getFn s fn
  setFn s fn { f with chip := smSetMany 0 f.chip a bs, chipPoison := unpoison f.chipPoison a bs.length }
/-- The chip scratchpad's extent (R158, R167). -/
def chipExtent (f : Fn) : Nat := 4194304 * f.spadWays.length

end Sys2Proof.Machine
end

