-- ==== Sys2Proof/Machine/Locks.lean ====
section
/-!
DEFINITION. Machine/Locks.lean: a function's request in its mailbox (21 R394), the slices that it touches, and Aqmal's queues and ordering
locks (21 R392).
-/
namespace Sys2Proof.Machine

def bar0Read (f : Fn) (a n : Nat) : Nat := leNat (smGetMany 0 f.bar0 a n)
def bar0Write (f : Fn) (a n v : Nat) : Fn := { f with bar0 := smSetMany 0 f.bar0 a (natLe n v) }

-- the request

def reqSeq (f : Fn) : Nat := bar0Read f 0 4
def reqDone (f : Fn) : Nat := bar0Read f 4 4
def reqOp (f : Fn) : Nat := bar0Read f 8 2
def reqSub (f : Fn) : Nat := bar0Read f 12 1
/-- n bytes of args, by their offset in the mailbox. -/
def arg (f : Fn) (off n : Nat) : Nat := bar0Read f off n
def argBytes (f : Fn) (off n : Nat) : List Byte := smGetMany 0 f.bar0 off n
/-- How many sub-codes a request lists; 0 for no request. -/
def subCodes (op : Nat) : Nat :=
  if op = 0x06 ∨ op = 0x10 ∨ op = 0x12 ∨ op = 0x13 then 2 else if op = 0x14 ∨ op = 0x16 then 4 else if op = 0x15 then 3
  else if (1 ≤ op ∧ op ≤ 8) ∨ op = 0x11 ∨ (0x17 ≤ op ∧ op ≤ 0x1A) ∨ op = 0x20 ∨ op = 0x21 then 1 else 0
/-- No row of R394 lists the code and sub-code that stand in the mailbox. -/
def unlisted (f : Fn) : Bool := decide (subCodes (reqOp f) ≤ reqSub f)
/-- A request is posted and has not completed. -/
def outstanding (f : Fn) : Bool := decide (reqSeq f = (reqDone f + 1) % 4294967296)

-- the ways and leases that it names

/-- The slice that brings a way of the package: each brings four (R358). -/
def sliceOfWay (w : Nat) : Nat := w / 4
def waysOf (f : Fn) : List Nat := f.cacheWays ++ f.spadWays
/-- The function that holds a way. -/
def fnOfWay (s : State) (w : Nat) : Option Nat := findFirst (fun i => (waysOf (getFn s i)).contains w) (List.range s.fns.length)
def maskWays (die m : Nat) : List Nat := ((List.range 32).filter (bitOf m)).map (fun w => 32 * die + w)
def lsBfn (r : List Byte) : Nat := fieldAt r 2 1
def leaseOf (s : State) (id : Nat) : Option Lease := findFirst (fun l => decide (l.id = id)) s.leases

-- Aqmal's event queues and ordering locks (R392): requests wait there, and reports of queue stops; lease ends and resets wait for the locks

/-- The requests that name a function in byte 16. -/
def namesFunction (op : Nat) : Bool := (decide (1 ≤ op) && decide (op ≤ 5)) || op == 0x10 || op == 0x12 || op == 0x18 || op == 0x19
/-- The slices of the two parties of a lease. -/
def leaseSlices (l : Lease) : List Nat := [l.host / 3, l.key / 6]
/-- The physical slices that a function's request touches: its own partition's, those that its args name, and those of the partitions that lose a
way or share the lease (log entry 55). -/
def touchedSlices (s : State) (fn : Nat) : List Nat :=
  let f := getFn s fn
  let op := reqOp f
  let of (g : Nat) : List Nat := (getFn s g).slices
  f.slices ++ (if namesFunction op then of (arg f 16 1) else []) ++
    (if op = 1 then (List.range (min (arg f 17 1) 16)).map (fun i => arg f (24 + i) 1) else if op = 3 then [arg f 25 1] else if op = 5 then of (arg f 17 1)
     else if op = 4 then ((maskWays (arg f 17 1) (arg f 20 4)).map (fun w => ((fnOfWay s w).map of).getD [])).flatten
     else if op = 6 ∧ reqSub f = 0 then of (arg f 26 1 % 32)
     else if op = 6 ∨ op = 7 ∨ op = 8 then ((leaseOf s (arg f 24 4)).map (fun l => leaseSlices l ++ of l.lender ++ of (lsBfn l.rcd))).getD [] else [])
/-- The die whose queue an event enters: that of its slices, die 0 when it touches both or none. -/
def queueDie (l : List Nat) : Nat := if l ≠ [] ∧ l.all (fun p => decide (8 ≤ p)) then 1 else 0
/-- A request that is under way in several steps holds its locks: SPLIT and MOVE while slices leave, CAPTURE while its function drains. -/
def holdsLocks (s : State) (fn : Nat) : Bool :=
  let f := getFn s fn
  let t := getFn s (arg f 16 1)
  outstanding f && (((reqOp f == 2 || reqOp f == 3) && decide (t.leaving ≠ [])) || (reqOp f == 0x18 && t.quiesced && !t.captured))
/-- The physical slices that an event touches (R392). A record names one, or none where the package's slices share the unit. -/
def eventSlices (s : State) : AqEvent → List Nat
  | .request fn => touchedSlices s fn
  | .stop fn _ => (getFn s fn).slices
  | .record _ e _ _ => e.slice.toList
  | .notice id => ((leaseOf s id).map leaseSlices).getD []
  | .quota id => ((leaseOf s id).map leaseSlices).getD []
  | .reset fn => (getFn s fn).slices
  | .hang p _ => [p]
  | .control p _ _ => [p]
/-- Two events of one queue that share a slice: the later waits for the earlier. -/
def meetsEvent (s : State) (x y : AqEvent) : Bool :=
  let l := eventSlices s y
  (eventSlices s x).any l.contains && decide (queueDie (eventSlices s x) = queueDie l)
/-- A request under way holds a lock of the event's slices; its own it holds itself. -/
def lockedBy (s : State) (e : AqEvent) : Bool :=
  (List.range s.fns.length).any (fun g => decide (e ≠ .request g) && holdsLocks s g && (touchedSlices s g).any (eventSlices s e).contains)
/-- A core takes the event, which stands behind the events given: it shares a slice with none of them that is of its queue, and its locks are free (R392). -/
def takesAfter (s : State) (earlier : List AqEvent) (e : AqEvent) : Bool := !(earlier.any (fun x => meetsEvent s x e)) && !(lockedBy s e)
/-- It is the event's turn: of one that arrives now, behind all that wait. -/
def eventTurn (s : State) (e : AqEvent) : Bool := takesAfter s (s.mailq.takeWhile (fun x => decide (x ≠ e))) e
/-- It is the turn of a function's request. -/
def requestTurn (s : State) (fn : Nat) : Bool := eventTurn s (.request fn)
/-- An event is handled, or joins the queue when it does not stand there. -/
def dropEvent (s : State) (e : AqEvent) : State := { s with mailq := s.mailq.filter (fun x => decide (x ≠ e)) }
def joinQueue (s : State) (e : AqEvent) : State := if s.mailq.contains e then s else { s with mailq := s.mailq ++ [e] }

end Sys2Proof.Machine
end

