-- ==== Sys2Proof/Machine/Errors.lean ====
section
/-!
DEFINITION. Machine/Errors.lean: error records and MSI-X vectors (22 R402, R403; 20 R384), and the events that Aqmal handles by itself (21 R392).
-/
namespace Sys2Proof.Machine

/-- Sends a vector of a function (R384). -/
def raiseVector (s : State) (fn v : Nat) : State := { s with msix := (fn, v) :: s.msix }

/-- Causes that merge within a millisecond (R403). -/
def merges (c : Nat) : Bool := c == 1 || c == 3 || c == 5
def recordAt (i : Nat) : Nat := 32768 + 32 * (i % 1024)
def sliceByte (e : ErrRec) : Nat := match e.slice with
  | some x => x % 16
  | none => 128
/-- The bytes of a record of function fn with sequence number q. -/
def errBytes (e : ErrRec) (fn q time : Nat) : List Byte :=
  natLe 4 q ++ natLe 1 e.cause ++ natLe 1 e.cls ++ natLe 1 e.unit ++
  natLe 1 (sliceByte e) ++ natLe 8 time ++ natLe 8 e.where_ ++ natLe 4 e.count ++
  natLe 2 e.detail ++ natLe 1 fn ++ natLe 1 0
/-- A record still in the ring that the new one merges with: of the same cause, unit, function and millisecond since power-up. -/
def mergeTarget (f : Fn) (e : ErrRec) (fn ms : Nat) : Option Nat :=
  let wr := bar0Read f 4096 4
  if merges e.cause then
    findFirst (fun i => decide (bar0Read f (recordAt i + 4) 1 = e.cause ∧ bar0Read f (recordAt i + 6) 1 = e.unit ∧ bar0Read f (recordAt i + 7) 1 = sliceByte e ∧
      bar0Read f (recordAt i + 30) 1 = fn ∧ smGet (0, 0) f.errAt (i % 1024) = (ms, e.ix)))
      ((List.range (min wr 1024)).map (fun k => wr - 1 - k))
  else none
/-- Writes a record into one function's ring and raises vector 3, or counts it as lost (R402). -/
def ringWrite (s : State) (ring : Nat) (e : ErrRec) (fn time ms : Nat) : State :=
  let f := getFn s ring
  match mergeTarget f e fn ms with
  | some i => setFn s ring (bar0Write f (recordAt i + 24) 4 (bar0Read f (recordAt i + 24) 4 + e.count))
  | none =>
    let wr := bar0Read f 4096 4
    if (wr + 4294967296 - bar0Read f 4100 4) % 4294967296 = 1024 then
      setFn s ring (bar0Write f 4104 4 (min (bar0Read f 4104 4 + 1) 4294967295))
    else
      let f1 := { f with bar0 := smSetMany 0 f.bar0 (recordAt wr) (errBytes e fn wr time), errAt := smSet (0, 0) f.errAt (wr % 1024) (ms, e.ix) }
      raiseVector (setFn s ring (bar0Write f1 4096 4 (wr + 1))) ring 3
/-- A record goes into its function's ring, and a copy into the physical function's (R402). -/
def writeRecord (s : State) (fn : Nat) (e : ErrRec) (time ms : Nat) : State :=
  let t := ringWrite s fn e fn time ms
  if fn = 0 then t else ringWrite t 0 e fn time ms
/-- Aqmal handles, in the order of their arrival, the records and queue stops that wait for nothing: vector 1 tells a driver of a stop (R313, R384, R392).
Every other event has a meaning of its own in the table; kept: the events before, which still wait. -/
def serveFrom : List AqEvent → List AqEvent → State → State
  | kept, [], s => { s with mailq := kept }
  | kept, e :: l, s =>
    if takesAfter s kept e then
      match e with
      | .record fn r time ms => serveFrom kept l (writeRecord s fn r time ms)
      | .stop fn _ => serveFrom kept l (raiseVector s fn 1)
      | other => serveFrom (kept ++ [other]) l s
    else serveFrom (kept ++ [e]) l s
def serveEvents (s : State) : State := serveFrom [] s.mailq s
/-- An event that Aqmal handles as soon as its turn comes. -/
def raiseEvent (s : State) (e : AqEvent) : State := serveEvents { s with mailq := s.mailq ++ [e] }
/-- A record of a function: its time is that of the function at detection, 0 where it is unset (R403). Aqmal writes it, so nothing does where it does not run (R393, R402). -/
def errorRecord (s : State) (fn : Nat) (e : ErrRec) : State :=
  let b := baseOf s fn
  if s.boot ≠ .running then s else raiseEvent s (.record fn e (if b.set then b.value else 0) (s.now / 1000000))
/-- The function whose table lists a physical slice. -/
def fnOfSlice (s : State) (slice : Nat) : Option Nat := findFirst (fun i => (getFn s i).slices.contains slice) (List.range 17)
/-- A record of a unit of a slice: the function that owns the slice then, or the physical function (R402). -/
def sliceRecord (s : State) (slice : Nat) (e : ErrRec) : State := errorRecord s ((fnOfSlice s slice).getD 0) { e with slice := some slice }

/-- A walk that met poison writes a record (R375): of the walker of the slice whose unit asked for it, with the address. The front end, Aqmal, the host link and the fabric
walk in logical slice 0 (log entry 67). -/
def walkRecord (s : State) (fn : Nat) (x : XErr) (va : Nat) (p : Option Nat := (getFn s fn).slices.head?) : State :=
  if x = ⟨6, 7⟩ then errorRecord s fn { cause := 2, cls := 1, unit := 13, slice := p, where_ := va, detail := 7 } else s

/-- The slice whose channels hold an SPA: 18 GiB each (R9, R15); that the ranges stand in slice order is the model's choice (log entry 18). -/
def sliceOfSpa (a : Nat) : Nat := min (a / 19327352832) 15
/-- The function that owns an SPA: one of its windows holds it (R368, R402). -/
def fnOfSpa (s : State) (a : Nat) : Option Nat := findFirst (fun i => inWindow (getFn s i) a 1) (List.range 17)

end Sys2Proof.Machine
end

