-- ==== Sys2Proof/Machine/StoreQueue.lean ====
section
/-!
DEFINITION. Machine/StoreQueue.lean: stores as they leave their queue (08 R168, R177), release and acquire (09 R182), and the accesses of agents and
of a group outside its own loads and stores.
-/
namespace Sys2Proof.Machine

-- store queues (R168)

/-- A queued store leaves its queue: into the core's L1, or to its on-chip word (R168, R177). A store to a double-faced
page lands on the face visible then (R195), under the entry that shows it (R379); a walk for it that meets poison writes its record (R375). -/
def performStore (s : State) (h : Group) (e : StEntry) : State :=
  match e.sp with
  | .s => setSramOf s h false (sramWrite (sramOf s h false) e.addr e.data)
  | .rg => setSramOf s h true (sramWrite (sramOf s h true) e.addr e.data)
  | .c => let t := chipWrite s h.ctx.fn e.addr e.data
    if e.whole then setFn t h.ctx.fn { (getFn t h.ctx.fn) with chipPoison := smSet false (getFn t h.ctx.fn).chipPoison (e.addr / 32) false } else t
  | _ =>
    let at_ : State × Nat × Nat := if ¬ e.df then (s, e.addr, e.key)
      else match translate s h.ctx.fn e.va .w with
        | .ok q => (s, q.spa, q.key)
        | .error x => (walkRecord s h.ctx.fn x e.va (some (h.core / 24)), e.addr, e.key)
    l1Store h.core at_.2.2 (e.data.length + 1) at_.1 at_.2.1 e.data

/-- Drains the whole store queue of the current group. -/
def drainStq (s : State) : State :=
  let s1 := s.g.stq.foldl (fun t e => performStore t s.g e) s
  { s1 with g := { s1.g with stq := [] } }

-- release and acquire of the current group (R182)

/-- A unit of a CPYR of the group has been sent and is not acknowledged (R388). -/
def remoteWrites (s : State) : Bool := s.copies.any (fun c => decide (c.group = some s.g.id) && c.awaiting)
/-- A release at sys scope waits until the group's remote writes are acknowledged (R182). -/
def releaseReady (s : State) (sc : Scope) : Bool := decide (sc ≠ .sys) || !(remoteWrites s)
/-- Whether a cached sector is covered at a scope: host pages only at sys. -/
def covered (sc : Scope) (sec : Nat) : Bool := decide (sc = .sys) || !isHostSec sec
def scopeWide (sc : Scope) : Bool := decide (sc = .team) || decide (sc = .dev) || decide (sc = .sys)
def release (s : State) (sc : Scope) : State :=
  if sc = .grp then s
  else
    let t := drainStq s
    if scopeWide sc then cleanL1 t (fun x => decide (x.core = t.g.core) && covered sc x.sec) else t
def acquire (s : State) (sc : Scope) : State :=
  if scopeWide sc then invalClean s (fun x => decide (x.core = s.g.core) && covered sc x.sec) else s

-- accesses of agents: at the L2, never through an L1 (R231, R267, R338, R383)

/-- An agent reads bytes of a function's memory; a sector that some L1 holds dirty is read as the L2 has it. Of several
poisoned bytes the error names the highest (log entry 70). -/
def agentRead (s : State) (fn va n : Nat) : Except (XErr × Nat) (List Byte) :=
  match translateRange s fn va n .r with
  | .error x => .error x
  | .ok _ =>
    (List.range n).foldr (fun i acc => match acc with
      | .error x => .error x
      | .ok l => match translate s fn (va + i) .r with
        | .error x => .error (x, va + i)
        | .ok q => if smGet false s.poison (q.spa / 32) then .error (⟨6, 0⟩, va + i) else .ok (memByte s q.key q.spa :: l)) (.ok [])

/-- Splits a byte range at 32 KiB boundaries, so that each part lies in one page; fuel bounds the parts. -/
def pageParts : Nat → Nat → List Byte → List (Nat × List Byte)
  | 0, _, _ => []
  | f + 1, va, bs => if bs.length = 0 then [] else let n := 32768 - va % 32768; (va, bs.take n) :: pageParts f (va + n) (bs.drop n)

/-- An agent writes at the L2: each sector's dirty bytes in an L1 are recalled first, as for another core's store (R169; log entry 69). -/
def agentWrite (s : State) (fn va : Nat) (bs : List Byte) (lining : Bool := false) : Except (XErr × Nat) State :=
  match translateRange s fn va bs.length .w lining with
  | .error x => .error x
  | .ok _ => .ok ((pageParts (bs.length / 32768 + 2) va bs).foldl (fun t p =>
      match translate t fn p.1 .w lining with
      | .error _ => t
      | .ok q =>
        let t1 := (List.range ((q.spa + p.2.length + 31) / 32 - q.spa / 32)).foldl (fun u i => callBack u (q.spa / 32 + i) (fun _ => true)) t
        memWrite t1 q.key q.spa p.2) s)

/-- A write by which a front end or a lane fails where it meets poison (R271, R313): a sector that was poisoned at the L2 and that the bytes do not cover whole. It then
writes nothing. -/
def agentMerge (s : State) (fn va : Nat) (bs : List Byte) : Except (XErr × Nat) State :=
  match agentWrite s fn va bs with
  | .error x => .error x
  | .ok t =>
    let meets (a : Nat) : Bool := match translate t fn a .w with
      | .ok q => smGet false t.poison (q.spa / 32)
      | .error _ => false
    match findFirst meets ((List.range ((va + bs.length + 31) / 32 - va / 32)).map (fun i => max va (32 * (va / 32 + i)))) with
    | some a => .error (⟨6, 0⟩, a)
    | none => .ok t

-- accesses of a group through its core's L1, outside an instruction's own loads and stores (trap records, stack spills)

/-- Writes bytes at a virtual address through the current group's core. -/
def coreWrite (s : State) (va : Nat) (bs : List Byte) : Except (XErr × Nat) State :=
  match translateRange s s.g.ctx.fn va bs.length .w with
  | .error x => .error x
  | .ok _ => .ok ((pageParts (bs.length / 32768 + 2) va bs).foldl (fun t p =>
      match translate t s.g.ctx.fn p.1 .w with
      | .error _ => t
      | .ok q => l1Store s.g.core q.key (p.2.length + 1) t q.spa p.2) s)

/-- Reads bytes at a virtual address through the current group's core. -/
def coreRead (s : State) (va n : Nat) : Except (XErr × Nat) (List Byte) :=
  match translateRange s s.g.ctx.fn va n .r with
  | .error x => .error x
  | .ok _ =>
    (List.range n).foldr (fun i acc => match acc with
      | .error x => .error x
      | .ok l => match translate s s.g.ctx.fn (va + i) .r with
        | .error x => .error (x, va + i)
        | .ok q => match l1Byte s s.g.core q.key q.spa false with
          | none => .error (⟨6, 0⟩, va + i)
          | some b => .ok (b :: l)) (.ok [])

end Sys2Proof.Machine
end

