-- ==== Sys2Proof/Machine/CopyRecord.lean ====
section
/-!
DEFINITION. Machine/CopyRecord.lean: the fields of copy records (11 R229), the planes of a copy's destination (R231, R232) and the global memory that it
lies in (R235).
-/
namespace Sys2Proof.Machine

/-- Elements per byte in the on-chip layout (R137). -/
def perByte (k : Slot) : Nat := if k.kind = 1 ∧ k.m = 2 then 4 else if k.kind = 1 ∧ k.m = 4 then 2 else 1
/-- Row bytes for n elements of a slot's kind (R137). -/
def rowBytes (k : Slot) (n : Nat) : Nat :=
  if k.kind = 1 then ceilDiv n (perByte k) else if k.kind = 4 ∨ k.kind = 5 then 2 * n else n
/-- Exponent bytes from one row to the next (R137). -/
def epitch (k : Slot) (pitch : Nat) : Nat := pitch * perByte k / k.block

-- copy records (R229)

def cpSrc (r : List Byte) : Nat := fieldAt r 0 8
def cpDst (r : List Byte) : Nat := fieldAt r 8 8
def cpRow (r : List Byte) : Nat := fieldAt r 16 4
def cpRows (r : List Byte) : Nat := fieldAt r 20 4
def cpSpitch (r : List Byte) : Nat := fieldAt r 24 4
def cpDpitch (r : List Byte) : Nat := fieldAt r 28 4
def cpSsp (r : List Byte) : Nat := fieldAt r 32 1 % 8
def cpDsp (r : List Byte) : Nat := fieldAt r 32 1 / 8 % 8
def cpCnt (r : List Byte) : Bool := bitOf (fieldAt r 33 1) 0
def cpF32 (r : List Byte) : Bool := bitOf (fieldAt r 33 1) 1
def cpCntAt (r : List Byte) : Nat := fieldAt r 36 4
def cpThresh (r : List Byte) : Nat := fieldAt r 40 4
def cpTarget (r : List Byte) : Nat := fieldAt r 44 4
def cpSexp (r : List Byte) : Nat := fieldAt r 48 8
def cpDexp (r : List Byte) : Nat := fieldAt r 56 8


-- planes of a destination (R231, R232)

def cpN (c : Copy) : Bool := decide (c.kind = .cpyn)
/-- Bytes per row of the destination's element plane and exponent plane. -/
def planeBytes (c : Copy) : Nat × Nat :=
  let row := cpRow c.rcd
  if ¬ cpN c then (row, 0)
  else if c.compact then (row * c.slot.m / 8, row / c.slot.block)
  else if cpF32 c.rcd then (4 * row, 0)
  else (rowBytes c.slot row, row / c.slot.block)
/-- Where byte o of a plane of row q lies in the destination. -/
def destAddr (c : Copy) (exp : Bool) (q o : Nat) : Nat :=
  let r := c.rcd
  if c.compact ∧ cpN c then (if exp then cpDexp r + q * (planeBytes c).2 + o else cpDst r + q * (planeBytes c).1 + o)
  else if exp then cpDexp r + q * epitch c.slot (cpDpitch r) + o
  else cpDst r + q * cpDpitch r + o
def copyTotal (c : Copy) : Nat := cpRows c.rcd * ((planeBytes c).1 + (planeBytes c).2)

-- the destination in memory (R235)

/-- The global intervals of a copy's destination: virtual address and bytes. -/
def destRuns (c : Copy) : List (Nat × Nat) :=
  if c.kind = .publish ∨ c.kind = .cpyr ∨ cpDsp c.rcd ≠ 0 then []
  else
    let p := planeBytes c
    ((List.range (cpRows c.rcd)).map (fun q => (destAddr c false q 0, p.1) :: (if p.2 = 0 then [] else [(destAddr c true q 0, p.2)]))).flatten
def pagesOf (va n : Nat) : List (Nat × Nat) :=
  if n = 0 then [] else (List.range ((va + n - 1) / 32768 - va / 32768 + 1)).map (fun i =>
    let lo := max va ((va / 32768 + i) * 32768)
    (lo, min (va + n) ((va / 32768 + i + 1) * 32768) - lo))
/-- The physical ranges of virtual runs, page by page; a page that does not translate is left out. -/
def physRuns (s : State) (fn : Nat) (p : Perm) (lining : Bool) (l : List (Nat × Nat)) : List (Nat × Nat) :=
  ((l.map (fun r => pagesOf r.1 r.2)).flatten).filterMap (fun r => match translate s fn r.1 p lining with
    | .ok q => some (q.spa, r.2)
    | .error _ => none)
def secIn (sec : Nat) (l : List (Nat × Nat)) : Bool := l.any (fun r => decide (r.1 < 32 * sec + 32 ∧ 32 * sec < r.1 + r.2))
/-- Clean sectors of a copy's global destination go from the issuing core, and from the one that its group runs on (R235). -/
def dropDest (s : State) (c : Copy) : State :=
  match c.group with
  | none => s
  | some g =>
    let runs := physRuns s c.fn .w true (destRuns c)
    let now := (getGroup s g).map (·.core)
    invalClean s (fun x => (decide (x.core = c.core) || decide (now = some x.core)) && secIn x.sec runs)

end Sys2Proof.Machine
end

