-- ==== Sys2Proof/Machine/Float.lean ====
section
/-!
DEFINITION. Machine/Float.lean: number formats, exact values and the one rounding of 04 R70 to R88. A finite value is an
exact fraction; every operation computes exactly and rounds once (R74).
-/
namespace Sys2Proof.Machine

/-- An exact rational: den is above 0. -/
structure Q where
  num : Int
  den : Nat
  deriving DecidableEq, Repr

def Q.ofInt (x : Int) : Q := ⟨x, 1⟩
/-- 2^e as a fraction. -/
def Q.pow2 (e : Int) : Q := if 0 ≤ e then ⟨2 ^ e.toNat, 1⟩ else ⟨1, 2 ^ (-e).toNat⟩
def Q.mul (a b : Q) : Q := ⟨a.num * b.num, a.den * b.den⟩
/-- A sum over the common denominator; equal denominators stay. -/
def Q.add (a b : Q) : Q :=
  if a.den = b.den then ⟨a.num + b.num, a.den⟩
  else
    let g := Nat.gcd a.den b.den
    ⟨a.num * (b.den / g : Nat) + b.num * (a.den / g : Nat), a.den / g * b.den⟩
def Q.neg (a : Q) : Q := ⟨-a.num, a.den⟩
def Q.sub (a b : Q) : Q := Q.add a (Q.neg b)
def Q.abs (a : Q) : Q := ⟨a.num.natAbs, a.den⟩
/-- The quotient by a non-zero fraction. -/
def Q.div (a b : Q) : Q := if b.num < 0 then ⟨-(a.num * b.den), a.den * b.num.natAbs⟩ else ⟨a.num * b.den, a.den * b.num.natAbs⟩
def Q.lt (a b : Q) : Bool := decide (a.num * b.den < b.num * a.den)
def Q.le (a b : Q) : Bool := decide (a.num * b.den ≤ b.num * a.den)
def Q.eq (a b : Q) : Bool := decide (a.num * b.den = b.num * a.den)
def Q.isZero (a : Q) : Bool := decide (a.num = 0)
def Q.floor (a : Q) : Int := a.num / (a.den : Int)

/-- A format of R70: exponent and fraction widths, bias; e4m3 has no infinity. -/
structure Fmt where
  eb : Nat
  fb : Nat
  bias : Nat
  noInf : Bool := false
  deriving DecidableEq, Repr

def fF32 : Fmt := { eb := 8, fb := 23, bias := 127 }
def fF16 : Fmt := { eb := 5, fb := 10, bias := 15 }
def fBF16 : Fmt := { eb := 8, fb := 7, bias := 127 }
def fE4M3 : Fmt := { eb := 4, fb := 3, bias := 7, noInf := true }
def fE5M2 : Fmt := { eb := 5, fb := 2, bias := 15 }

/-- What a bit pattern holds. -/
inductive FVal where
  | nan (signalling : Bool)
  | inf (neg : Bool)
  | fin (neg : Bool) (q : Q)
  deriving DecidableEq, Repr

def Fmt.bitsN (f : Fmt) : Nat := 1 + f.eb + f.fb
/-- The largest exponent field. -/
def Fmt.emax (f : Fmt) : Nat := 2 ^ f.eb - 1
/-- The canonical NaN (R71). -/
def Fmt.cnan (f : Fmt) : Nat := if f.noInf then 2 ^ (f.eb + f.fb) - 1 else f.emax * 2 ^ f.fb + 2 ^ (f.fb - 1)
def Fmt.infBits (f : Fmt) (neg : Bool) : Nat := (if neg then 2 ^ (f.eb + f.fb) else 0) + f.emax * 2 ^ f.fb
/-- The largest finite value's bits, unsigned. -/
def Fmt.maxBits (f : Fmt) : Nat := if f.noInf then 2 ^ (f.eb + f.fb) - 2 else f.emax * 2 ^ f.fb - 1
/-- The exact magnitude of finite bits. -/
def Fmt.mag (f : Fmt) (e m : Nat) : Q :=
  if e = 0 then Q.mul ⟨m, 1⟩ (Q.pow2 (1 - (f.bias : Int) - f.fb))
  else Q.mul ⟨(2 ^ f.fb + m : Nat), 1⟩ (Q.pow2 ((e : Int) - f.bias - f.fb))
/-- Reads a bit pattern (R70, R71). -/
def Fmt.read (f : Fmt) (x : Nat) : FVal :=
  let neg := bitOf x (f.eb + f.fb)
  let e := x / 2 ^ f.fb % 2 ^ f.eb
  let m := x % 2 ^ f.fb
  if f.noInf ∧ e = f.emax ∧ m = 2 ^ f.fb - 1 then .nan false
  else if ¬ f.noInf ∧ e = f.emax then (if m = 0 then .inf neg else .nan (!bitOf m (f.fb - 1)))
  else
    let q := f.mag e m
    .fin neg (if neg then q.neg else q)
def Fmt.isDenormal (f : Fmt) (x : Nat) : Bool := decide (x / 2 ^ f.fb % 2 ^ f.eb = 0 ∧ x % 2 ^ f.fb ≠ 0)
/-- An operand under FTZ (R78): a denormal reads as zero of its sign. -/
def ftzIn (ftz : Bool) (f : Fmt) (x : Nat) : Nat := if ftz && f.isDenormal x then (if bitOf x (f.eb + f.fb) then 2 ^ (f.eb + f.fb) else 0) else x

/-- Exception flags: bits of R79. -/
def fInvalid : BitVec 5 := 1
def fDivZero : BitVec 5 := 2
def fOverflow : BitVec 5 := 4
def fUnderflow : BitVec 5 := 8
def fInexact : BitVec 5 := 16

/-- A rounding: the four modes and stochastic with its draw (R74, R83). -/
inductive RMode where
  | rne | rtz | rup | rdn
  | sr (r : Nat)
  deriving DecidableEq, Repr

def RMode.of : Rnd → RMode
  | .rne => .rne | .rtz => .rtz | .rup => .rup | .rdn => .rdn
/-- A slot's round code (R43). -/
def RMode.ofCode (c draw : Nat) : RMode := if c = 0 then .rne else if c = 1 then .rtz else if c = 2 then .rup else if c = 3 then .rdn else .sr draw

/-- Rounds an exact value to an integer by a mode (R74, R83). -/
def roundInt (md : RMode) (q : Q) : Int :=
  let lo := q.floor
  let r := q.num - lo * q.den
  if r = 0 then lo
  else match md with
    | .rne => if 2 * r < q.den then lo else if 2 * r > q.den then lo + 1 else if lo % 2 = 0 then lo else lo + 1
    | .rtz => if q.num < 0 then lo + 1 else lo
    | .rup => lo + 1
    | .rdn => lo
    | .sr x => if (x : Int) < r * 4294967296 / q.den then lo + 1 else lo

/-- floor(log2 q) of a positive fraction. -/
def ilog2 (q : Q) : Int :=
  let e : Int := (Nat.log2 q.num.natAbs : Int) - Nat.log2 q.den
  if Q.le (Q.pow2 e) q then e else e - 1

/-- What a rounding delivers: bits and flags. -/
structure Rounded where
  bits : Nat
  flags : BitVec 5
  deriving DecidableEq, Repr

def Fmt.signBit (f : Fmt) (neg : Bool) : Nat := if neg then 2 ^ (f.eb + f.fb) else 0
/-- The value an overflow gives (R75). -/
def Fmt.overflow (f : Fmt) (md : RMode) (sat neg : Bool) : Nat :=
  let toInf : Bool := match md with
    | .rne => true
    | .rtz => false
    | .rup => !neg
    | .rdn => neg
    | .sr _ => true
  if toInf ∧ ¬ sat then (if f.noInf then f.cnan else f.infBits neg) else f.signBit neg + f.maxBits

/-- Whether a magnitude given as mantissa x 2^exponent (with f.fb fraction bits) is above the largest finite value. -/
def Fmt.tooBig (f : Fmt) (m : Nat) (e : Int) : Bool :=
  let top := f.maxBits
  let me : Int := (top / 2 ^ f.fb : Nat)
  let mm := 2 ^ f.fb + top % 2 ^ f.fb
  decide (e > me - f.bias ∨ e = me - f.bias ∧ mm < m)

/-- Rounds a non-zero exact value into a format: under an unbounded exponent range first, for overflow and tininess
(R74, R75, R77), then on the denormal grid when the result is tiny. ftz applies R78 to a tiny result; exact is false
when the value rounded is itself only an approximation that is known not to be representable. -/
def roundQ (f : Fmt) (md : RMode) (sat ftz : Bool) (q : Q) : Rounded :=
  let neg := decide (q.num < 0)
  let e0 := ilog2 q.abs
  -- on the grid of e0 with unbounded exponents
  let n0 := roundInt md (Q.mul q (Q.pow2 ((f.fb : Int) - e0)))
  let m0 := n0.natAbs
  let carry := decide (m0 = 2 ^ (f.fb + 1))
  let m1 := if carry then 2 ^ f.fb else m0
  let e1 := if carry then e0 + 1 else e0
  let exact0 := Q.eq (Q.mul ⟨n0, 1⟩ (Q.pow2 (e0 - f.fb))) q
  let emin : Int := 1 - f.bias
  if f.tooBig m1 e1 then ⟨f.overflow md sat neg, fOverflow ||| fInexact⟩
  else if e1 < emin then
    let n2 := (roundInt md (Q.mul q (Q.pow2 ((f.fb : Int) - emin)))).natAbs
    let exact2 := Q.eq (Q.mul ⟨n2, 1⟩ (Q.pow2 (emin - f.fb))) q.abs
    if ftz then ⟨f.signBit neg, fUnderflow ||| fInexact⟩
    else ⟨f.signBit neg + n2, if exact2 then 0 else fUnderflow ||| fInexact⟩
  else ⟨f.signBit neg + (e1 + f.bias).toNat * 2 ^ f.fb + (m1 - 2 ^ f.fb), if exact0 then 0 else fInexact⟩

/-- The zero of a sign. -/
def Fmt.zero (f : Fmt) (neg : Bool) : Rounded := ⟨f.signBit neg, 0⟩
def Fmt.nan (f : Fmt) (fl : BitVec 5) : Rounded := ⟨f.cnan, fl⟩
def Fmt.inf (f : Fmt) (neg : Bool) : Rounded := ⟨f.infBits neg, 0⟩

def FVal.isNan : FVal → Bool
  | .nan _ => true
  | _ => false
def FVal.isSnan : FVal → Bool
  | .nan x => x
  | _ => false
def FVal.neg : FVal → Bool
  | .nan _ => false
  | .inf n => n
  | .fin n _ => n
def FVal.isZero : FVal → Bool
  | .fin _ q => q.isZero
  | _ => false
def FVal.isInf : FVal → Bool
  | .inf _ => true
  | _ => false
def snanFlag (l : List FVal) : BitVec 5 := if l.any FVal.isSnan then fInvalid else 0

/-- a x b + c with one rounding (R108). With c absent the product stands alone. -/
def fmaR (f : Fmt) (md : RMode) (ftz : Bool) (a b c : FVal) : Rounded :=
  let fl := snanFlag [a, b, c]
  let invProd := (a.isInf && b.isZero) || (a.isZero && b.isInf)
  let pneg := a.neg != b.neg
  let prodInf := (a.isInf || b.isInf) && !(a.isNan || b.isNan) && !invProd
  if invProd then f.nan (fl ||| fInvalid)
  else if a.isNan || b.isNan || c.isNan then f.nan fl
  else if prodInf then (if c.isInf && (c.neg != pneg) then f.nan fInvalid else f.inf pneg)
  else match a, b, c with
    | .fin _ x, .fin _ y, .inf n => let _ := x; let _ := y; f.inf n
    | .fin _ x, .fin _ y, .fin cn z =>
      let r := Q.add (Q.mul x y) z
      if r.isZero then f.zero (if pneg = cn ∧ (Q.mul x y).isZero ∧ z.isZero then pneg else decide (md = .rdn)) else roundQ f md false ftz r
    | _, _, _ => f.nan fInvalid

/-- A sum (R108): a x 1 + b, with the sign of an exact zero as IEEE 754 gives for addition. -/
def addR (f : Fmt) (md : RMode) (ftz : Bool) (a b : FVal) : Rounded :=
  let fl := snanFlag [a, b]
  match a, b with
  | .nan _, _ => f.nan fl
  | _, .nan _ => f.nan fl
  | .inf x, .inf y => if x = y then f.inf x else f.nan fInvalid
  | .inf x, _ => f.inf x
  | _, .inf y => f.inf y
  | .fin n x, .fin m y =>
    let r := Q.add x y
    if r.isZero then f.zero (if n = m ∧ x.isZero ∧ y.isZero then n else decide (md = .rdn)) else roundQ f md false ftz r
def negV : FVal → FVal
  | .nan x => .nan x
  | .inf n => .inf (!n)
  | .fin n q => .fin (!n) q.neg
def mulR (f : Fmt) (md : RMode) (ftz : Bool) (a b : FVal) : Rounded :=
  let fl := snanFlag [a, b]
  let neg := a.neg != b.neg
  match a, b with
  | .nan _, _ => f.nan fl
  | _, .nan _ => f.nan fl
  | .inf _, _ => if b.isZero then f.nan fInvalid else f.inf neg
  | _, .inf _ => if a.isZero then f.nan fInvalid else f.inf neg
  | .fin _ x, .fin _ y => let r := Q.mul x y; if r.isZero then f.zero neg else roundQ f md false ftz r

/-- Order of two numbers: below, equal (the zeros are), above. -/
def cmpV : FVal → FVal → Option Ordering
  | .nan _, _ => none
  | _, .nan _ => none
  | .inf a, .inf b => some (if a = b then .eq else if a then .lt else .gt)
  | .inf a, _ => some (if a then .lt else .gt)
  | _, .inf b => some (if b then .gt else .lt)
  | .fin _ x, .fin _ y => some (if x.lt y then .lt else if y.lt x then .gt else .eq)

/-- MIN and MAX (R109): the bits of the chosen operand. -/
def minMaxR (f : Fmt) (max : Bool) (xa xb : Nat) : Rounded :=
  let a := f.read xa
  let b := f.read xb
  let fl := snanFlag [a, b]
  if a.isNan ∧ b.isNan then f.nan fl
  else if a.isNan then ⟨xb, fl⟩
  else if b.isNan then ⟨xa, fl⟩
  else
    let less : Bool := match cmpV a b with
      | some .lt => true
      | some .eq => a.neg && !b.neg
      | _ => false
    if less != max then ⟨xa, 0⟩ else
      let same : Bool := match cmpV a b with | some .eq => a.neg == b.neg | _ => false
      if same then ⟨xa, 0⟩ else ⟨xb, 0⟩

/-- RND (R112): an integral value in the same format. -/
def rndR (f : Fmt) (md : RMode) (x : Nat) : Rounded :=
  match f.read x with
  | .nan s => f.nan (if s then fInvalid else 0)
  | .inf _ => ⟨x, 0⟩
  | .fin neg q =>
    if q.isZero then ⟨x, 0⟩
    else
      let n := roundInt md q
      if n = 0 then f.zero neg else ⟨(roundQ f .rne false false ⟨n, 1⟩).bits, 0⟩

/-- A value into a float format (R75, R82); infinities and NaNs first. -/
def convF (f : Fmt) (md : RMode) (sat ftz : Bool) (v : FVal) : Rounded :=
  match v with
  | .nan s => f.nan (if s then fInvalid else 0)
  | .inf n => if f.noInf then (if sat then ⟨f.signBit n + f.maxBits, 0⟩ else ⟨f.cnan, fInvalid⟩) else f.inf n
  | .fin n q => if q.isZero then f.zero n else roundQ f md sat ftz q

/-- A float into an integer of n bits (R82): bits and flags. -/
def convI (n : Nat) (signed : Bool) (md : RMode) (sat : Bool) (v : FVal) : Rounded :=
  let lo : Int := if signed then -(2 ^ (n - 1) : Int) else 0
  let hi : Int := if signed then 2 ^ (n - 1) - 1 else 2 ^ n - 1
  match v with
  | .nan _ => ⟨0, fInvalid⟩
  | .inf neg => ⟨if sat then wrapN n (if neg then lo else hi) else 0, fInvalid⟩
  | .fin _ q =>
    let r := roundInt md q
    if r < lo ∨ hi < r then ⟨wrapN n (if sat then satI r lo hi else r), fInvalid⟩
    else ⟨wrapN n r, if Q.eq ⟨r, 1⟩ q then 0 else fInexact⟩

def fmtOf : FloatTy → Fmt
  | .f32 => fF32 | .f16 => fF16 | .bf16 => fBF16
/-- The elements of a register of a type, low first (R58, R73). -/
def elemsOf (ty : FloatTy) (w : Word) : List Nat :=
  match ty with
  | .f32 => [w.toNat]
  | _ => [w.toNat % 65536, w.toNat / 65536]
def packElems : List Nat → Word
  | [x] => BitVec.ofNat 32 x
  | [x, y] => BitVec.ofNat 32 (x % 65536 + y * 65536)
  | _ => 0
def orFlags : List (BitVec 5) → BitVec 5
  | [] => 0
  | a :: t => a ||| orFlags t
/-- Element by element results of a register, with the OR of their flags. -/
def packR (l : List Rounded) : Word × BitVec 5 := (packElems (l.map (·.bits)), orFlags (l.map (·.flags)))
/-- A two-source operation on every element (R108), FTZ on binary32 operands. -/
def elem2 (ty : FloatTy) (ftz : Bool) (op : Fmt → Bool → FVal → FVal → Rounded) (a b : Word) : Word × BitVec 5 :=
  let f := fmtOf ty
  let z := ftz && decide (ty = .f32)
  packR (List.zipWith (fun x y => op f z (f.read (ftzIn z f x)) (f.read (ftzIn z f y))) (elemsOf ty a) (elemsOf ty b))
def elem1 (ty : FloatTy) (ftz : Bool) (op : Fmt → Bool → Nat → Rounded) (a : Word) : Word × BitVec 5 :=
  let f := fmtOf ty
  let z := ftz && decide (ty = .f32)
  packR ((elemsOf ty a).map (fun x => op f z (ftzIn z f x)))

/-- Philox4x32-10 (R120). -/
def philoxRounds : Nat → List Nat → Nat → Nat → List Nat
  | 0, c, _, _ => c
  | n + 1, c, k0, k1 =>
    let p0 := 0xD2511F53 * c.getD 0 0
    let p1 := 0xCD9E8D57 * c.getD 2 0
    let c' := [Nat.xor (Nat.xor (p1 / 4294967296) (c.getD 1 0)) k0, p1 % 4294967296,
               Nat.xor (Nat.xor (p0 / 4294967296) (c.getD 3 0)) k1, p0 % 4294967296]
    philoxRounds n c' ((k0 + 0x9E3779B9) % 4294967296) ((k1 + 0xBB67AE85) % 4294967296)
def philox (key : DWord) (c : List Nat) : List Nat := philoxRounds 10 c (key.toNat % 4294967296) (key.toNat / 4294967296)

-- block floating point (R86 to R88)

/-- The value of a BFPm element (R86). -/
def bfpVal (m e mu : Nat) : Q := if e = 0 then ⟨0, 1⟩ else Q.mul ⟨sx m mu, 1⟩ (Q.pow2 ((e : Int) - 127 - ((m : Int) - 2)))
/-- A decoded element as binary32, with the flags that FTZ raises (R88, R130). -2^128 has no such encoding: its word is a free value and
raises nothing (log entry 49). -/
def bfpWord (ftz : Bool) (m e mu : Nat) : Nat × BitVec 5 :=
  if e = 254 ∧ sx m mu = -((2 ^ (m - 1) : Nat) : Int) then (Config.bfpLeast.toNat, 0)
  else let v := bfpVal m e mu; let r := convF fF32 .rne false ftz (.fin (decide (v.num < 0)) v); (r.bits, r.flags)

/-- A block's encoding (R87): exponent, mantissas as numbers of m bits, flags. -/
structure Block where
  e : Nat
  mus : List Nat
  flags : BitVec 5
  deriving DecidableEq, Repr

def roundMus (m : Nat) (xs : List (FVal × RMode)) (e : Int) (zero : FVal → Bool) : List Int :=
  xs.map (fun x => match x.1 with
    | .fin _ q => if zero x.1 then 0 else roundInt x.2 (Q.mul q (Q.pow2 (127 + (m : Int) - 2 - e)))
    | _ => 0)
/-- Encodes the values of a block, each with its rounding (R87). -/
def encodeBlock (m : Nat) (sat : Bool) (xs : List (FVal × RMode)) : Block :=
  let nan := xs.any (fun x => x.1.isNan)
  let inf := xs.any (fun x => x.1.isInf)
  let zeros := xs.map (fun _ => 0)
  let f1 : BitVec 5 := if nan then fInvalid else 0
  if nan ∧ ¬ sat then ⟨255, zeros, fInvalid⟩
  else if inf ∧ ¬ sat then ⟨255, zeros, f1 ||| fOverflow ||| fInexact⟩
  else
    let big := xs.foldl (fun b x => match x.1 with | .fin _ q => if b.lt q.abs then q.abs else b | _ => b) ⟨0, 1⟩
    if big.isZero ∧ ¬ inf then ⟨0, zeros, f1⟩
    else
      let e0 : Int := if big.isZero then 1 else max (ilog2 big + 127) 1
      let clamped := !big.isZero && decide (ilog2 big + 127 < 1)
      let mu0 := roundMus m xs e0 (fun _ => false)
      let bump := mu0.any (fun x => decide (x = 2 ^ (m - 1)))
      let e1 := if bump then e0 + 1 else e0
      let mu1 := if bump then roundMus m xs e1 (fun _ => false) else mu0
      let ovf := decide (254 < e1) || inf
      if ovf ∧ ¬ sat then ⟨255, zeros, f1 ||| fOverflow ||| fInexact⟩
      else
        let e2 := if ovf then 254 else e1
        let lo : Int := -(2 ^ (m - 1) : Int)
        let hi : Int := 2 ^ (m - 1) - 1
        let mu2 : List Int := if ovf then (List.zipWith (fun x (y : Int) => match x.1 with
            | .inf neg => if neg then lo else hi
            | _ => satI y lo hi) xs (roundMus m xs e2 (fun _ => false))) else mu1
        let zero := mu2.all (fun x => decide (x = 0))
        let inexact := (List.zipWith (fun x y => match x.1 with
          | .fin _ q => !(Q.eq (Q.mul ⟨y, 1⟩ (Q.pow2 (e2 - 127 - ((m : Int) - 2)))) q)
          | _ => false) xs mu2).any id
        ⟨if zero then 0 else e2.toNat, mu2.map (wrapN m), f1 ||| (if ovf then fOverflow ||| fInexact else 0) |||
          (if inexact then fInexact else 0) ||| (if inexact && clamped then fUnderflow else 0)⟩

end Sys2Proof.Machine
end

