-- ==== Sys2Proof/Machine/Operands.lean ====
section
/-!
DEFINITION. Machine/Operands.lean: registers of a lane, the operand forms of 02 R36 to R38, and an instruction's words.
-/
namespace Sys2Proof.Machine

def width (h : Group) : Nat := h.ctx.kernel.width
/-- The active lanes, ascending (R4). -/
def activeLanes (h : Group) : List Nat := lanesOf (width h) h.active
/-- Lanes that have not exited and hold a thread (R273). -/
def liveMask (h : Group) : BitVec 64 := fullMask (width h) &&& ~~~ (h.exited ||| h.vacant)
/-- The lowest active lane, which speaks for the group (R144, R292). -/
def firstLane (h : Group) : Nat := (activeLanes h).headD 0

-- registers: key 64 x register + lane

def regKey (r lane : Nat) : Nat := 64 * r + lane
def gReg (h : Group) (r lane : Nat) : Word := smGet 0 h.regs (regKey r lane)
/-- Writes one register of one lane; a write clears its poison (R400). -/
def setReg (h : Group) (r lane : Nat) (v : Word) : Group :=
  { h with regs := smSet 0 h.regs (regKey r lane) v, regPoison := smSet false h.regPoison (regKey r lane) false }
/-- Writes consecutive registers of one lane. -/
def setRegs (h : Group) (r lane : Nat) : List Word → Group
  | [] => h
  | v :: vs => setRegs (setReg h r lane v) (r + 1) lane vs
/-- Writes a destination of one lane: ZERO discards (R38). -/
def writeDst (h : Group) (d : Dst) (lane : Nat) (vs : List Word) : Group :=
  match d with
  | .reg r => setRegs h r lane vs
  | .zero => h
/-- Writes a destination in every lane of a list. -/
def writeLanes (h : Group) (d : Dst) : List Nat → (Nat → List Word) → Group
  | [], _ => h
  | l :: ls, f => writeLanes (writeDst h d l (f l)) d ls f

/-- A 32-bit source (R36). -/
def src32 (h : Group) (a : Src) (lane : Nat) : Word :=
  match a with
  | .reg r => gReg h r lane
  | .zero => 0
  | .lane => BitVec.ofNat 32 lane
  | .grpix => BitVec.ofNat 32 h.grpix
  | .teamix => BitVec.ofNat 32 h.teamix
  | .lit32 w => w
  | .lit64 x => x.lo
/-- A 64-bit source; sgn: a 32-bit literal is sign-extended (R36). -/
def src64 (h : Group) (sgn : Bool) (a : Src) (lane : Nat) : DWord :=
  match a with
  | .reg r => DWord.ofPair (gReg h r lane) (gReg h (r + 1) lane)
  | .zero => 0
  | .lane => BitVec.ofNat 64 lane
  | .grpix => BitVec.ofNat 64 h.grpix
  | .teamix => BitVec.ofNat 64 h.teamix
  | .lit32 w => if sgn then w.signExtend 64 else w.setWidth 64
  | .lit64 x => x
/-- A written field read as a source: ZERO reads 0 (R38). -/
def dst32 (h : Group) (d : Dst) (lane : Nat) : Word :=
  match d with
  | .reg r => gReg h r lane
  | .zero => 0
def dst64 (h : Group) (d : Dst) (lane : Nat) : DWord :=
  match d with
  | .reg r => DWord.ofPair (gReg h r lane) (gReg h (r + 1) lane)
  | .zero => 0
/-- n words from a written field read as a source (R56, R120, R341). -/
def dstWords (h : Group) (d : Dst) (n lane : Nat) : List Word :=
  match d with
  | .reg r => (List.range n).map (fun i => gReg h (r + i) lane)
  | .zero => List.replicate n 0
/-- A source of 32 or 64 bits as a number of the type's signedness (R98). -/
def srcInt (h : Group) (ty : IntTy) (a : Src) (lane : Nat) : Int :=
  match ty with
  | .s32 => (src32 h a lane).toInt
  | .n32 => ((src32 h a lane).toNat : Int)
  | .s64 => (src64 h true a lane).toInt
  | .n64 => ((src64 h false a lane).toNat : Int)
/-- A source of one or two registers as an unsigned number. -/
def srcNat (h : Group) (wide : Bool) (a : Src) (lane : Nat) : Nat :=
  if wide then (src64 h false a lane).toNat else (src32 h a lane).toNat
/-- A number as the words of a result of 32 or 64 bits. -/
def resWords (wide : Bool) (x : Nat) : List Word :=
  if wide then [BitVec.ofNat 32 x, BitVec.ofNat 32 (x / 4294967296)] else [BitVec.ofNat 32 x]

/-- The registers a source of n registers reads. -/
def srcRegs (a : Src) (n : Nat) : List Nat :=
  match a with
  | .reg r => (List.range n).map (fun i => r + i)
  | _ => []
def dstRegs (d : Dst) (n : Nat) : List Nat :=
  match d with
  | .reg r => (List.range n).map (fun i => r + i)
  | .zero => []
/-- The lanes of a list in which one of the registers holds an uncorrectable error (R96). -/
def poisonLanes (h : Group) (rs : List Nat) (ls : List Nat) : List Nat :=
  ls.filter (fun l => rs.any (fun r => smGet false h.regPoison (regKey r l)))

/-- Literal words a source takes. -/
def litsOf (a : Src) : Nat :=
  match a with
  | .lit32 _ => 1
  | .lit64 _ => 2
  | _ => 0

end Sys2Proof.Machine
end

