-- ==== Sys2Proof/Machine/Ops.lean ====
section
/-!
DEFINITION. Machine/Ops.lean: what the meanings share: moving past an instruction, taking a trap and returning from one
(23 R409 to R415), owed traps, the end of a slot and of a launch (R273, R416), and the ALU pipeline (05 R94 to R96).
-/
namespace Sys2Proof.Machine

abbrev Out := Host.Outcome State Fault Refusal

-- positions (R27)

/-- Leaves for a clause header: the group is about to fetch it. -/
def goto_ (h : Group) (pos : Nat) : Group := { h with pos := pos, off := 0, clause := [], phase := .fetch }
/-- The word after the clause body (R67). -/
def afterBody (h : Group) : Nat := h.pos + 4 * h.clause.length
/-- Clears what a waiting or stalled instruction kept. -/
def settled (h : Group) : Group := { h with waiting := .no, stalled := false, tagWait := none, idle := 0, early := [] }
/-- Moves past an instruction of n words: to the next word of the clause, or by fall-through to the word after it (R26).
P and M are empty there (R225). What lanes have read for a load further on stands. -/
def advance (h : Group) (n : Nat) : Group :=
  if h.off + n < h.clause.length then { settled { h with off := h.off + n, p := 0, m := 0 } with early := h.early.filter (fun e => decide (h.off + n ≤ e.1)) }
  else settled { goto_ h (afterBody h) with p := 0, m := 0 }
/-- Transfers control. -/
def transfer (h : Group) (pos : Nat) : Group := settled { goto_ h pos with p := 0, m := 0 }
/-- The current group stalls at its instruction, which issues again later. -/
def stall (s : State) : State := { s with g := { s.g with stalled := true } }

def freshId (s : State) : Nat × State := (s.nextId, { s with nextId := s.nextId + 1 })

-- traps

/-- A trap about to be taken (R411). fpos and foff are those of a failed command; act replaces the active set of the
record and of the handler (R297). -/
structure TrapInfo where
  code : Nat
  detail : Nat := 0
  unit : Nat := 0
  addr : Nat := 0
  lanes : BitVec 64 := 0
  done : Nat := 0
  more : Nat := 0
  lost : Bool := false
  remote : Bool := false
  fpos : Option (Nat × Nat) := none
  /-- the return position, when it is not the group's position -/
  ret : Option (Nat × Nat) := none
  /-- at a join reached through EXIT: the lanes that run the handler, the record's active field being 0 -/
  act : Option (BitVec 64) := none
  /-- owed slots that the held access, once returned to, still serves (R409) -/
  held : List Nat := []
  /-- the virtual address that a failed walk translated, when it is not addr: a thread's own memory has offsets for addresses (R161, R403) -/
  walk : Option Nat := none
  deriving DecidableEq, Repr

/-- The index of a group's own areas (R279, R410), 0 for a fragment group (R442). -/
def areaIx (h : Group) : Nat := if h.ctx.frag then 0 else h.grpix
/-- Where a launch's reconvergence spill, traversal spill and trap areas begin (R279, R345, R410). -/
def spillBase (h : Group) : Nat := h.ctx.pbase + h.ctx.areas * width h * h.ctx.kernel.priv + areaIx h * h.ctx.kernel.divblocks * 512
def travBase (h : Group) (og ol : Nat) : Nat :=
  h.ctx.pbase + h.ctx.areas * width h * h.ctx.kernel.priv + h.ctx.areas * h.ctx.kernel.divblocks * 512 +
    ((if h.ctx.frag then 0 else og) * width h + ol) * h.ctx.kernel.trav
def trapArea (h : Group) : Nat :=
  h.ctx.pbase + h.ctx.areas * width h * h.ctx.kernel.priv + h.ctx.areas * h.ctx.kernel.divblocks * 512 +
    h.ctx.areas * width h * h.ctx.kernel.trav + areaIx h * 1024

/-- The lowest lane of a mask, 0 for none. -/
def lowestLane (w : Nat) (m : BitVec 64) : Nat := (lanesOf w m).headD 0
/-- Reconvergence entries on chip and spilled (R411). -/
def rcDepth (h : Group) : Nat := h.rc.length + 32 * h.rcblocks

/-- The trap record (R411). -/
def trapRecord (h : Group) (t : TrapInfo) : List Byte :=
  let r := t.ret.getD (h.pos, h.off)
  let f := t.fpos.getD r
  let n := h.ctx.kernel.regs
  natLe 8 (r.1 % 2251799813685248) ++ natLe 1 r.2 ++ natLe 1 t.code ++ natLe 1 t.unit ++
  natLe 1 ((if t.lost then 1 else 0) + (if t.remote then 2 else 0)) ++ natLe 1 h.p ++ natLe 1 (lowestLane (width h) t.lanes) ++
  natLe 2 (rcDepth h) ++ natLe 8 t.addr ++ natLe 8 t.detail ++ natLe 8 (if t.act.isSome then 0 else h.active.toNat) ++ natLe 8 h.m.toNat ++
  natLe 8 t.lanes.toNat ++ natLe 8 t.done ++ natLe 8 (f.1 % 2251799813685248) ++ natLe 1 f.2 ++ natLe 1 0 ++ natLe 2 t.more ++ List.replicate 52 0 ++
  ((List.range (width h)).map (fun l => natLe 4 (gReg h (n - 2) l).toNat ++ natLe 4 (gReg h (n - 1) l).toNat)).flatten

-- arrays and leases (R155, R363, R364)

def arrKey (region eng : Nat) : Nat := 2 * region + eng
def arrAt (s : State) (k : Nat) : Arr := smGet {} s.arrays k
def setArr (s : State) (k : Nat) (a : Arr) : State := { s with arrays := smSet {} s.arrays k a }
def inService (s : State) (k : Nat) : Bool := !(arrAt s k).out && (arrAt s k).lease.isNone
/-- The lease whose array serves a region as its third array. -/
def leaseAt (s : State) (region : Nat) : Option Lease :=
  findFirst (fun l => l.granted && decide (l.host = region) && decide ((arrAt s l.key).lease = some l.id)) s.leases
def leaseState (l : Lease) : Nat := fieldAt l.rcd 48 1
/-- After the last command has left the array of an ended lease, the array returns to the lender's region (R366). -/
def settleLease (s : State) (region : Nat) : State :=
  match leaseAt s region with
  | none => s
  | some l =>
    if 2 ≤ leaseState l ∧ ¬ (s.cmds.any (fun c => decide (c.region = region ∧ c.array = 2))) then
      setArr s l.key { arrAt s l.key with lease := none }
    else s

/-- The handle of a copy of a group reads that it failed with a trap (R235). -/
def failRing (trap : Nat) (t : State) (c : Copy) : State :=
  let f := getFn t c.fn
  if c.kind = .publish ∨ c.group.isNone then t
  else setFn t c.fn { f with ring := smSet {} f.ring c.entry { (smGet {} f.ring c.entry) with state := 3, code := trap } }
/-- The numbers of the operations, teams and launches that units work on. -/
def workIds (s : State) : List Nat :=
  s.cmds.map (·.id) ++ s.copies.map (·.id) ++ s.trvs.map (·.id) ++ s.inserts.map (·.id) ++ s.handoffs.map (·.id) ++ s.passes.map (·.id) ++ (allGroups s).map (·.id) ++
    s.teams.map (·.id) ++ (s.launches.filter (fun l => !l.stopped)).map (·.id)
/-- What was there before and is dropped now leaves Aqmal's watch: that is no progress of its unit (R418). -/
def forgetWork (s t : State) : State :=
  let lost (i : List Nat) : Bool := (workIds s).contains (i.headD 0) && !(workIds t).contains (i.headD 0)
  { t with watch := t.watch.map (fun e => (e.1, e.2.1, e.2.2.filter (fun i => !lost i))) }
/-- A launch is ended in the whole partition (R416): its groups, requests, inserts, commands, copies and reservations go,
and it is over with the code and the trap that its completion status will carry. A lent array that this empties returns (R366). Clean L1 sectors in the destination of a copy that stops are
dropped, as when it retires (R235). -/
def endLaunch (s : State) (l code trap : Nat) : State :=
  let mine (h : Group) : Bool := decide (h.ctx.launch = l) && decide (h.phase ≠ .none)
  let drained := ((allGroups s).filter mine).foldl (fun t h => h.stq.foldl (fun u e => performStore u h e) t) s
  let gone (c : Copy) : Bool := decide (c.launch = l)
  let s1 := (s.copies.filter gone).foldl (fun t c => dropDest (failRing trap t c) c) drained
  let ids := ((allGroups s).filter mine).map (·.id)
  let t : State := { s1 with
    g := if mine s1.g then {} else s1.g
    others := s1.others.filter (fun h => !mine h)
    teams := s1.teams.filter (fun t => decide (t.launch ≠ l))
    cmds := s1.cmds.filter (fun c => decide (c.launch ≠ l))
    copies := s1.copies.filter (fun c => !gone c)
    trvs := s1.trvs.filter (fun r => decide (r.launch ≠ l))
    inserts := s1.inserts.filter (fun r => decide (r.launch ≠ l))
    handoffs := s1.handoffs.filter (fun r => decide (r.launch ≠ l))
    passes := s1.passes.filter (fun p => decide (p.launch ≠ l))
    windows := s1.windows.filter (fun w => decide (w.launch ≠ l))
    objs := s1.objs.map (fun o => { o with waiters := o.waiters.filter (fun e => !ids.contains e.1) })
    fns := s1.fns.map (fun f => { f with bobbins := f.bobbins.filter (fun b =>
      !(((allGroups s).filter mine).any (fun h => decide (h.bobbin = some b.1)))) })
    reserved := s1.reserved.filter (fun e => decide (e.2.1 ≠ l))
    launches := updIf (fun x => decide (x.id = l)) (fun x => { x with stopped := true, code := code, trap := trap }) s1.launches }
  (s1.leases.map (·.host)).foldl settleLease (forgetWork s1 t)
/-- The same with the detail of the trap (R408). -/
def endLaunchD (s : State) (l code trap detail : Nat) : State := updLaunch (endLaunch s l code trap) l (fun x => { x with detail := detail })

/-- The data of a load returns to its registers (R204, R206). -/
def returnLoad (h : Group) (x : Load) : Group :=
  x.writes.foldl (fun g w => { g with regs := smSet 0 g.regs w.1 w.2, regPoison := smSet false g.regPoison w.1 false }) h
/-- Every outstanding load of a group returns, oldest first. -/
def returnLoads (h : Group) : Group := { h.loads.foldl returnLoad h with loads := [] }

/-- A tester request of the group in flight writes one of the registers that a trap saves and writes: its entry reads them, so it waits (R339, R407). -/
def pairInFlight (s : State) : Bool :=
  let n := s.g.ctx.kernel.regs
  s.trvs.any (fun r => decide (r.group = s.g.id) && (dstRegs r.d (if r.tri then 4 else 2)).any (fun k => decide (k = n - 2 ∨ k = n - 1)))

/-- A barrier wait whose arrival is still open: a handler that returns to it does not arrive again (R311). -/
def keepsArrival (h : Group) : Waiting → Bool
  | .barTeam id _ => h.arv.getLsbD id
  | .dbar num n => decide (h.darv = some (num, n))
  | .sbar _ => h.sarv.isSome
  | _ => false
/-- The entry of a trap would wait for such a request. -/
def trapWaits (s : State) : Bool := decide (s.g.ctx.kernel.handler ≠ 0) && !s.g.hnd && pairInFlight s
/-- Takes a precise trap (R412), or ends the launch (R414): no handler, a trap inside the handler, or a record that
cannot be written. Loads before the position complete (R407); the record's stores and every store before them drain
before the handler issues (R410). -/
def takeTrap (s : State) (t : TrapInfo) : State :=
  if trapWaits s then stall s else
  let s := if t.fpos.isNone then walkRecord s s.g.ctx.fn ⟨t.code, t.detail⟩ (t.walk.getD t.addr) (some (s.g.core / 24)) else s
  if s.g.ctx.kernel.handler = 0 ∨ s.g.hnd then endLaunch s s.g.ctx.launch 4 t.code
  else
    let s0 := drainStq s
    let s1 := { s0 with g := returnLoads s0.g }
    let va := trapArea s1.g
    match coreWrite s1 va (trapRecord s1.g t) with
    | .error (x, a) => endLaunch (walkRecord s1 s1.g.ctx.fn x a (some (s1.g.core / 24))) s1.g.ctx.launch 4 t.code
    | .ok s2 =>
      let h := s2.g
      let act := t.act.getD h.active
      let n := h.ctx.kernel.regs
      let w := lanesOf (width h) act
      let h1 := writeLanes h (.reg (n - 2)) w (fun _ => [BitVec.ofNat 32 va, BitVec.ofNat 32 (va / 4294967296)])
      { s2 with g := { transfer h1 h.ctx.kernel.handler with hnd := true, trec := va, trpos := t.ret.getD (h.pos, h.off),
                                                                trsince := if (t.ret.getD (h.pos, h.off)).2 = 0 then s2.nextId else h.since, trtill := h.till.getD s2.nextId, trheld := t.held,
                                                                trwait := if keepsArrival h h.waiting then h.waiting else .no, active := act } }

/-- A trap that the state v raises after an instruction or an arrival has had its effect on s: while its entry waits, so does that effect. -/
def trapAfter (s v : State) (t : TrapInfo) : State := if trapWaits v then stall s else takeTrap v t
/-- An ILLEGAL_ENCODING, ILLEGAL_OPERAND or other trap of an instruction with no address and no lane. -/
def trapCode (s : State) (code detail : Nat) : State := takeTrap s { code := code, detail := detail }
/-- ILLEGAL_OPERAND of an issue check (R68, R408). -/
def illegalOperand (s : State) : State := trapCode s 2 6
/-- A trap with an address, for a group-wide operand. -/
def trapAddr (s : State) (x : XErr × Nat) : State := takeTrap s { code := x.1.code, detail := x.1.cause, addr := x.2 }

/-- What RETT reads of a record (R413). -/
structure TrapReturn where
  rpos : Nat
  roff : Nat
  p : Nat
  m : BitVec 64
  depth : Nat
  active : BitVec 64
  pairs : List Byte
  deriving DecidableEq, Repr
def readRecord (b : List Byte) : TrapReturn where
  rpos := fieldAt b 0 8 % 2251799813685248
  roff := fieldAt b 8 1 % 64
  p := fieldAt b 12 1 % 32
  m := BitVec.ofNat 64 (fieldAt b 40 8)
  depth := fieldAt b 14 2
  active := BitVec.ofNat 64 (fieldAt b 32 8)
  pairs := b.drop 128
/-- Restores the fields RETT restores, the pair of every lane among them, and clears HND (R413); the group resumes at the return position
under R27. P and M belong to the instruction that was trapped: any other begins afresh, with none (R210, R211, R225, log entry 30). A held access
that is returned to serves the slots it still can (R409). The header of its clause waits for what the handler issued, and for nothing issued inside
the clause; that of another clause waits for everything (R25). next: the number that the next operation takes. -/
def restoreTrap (h : Group) (r : TrapReturn) (next : Nat) : Group :=
  let n := h.ctx.kernel.regs
  let act := r.active &&& liveMask h
  let h1 := writeLanes h (.reg (n - 2)) (lanesOf (width h) (BitVec.allOnes 64)) (fun l => wordsOf 2 (bytesAt r.pairs (8 * l) 8))
  let back : Bool := decide (h.trpos = (r.rpos, r.roff))
  { settled { h1 with pos := r.rpos, off := r.roff, clause := [], phase := .fetch, p := if back then r.p else 0, m := if back then r.m else 0,
                      since := if h.trpos.1 = r.rpos then h.trsince else next, till := if h.trpos.1 = r.rpos then some h.trtill else none,
                      active := act, hnd := false, trec := 0, trpos := (0, 0), trsince := 0, trtill := 0, trheld := [], trwait := .no } with
    waiting := if ¬ back then .no else if h.trheld ≠ [] then .held [] h.trheld else if keepsArrival h h.trwait then h.trwait else .no }

-- owed slots (R409): 0 to 15 tiles, 16 copies, 17 traversal, 18 fragments, 19 encoder

def owedAt (h : Group) (k : Nat) : Option Owed := (findFirst (fun e => decide (e.1 = k)) h.owed).map (·.2)
/-- A failure fills its slot, or adds to the count of a full one, which saturates. -/
def fillOwed (h : Group) (k : Nat) (o : Owed) : Group :=
  match owedAt h k with
  | none => { h with owed := insBy (fun e => [e.1]) (k, o) h.owed }
  | some x => { h with owed := updIf (fun e => decide (e.1 = k)) (fun e => (e.1, { x with more := min (x.more + 1) 65535 })) h.owed }
/-- The filled slot that a taking point takes: of those it serves, the one whose operation was issued first (R409, log entry 29). -/
def owedServed (h : Group) (ks : List Nat) : Option (Nat × Owed) :=
  minBy (fun e => [e.2.seq]) (h.owed.filter (fun e => ks.contains e.1))
/-- A failed command or copy, by number, that holds the group's access: the access serves its slot (R409). -/
def servesHeld (h : Group) (id slot : Nat) : Group :=
  match h.waiting with
  | .held ops slots => if ops.contains id then { h with waiting := .held ops (slots ++ [slot]) } else h
  | _ => h
/-- Takes an owed trap: its slot empties, and the point does not execute. held: the slots that a held access still serves on return. -/
def takeOwed (s : State) (e : Nat × Owed) (held : List Nat := []) : State :=
  let o := e.2
  if trapWaits s then stall s
  else takeTrap { s with g := { s.g with owed := s.g.owed.filter (fun x => decide (x.1 ≠ e.1)) } }
    { code := o.code, detail := o.detail, unit := o.unit, addr := o.addr, lanes := o.lanes, done := o.done, more := o.more,
      remote := o.remote, fpos := some (o.pos, o.off), held := held }
def allTiles : List Nat := List.range 16
def slotsEng : List Nat := List.range 17
def slotsAll : List Nat := List.range 20

-- team barriers and the end of a slot (R273, R302)

/-- Slots that count as arrived by themselves: ended and hollow ones (R288, R302). -/
def autoArrived (t : Team) : BitVec 16 := t.ended ||| t.hollow
def teamFull (t : Team) (m : BitVec 16) : Bool := (List.range t.size).all (fun i => m.getLsbD i)
/-- Completes the phases of a team's barriers that every slot has arrived in; a barrier in which nothing has arrived waits. -/
def completeBars (t : Team) : Team :=
  { t with bars := t.bars.map (fun b =>
      if b.arrived ≠ 0 ∧ teamFull t (b.arrived ||| autoArrived t) then { phase := b.phase + 1, arrived := 0 } else b) }
def arriveBar (t : Team) (id ginteam : Nat) : Team :=
  completeBars { t with bars := setAt t.bars id { (t.bars.getD id {}) with arrived := (t.bars.getD id {}).arrived ||| (1#16 <<< ginteam) } }

/-- The current group's slot ends: tiles, wave slot and granules are released (R299), its team's barriers see it. -/
def endSlot (s : State) : State :=
  let h := s.g
  let s1 := updTeam s h.team (fun t => completeBars { t with ended := t.ended ||| (1#16 <<< h.ginteam) })
  { s1 with g := {}, teams := s1.teams.filter (fun t => !(decide (t.id = h.team) && teamFull t t.ended)),
            passes := s1.passes.map (fun p => if h.ctx.frag && decide (p.launch = h.ctx.launch) then
              { p with live := p.live.filter (fun e => !(h.frags.any (fun f => decide (f.2.seq = e.2 ∧ f.2.x + 65536 * f.2.y = e.1)))) } else p) }

-- the ALU pipeline (R94 to R96)

/-- An ALU or XLANE instruction of n words: reads are the registers it reads, res the words and flags of a lane. POISON
comes first; an enabled flag traps with no destination written (R80), and while that trap waits no flag is raised either (R94); else every active lane's destination is written. -/
def alu (s : State) (n : Nat) (reads : List Nat) (d : Dst) (res : Nat → List Word × BitVec 5) (post : Group → Group := id) : State :=
  let h := s.g
  let ls := activeLanes h
  let bad := poisonLanes h reads ls
  if bad ≠ [] then takeTrap s { code := 6, lanes := maskOf bad }
  else
    let fl := orFlags (ls.map (fun l => (res l).2))
    let h1 := { h with flags := h.flags ||| fl }
    if fl &&& h.ctx.kernel.fptrap ≠ 0 then
      trapAfter s { s with g := h1 } { code := 15, detail := fl.toNat, lanes := maskOf (ls.filter (fun l => (res l).2 &&& h.ctx.kernel.fptrap ≠ 0)) }
    else { s with g := advance (post (writeLanes h1 d ls (fun l => (res l).1))) n }

/-- An integer, bitwise or move instruction: it raises no flag (R96). -/
def aluInt (s : State) (n : Nat) (reads : List Nat) (d : Dst) (res : Nat → List Word) : State := alu s n reads d (fun l => (res l, 0))

end Sys2Proof.Machine
end

