-- ==== Sys2Proof/Machine/Flags.lean ====
section
/-!
DEFINITION. Machine/Flags.lean: what the integer types, relations and shifts compute, and the sticky flags as MOVS reads
them (04 R79, 05 R98 to R104).
-/
namespace Sys2Proof.Machine

def tyWide : IntTy → Bool
  | .s32 => false | .n32 => false | .s64 => true | .n64 => true
def tyBits (ty : IntTy) : Nat := if tyWide ty then 64 else 32
def tySigned : IntTy → Bool
  | .s32 => true | .n32 => false | .s64 => true | .n64 => false
def tyMin (ty : IntTy) : Int := if tySigned ty then -(2 ^ (tyBits ty - 1) : Int) else 0
def tyMax (ty : IntTy) : Int := if tySigned ty then 2 ^ (tyBits ty - 1) - 1 else 2 ^ tyBits ty - 1
/-- An exact value in a type: wrapped, or saturated under .sat (R57, R98). -/
def tyResult (ty : IntTy) (sat : Bool) (x : Int) : Nat := wrapN (tyBits ty) (if sat then satI x (tyMin ty) (tyMax ty) else x)
def nRegs (wide : Bool) : Nat := if wide then 2 else 1
def nBits (wide : Bool) : Nat := if wide then 64 else 32

/-- The logical operations on n-bit numbers (R100). -/
def notN (n x : Nat) : Nat := 2 ^ n - 1 - x % 2 ^ n
/-- ROL (R101). -/
def rolN (n x k : Nat) : Nat := (x * 2 ^ k % 2 ^ n) + x % 2 ^ n / 2 ^ (n - k)
/-- Leading and trailing zeros, and bit reversal (R102). -/
def clzN (n x : Nat) : Nat := if x = 0 then n else n - 1 - Nat.log2 x
def ctzN : Nat → Nat → Nat
  | 0, _ => 0
  | n + 1, x => if x % 2 = 1 then 0 else 1 + ctzN n (x / 2)
def revN : Nat → Nat → Nat
  | 0, _ => 0
  | n + 1, x => (x % 2) * 2 ^ n + revN n (x / 2)
/-- The offset and the effective length of a bit field (R103). -/
def fieldOff (b : Nat) : Nat := b % 32
def fieldLen (b : Nat) : Nat := min (min (b / 256 % 64) 32) (32 - fieldOff b)

/-- The relations of R104. -/
inductive Rel where
  | eq | ne | lt | le | gt | ge
  deriving DecidableEq, Repr
def Rel.holds : Rel → Int → Int → Bool
  | .eq, a, b => decide (a = b)
  | .ne, a, b => decide (a ≠ b)
  | .lt, a, b => decide (a < b)
  | .le, a, b => decide (a ≤ b)
  | .gt, a, b => decide (a > b)
  | .ge, a, b => decide (a ≥ b)

end Sys2Proof.Machine
end

