-- ==== Sys2Proof/Machine/IntAlu.lean ====
section
/-!
DEFINITION. Machine/IntAlu.lean: integer arithmetic, bitwise operations, shifts, bit fields, compares, moves and addresses
(05 R98 to R107).
-/
namespace Sys2Proof.Machine

/-- Two sources of one type into a destination of that type (R98). -/
def intOp2 (d : Dst) (a b : Src) (ty : IntTy) (sat : Bool) (op : Int → Int → Int) (s : State) : Out :=
  let n := nRegs (tyWide ty)
  .next (aluInt s (1 + litsOf a + litsOf b) (srcRegs a n ++ srcRegs b n) d
    (fun l => resWords (tyWide ty) (tyResult ty sat (op (srcInt s.g ty a l) (srcInt s.g ty b l)))))
/-- Two unsigned sources of 32 or 64 bits. -/
def natOp2 (d : Dst) (a b : Src) (w : Bool) (op : Nat → Nat → Nat) (s : State) : Out :=
  .next (aluInt s (1 + litsOf a + litsOf b) (srcRegs a (nRegs w) ++ srcRegs b (nRegs w)) d
    (fun l => resWords w (op (srcNat s.g w a l) (srcNat s.g w b l))))
/-- A shift: the amount is a 32-bit source at both widths (R101). -/
def shiftOp (d : Dst) (a b : Src) (w : Bool) (op : Nat → Nat → Nat) (s : State) : Out :=
  .next (aluInt s (1 + litsOf a + litsOf b) (srcRegs a (nRegs w) ++ srcRegs b 1) d
    (fun l => resWords w (op (srcNat s.g w a l) ((src32 s.g b l).toNat % nBits w))))
/-- One unsigned source; out says whether the result takes a pair. -/
def natOp1 (d : Dst) (a : Src) (w out : Bool) (op : Nat → Nat) (s : State) : Out :=
  .next (aluInt s (1 + litsOf a) (srcRegs a (nRegs w)) d (fun l => resWords out (op (srcNat s.g w a l))))
/-- A compare (R104): unsigned or signed. -/
def cmpOp (d : Dst) (a b : Src) (ty : IntTy) (r : Rel) (s : State) : Out :=
  let n := nRegs (tyWide ty)
  .next (aluInt s (1 + litsOf a + litsOf b) (srcRegs a n ++ srcRegs b n) d
    (fun l => [if r.holds (srcInt s.g ty a l) (srcInt s.g ty b l) then 1 else 0]))
def cmp32 (d : Dst) (a b : Src) (u : Bool) (r : Rel) (s : State) : Out := cmpOp d a b (if u then .n32 else .s32) r s
def cmp64 (d : Dst) (a b : Src) (u : Bool) (r : Rel) (s : State) : Out := cmpOp d a b (if u then .n64 else .s64) r s
/-- An I form on a 32-bit source (R98, R100, R101). -/
def immOp (d : Dst) (a : Src) (op : Nat → Nat) (s : State) : Out := natOp1 d a false false op s
/-- sign_extend(imm, 32) as an unsigned number. -/
def imm32 (m : BitVec 11) : Nat := (m.signExtend 32).toNat

def execAdd (d : Dst) (a b : Src) (ty : IntTy) (sat : Bool) (s : State) : Out := intOp2 d a b ty sat (· + ·) s
def execSub (d : Dst) (a b : Src) (ty : IntTy) (sat : Bool) (s : State) : Out := intOp2 d a b ty sat (· - ·) s
def execMul (d : Dst) (a b : Src) (ty : IntTy) (sat : Bool) (s : State) : Out := intOp2 d a b ty sat (· * ·) s
/-- The upper half of the exact product. -/
def execMulh (d : Dst) (a b : Src) (ty : IntTy) (s : State) : Out := intOp2 d a b ty false (fun x y => x * y / 2 ^ tyBits ty) s
/-- d is the addend (R95). -/
def execMad (d : Dst) (a b : Src) (ty : IntTy) (s : State) : Out :=
  let w := tyWide ty
  .next (aluInt s (1 + litsOf a + litsOf b) (srcRegs a (nRegs w) ++ srcRegs b (nRegs w) ++ dstRegs d (nRegs w)) d
    (fun l => resWords w (tyResult ty false (srcInt s.g ty a l * srcInt s.g ty b l +
      (if w then ((dst64 s.g d l).toNat : Int) else ((dst32 s.g d l).toNat : Int))))))
def execMin (d : Dst) (a b : Src) (ty : IntTy) (s : State) : Out := intOp2 d a b ty false (fun x y => if x ≤ y then x else y) s
def execMax (d : Dst) (a b : Src) (ty : IntTy) (s : State) : Out := intOp2 d a b ty false (fun x y => if y ≤ x then x else y) s
/-- One signed source: a 32-bit literal of a 64-bit form is sign-extended (R36). -/
def sgnOp1 (d : Dst) (a : Src) (w : Bool) (op : Int → Int) (s : State) : Out :=
  .next (aluInt s (1 + litsOf a) (srcRegs a (nRegs w)) d
    (fun l => resWords w (wrapN (nBits w) (op (srcInt s.g (if w then .s64 else .s32) a l)))))
def execNeg (d : Dst) (a : Src) (w : Bool) (s : State) : Out := sgnOp1 d a w (fun x => -x) s
def execAbs (d : Dst) (a : Src) (w : Bool) (s : State) : Out := sgnOp1 d a w (fun x => (x.natAbs : Int)) s
def execAnd (d : Dst) (a b : Src) (w : Bool) (s : State) : Out := natOp2 d a b w Nat.land s
def execOr (d : Dst) (a b : Src) (w : Bool) (s : State) : Out := natOp2 d a b w Nat.lor s
def execXor (d : Dst) (a b : Src) (w : Bool) (s : State) : Out := natOp2 d a b w Nat.xor s
def execAndn (d : Dst) (a b : Src) (w : Bool) (s : State) : Out := natOp2 d a b w (fun x y => Nat.land x (notN (nBits w) y)) s
def execOrn (d : Dst) (a b : Src) (w : Bool) (s : State) : Out := natOp2 d a b w (fun x y => Nat.lor x (notN (nBits w) y)) s
def execXnor (d : Dst) (a b : Src) (w : Bool) (s : State) : Out := natOp2 d a b w (fun x y => notN (nBits w) (Nat.xor x y)) s
def execShl (d : Dst) (a b : Src) (w : Bool) (s : State) : Out := shiftOp d a b w (fun x k => x * 2 ^ k % 2 ^ nBits w) s
def execShrN (d : Dst) (a b : Src) (w : Bool) (s : State) : Out := shiftOp d a b w (fun x k => x / 2 ^ k) s
def execShrS (d : Dst) (a b : Src) (w : Bool) (s : State) : Out := 
  .next (aluInt s (1 + litsOf a + litsOf b) (srcRegs a (nRegs w) ++ srcRegs b 1) d (fun l =>
    resWords w (wrapN (nBits w) (srcInt s.g (if w then .s64 else .s32) a l / 2 ^ ((src32 s.g b l).toNat % nBits w)))))
def execRol (d : Dst) (a b : Src) (w : Bool) (s : State) : Out := shiftOp d a b w (rolN (nBits w)) s
def execPopc (d : Dst) (a : Src) (w : Bool) (s : State) : Out := natOp1 d a w false (popN (nBits w)) s
def execClz (d : Dst) (a : Src) (w : Bool) (s : State) : Out := natOp1 d a w false (clzN (nBits w)) s
def execCtz (d : Dst) (a : Src) (w : Bool) (s : State) : Out := natOp1 d a w false (ctzN (nBits w)) s
def execBrev (d : Dst) (a : Src) (w : Bool) (s : State) : Out := natOp1 d a w w (revN (nBits w)) s
def execBfx (d : Dst) (a b : Src) (signed : Bool) (s : State) : Out :=
  natOp2 d a b false (fun x y =>
    let n := fieldLen y
    let v := x / 2 ^ fieldOff y % 2 ^ n
    if n = 0 then 0 else if signed then wrapN 32 (sx n v) else v) s
def execBfi (d : Dst) (a b : Src) (s : State) : Out :=
  .next (aluInt s (1 + litsOf a + litsOf b) (srcRegs a 1 ++ srcRegs b 1 ++ dstRegs d 1) d (fun l =>
    let y := (src32 s.g b l).toNat
    let old := (dst32 s.g d l).toNat
    let o := fieldOff y
    let n := fieldLen y
    [BitVec.ofNat 32 (old % 2 ^ o + (src32 s.g a l).toNat % 2 ^ n * 2 ^ o + old / 2 ^ (o + n) * 2 ^ (o + n))]))
def execCmpeq32 (d : Dst) (a b : Src) (u : Bool) (s : State) : Out := cmp32 d a b u .eq s
def execCmpne32 (d : Dst) (a b : Src) (u : Bool) (s : State) : Out := cmp32 d a b u .ne s
def execCmplt32 (d : Dst) (a b : Src) (u : Bool) (s : State) : Out := cmp32 d a b u .lt s
def execCmple32 (d : Dst) (a b : Src) (u : Bool) (s : State) : Out := cmp32 d a b u .le s
def execCmpgt32 (d : Dst) (a b : Src) (u : Bool) (s : State) : Out := cmp32 d a b u .gt s
def execCmpge32 (d : Dst) (a b : Src) (u : Bool) (s : State) : Out := cmp32 d a b u .ge s
def execCmpeq64 (d : Dst) (a b : Src) (u : Bool) (s : State) : Out := cmp64 d a b u .eq s
def execCmpne64 (d : Dst) (a b : Src) (u : Bool) (s : State) : Out := cmp64 d a b u .ne s
def execCmplt64 (d : Dst) (a b : Src) (u : Bool) (s : State) : Out := cmp64 d a b u .lt s
def execCmple64 (d : Dst) (a b : Src) (u : Bool) (s : State) : Out := cmp64 d a b u .le s
def execCmpgt64 (d : Dst) (a b : Src) (u : Bool) (s : State) : Out := cmp64 d a b u .gt s
def execCmpge64 (d : Dst) (a b : Src) (u : Bool) (s : State) : Out := cmp64 d a b u .ge s
/-- Bit 0 of d, of its even register in the pair form, chooses (R105). -/
def execSel (d : Dst) (a b : Src) (w : Bool) (s : State) : Out :=
  .next (aluInt s (1 + litsOf a + litsOf b) (srcRegs a (nRegs w) ++ srcRegs b (nRegs w) ++ dstRegs d 1) d
    (fun l => resWords w (if (dst32 s.g d l).getLsbD 0 then srcNat s.g w a l else srcNat s.g w b l)))
def execMov (d : Dst) (a : Src) (w : Bool) (s : State) : Out := natOp1 d a w w (fun x => x) s
def execLea (d : Dst) (a b : Src) (k : Nat) (s : State) : Out :=
  .next (aluInt s (1 + litsOf a + litsOf b) (srcRegs a 2 ++ srcRegs b 1) d
    (fun l => resWords true (wrapN 64 (((src64 s.g false a l).toNat : Int) + (src32 s.g b l).toInt * 2 ^ k))))
def execAddImm32 (d : Dst) (a : Src) (m : BitVec 11) (s : State) : Out := immOp d a (fun x => (x + imm32 m) % 4294967296) s
/-- A 32-bit literal in a is zero-extended whichever spelling is written (R98). -/
def execAddImm64 (d : Dst) (a : Src) (m : BitVec 11) (s : State) : Out := natOp1 d a true true (fun x => wrapN 64 ((x : Int) + m.toInt)) s
def execAndImm (d : Dst) (a : Src) (m : BitVec 11) (s : State) : Out := immOp d a (fun x => Nat.land x (imm32 m)) s
def execOrImm (d : Dst) (a : Src) (m : BitVec 11) (s : State) : Out := immOp d a (fun x => Nat.lor x (imm32 m)) s
def execXorImm (d : Dst) (a : Src) (m : BitVec 11) (s : State) : Out := immOp d a (fun x => Nat.xor x (imm32 m)) s
def execShlImm (d : Dst) (a : Src) (m : BitVec 11) (s : State) : Out := immOp d a (fun x => x * 2 ^ (m.toNat % 32) % 4294967296) s
def execShrNImm (d : Dst) (a : Src) (m : BitVec 11) (s : State) : Out := immOp d a (fun x => x / 2 ^ (m.toNat % 32)) s
def execShrSImm (d : Dst) (a : Src) (m : BitVec 11) (s : State) : Out := immOp d a (fun x => wrapN 32 (sx 32 x / 2 ^ (m.toNat % 32))) s
def execMulImm (d : Dst) (a : Src) (m : BitVec 11) (s : State) : Out := immOp d a (fun x => x * imm32 m % 4294967296) s
def execMovImm (d : Dst) (m : BitVec 11) (s : State) : Out := .next (aluInt s 1 [] d (fun _ => [m.signExtend 32]))
def execPacklo (d : Dst) (a b : Src) (s : State) : Out := natOp2 d a b false (fun x y => x % 65536 + y % 65536 * 65536) s
def execPackhi (d : Dst) (a b : Src) (s : State) : Out := natOp2 d a b false (fun x y => x / 65536 + y / 65536 * 65536) s

end Sys2Proof.Machine
end

