-- ==== Sys2Proof/Decode.lean ====
section
/-!
DEFINITION. Decode.lean: the decoder of instruction words (02 R31 to R40, 03) and the encoder. Checks 1 to 6 of R40 in
order; a failing check is named by its number, which is the trap's detail (R68).
-/
namespace Sys2Proof

/-- What a word is decoded under: the header's class, whether the word is the clause's last, the kernel's REGROUP flag
and register count, and whether JOIN stands before it and a divergent branch after it in its clause (R67). -/
structure DCtx where
  cls : Nat
  last : Bool
  regroup : Bool
  regs : Nat
  prevJoin : Bool
  nextDbr : Bool
  deriving DecidableEq, Repr

/-- The fields of the four formats (R31). -/
structure Fields where
  op : Nat
  d : Nat
  a : Nat
  b : Nat
  fn : Nat
  imm : Nat
  sz : Nat
  ord : Nat
  scp : Nat
  sp : Nat
  cond : Nat
  off : Nat
  deriving DecidableEq, Repr

def Fields.of (w : Nat) : Fields where
  op := w / 33554432 % 128
  d := w / 262144 % 128
  a := w / 2048 % 128
  b := w / 16 % 128
  fn := w % 16
  imm := w % 2048
  sz := w / 256 % 8
  ord := w / 64 % 4
  scp := w / 8 % 8
  sp := w % 8
  cond := w / 2097152 % 16
  off := w % 2097152

/-- What an operand field is: unused (R33); written, or read under R38 and R56, naming n registers at a multiple of al;
a source of n registers (R36); or the t of a store that takes no literal at its size, and claims the words of one all the same (R23, R201). -/
inductive Fld where
  | un (c : Nat)
  | w (c n al : Nat)
  | s (c n : Nat)
  | t (c n : Nat)
  deriving DecidableEq, Repr

/-- A word whose op and variant are assigned: its class, whether it transfers control, its fields, what checks 3, 5 and 6
ask beside the fields, and the instruction it stands for. -/
structure Row where
  cls : Nat
  fs : List Fld
  i : Instr
  ctl : Bool := false
  regroup : Bool := false
  x3 : Bool := true
  x5 : Bool := true
  top : Nat := 0
  x6 : Bool := true
  isJoin : Bool := false
  isDbr : Bool := false

def toDst (c : Nat) : Dst := if c < 120 then .reg c else .zero

def toSrc (l : List Word) (c : Nat) : Src :=
  if c < 120 then .reg c
  else if c = 121 then .lane
  else if c = 122 then .grpix
  else if c = 123 then .teamix
  else if c = 126 then .lit32 (l.getD 0 0)
  else if c = 127 then .lit64 (DWord.ofPair (l.getD 0 0) (l.getD 1 0))
  else .zero

def toTy (n : Nat) : IntTy := if n = 0 then .s32 else if n = 1 then .n32 else if n = 2 then .s64 else .n64
/-- Registers an integer type takes. -/
def tyRegs : IntTy → Nat
  | .s32 => 1 | .n32 => 1 | .s64 => 2 | .n64 => 2
def toFTy (n : Nat) : FloatTy := if n = 0 then .f32 else if n = 1 then .f16 else .bf16
def toRnd (n : Nat) : Rnd := if n = 0 then .rne else if n = 1 then .rtz else if n = 2 then .rup else .rdn
def toCvt (n : Nat) : CvtTy :=
  match n with
  | 0 => .f32 | 1 => .f16 | 2 => .bf16 | 3 => .e4m3 | 4 => .e5m2 | 5 => .s32 | 6 => .n32 | 7 => .s64 | 8 => .n64
  | 9 => .s16 | 10 => .n16 | 11 => .s8 | _ => .n8
def cvtRegs : CvtTy → Nat
  | .s64 => 2 | .n64 => 2 | _ => 1
def toRed (n : Nat) : RedOp :=
  match n with
  | 0 => .add32 | 1 => .addF32 | 2 => .minS32 | 3 => .minN32 | 4 => .maxS32 | 5 => .maxN32 | 6 => .minF32 | 7 => .maxF32
  | 8 => .and32 | 9 => .or32 | 10 => .xor32 | _ => .add64
def toSp (n : Nat) : Space := if n = 0 then .g else if n = 1 then .s else if n = 2 then .rg else if n = 3 then .c else .p
def toOrd (n : Nat) : MOrd := if n = 0 then .rlx else if n = 1 then .acq else if n = 2 then .rel else .sc
def toScp (n : Nat) : Scope :=
  if n = 0 then .grp else if n = 1 then .core else if n = 2 then .team else if n = 3 then .dev else .sys
def toSz (n : Nat) : Sz :=
  if n = 0 then .b1 else if n = 1 then .b2 else if n = 2 then .b4 else if n = 3 then .b8 else if n = 4 then .b16 else .b32

/-- The selectors of R117; a code the table does not assign has none. -/
def toSel (n : Nat) : Option Sel :=
  match n with
  | 0x000 => some .width | 0x001 => some .teamsize | 0x002 => some .ginteam | 0x003 => some .teams | 0x004 => some .regs
  | 0x006 => some .origgrp | 0x007 => some .origlane | 0x008 => some .active | 0x010 => some .flags
  | 0x011 => some .flagsclr | 0x012 => some .srseq | 0x020 => some .time | 0x021 => some .cycle | 0x022 => some .coreid
  | 0x023 => some .regionid | 0x030 => some .krec | 0x031 => some .lrec | 0x032 => some .args | 0x033 => some .skey
  | 0x040 => some (.slot 0) | 0x041 => some (.slot 1) | 0x042 => some (.slot 2) | 0x043 => some (.slot 3)
  | 0x044 => some (.slot 4) | 0x045 => some (.slot 5) | 0x046 => some (.slot 6) | 0x047 => some (.slot 7)
  | 0x050 => some .deadline
  | _ => none
/-- Registers a selector writes (R117). -/
def selRegs : Sel → Nat
  | .active => 2 | .time => 2 | .cycle => 2 | .krec => 2 | .lrec => 2 | .args => 2 | .skey => 2 | .slot _ => 2
  | .deadline => 2 | _ => 1

/-- A T-format row with a written field and two sources of given sizes. -/
def rT (f : Fields) (cls nd na nb : Nat) (i : Instr) : Option Row :=
  some { cls := cls, fs := [.w f.d nd nd, .s f.a na, .s f.b nb], i := i }
/-- The same with b unused. -/
def rU (f : Fields) (cls nd na : Nat) (i : Instr) : Option Row :=
  some { cls := cls, fs := [.w f.d nd nd, .s f.a na, .un f.b], i := i }
/-- A T-format row of an ENG or GFX opcode with fn 0. -/
def fn0 (f : Fields) (r : Row) : Option Row := if f.fn = 0 then some r else none
def rImm (f : Fields) (nd na : Nat) (x6 : Bool) (i : Instr) : Option Row :=
  some { cls := 0, fs := [.w f.d nd nd, .s f.a na], x6 := x6, i := i }
/-- An M-format row: t's field, and what check 6 asks of sz, sp and ord (R63). -/
def rM (f : Fields) (t : Fld) (x6 : Bool) (i : Instr) : Option Row :=
  some { cls := 2, fs := [t, .s f.a (if f.sp = 0 then 2 else 1)],
         x3 := decide (f.sz < 6) && decide (f.scp < 5) && decide (f.sp < 5), x6 := x6, i := i }
def szBytes (n : Nat) : Nat := 2 ^ n
/-- Registers a size takes (R201). -/
def szRegs (n : Nat) : Nat := if n ≤ 2 then 1 else 2 ^ (n - 2)
def rAt (f : Fields) (lo hi : Nat) (nd al : Nat) (i : Instr) : Option Row :=
  rM f (.w f.d nd al) (decide (lo ≤ f.sz) && decide (f.sz ≤ hi) && decide (f.sp ≤ 3)) i

/-- ALU opcodes of integers, 0x00 to 0x1D (R57, R59). -/
def rowAlu (f : Fields) (l : List Word) : Option Row :=
  let D := toDst f.d
  let A := toSrc l f.a
  let B := toSrc l f.b
  let ty := toTy (f.fn % 4)
  let n := tyRegs ty
  let hi := decide (8 ≤ f.fn)
  let h := if 8 ≤ f.fn then 2 else 1
  let wq := decide (4 ≤ f.fn)
  let q := if 4 ≤ f.fn then 2 else 1
  let m := BitVec.ofNat 11 f.imm
  match f.op with
  | 0x00 => if f.fn < 8 then rT f 0 n n n (.add D A B ty (decide (4 ≤ f.fn))) else none
  | 0x01 => if f.fn < 8 then rT f 0 n n n (.sub D A B ty (decide (4 ≤ f.fn))) else none
  | 0x02 => if f.fn < 8 then rT f 0 n n n (.mul D A B ty (decide (4 ≤ f.fn))) else none
  | 0x03 => if f.fn < 4 then rT f 0 n n n (.mulh D A B ty) else none
  | 0x04 => if f.fn < 4 then rT f 0 n n n (.mad D A B ty) else none
  | 0x05 => if f.fn < 4 then rT f 0 n n n (.min D A B ty) else none
  | 0x06 => if f.fn < 4 then rT f 0 n n n (.max D A B ty) else none
  | 0x07 =>
    if f.fn = 0 then rU f 0 1 1 (.neg D A false) else if f.fn = 1 then rU f 0 1 1 (.abs D A false)
    else if f.fn = 2 then rU f 0 2 2 (.neg D A true) else if f.fn = 3 then rU f 0 2 2 (.abs D A true) else none
  | 0x08 =>
    if f.fn % 8 = 0 then rT f 0 h h h (.and D A B hi) else if f.fn % 8 = 1 then rT f 0 h h h (.or D A B hi)
    else if f.fn % 8 = 2 then rT f 0 h h h (.xor D A B hi) else if f.fn % 8 = 3 then rT f 0 h h h (.andn D A B hi)
    else if f.fn % 8 = 4 then rT f 0 h h h (.orn D A B hi) else if f.fn % 8 = 5 then rT f 0 h h h (.xnor D A B hi) else none
  | 0x09 =>
    if f.fn < 8 then
      if f.fn % 4 = 0 then rT f 0 q q 1 (.shl D A B wq) else if f.fn % 4 = 1 then rT f 0 q q 1 (.shrN D A B wq)
      else if f.fn % 4 = 2 then rT f 0 q q 1 (.shrS D A B wq) else rT f 0 q q 1 (.rol D A B wq)
    else none
  | 0x0A =>
    if f.fn < 8 then
      if f.fn % 4 = 0 then rU f 0 1 q (.popc D A wq) else if f.fn % 4 = 1 then rU f 0 1 q (.clz D A wq)
      else if f.fn % 4 = 2 then rU f 0 1 q (.ctz D A wq) else rU f 0 q q (.brev D A wq)
    else none
  | 0x0B => if f.fn < 2 then rT f 0 1 1 1 (.bfx D A B (decide (f.fn = 1))) else none
  | 0x0C => if f.fn = 0 then rT f 0 1 1 1 (.bfi D A B) else none
  | 0x0D =>
    if f.fn % 8 = 0 then rT f 0 1 1 1 (.cmpeq32 D A B hi) else if f.fn % 8 = 1 then rT f 0 1 1 1 (.cmpne32 D A B hi)
    else if f.fn % 8 = 2 then rT f 0 1 1 1 (.cmplt32 D A B hi) else if f.fn % 8 = 3 then rT f 0 1 1 1 (.cmple32 D A B hi)
    else if f.fn % 8 = 4 then rT f 0 1 1 1 (.cmpgt32 D A B hi) else if f.fn % 8 = 5 then rT f 0 1 1 1 (.cmpge32 D A B hi)
    else none
  | 0x0E =>
    if f.fn % 8 = 0 then rT f 0 1 2 2 (.cmpeq64 D A B hi) else if f.fn % 8 = 1 then rT f 0 1 2 2 (.cmpne64 D A B hi)
    else if f.fn % 8 = 2 then rT f 0 1 2 2 (.cmplt64 D A B hi) else if f.fn % 8 = 3 then rT f 0 1 2 2 (.cmple64 D A B hi)
    else if f.fn % 8 = 4 then rT f 0 1 2 2 (.cmpgt64 D A B hi) else if f.fn % 8 = 5 then rT f 0 1 2 2 (.cmpge64 D A B hi)
    else none
  | 0x0F => if f.fn < 2 then (if f.fn = 0 then rT f 0 1 1 1 (.sel D A B false) else rT f 0 2 2 2 (.sel D A B true)) else none
  | 0x10 => if f.fn < 2 then (if f.fn = 0 then rU f 0 1 1 (.mov D A false) else rU f 0 2 2 (.mov D A true)) else none
  | 0x11 => if f.fn < 5 then rT f 0 2 2 1 (.lea D A B f.fn) else none
  | 0x12 =>
    match toSel f.imm with
    | some s => some { cls := 0, fs := [.w f.d (selRegs s) (selRegs s), .un f.a], i := .movs D s }
    | none => none
  | 0x13 => fn0 f { cls := 0, fs := [.w f.d 4 4, .s f.a 2, .w f.b 4 4], i := .rng D A (toDst f.b) }
  | 0x14 => rImm f 1 1 true (.addImm32 D A m)
  | 0x15 => rImm f 2 2 true (.addImm64 D A m)
  | 0x16 => rImm f 1 1 true (.andImm D A m)
  | 0x17 => rImm f 1 1 true (.orImm D A m)
  | 0x18 => rImm f 1 1 true (.xorImm D A m)
  | 0x19 => rImm f 1 1 (decide (f.imm < 32)) (.shlImm D A m)
  | 0x1A => rImm f 1 1 (decide (f.imm < 32)) (.shrNImm D A m)
  | 0x1B => rImm f 1 1 (decide (f.imm < 32)) (.shrSImm D A m)
  | 0x1C => rImm f 1 1 true (.mulImm D A m)
  | 0x1D => some { cls := 0, fs := [.w f.d 1 1, .un f.a], i := .movImm D m }
  | _ => none

/-- ALU opcodes of floats, 0x20 to 0x2B (R58 to R60). -/
def rowFloat (f : Fields) (l : List Word) : Option Row :=
  let D := toDst f.d
  let A := toSrc l f.a
  let B := toSrc l f.b
  let ty := toFTy (f.fn / 4)
  let r := toRnd (f.fn % 4)
  let half := decide (8 ≤ f.fn)
  match f.op with
  | 0x20 => if f.fn < 12 then rT f 0 1 1 1 (.addF D A B ty r) else none
  | 0x21 => if f.fn < 12 then rT f 0 1 1 1 (.subF D A B ty r) else none
  | 0x22 => if f.fn < 12 then rT f 0 1 1 1 (.mulF D A B ty r) else none
  | 0x23 => if f.fn < 12 then rT f 0 1 1 1 (.fma D A B ty r) else none
  | 0x24 =>
    if f.fn < 12 then
      if f.fn % 4 = 0 then rT f 0 1 1 1 (.minF D A B ty) else if f.fn % 4 = 1 then rT f 0 1 1 1 (.maxF D A B ty) else none
    else none
  | 0x25 =>
    if f.fn % 8 = 0 then rT f 0 1 1 1 (.cmpeqF D A B half) else if f.fn % 8 = 1 then rT f 0 1 1 1 (.cmpneF D A B half)
    else if f.fn % 8 = 2 then rT f 0 1 1 1 (.cmpltF D A B half) else if f.fn % 8 = 3 then rT f 0 1 1 1 (.cmpleF D A B half)
    else if f.fn % 8 = 4 then rT f 0 1 1 1 (.cmpgtF D A B half) else if f.fn % 8 = 5 then rT f 0 1 1 1 (.cmpgeF D A B half)
    else if f.fn % 8 = 6 then rT f 0 1 1 1 (.cmpun D A B half) else rT f 0 1 1 1 (.cmpor D A B half)
  | 0x26 =>
    if f.fn < 12 then
      if f.fn % 4 = 0 then rU f 0 1 1 (.negF D A ty) else if f.fn % 4 = 1 then rU f 0 1 1 (.absF D A ty) else none
    else none
  | 0x27 => if f.fn < 12 then rU f 0 1 1 (.rnd D A ty r) else none
  | 0x28 =>
    if f.fn % 8 = 0 then rU f 0 1 1 (.rcp D A half) else if f.fn % 8 = 1 then rU f 0 1 1 (.rsq D A half)
    else if f.fn % 8 = 2 then rU f 0 1 1 (.sqrt D A half) else if f.fn % 8 = 3 then rU f 0 1 1 (.exp2 D A half)
    else if f.fn % 8 = 4 then rU f 0 1 1 (.log2 D A half) else if f.fn % 8 = 5 then rU f 0 1 1 (.sin D A half)
    else if f.fn % 8 = 6 then rU f 0 1 1 (.cos D A half) else rU f 0 1 1 (.tanh D A half)
  | 0x29 =>
    if f.imm % 16 ≤ 12 ∧ f.imm / 16 % 16 ≤ 12 ∧ f.imm % 16 ≠ f.imm / 16 % 16 then
      let t := toCvt (f.imm % 16)
      let s := toCvt (f.imm / 16 % 16)
      some { cls := 0, fs := [.w f.d (cvtRegs t) (cvtRegs t), .s f.a (cvtRegs s)],
             i := .cvt D A t s (toRnd (f.imm / 256 % 4)) (decide (f.imm / 1024 % 2 = 1)) }
    else none
  | 0x2A => some { cls := 0, fs := [.w f.d 1 1, .s f.a 1], x3 := decide (f.imm / 16 = 0),
                   i := .cvts D A (f.imm % 8) (decide (f.imm / 8 % 2 = 1)) }
  | 0x2B => if f.fn = 0 then rT f 0 1 1 1 (.packlo D A B) else if f.fn = 1 then rT f 0 1 1 1 (.packhi D A B) else none
  | _ => none

/-- XLANE opcodes (R61). -/
def rowXlane (f : Fields) (l : List Word) : Option Row :=
  let D := toDst f.d
  let A := toSrc l f.a
  let B := toSrc l f.b
  let wq := decide (4 ≤ f.fn)
  let q := if 4 ≤ f.fn then 2 else 1
  let c := if f.fn = 11 then 2 else 1
  match f.op with
  | 0x30 =>
    if f.fn < 8 then
      if f.fn % 4 = 0 then rT f 1 q q 1 (.shfl D A B wq) else if f.fn % 4 = 1 then rT f 1 q q 1 (.shflup D A B wq)
      else if f.fn % 4 = 2 then rT f 1 q q 1 (.shfldn D A B wq) else rT f 1 q q 1 (.shflx D A B wq)
    else none
  | 0x31 =>
    if f.fn = 0 then rU f 1 1 1 (.vany D A) else if f.fn = 1 then rU f 1 1 1 (.vall D A)
    else if f.fn = 2 then rU f 1 2 1 (.vbal D A) else if f.fn = 3 then rT f 1 2 1 1 (.vmatch D A B) else none
  | 0x32 => if f.fn < 12 then rU f 1 c c (.red D A (toRed f.fn)) else none
  | 0x33 => if f.fn < 12 then rU f 1 c c (.scan D A (toRed f.fn)) else none
  | 0x34 => if f.fn < 12 then rU f 1 c c (.xscan D A (toRed f.fn)) else none
  | 0x35 => some { cls := 1, fs := [.w f.d 1 1, .s f.a 1], x3 := decide (f.imm / 16 = 0),
                   i := .cvtb D A (f.imm % 8) (decide (f.imm / 8 % 2 = 1)) }
  | _ => none

/-- Whether LDM's address register, or a half of its pair, lies in its destination range (R208). -/
def ldmClash (f : Fields) : Bool :=
  decide (f.d < 120 ∧ f.a < 120 ∧ f.a < f.d + (f.imm % 32 + 1) ∧ f.d < f.a + (if f.imm / 32 % 8 = 0 then 2 else 1))

/-- MEM opcodes (R62, R63). Check 5 takes from sz the number of registers that t names, whether or not check 6 accepts the sz; 0x39 names one.
The t of ST at sz 4 and 5 names a register range, where a literal code claims no words (log entry 23). -/
def rowMem (f : Fields) (l : List Word) : Option Row :=
  let D := toDst f.d
  let A := toSrc l f.a
  let o := toOrd f.ord
  let c := toScp f.scp
  let e := toSp f.sp
  let z := toSz f.sz
  let n := szRegs f.sz
  let wd := decide (f.sz = 3)
  let cnt := f.imm % 32 + 1
  let isp := toSp (f.imm / 32 % 8)
  match f.op with
  | 0x38 => rM f (.w f.d n n) (decide (f.ord ≠ 2)) (.ld D A z o c e)
  | 0x39 => rM f (.w f.d 1 1) (decide (f.ord ≠ 2) && decide (f.sz ≤ 1)) (.ldSigned D A (decide (f.sz = 1)) o c e)
  | 0x3A => rM f (if f.sz ≤ 3 then .s f.d n else if f.sz ≤ 5 then .w f.d n n else .t f.d n) (decide (f.ord ≠ 1)) (.st (toSrc l f.d) A z o c e)
  | 0x3B => some { cls := 2, fs := [.w f.d cnt 1, .s f.a (if f.imm / 32 % 8 = 0 then 2 else 1)],
                   x3 := decide (f.imm / 32 < 5), x6 := !ldmClash f, i := .ldm D A cnt isp }
  | 0x3C => some { cls := 2, fs := [.w f.d cnt 1, .s f.a (if f.imm / 32 % 8 = 0 then 2 else 1)],
                   x3 := decide (f.imm / 32 < 5), i := .stm D A cnt isp }
  | 0x3D => rM f (.w f.d n n) (decide (f.ord ≠ 2) && decide (f.sz = 2) && (decide (f.sp = 1) || decide (f.sp = 2))) (.ldf D A o c e)
  | 0x3E => rM f (.w f.d n n) (decide (f.sz = 2) && (decide (f.sp = 1) || decide (f.sp = 2))) (.ldfe D A o c e)
  | 0x3F => rM f (if f.sz ≤ 3 then .s f.d n else .t f.d n)
      (decide (f.ord ≠ 1) && decide (f.sz = 2) && (decide (f.sp = 1) || decide (f.sp = 2))) (.stef (toSrc l f.d) A o c e)
  | 0x40 =>
    let rg := decide (f.fn / 4 % 2 = 1)
    if f.fn % 4 = 0 then some { cls := 2, fs := [.un f.d, .s f.a 1, .un f.b], x3 := decide (f.fn < 8), i := .setf A rg }
    else if f.fn % 4 = 1 then some { cls := 2, fs := [.un f.d, .s f.a 1, .un f.b], x3 := decide (f.fn < 8), i := .sete A rg }
    else if f.fn % 4 = 2 then some { cls := 2, fs := [.w f.d 1 1, .s f.a 1, .un f.b], x3 := decide (f.fn < 8), i := .trd D A rg }
    else none
  | 0x41 => rAt f 2 3 n n (.atadd D A wd o c e)
  | 0x42 => rAt f 2 3 n n (.atminS D A wd o c e)
  | 0x43 => rAt f 2 3 n n (.atminN D A wd o c e)
  | 0x44 => rAt f 2 3 n n (.atmaxS D A wd o c e)
  | 0x45 => rAt f 2 3 n n (.atmaxN D A wd o c e)
  | 0x46 => rAt f 2 3 n n (.atand D A wd o c e)
  | 0x47 => rAt f 2 3 n n (.ator D A wd o c e)
  | 0x48 => rAt f 2 3 n n (.atxor D A wd o c e)
  | 0x49 => rAt f 2 3 n n (.atxch D A wd o c e)
  | 0x4A => rAt f 2 3 (2 * n) (2 * n) (.atcas D A wd o c e)
  | 0x4B => rAt f 2 2 n n (.atfadd D A o c e)
  | 0x4C => rAt f 3 3 n n (.faddCp D A o c e)
  | 0x4D => some { cls := 2, fs := [.un f.d, .un f.a],
                   x3 := decide (f.sz < 6) && decide (f.scp < 5) && decide (f.sp < 5),
                   x6 := decide (f.sz = 0) && decide (f.sp = 0) && decide (f.ord ≠ 0), i := .fence o c }
  | _ => none

/-- ENG opcodes (R64, R143, R228). -/
def rowEng (f : Fields) (l : List Word) : Option Row :=
  let D := toDst f.d
  let A := toSrc l f.a
  let B := toSrc l f.b
  let r (fs : List Fld) (i : Instr) : Option Row := some { cls := 3, fs := fs, i := i }
  match f.op with
  | 0x50 => r [.w f.d 1 1, .s f.a 2, .s f.b 2] (.mma f.fn D A B)
  | 0x51 => r [.w f.d 1 1, .s f.a 2, .s f.b 2] (.mmap f.fn D A B)
  | 0x52 => r [.w f.d 1 1, .s f.a 2, .s f.b 2] (.mconv f.fn D A B)
  | 0x53 => r [.w f.d 1 1, .s f.a 1, .un f.b] (.mrd f.fn D A)
  | 0x54 => r [.w f.d 1 1, .s f.a 1, .un f.b] (.mwr f.fn D A)
  | 0x55 => r [.un f.d, .un f.a, .un f.b] (.mzero f.fn)
  | 0x56 => r [.w f.d 1 1, .s f.a 2, .un f.b] (.mst f.fn D A)
  | 0x57 => r [.un f.d, .un f.a, .un f.b] (.mtake f.fn)
  | 0x58 => r [.un f.d, .un f.a, .un f.b] (.mfree f.fn)
  | 0x59 => fn0 f { cls := 3, fs := [.w f.d 1 1, .s f.a 2, .un f.b], i := .cpy D A }
  | 0x5A => r [.w f.d 1 1, .s f.a 2, .un f.b] (.cpyn D A (f.fn % 8) (decide (8 ≤ f.fn)))
  | 0x5B => fn0 f { cls := 3, fs := [.w f.d 1 1, .s f.a 2, .un f.b], i := .cpyr D A }
  | 0x5C => fn0 f { cls := 3, fs := [.un f.d, .s f.a 2, .un f.b], i := .publish A }
  | 0x5D => fn0 f { cls := 3, fs := [.w f.d 1 1, .s f.a 1, .un f.b], i := .cpyq D A }
  | _ => none

/-- GFX opcodes (R65, R243, R256, R262 to R265, R270, R341). -/
def rowGfx (f : Fields) (l : List Word) : Option Row :=
  let D := toDst f.d
  let A := toSrc l f.a
  let B := toSrc l f.b
  match f.op with
  | 0x60 => fn0 f { cls := 4, fs := [.w f.d 2 2, .s f.a 2, .un f.b], i := .prim D A }
  | 0x61 => fn0 f { cls := 4, fs := [.w f.d 4 4, .s f.a 2, .un f.b], i := .fins D A }
  | 0x62 => fn0 f { cls := 4, fs := [.w f.d 4 4, .s f.a 2, .s f.b 1], i := .fpeek D A B }
  | 0x63 => if f.fn < 2 then some { cls := 4, fs := [.w f.d 2 2, .s f.a 2, .s f.b 1], i := .fres D A B (decide (f.fn = 1)) } else none
  | 0x64 => fn0 f { cls := 4, fs := [.un f.d, .s f.a 2, .s f.b 1], i := .fclr A B }
  | 0x65 => fn0 f { cls := 4, fs := [.un f.d, .s f.a 2, .un f.b], i := .encTile A }
  | 0x66 => fn0 f { cls := 4, fs := [.w f.d 2 2, .w f.a 8 8, .s f.b 2], i := .trvbox D (toDst f.a) B }
  | 0x67 => fn0 f { cls := 4, fs := [.w f.d 4 4, .w f.a 8 8, .s f.b 2], i := .trvtri D (toDst f.a) B }
  | 0x68 => fn0 f { cls := 4, fs := [.un f.d, .s f.a 2, .un f.b], i := .trvpsh A }
  | 0x69 => fn0 f { cls := 4, fs := [.w f.d 2 2, .un f.a, .un f.b], i := .trvpop D }
  | 0x6A =>
    if f.fn = 0 then some { cls := 4, fs := [.un f.d, .s f.a 1, .un f.b], i := .trvinstEnter A }
    else if f.fn = 1 then some { cls := 4, fs := [.un f.d, .un f.a, .un f.b], i := .trvinstLeave } else none
  | 0x6B => fn0 f { cls := 4, fs := [.w f.d 2 2, .s f.a 1, .un f.b], i := .trvrd D A }
  | _ => none

/-- CTL opcodes (R66, R281, R293, R301, R304, R308). top is the register count that cond or N asks for. -/
def rowCtl (f : Fields) (l : List Word) : Option Row :=
  let D := toDst f.d
  let A := toSrc l f.a
  let B := toSrc l f.b
  let o := BitVec.ofNat 21 f.off
  match f.op with
  | 0x6C => some { cls := 5, fs := [], ctl := true, x3 := decide (f.cond = 0), i := .bra o }
  | 0x6D => some { cls := 5, fs := [], ctl := true, top := f.cond + 1, i := .brt f.cond o }
  | 0x6E => some { cls := 5, fs := [], ctl := true, top := f.cond + 1, i := .brf f.cond o }
  | 0x6F => some { cls := 5, fs := [], x3 := decide (f.cond = 0), isJoin := true, i := .join o }
  | 0x70 => some { cls := 5, fs := [], ctl := true, top := f.cond + 1, isDbr := true, i := .dbrt f.cond o }
  | 0x71 => some { cls := 5, fs := [], ctl := true, top := f.cond + 1, isDbr := true, i := .dbrf f.cond o }
  | 0x72 => some { cls := 5, fs := [], ctl := true, x3 := decide (f.cond = 0), i := .call o }
  | 0x73 =>
    if f.fn = 0 then some { cls := 5, fs := [.un f.d, .un f.a, .un f.b], ctl := true, i := .ret }
    else if f.fn = 1 then some { cls := 5, fs := [.un f.d, .un f.a, .un f.b], ctl := true, i := .exit }
    else if f.fn = 2 then some { cls := 5, fs := [.un f.d, .un f.a, .un f.b], ctl := true, i := .rett }
    else if f.fn = 3 then some { cls := 5, fs := [.un f.d, .un f.a, .un f.b], ctl := true, i := .brkpt } else none
  | 0x74 => fn0 f { cls := 5, fs := [.un f.d, .un f.a, .un f.b], i := .barGrp }
  | 0x75 =>
    let x := decide (f.imm / 64 = 0)
    if f.imm / 16 % 4 = 0 then some { cls := 5, fs := [.un f.d, .un f.a], x3 := x, i := .barTeam (f.imm % 16) }
    else if f.imm / 16 % 4 = 1 then some { cls := 5, fs := [.un f.d, .un f.a], x3 := x, i := .barArv (f.imm % 16) }
    else if f.imm / 16 % 4 = 2 then some { cls := 5, fs := [.un f.d, .un f.a], x3 := x, i := .barWait (f.imm % 16) } else none
  | 0x76 =>
    if f.fn = 0 then rT f 5 1 1 1 (.semacq D A B)
    else if f.fn = 1 then some { cls := 5, fs := [.un f.d, .s f.a 1, .s f.b 1], i := .semrel A B }
    else if f.fn = 2 then some { cls := 5, fs := [.un f.d, .s f.a 1, .un f.b], i := .dbar A }
    else if f.fn = 3 then some { cls := 5, fs := [.un f.d, .s f.a 1, .un f.b], i := .dbara A }
    else if f.fn = 4 then some { cls := 5, fs := [.un f.d, .s f.a 1, .un f.b], i := .dbarw A }
    else if f.fn = 5 then some { cls := 5, fs := [.un f.d, .s f.a 1, .un f.b], i := .sbar A } else none
  | 0x77 => fn0 f { cls := 5, fs := [.w f.d 1 1, .s f.a 2, .s f.b 1], i := .enq D A B }
  | 0x78 => some { cls := 5, fs := [.w f.d 1 1, .un f.a], regroup := true, x5 := decide (f.imm % 16 ≠ 0), top := 8 * (f.imm % 16),
                   i := .regroup D (f.imm / 16) (f.imm % 16) }
  | _ => none

/-- The row a word selects, or none where its op or its variant is unassigned (check 1). l holds its literal words. -/
def rowOf (f : Fields) (l : List Word) : Option Row :=
  if f.op < 0x20 then rowAlu f l
  else if f.op < 0x30 then rowFloat f l
  else if f.op < 0x38 then rowXlane f l
  else if f.op < 0x50 then rowMem f l
  else if f.op < 0x60 then rowEng f l
  else if f.op < 0x6C then rowGfx f l
  else rowCtl f l

/-- Literal words a field claims (R23). -/
def Fld.lits : Fld → Nat
  | .s c _ => if c = 126 then 1 else if c = 127 then 2 else 0
  | .t c _ => if c = 126 then 1 else if c = 127 then 2 else 0
  | _ => 0
def sumLits : List Fld → Nat
  | [] => 0
  | x :: t => x.lits + sumLits t
/-- Literal words an instruction word claims (R23). -/
def litWords (w : Nat) : Nat :=
  match rowOf (Fields.of w) [] with
  | none => 0
  | some r => sumLits r.fs

def Fld.ok3 : Fld → Bool
  | .un c => decide (c = 0)
  | _ => true
def Fld.ok4 : Fld → Bool
  | .w c _ _ => decide (c < 126)
  | .s c n => decide (n = 2 ∨ c ≠ 127)
  | .t c _ => decide (c < 126)
  | _ => true
def Fld.isLit : Fld → Nat
  | .s c _ => if 126 ≤ c then 1 else 0
  | _ => 0
def countLits : List Fld → Nat
  | [] => 0
  | x :: t => x.isLit + countLits t
def Fld.ok5 (regs : Nat) : Fld → Bool
  | .w c n al => decide (c = 120 ∨ c < 120 ∧ c % al = 0 ∧ c + n ≤ regs)
  | .s c n => if c < 120 then decide (c % n = 0 ∧ c + n ≤ regs) else decide (c ≠ 124 ∧ c ≠ 125)
  | .t c n => decide (c = 120 ∨ c < 120 ∧ c % n = 0 ∧ c + n ≤ regs)
  | _ => true

/-- Checks 2 to 6 of R40 in order. -/
def Row.check (c : DCtx) (r : Row) : Except Nat Instr :=
  if ¬ (r.cls = c.cls) ∨ ((r.ctl || r.regroup) && !c.last) ∨ (r.regroup && !c.regroup) then .error 2
  else if ¬ (r.fs.all Fld.ok3 && r.x3) then .error 3
  else if ¬ (r.fs.all Fld.ok4 && decide (countLits r.fs ≤ 1)) then .error 4
  else if ¬ (r.fs.all (Fld.ok5 c.regs) && r.x5 && decide (r.top ≤ c.regs)) then .error 5
  else if ¬ (r.x6 && (!r.isJoin || c.nextDbr) && (!r.isDbr || c.prevJoin)) then .error 6
  else .ok r.i

/-- The decoder of one instruction word with its literal words. -/
def decodeWord (c : DCtx) (w : Nat) (l : List Word) : Except Nat Instr :=
  match rowOf (Fields.of w) l with
  | none => .error 1
  | some r => r.check c

/-- The class an opcode belongs to (R53). -/
def classOf (op : Nat) : Nat :=
  if op < 0x30 then 0 else if op < 0x38 then 1 else if op < 0x50 then 2 else if op < 0x60 then 3 else if op < 0x6C then 4 else 5

/-- Whether an opcode is JOIN, and whether it is a divergent branch. -/
def isJoinWord (w : Nat) : Bool := decide (w / 33554432 % 128 = 0x6F)
def isDbrWord (w : Nat) : Bool := decide (w / 33554432 % 128 = 0x70 ∨ w / 33554432 % 128 = 0x71)

/-- The least strict clause a word can stand in: its own class, last, a REGROUP kernel of 120 registers, JOIN before it,
a divergent branch after it. -/
def DCtx.wide (w : Nat) : DCtx :=
  { cls := classOf (w / 33554432 % 128), last := true, regroup := true, regs := 120, prevJoin := true, nextDbr := true }

/-- A word of the table of opcodes, decoded in the least strict clause, its literal words zero. -/
def decodeTableWord (nbits w : Nat) : Option Instr :=
  if nbits < 32 then none
  else
    let x := w % 4294967296
    match decodeWord (DCtx.wide x) x [BitVec.ofNat 32 (w / 4294967296), BitVec.ofNat 32 (w / 18446744073709551616)] with
    | .ok i => some i
    | .error _ => none
/-- The code of a written field. -/
def encDst : Dst → Nat
  | .reg n => n
  | .zero => 120
/-- The code of a source. -/
def encSrc : Src → Nat
  | .reg n => n
  | .zero => 120
  | .lane => 121
  | .grpix => 122
  | .teamix => 123
  | .lit32 _ => 126
  | .lit64 _ => 127
/-- The literal words of a source (R37). -/
def srcLits : Src → List Word
  | .lit32 w => [w]
  | .lit64 x => [x.lo, x.hi]
  | _ => []
def encTy : IntTy → Nat
  | .s32 => 0 | .n32 => 1 | .s64 => 2 | .n64 => 3
def encFTy : FloatTy → Nat
  | .f32 => 0 | .f16 => 1 | .bf16 => 2
def encRnd : Rnd → Nat
  | .rne => 0 | .rtz => 1 | .rup => 2 | .rdn => 3
def encCvt : CvtTy → Nat
  | .f32 => 0 | .f16 => 1 | .bf16 => 2 | .e4m3 => 3 | .e5m2 => 4 | .s32 => 5 | .n32 => 6 | .s64 => 7 | .n64 => 8
  | .s16 => 9 | .n16 => 10 | .s8 => 11 | .n8 => 12
def encRed : RedOp → Nat
  | .add32 => 0 | .addF32 => 1 | .minS32 => 2 | .minN32 => 3 | .maxS32 => 4 | .maxN32 => 5 | .minF32 => 6 | .maxF32 => 7
  | .and32 => 8 | .or32 => 9 | .xor32 => 10 | .add64 => 11
def encSp : Space → Nat
  | .g => 0 | .s => 1 | .rg => 2 | .c => 3 | .p => 4
def encOrd : MOrd → Nat
  | .rlx => 0 | .acq => 1 | .rel => 2 | .sc => 3
def encScp : Scope → Nat
  | .grp => 0 | .core => 1 | .team => 2 | .dev => 3 | .sys => 4
def encSz : Sz → Nat
  | .b1 => 0 | .b2 => 1 | .b4 => 2 | .b8 => 3 | .b16 => 4 | .b32 => 5
def encSel : Sel → Nat
  | .width => 0x000 | .teamsize => 0x001 | .ginteam => 0x002 | .teams => 0x003 | .regs => 0x004
  | .origgrp => 0x006 | .origlane => 0x007 | .active => 0x008 | .flags => 0x010 | .flagsclr => 0x011
  | .srseq => 0x012 | .time => 0x020 | .cycle => 0x021 | .coreid => 0x022 | .regionid => 0x023 | .krec => 0x030
  | .lrec => 0x031 | .args => 0x032 | .skey => 0x033 | .slot k => 0x040 + k | .deadline => 0x050
def encBool (b : Bool) (n : Nat) : Nat := if b then n else 0

/-- A word of format T, I, M or C from its fields (R31). -/
def mkT (op d a b fn : Nat) : Nat := op * 33554432 + d * 262144 + a * 2048 + b * 16 + fn
def mkI (op d a imm : Nat) : Nat := op * 33554432 + d * 262144 + a * 2048 + imm
def mkM (op t a sz ord scp sp : Nat) : Nat := op * 33554432 + t * 262144 + a * 2048 + sz * 256 + ord * 64 + scp * 8 + sp
def mkC (op cond off : Nat) : Nat := op * 33554432 + cond * 2097152 + off

/-- A T word of a destination and two sources, with their literal words. -/
def wT (op : Nat) (d : Dst) (a b : Src) (fn : Nat) : List Word :=
  BitVec.ofNat 32 (mkT op (encDst d) (encSrc a) (encSrc b) fn) :: (srcLits a ++ srcLits b)
/-- A T word with b unused. -/
def wU (op : Nat) (d : Dst) (a : Src) (fn : Nat) : List Word :=
  BitVec.ofNat 32 (mkT op (encDst d) (encSrc a) 0 fn) :: srcLits a
/-- A T word with d unused. -/
def wS (op : Nat) (a b : Src) (fn : Nat) : List Word :=
  BitVec.ofNat 32 (mkT op 0 (encSrc a) (encSrc b) fn) :: (srcLits a ++ srcLits b)
/-- A T word of one source. -/
def wA (op : Nat) (a : Src) (fn : Nat) : List Word := BitVec.ofNat 32 (mkT op 0 (encSrc a) 0 fn) :: srcLits a
/-- An I word. -/
def wI (op : Nat) (d : Dst) (a : Src) (imm : Nat) : List Word :=
  BitVec.ofNat 32 (mkI op (encDst d) (encSrc a) imm) :: srcLits a
/-- An M word whose t is written. -/
def wM (op : Nat) (t : Dst) (a : Src) (sz : Nat) (o : MOrd) (c : Scope) (e : Space) : List Word :=
  BitVec.ofNat 32 (mkM op (encDst t) (encSrc a) sz (encOrd o) (encScp c) (encSp e)) :: srcLits a
/-- An M word whose t is a source. -/
def wMS (op : Nat) (t a : Src) (sz : Nat) (o : MOrd) (c : Scope) (e : Space) : List Word :=
  BitVec.ofNat 32 (mkM op (encSrc t) (encSrc a) sz (encOrd o) (encScp c) (encSp e)) :: (srcLits t ++ srcLits a)
/-- A word with no operand. -/
def w0 (op fn : Nat) : List Word := [BitVec.ofNat 32 (mkT op 0 0 0 fn)]
def wC (op c : Nat) (o : BitVec 21) : List Word := [BitVec.ofNat 32 (mkC op c o.toNat)]

/-- The encoder: the words of an instruction, its own and its literals; an event has none. -/
def encode : Instr → List Word
  | .add d a b ty sat => wT 0 d a b (encTy ty + encBool sat 4)
  | .sub d a b ty sat => wT 1 d a b (encTy ty + encBool sat 4)
  | .mul d a b ty sat => wT 2 d a b (encTy ty + encBool sat 4)
  | .mulh d a b ty => wT 3 d a b (encTy ty)
  | .mad d a b ty => wT 4 d a b (encTy ty)
  | .min d a b ty => wT 5 d a b (encTy ty)
  | .max d a b ty => wT 6 d a b (encTy ty)
  | .neg d a w => wU 7 d a (encBool w 2)
  | .abs d a w => wU 7 d a (1 + encBool w 2)
  | .and d a b w => wT 8 d a b (0 + encBool w 8)
  | .or d a b w => wT 8 d a b (1 + encBool w 8)
  | .xor d a b w => wT 8 d a b (2 + encBool w 8)
  | .andn d a b w => wT 8 d a b (3 + encBool w 8)
  | .orn d a b w => wT 8 d a b (4 + encBool w 8)
  | .xnor d a b w => wT 8 d a b (5 + encBool w 8)
  | .shl d a b w => wT 9 d a b (0 + encBool w 4)
  | .shrN d a b w => wT 9 d a b (1 + encBool w 4)
  | .shrS d a b w => wT 9 d a b (2 + encBool w 4)
  | .rol d a b w => wT 9 d a b (3 + encBool w 4)
  | .popc d a w => wU 10 d a (0 + encBool w 4)
  | .clz d a w => wU 10 d a (1 + encBool w 4)
  | .ctz d a w => wU 10 d a (2 + encBool w 4)
  | .brev d a w => wU 10 d a (3 + encBool w 4)
  | .bfx d a b s => wT 11 d a b (encBool s 1)
  | .bfi d a b => wT 12 d a b 0
  | .cmpeq32 d a b u => wT 13 d a b (0 + encBool u 8)
  | .cmpne32 d a b u => wT 13 d a b (1 + encBool u 8)
  | .cmplt32 d a b u => wT 13 d a b (2 + encBool u 8)
  | .cmple32 d a b u => wT 13 d a b (3 + encBool u 8)
  | .cmpgt32 d a b u => wT 13 d a b (4 + encBool u 8)
  | .cmpge32 d a b u => wT 13 d a b (5 + encBool u 8)
  | .cmpeq64 d a b u => wT 14 d a b (0 + encBool u 8)
  | .cmpne64 d a b u => wT 14 d a b (1 + encBool u 8)
  | .cmplt64 d a b u => wT 14 d a b (2 + encBool u 8)
  | .cmple64 d a b u => wT 14 d a b (3 + encBool u 8)
  | .cmpgt64 d a b u => wT 14 d a b (4 + encBool u 8)
  | .cmpge64 d a b u => wT 14 d a b (5 + encBool u 8)
  | .sel d a b w => wT 15 d a b (encBool w 1)
  | .mov d a w => wU 16 d a (encBool w 1)
  | .lea d a b k => wT 17 d a b k
  | .movs d s => [BitVec.ofNat 32 (mkI 18 (encDst d) 0 (encSel s))]
  | .rng d a b => BitVec.ofNat 32 (mkT 19 (encDst d) (encSrc a) (encDst b) 0) :: srcLits a
  | .addImm32 d a m => wI 20 d a m.toNat
  | .addImm64 d a m => wI 21 d a m.toNat
  | .andImm d a m => wI 22 d a m.toNat
  | .orImm d a m => wI 23 d a m.toNat
  | .xorImm d a m => wI 24 d a m.toNat
  | .shlImm d a m => wI 25 d a m.toNat
  | .shrNImm d a m => wI 26 d a m.toNat
  | .shrSImm d a m => wI 27 d a m.toNat
  | .mulImm d a m => wI 28 d a m.toNat
  | .movImm d m => [BitVec.ofNat 32 (mkI 29 (encDst d) 0 m.toNat)]
  | .addF d a b ty r => wT 32 d a b (encFTy ty * 4 + encRnd r)
  | .subF d a b ty r => wT 33 d a b (encFTy ty * 4 + encRnd r)
  | .mulF d a b ty r => wT 34 d a b (encFTy ty * 4 + encRnd r)
  | .fma d a b ty r => wT 35 d a b (encFTy ty * 4 + encRnd r)
  | .minF d a b ty => wT 36 d a b (encFTy ty * 4)
  | .maxF d a b ty => wT 36 d a b (encFTy ty * 4 + 1)
  | .cmpeqF d a b h => wT 37 d a b (0 + encBool h 8)
  | .cmpneF d a b h => wT 37 d a b (1 + encBool h 8)
  | .cmpltF d a b h => wT 37 d a b (2 + encBool h 8)
  | .cmpleF d a b h => wT 37 d a b (3 + encBool h 8)
  | .cmpgtF d a b h => wT 37 d a b (4 + encBool h 8)
  | .cmpgeF d a b h => wT 37 d a b (5 + encBool h 8)
  | .cmpun d a b h => wT 37 d a b (6 + encBool h 8)
  | .cmpor d a b h => wT 37 d a b (7 + encBool h 8)
  | .negF d a ty => wU 38 d a (encFTy ty * 4)
  | .absF d a ty => wU 38 d a (encFTy ty * 4 + 1)
  | .rnd d a ty r => wU 39 d a (encFTy ty * 4 + encRnd r)
  | .rcp d a h => wU 40 d a (0 + encBool h 8)
  | .rsq d a h => wU 40 d a (1 + encBool h 8)
  | .sqrt d a h => wU 40 d a (2 + encBool h 8)
  | .exp2 d a h => wU 40 d a (3 + encBool h 8)
  | .log2 d a h => wU 40 d a (4 + encBool h 8)
  | .sin d a h => wU 40 d a (5 + encBool h 8)
  | .cos d a h => wU 40 d a (6 + encBool h 8)
  | .tanh d a h => wU 40 d a (7 + encBool h 8)
  | .cvt d a t s r sat => wI 41 d a (encCvt t + encCvt s * 16 + encRnd r * 256 + encBool sat 1024)
  | .cvts d a k f => wI 42 d a (k + encBool f 8)
  | .packlo d a b => wT 43 d a b 0
  | .packhi d a b => wT 43 d a b 1
  | .shfl d a b w => wT 48 d a b (0 + encBool w 4)
  | .shflup d a b w => wT 48 d a b (1 + encBool w 4)
  | .shfldn d a b w => wT 48 d a b (2 + encBool w 4)
  | .shflx d a b w => wT 48 d a b (3 + encBool w 4)
  | .vany d a => wU 49 d a 0
  | .vall d a => wU 49 d a 1
  | .vbal d a => wU 49 d a 2
  | .vmatch d a b => wT 49 d a b 3
  | .red d a op => wU 50 d a (encRed op)
  | .scan d a op => wU 51 d a (encRed op)
  | .xscan d a op => wU 52 d a (encRed op)
  | .cvtb d a k f => wI 53 d a (k + encBool f 8)
  | .ld t a z o c e => wM 56 t a (encSz z) o c e
  | .ldSigned t a h o c e => wM 57 t a (encBool h 1) o c e
  | .st t a z o c e => wMS 58 t a (encSz z) o c e
  | .ldm d a n e => wI 59 d a (n - 1 + encSp e * 32)
  | .stm d a n e => wI 60 d a (n - 1 + encSp e * 32)
  | .ldf t a o c e => wM 61 t a 2 o c e
  | .ldfe t a o c e => wM 62 t a 2 o c e
  | .stef t a o c e => wMS 63 t a 2 o c e
  | .setf a r => wA 64 a (encBool r 4)
  | .sete a r => wA 64 a (1 + encBool r 4)
  | .trd d a r => wU 64 d a (2 + encBool r 4)
  | .atadd t a w o c e => wM 65 t a (2 + encBool w 1) o c e
  | .atminS t a w o c e => wM 66 t a (2 + encBool w 1) o c e
  | .atminN t a w o c e => wM 67 t a (2 + encBool w 1) o c e
  | .atmaxS t a w o c e => wM 68 t a (2 + encBool w 1) o c e
  | .atmaxN t a w o c e => wM 69 t a (2 + encBool w 1) o c e
  | .atand t a w o c e => wM 70 t a (2 + encBool w 1) o c e
  | .ator t a w o c e => wM 71 t a (2 + encBool w 1) o c e
  | .atxor t a w o c e => wM 72 t a (2 + encBool w 1) o c e
  | .atxch t a w o c e => wM 73 t a (2 + encBool w 1) o c e
  | .atcas t a w o c e => wM 74 t a (2 + encBool w 1) o c e
  | .atfadd t a o c e => wM 75 t a 2 o c e
  | .faddCp t a o c e => wM 76 t a 3 o c e
  | .fence o c => [BitVec.ofNat 32 (mkM 77 0 0 0 (encOrd o) (encScp c) 0)]
  | .mma t d a b => wT 80 d a b t
  | .mmap t d a b => wT 81 d a b t
  | .mconv t d a b => wT 82 d a b t
  | .mrd t d a => wU 83 d a t
  | .mwr t d a => wU 84 d a t
  | .mzero t => w0 85 t
  | .mst t d a => wU 86 d a t
  | .mtake t => w0 87 t
  | .mfree t => w0 88 t
  | .cpy d a => wU 89 d a 0
  | .cpyn d a k p => wU 90 d a (k + encBool p 8)
  | .cpyr d a => wU 91 d a 0
  | .publish a => wA 92 a 0
  | .cpyq d a => wU 93 d a 0
  | .prim d a => wU 96 d a 0
  | .fins d a => wU 97 d a 0
  | .fpeek d a b => wT 98 d a b 0
  | .fres d a b x => wT 99 d a b (encBool x 1)
  | .fclr a b => wS 100 a b 0
  | .encTile a => wA 101 a 0
  | .trvbox d a b => BitVec.ofNat 32 (mkT 102 (encDst d) (encDst a) (encSrc b) 0) :: srcLits b
  | .trvtri d a b => BitVec.ofNat 32 (mkT 103 (encDst d) (encDst a) (encSrc b) 0) :: srcLits b
  | .trvpsh a => wA 104 a 0
  | .trvpop d => [BitVec.ofNat 32 (mkT 105 (encDst d) 0 0 0)]
  | .trvinstEnter a => wA 106 a 0
  | .trvinstLeave => w0 106 1
  | .trvrd d a => wU 107 d a 0
  | .bra o => wC 108 0 o
  | .brt c o => wC 109 c o
  | .brf c o => wC 110 c o
  | .join o => wC 111 0 o
  | .dbrt c o => wC 112 c o
  | .dbrf c o => wC 113 c o
  | .call o => wC 114 0 o
  | .ret => w0 115 0
  | .exit => w0 115 1
  | .rett => w0 115 2
  | .brkpt => w0 115 3
  | .barGrp => w0 116 0
  | .barTeam n => [BitVec.ofNat 32 (mkI 117 0 0 (n + 0))]
  | .barArv n => [BitVec.ofNat 32 (mkI 117 0 0 (n + 16))]
  | .barWait n => [BitVec.ofNat 32 (mkI 117 0 0 (n + 32))]
  | .semacq d a b => wT 118 d a b 0
  | .semrel a b => wS 118 a b 1
  | .dbar a => wA 118 a 2
  | .dbara a => wA 118 a 3
  | .dbarw a => wA 118 a 4
  | .sbar a => wA 118 a 5
  | .enq d a b => wT 119 d a b 0
  | .regroup k st n => [BitVec.ofNat 32 (mkI 120 (encDst k) 0 (n + st * 16))]
  | .clauseFetch _ => []
  | .waitMaskSatisfied _ => []
  | .storeQueueDrain _ => []
  | .loadDataReturn _ => []
  | .tagWaitSatisfied _ => []
  | .tagTimeout _ => []
  | .issueStallEnd _ => []
  | .tileBind _ => []
  | .matrixStep _ _ => []
  | .mstPerform _ => []
  | .mzeroPerform _ => []
  | .engineOff _ _ => []
  | .copyUnit _ => []
  | .turn _ => []
  | .primitiveRasterise _ => []
  | .fragmentInsert _ => []
  | .tileAccept _ => []
  | .frameEncode _ _ _ => []
  | .traversalResult _ => []
  | .regroupTimeout _ _ _ => []
  | .queueFetch _ _ => []
  | .queueTorn _ _ => []
  | .launchRelease _ => []
  | .teamPlace _ => []
  | .groupStop _ => []
  | .bobbinSave _ => []
  | .teamResume _ => []
  | .launchComplete _ => []
  | .watchdog _ => []
  | .hang _ _ => []
  | .functionLevelReset _ => []
  | .pageWalk _ _ => []
  | .patrolRead _ _ => []
  | .channelStep _ => []
  | .channelRetrainDone _ => []
  | .thermal _ => []
  | .clockStepUp _ => []
  | .thermalTrip _ => []
  | .powerUp => []
  | .powerRemoval => []
  | .linkDown _ => []
  | .linkRetry _ _ => []
  | .ptpEventMessage _ _ => []
  | .hostBarAccess _ _ _ => []
  | .registerWrite _ _ _ => []
  | .fuse _ => []
  | .split _ => []
  | .move _ => []
  | .ways _ => []
  | .keys _ => []
  | .leaseLender _ => []
  | .leaseBorrower _ => []
  | .reclaim _ => []
  | .leaseReturn _ => []
  | .leaseNoticeExpiry _ => []
  | .leaseQuota _ => []
  | .window _ => []
  | .admitEntry _ => []
  | .root _ => []
  | .invalRange _ => []
  | .invalSpace _ => []
  | .keyload _ => []
  | .keyErase _ => []
  | .queueCreate _ => []
  | .queueOpen _ => []
  | .queueClose _ => []
  | .queueRestart _ => []
  | .objectCreate _ => []
  | .objectDestroy _ => []
  | .objectRead _ => []
  | .ageing _ => []
  | .pool _ => []
  | .replsetRegister _ => []
  | .replsetRelease _ => []
  | .meter _ => []
  | .capture _ => []
  | .restore _ => []
  | .ratomic _ => []
  | .attest _ => []
  | .cert _ => []
  | .remoteCopyWrite _ _ _ _ _ => []
  | .cpyrAckTimeout _ => []
  | .remoteAtomicMessage _ _ _ _ _ _ _ => []
  | .startBarrierArrival _ _ _ => []
  | .replicaTimeout _ _ _ => []
  | .coreDrain _ => []
  | .remoteAcknowledgement _ _ => []
  | .hostWrite _ _ => []

end Sys2Proof
end

