-- ==== Sys2Proof/Machine/Sfu.lean ====
section
/-!
DEFINITION. Machine/Sfu.lean: the special functions (05 R113, R114): round_rne of the exact function. Square roots carry a
sticky part below the last bit; the transcendental ones are computed in fixed point to 2^-310, far below any distance to a
rounding boundary of binary32 or binary16 (log 13).
-/
namespace Sys2Proof.Machine

/-- Fraction bits of the fixed-point numbers. -/
def fxP : Nat := 320
def fxS : Int := 2 ^ 320
def fxMul (a b : Int) : Int := a * b / fxS
/-- An exact fraction in fixed point, rounded down. -/
def fxOf (q : Q) : Int := q.num * fxS / q.den
def qOfFx (x : Int) : Q := ⟨x, 2 ^ 320⟩

/-- Terms of e^x: the k-th is term. -/
def expSeries (x : Int) : Nat → Nat → Int → Int
  | 0, _, _ => 0
  | n + 1, k, term => term + expSeries x n (k + 1) (fxMul term x / (k + 1 : Nat))
def fxExp (x : Int) : Int := expSeries x 110 0 fxS
/-- Terms of the inverse hyperbolic tangent of z, whose square is given. -/
def atanhSeries (z2 : Int) : Nat → Nat → Int → Int
  | 0, _, _ => 0
  | n + 1, k, pow => pow / (2 * k + 1 : Nat) + atanhSeries z2 n (k + 1) (fxMul pow z2)
def fxAtanh (z : Int) : Int := atanhSeries (fxMul z z) 110 0 z
/-- ln 2 = 2 atanh(1/3). -/
def fxLn2 : Int := 2 * fxAtanh (fxS / 3)
/-- 2^f for f in [0, 1). -/
def fxExp2 (f : Int) : Int := fxExp (fxMul f fxLn2)

/-- Arctangent of 1/n scaled by 2^480: alternating terms. -/
def atanInv (n : Nat) : Nat → Nat → Int → Int
  | 0, _, _ => 0
  | m + 1, k, pow => (if k % 2 = 0 then pow / (2 * k + 1 : Nat) else -(pow / (2 * k + 1 : Nat))) + atanInv n m (k + 1) (pow / (n * n : Nat))
/-- pi scaled by 2^480 (Machin). -/
def piBig : Int := 16 * atanInv 5 110 0 (2 ^ 480 / 5) - 4 * atanInv 239 35 0 (2 ^ 480 / 239)

/-- Terms of the sine (from x) or the cosine (from 1): each is the last times -x^2 / (k (k+1)). -/
def trigSeries (x2 : Int) : Nat → Nat → Int → Int
  | 0, _, _ => 0
  | n + 1, k, term => term + trigSeries x2 n (k + 2) (-(fxMul term x2) / (k * (k + 1) : Nat))
def fxSin (x : Int) : Int := trigSeries (fxMul x x) 60 2 x
def fxCos (x : Int) : Int := trigSeries (fxMul x x) 60 1 fxS
/-- Sine or cosine of a non-negative exact argument: reduced by multiples of pi/2 exactly enough (R113). -/
def sinCos (cos : Bool) (q : Q) : Q :=
  let x := q.num * 2 ^ 480 / q.den
  let half := piBig / 2
  let k := x / half
  let r := (x - k * half) / 2 ^ 160
  let quad := (k + (if cos then 1 else 0)) % 4
  qOfFx (if quad = 0 then fxSin r else if quad = 1 then fxCos r else if quad = 2 then -(fxSin r) else -(fxCos r))

/-- The integer square root, bit by bit. -/
def isqrt : Nat → Nat → Nat → Nat
  | 0, _, acc => acc
  | n + 1, x, acc => isqrt n x (if (acc + 2 ^ n) * (acc + 2 ^ n) ≤ x then acc + 2 ^ n else acc)
/-- A positive square root with 64 or more bits and a sticky half unit when it is not exact. -/
def sqrtQ (q : Q) : Q :=
  let e := ilog2 q / 2
  let y := Q.mul q (Q.pow2 (2 * (64 - e)))
  let n := y.num.natAbs / y.den
  let r := isqrt 67 n 0
  let exact := decide (r * r * y.den = y.num.natAbs)
  Q.mul (if exact then ⟨r, 1⟩ else ⟨(2 * r + 1 : Nat), 2⟩) (Q.pow2 (e - 64))

/-- An approximation of an irrational value rounded: overflow and tininess raise their flags, inexact with them only (R79). -/
def roundApprox (f : Fmt) (ftz : Bool) (q : Q) : Rounded :=
  let r := roundQ f .rne false ftz q
  let emin : Q := Q.pow2 (1 - (f.bias : Int))
  let v := f.read r.bits
  let tiny : Bool := match v with
    | .fin _ x => x.abs.lt emin
    | _ => false
  if r.flags &&& fOverflow ≠ 0 then r else if tiny then ⟨r.bits, fUnderflow ||| fInexact⟩ else ⟨r.bits, 0⟩
/-- The same with inexact kept: RCP, RSQ and SQRT (R114). -/
def roundAlg (f : Fmt) (ftz : Bool) (q : Q) : Rounded := roundQ f .rne false ftz q

def rcpR (f : Fmt) (ftz : Bool) (x : Nat) : Rounded :=
  match f.read x with
  | .nan s => f.nan (if s then fInvalid else 0)
  | .inf n => f.zero n
  | .fin n q => if q.isZero then ⟨f.infBits n, fDivZero⟩ else roundAlg f ftz (Q.div ⟨1, 1⟩ q)
def rsqR (f : Fmt) (ftz : Bool) (x : Nat) : Rounded :=
  match f.read x with
  | .nan s => f.nan (if s then fInvalid else 0)
  | .inf n => if n then f.nan fInvalid else f.zero false
  | .fin n q => if q.isZero then ⟨f.infBits n, fDivZero⟩ else if n then f.nan fInvalid else roundAlg f ftz (sqrtQ (Q.div ⟨1, 1⟩ q))
def sqrtR (f : Fmt) (ftz : Bool) (x : Nat) : Rounded :=
  match f.read x with
  | .nan s => f.nan (if s then fInvalid else 0)
  | .inf n => if n then f.nan fInvalid else ⟨x, 0⟩
  | .fin n q => if q.isZero then ⟨x, 0⟩ else if n then f.nan fInvalid else roundAlg f ftz (sqrtQ q)
def exp2R (f : Fmt) (ftz : Bool) (x : Nat) : Rounded :=
  match f.read x with
  | .nan s => f.nan (if s then fInvalid else 0)
  | .inf n => if n then f.zero false else f.inf false
  | .fin _ q =>
    let n := q.floor
    if q.isZero then ⟨f.bias * 2 ^ f.fb, 0⟩
    else if 1024 ≤ n then roundApprox f ftz (Q.pow2 1024)
    else if n < -1024 then roundApprox f ftz (Q.pow2 (-1024))
    else if Q.eq ⟨n, 1⟩ q then (if n < 1 - (f.bias : Int) ∨ (f.bias : Int) < n then roundQ f .rne false ftz (Q.pow2 n) else ⟨(roundQ f .rne false ftz (Q.pow2 n)).bits, 0⟩)
    else roundApprox f ftz (Q.mul (qOfFx (fxExp2 (fxOf (Q.sub q ⟨n, 1⟩)))) (Q.pow2 n))
def log2R (f : Fmt) (ftz : Bool) (x : Nat) : Rounded :=
  match f.read x with
  | .nan s => f.nan (if s then fInvalid else 0)
  | .inf n => if n then f.nan fInvalid else f.inf false
  | .fin n q =>
    if q.isZero then ⟨f.infBits true, fDivZero⟩
    else if n then f.nan fInvalid
    else
      let e := ilog2 q
      let m := fxOf (Q.mul q (Q.pow2 (-e)))
      if m = fxS then (if e = 0 then f.zero false else ⟨(roundQ f .rne false ftz ⟨e, 1⟩).bits, 0⟩)
      else roundApprox f ftz (qOfFx (e * fxS + 2 * fxAtanh ((m - fxS) * fxS / (m + fxS)) * fxS / fxLn2))
/-- Below 2^-100 sine and hyperbolic tangent round to their argument, whose neighbours lie far apart against x^3. -/
def small (q : Q) : Bool := q.abs.lt (Q.pow2 (-100))
def sinR (f : Fmt) (ftz : Bool) (x : Nat) : Rounded :=
  match f.read x with
  | .nan s => f.nan (if s then fInvalid else 0)
  | .inf _ => f.nan fInvalid
  | .fin n q => if q.isZero then ⟨x, 0⟩ else if small q then roundApprox f ftz q else roundApprox f ftz (if n then (sinCos false q.abs).neg else sinCos false q)
def cosR (f : Fmt) (ftz : Bool) (x : Nat) : Rounded :=
  match f.read x with
  | .nan s => f.nan (if s then fInvalid else 0)
  | .inf _ => f.nan fInvalid
  | .fin _ q => if q.isZero then ⟨f.bias * 2 ^ f.fb, 0⟩ else roundApprox f ftz (sinCos true q.abs)
def tanhR (f : Fmt) (ftz : Bool) (x : Nat) : Rounded :=
  match f.read x with
  | .nan s => f.nan (if s then fInvalid else 0)
  | .inf n => ⟨f.signBit n + f.bias * 2 ^ f.fb, 0⟩
  | .fin n q =>
    if q.isZero then ⟨x, 0⟩
    else if small q then roundApprox f ftz q
    else if Q.le ⟨64, 1⟩ q.abs then ⟨f.signBit n + f.bias * 2 ^ f.fb, 0⟩
    else
      -- e^(2|x|) = 2^k e^r with k the quotient by ln 2
      let y := fxOf (Q.mul ⟨2, 1⟩ q.abs)
      let k := y / fxLn2
      let ex := fxExp (y - k * fxLn2) * 2 ^ k.toNat
      let t := (ex - fxS) * fxS / (ex + fxS)
      roundApprox f ftz (if n then (qOfFx t).neg else qOfFx t)

end Sys2Proof.Machine
end

