-- ==== Sys2Proof/Machine/FloatAlu.lean ====
section
/-!
DEFINITION. Machine/FloatAlu.lean: floating-point arithmetic, special functions and conversions (05 R108 to R116).
-/
namespace Sys2Proof.Machine

/-- Two float sources, element by element; d3 when the destination is read as well (R108). -/
def fltOp2 (d : Dst) (a b : Src) (ty : FloatTy) (op : Fmt → Bool → FVal → FVal → Rounded) (s : State) : Out :=
  .next (alu s (1 + litsOf a + litsOf b) (srcRegs a 1 ++ srcRegs b 1) d (fun l =>
    let r := elem2 ty s.g.ctx.kernel.ftz op (src32 s.g a l) (src32 s.g b l)
    ([r.1], r.2)))
def fltOp1 (d : Dst) (a : Src) (ty : FloatTy) (op : Fmt → Bool → Nat → Rounded) (s : State) : Out :=
  .next (alu s (1 + litsOf a) (srcRegs a 1) d (fun l =>
    let r := elem1 ty s.g.ctx.kernel.ftz op (src32 s.g a l)
    ([r.1], r.2)))
/-- A special function on binary32 or packed binary16 (R113). -/
def sfuOp (d : Dst) (a : Src) (half : Bool) (op : Fmt → Bool → Nat → Rounded) (s : State) : Out := fltOp1 d a (if half then .f16 else .f32) op s

def execAddF (d : Dst) (a b : Src) (ty : FloatTy) (r : Rnd) (s : State) : Out := fltOp2 d a b ty (fun f z x y => addR f (RMode.of r) z x y) s
def execSubF (d : Dst) (a b : Src) (ty : FloatTy) (r : Rnd) (s : State) : Out := fltOp2 d a b ty (fun f z x y => addR f (RMode.of r) z x (negV y)) s
def execMulF (d : Dst) (a b : Src) (ty : FloatTy) (r : Rnd) (s : State) : Out := fltOp2 d a b ty (fun f z x y => mulR f (RMode.of r) z x y) s
/-- The three elements of a fused multiply-add (R108). -/
def fmaElems (f : Fmt) (md : RMode) (z : Bool) : List Nat → List Nat → List Nat → List Rounded
  | x :: xs, y :: ys, w :: ws => fmaR f md z (f.read (ftzIn z f x)) (f.read (ftzIn z f y)) (f.read (ftzIn z f w)) :: fmaElems f md z xs ys ws
  | _, _, _ => []
def execFma (d : Dst) (a b : Src) (ty : FloatTy) (r : Rnd) (s : State) : Out :=
  .next (alu s (1 + litsOf a + litsOf b) (srcRegs a 1 ++ srcRegs b 1 ++ dstRegs d 1) d (fun l =>
    let q := packR (fmaElems (fmtOf ty) (RMode.of r) (s.g.ctx.kernel.ftz && decide (ty = .f32))
      (elemsOf ty (src32 s.g a l)) (elemsOf ty (src32 s.g b l)) (elemsOf ty (dst32 s.g d l)))
    ([q.1], q.2)))
/-- MIN and MAX deliver an operand's bits after FTZ (R109). -/
def minMaxOp (d : Dst) (a b : Src) (ty : FloatTy) (max : Bool) (s : State) : Out :=
  .next (alu s (1 + litsOf a + litsOf b) (srcRegs a 1 ++ srcRegs b 1) d (fun l =>
    let f := fmtOf ty
    let z := s.g.ctx.kernel.ftz && decide (ty = .f32)
    let q := packR (List.zipWith (fun x y => minMaxR f max (ftzIn z f x) (ftzIn z f y)) (elemsOf ty (src32 s.g a l)) (elemsOf ty (src32 s.g b l)))
    ([q.1], q.2)))
def execMinF (d : Dst) (a b : Src) (ty : FloatTy) (s : State) : Out := minMaxOp d a b ty false s
def execMaxF (d : Dst) (a b : Src) (ty : FloatTy) (s : State) : Out := minMaxOp d a b ty true s

/-- The predicates of R110. -/
inductive FRel where
  | eq | ne | lt | le | gt | ge | un | or
  deriving DecidableEq, Repr
def FRel.holds (r : FRel) (a b : FVal) : Bool :=
  match r, cmpV a b with
  | .eq, o => o == some .eq
  | .ne, o => o != some .eq
  | .lt, o => o == some .lt
  | .le, o => o == some .lt || o == some .eq
  | .gt, o => o == some .gt
  | .ge, o => o == some .gt || o == some .eq
  | .un, o => o == none
  | .or, o => o != none
/-- Invalid: any NaN for the ordered relations, a signalling one for the others (R110). -/
def FRel.flag (r : FRel) (a b : FVal) : BitVec 5 :=
  match r with
  | .lt | .le | .gt | .ge => if a.isNan || b.isNan then fInvalid else 0
  | _ => snanFlag [a, b]
def fcmpOp (d : Dst) (a b : Src) (half : Bool) (r : FRel) (s : State) : Out :=
  .next (alu s (1 + litsOf a + litsOf b) (srcRegs a 1 ++ srcRegs b 1) d (fun l =>
    let ty : FloatTy := if half then .f16 else .f32
    let f := fmtOf ty
    let z := s.g.ctx.kernel.ftz && !half
    let q := packR (List.zipWith (fun x y =>
      let u := f.read (ftzIn z f x)
      let v := f.read (ftzIn z f y)
      (⟨if r.holds u v then 1 else 0, r.flag u v⟩ : Rounded)) (elemsOf ty (src32 s.g a l)) (elemsOf ty (src32 s.g b l)))
    ([q.1], q.2)))
def execCmpeqF (d : Dst) (a b : Src) (h : Bool) (s : State) : Out := fcmpOp d a b h .eq s
def execCmpneF (d : Dst) (a b : Src) (h : Bool) (s : State) : Out := fcmpOp d a b h .ne s
def execCmpltF (d : Dst) (a b : Src) (h : Bool) (s : State) : Out := fcmpOp d a b h .lt s
def execCmpleF (d : Dst) (a b : Src) (h : Bool) (s : State) : Out := fcmpOp d a b h .le s
def execCmpgtF (d : Dst) (a b : Src) (h : Bool) (s : State) : Out := fcmpOp d a b h .gt s
def execCmpgeF (d : Dst) (a b : Src) (h : Bool) (s : State) : Out := fcmpOp d a b h .ge s
def execCmpun (d : Dst) (a b : Src) (h : Bool) (s : State) : Out := fcmpOp d a b h .un s
def execCmpor (d : Dst) (a b : Src) (h : Bool) (s : State) : Out := fcmpOp d a b h .or s
/-- NEG and ABS change the sign bit alone, whatever FTZ says (R111). -/
def signOp (d : Dst) (a : Src) (ty : FloatTy) (abs : Bool) (s : State) : Out :=
  .next (aluInt s (1 + litsOf a) (srcRegs a 1) d (fun l =>
    let top := 2 ^ ((fmtOf ty).bitsN - 1)
    [packElems ((elemsOf ty (src32 s.g a l)).map (fun x => if abs then x % top else if x < top then x + top else x - top))]))
def execNegF (d : Dst) (a : Src) (ty : FloatTy) (s : State) : Out := signOp d a ty false s
def execAbsF (d : Dst) (a : Src) (ty : FloatTy) (s : State) : Out := signOp d a ty true s
def execRnd (d : Dst) (a : Src) (ty : FloatTy) (r : Rnd) (s : State) : Out := fltOp1 d a ty (fun f _ x => rndR f (RMode.of r) x) s
def execRcp (d : Dst) (a : Src) (h : Bool) (s : State) : Out := sfuOp d a h rcpR s
def execRsq (d : Dst) (a : Src) (h : Bool) (s : State) : Out := sfuOp d a h rsqR s
def execSqrt (d : Dst) (a : Src) (h : Bool) (s : State) : Out := sfuOp d a h sqrtR s
def execExp2 (d : Dst) (a : Src) (h : Bool) (s : State) : Out := sfuOp d a h exp2R s
def execLog2 (d : Dst) (a : Src) (h : Bool) (s : State) : Out := sfuOp d a h log2R s
def execSin (d : Dst) (a : Src) (h : Bool) (s : State) : Out := sfuOp d a h sinR s
def execCos (d : Dst) (a : Src) (h : Bool) (s : State) : Out := sfuOp d a h cosR s
def execTanh (d : Dst) (a : Src) (h : Bool) (s : State) : Out := sfuOp d a h tanhR s

-- conversions (R82, R115)

/-- A type of CVT: a float format, or an integer of n bits. -/
inductive CvtKind where
  | flt (f : Fmt)
  | int (n : Nat) (signed : Bool)
  deriving DecidableEq, Repr
def cvtKind : CvtTy → CvtKind
  | .f32 => .flt fF32 | .f16 => .flt fF16 | .bf16 => .flt fBF16 | .e4m3 => .flt fE4M3 | .e5m2 => .flt fE5M2
  | .s32 => .int 32 true | .n32 => .int 32 false | .s64 => .int 64 true | .n64 => .int 64 false
  | .s16 => .int 16 true | .n16 => .int 16 false | .s8 => .int 8 true | .n8 => .int 8 false
def cvtWide : CvtTy → Bool
  | .s64 => true | .n64 => true | _ => false
/-- The result of one conversion as a number of 32 or 64 bits (R69, R73). x is the source's raw bits. -/
def cvtOne (dst src : CvtTy) (md : RMode) (sat ftz : Bool) (x : Nat) : Nat × BitVec 5 :=
  let ext (n : Nat) (signed : Bool) (v : Nat) : Nat := if n = 64 then v else wrapN 32 (if signed then sx n v else (v : Int))
  match cvtKind src, cvtKind dst with
  | .flt f, .flt g =>
    let r := convF g md sat (ftz && decide (dst = .f32)) (f.read (ftzIn (ftz && decide (src = .f32)) f (x % 2 ^ f.bitsN)))
    (r.bits, r.flags)
  | .flt f, .int n sg =>
    let r := convI n sg md sat (f.read (ftzIn (ftz && decide (src = .f32)) f (x % 2 ^ f.bitsN)))
    (ext n sg r.bits, r.flags)
  | .int n sg, .flt g =>
    let v : Int := if sg then sx n x else ((x % 2 ^ n : Nat) : Int)
    let r := convF g md sat (ftz && decide (dst = .f32)) (.fin (decide (v < 0)) ⟨v, 1⟩)
    (r.bits, r.flags)
  | .int n sg, .int k tg =>
    let v : Int := if sg then sx n x else ((x % 2 ^ n : Nat) : Int)
    let lo : Int := if tg then -(2 ^ (k - 1) : Int) else 0
    let hi : Int := if tg then 2 ^ (k - 1) - 1 else 2 ^ k - 1
    (ext k tg (wrapN k (if sat then satI v lo hi else v)), 0)
def execCvt (d : Dst) (a : Src) (dst src : CvtTy) (r : Rnd) (sat : Bool) (s : State) : Out :=
  .next (alu s (1 + litsOf a) (srcRegs a (nRegs (cvtWide src))) d (fun l =>
    let x := if cvtWide src then (src64 s.g (decide (src = .s64)) a l).toNat else (src32 s.g a l).toNat
    let q := cvtOne dst src (RMode.of r) sat s.g.ctx.kernel.ftz x
    (resWords (cvtWide dst) q.1, q.2)))

/-- The scalar format of a slot's kind (R43); BFPm and unbound slots have none. -/
def slotFmt (k : Slot) : Option Fmt :=
  if k.kind = 2 then some fE4M3 else if k.kind = 3 then some fE5M2 else if k.kind = 4 then some fBF16 else if k.kind = 5 then some fF16 else none
def slotAt (h : Group) (k : Nat) : Slot := h.ctx.lrec.slots.getD k {}
/-- The draw of an element (R84). -/
def drawInstr (h : Group) (bits_ lane : Nat) : Nat :=
  (philox h.ctx.lrec.skey [bits_, h.srseq.toNat, h.origGrp.getD lane h.grpix, h.origLane.getD lane lane % 256]).getD 0 0
def bumpSeq (h : Group) : Group := { h with srseq := h.srseq + 1 }
/-- CVTS (R116): its rounding and SAT are the slot's. A slot that it does not take traps before POISON of its source does (log entry 49). -/
def execCvts (d : Dst) (a : Src) (k : Nat) (fromSlot : Bool) (s : State) : Out :=
  let sl := slotAt s.g k
  match slotFmt sl with
  | none => .next (illegalOperand s)
  | some f =>
    let ftz := s.g.ctx.kernel.ftz
    let stoch := decide (sl.round = 4) && !fromSlot
    .next (alu s (1 + litsOf a) (srcRegs a 1) d (fun l =>
      let x := (src32 s.g a l).toNat
      let r := if fromSlot then convF fF32 .rne false ftz (f.read (x % 2 ^ f.bitsN))
        else convF f (RMode.ofCode sl.round (drawInstr s.g x l)) sl.sat false (fF32.read (ftzIn ftz fF32 x))
      ([BitVec.ofNat 32 r.bits], r.flags)) (fun h => if stoch then bumpSeq h else h))

end Sys2Proof.Machine
end

