-- ==== Sys2Proof/Machine/Special.lean ====
section
/-!
DEFINITION. Machine/Special.lean: special state and random numbers (05 R117 to R120).
-/
namespace Sys2Proof.Machine

/-- The physical slice of a core. -/
def sliceOfCore (core : Nat) : Nat := core / 24
def dieOfCore (core : Nat) : Nat := core / 192
/-- The index of an element in a list, its length when absent. -/
def indexIn (l : List Nat) (x : Nat) : Nat := l.findIdx (fun y => decide (y = x))
/-- Cycles of a core's clock since its slice's last restart (R118). -/
def coreCycles (s : State) (core : Nat) : Nat := (s.dies.getD (dieOfCore core) {}).cycles - smGet 0 s.cycleBase (sliceOfCore core)
/-- The logical region index of a core in a partition (R350). -/
def logicalRegion (f : Fn) (core : Nat) : Nat := 3 * indexIn f.slices (sliceOfCore core) + core / 8 % 3
/-- Whether a selector writes a pair (R117). -/
def selWide : Sel → Bool
  | .active => true | .time => true | .cycle => true | .krec => true | .lrec => true | .args => true | .skey => true
  | .slot _ => true | .deadline => true | _ => false
/-- The value of a selector in a lane (R117). -/
def selValue (s : State) (x : Sel) (l : Nat) : Nat :=
  let h := s.g
  match x with
  | .width => width h
  | .teamsize => h.ctx.kernel.team
  | .ginteam => h.ginteam
  | .teams => h.ctx.lrec.teams
  | .regs => h.ctx.kernel.regs
  | .origgrp => h.origGrp.getD l h.grpix
  | .origlane => h.origLane.getD l l
  | .active => h.active.toNat
  | .flags => h.flags.toNat
  | .flagsclr => h.flags.toNat
  | .srseq => h.srseq.toNat
  | .time => (baseOf s h.ctx.fn).value
  | .cycle => coreCycles s h.core
  | .coreid => h.core % 8
  | .regionid => logicalRegion (getFn s h.ctx.fn) h.core
  | .krec => h.ctx.lrec.kernel
  | .lrec => h.ctx.lrecVA
  | .args => h.ctx.lrec.args
  | .skey => h.ctx.lrec.skey.toNat
  | .slot k => (slotAt h k).raw
  | .deadline => h.ctx.deadline
/-- MOVS: flagsclr clears the flags in the same step, whatever d is (R117, R119). -/
def execMovs (d : Dst) (x : Sel) (s : State) : Out :=
  .next (alu s 1 [] d (fun l => (resWords (selWide x) (selValue s x l), 0)) (fun h => if x = .flagsclr then { h with flags := 0 } else h))
/-- RNG (R120): Philox4x32-10 of the key in a and the counter in b. -/
def execRng (d : Dst) (a : Src) (b : Dst) (s : State) : Out :=
  .next (aluInt s (1 + litsOf a) (srcRegs a 2 ++ dstRegs b 4) d (fun l =>
    (philox (src64 s.g false a l) ((dstWords s.g b 4 l).map (·.toNat))).map (BitVec.ofNat 32)))

end Sys2Proof.Machine
end

