-- ==== Sys2Proof/Machine/Access.lean ====
section
/-!
DEFINITION. Machine/Access.lean: the parts of an access of a lane, its checks (08 R159 to R161), the bytes a load takes
(09 R176, 10 R206), and reads and writes of the spill areas.
-/
namespace Sys2Proof.Machine

/-- POISON for registers that an instruction reads in the lanes given (R400), else the rest of the instruction: before its other checks, those of R160 among them
(log entry 70). -/
def withRegs (s : State) (rs : List Nat) (ls : List Nat) (k : State → Out) : Out :=
  let bad := poisonLanes s.g rs ls
  if bad ≠ [] then .next (takeTrap s { code := 6, lanes := maskOf bad }) else k s

/-- The address of byte o of a thread's own memory, by its origin (R161); a fragment group stands alone (R442). -/
def threadAddr (h : Group) (lane o : Nat) : Nat :=
  let og := if h.ctx.frag then 0 else h.origGrp.getD lane h.grpix
  h.ctx.pbase + og * width h * h.ctx.kernel.priv + o / 16 * 16 * width h + h.origLane.getD lane lane * 16 + o % 16

/-- A run of bytes of an access that lies at one place. -/
structure Part where
  sp : Space
  addr : Nat
  va : Nat
  key : Nat
  df : Bool
  n : Nat
  /-- the last unit of an access of 32 bytes -/
  whole : Bool := false
  deriving DecidableEq, Repr

def partOf (s : State) (sp : Space) (va n : Nat) (p : Perm) : Except XErr Part :=
  match translate s s.g.ctx.fn va p with
  | .error x => .error x
  | .ok q => .ok { sp := sp, addr := q.spa, va := va, key := q.key, df := q.df, n := n }
/-- The parts of an access of n bytes at the address a lane presents. -/
def partsOf (s : State) (sp : Space) (lane a n : Nat) (p : Perm) : Except XErr (List Part) :=
  match sp with
  | .g => (match partOf s .g a n p with | .error x => .error x | .ok q => .ok [q])
  | .p =>
    if n ≤ 16 then (match partOf s .p (threadAddr s.g lane a) n p with | .error x => .error x | .ok q => .ok [q])
    else (match partOf s .p (threadAddr s.g lane a) 16 p, partOf s .p (threadAddr s.g lane (a + 16)) 16 p with
      | .ok q, .ok r => .ok [q, r]
      | .error x, _ => .error x
      | _, .error x => .error x)
  | other => .ok [{ sp := other, addr := a, va := a, key := 0, df := false, n := n }]
/-- The parts when the checks have passed. -/
def partsD (s : State) (sp : Space) (lane a n : Nat) (p : Perm) : List Part :=
  match partsOf s sp lane a n p with
  | .ok l => l
  | .error _ => []

/-- The extent of a space other than g (R158). -/
def extent (s : State) (sp : Space) : Nat :=
  match sp with
  | .p => s.g.ctx.kernel.priv
  | .s => s.g.ctx.kernel.scratch
  | .rg => s.g.ctx.kernel.region
  | .c => chipExtent (getFn s s.g.ctx.fn)
  | .g => 0

/-- The address that a failed walk for a lane's access of n bytes translated: that of the first part without a page (R161, R403). -/
def walkVA (s : State) (lane a : Nat) (p : Perm) : Nat :=
  match partOf s .p (threadAddr s.g lane a) 1 p with
  | .error _ => threadAddr s.g lane a
  | .ok _ => threadAddr s.g lane (a + 16)
/-- The first check that fails in some lane: the trap names the lowest such lane and its address (R160). -/
def failAt (l : List (Nat × Nat)) (f : Nat → Nat → Option XErr) : Option TrapInfo :=
  match l.filter (fun e => (f e.1 e.2).isSome) with
  | [] => none
  | e :: es => match f e.1 e.2 with
    | none => none
    | some x => some { code := x.code, detail := x.cause, addr := e.2, lanes := maskOf ((e :: es).map (·.1)) }
/-- The address checks of R160 for accesses of n bytes aligned to al, over the lanes and addresses given. -/
def accessCheck (s : State) (sp : Space) (n al : Nat) (p : Perm) (l : List (Nat × Nat)) : Option TrapInfo :=
  match failAt l (fun _ a => if a % al ≠ 0 then some ⟨3, 0⟩ else none) with
  | some t => some t
  | none => match failAt l (fun _ a => if sp = .g ∧ 2251799813685248 ≤ a then some (pageFault Config.addressCause) else none) with
    | some t => some t
    | none => match failAt l (fun _ a => if sp ≠ .g ∧ extent s sp < a + n then some ⟨7, 0⟩ else none) with
      | some t => some t
      | none => (failAt l (fun lane a => match partsOf s sp lane a n p with | .error x => some x | .ok _ => none)).map (fun t =>
          if sp = .p then { t with walk := some (walkVA s (lowestLane (width s.g) t.lanes) t.addr p) } else t)

/-- An address of a double-faced page of 64 KiB, whichever face it lies on (R380). -/
def faceless (a : Nat) : Nat := a / 65536 * 65536 + a % 32768
/-- The byte a queued store of the group holds for a lane (R176): the latest entry wins. -/
def queueByte (h : Group) (lane : Nat) (q : Part) (i : Nat) : Option Byte :=
  let near := decide (q.sp = .g) || decide (q.sp = .p)
  h.stq.foldl (fun acc e =>
    let same := if near then decide (e.sp = .g) || decide (e.sp = .p) else decide (e.sp = q.sp)
    let base := if e.df && q.df then faceless e.addr else e.addr
    let at_ := (if e.df && q.df then faceless q.addr else q.addr) + i
    if same && (e.all || e.lane == lane) && decide (base ≤ at_) && decide (at_ < base + e.data.length) then some (e.data.getD (at_ - base) 0) else acc) none

/-- One byte of a part as a load of a lane takes it; none when it must come from a poisoned place (R206). -/
def loadByte (s : State) (lane : Nat) (q : Part) (bypass : Bool) (i : Nat) : Option Byte :=
  match queueByte s.g lane q i with
  | some b => some b
  | none =>
    let a := q.addr + i
    match q.sp with
    | .s => let m := sramOf s s.g false; if sramPoisoned m a 1 then none else some (smGet 0 m.bytes a)
    | .rg => let m := sramOf s s.g true; if sramPoisoned m a 1 then none else some (smGet 0 m.bytes a)
    | .c => let f := getFn s s.g.ctx.fn; if chipPoisoned f a 1 then none else some (smGet 0 f.chip a)
    | _ => l1Byte s s.g.core q.key a bypass
/-- The bytes of an access; none when one is poisoned. -/
def loadParts (s : State) (lane : Nat) (bypass : Bool) (ps : List Part) : Option (List Byte) :=
  (ps.map (fun q => (List.range q.n).map (fun i => loadByte s lane q bypass i))).flatten.foldr
    (fun b acc => match b, acc with | some x, some l => some (x :: l) | _, _ => none) (some [])
/-- A load leaves its sectors in the core's L1 (R168). -/
def fillParts (s : State) (ps : List Part) (bypass : Bool := false) : State :=
  ps.foldl (fun t q => if q.sp = .g ∨ q.sp = .p then l1Refill t t.g.core q.key (q.addr / 32) bypass else t) s

/-- The single-copy-atomic units of 8 bytes of a part (R187). -/
def unitsOf (q : Part) : List Part :=
  if q.n ≤ 8 then [q] else (List.range (q.n / 8)).map (fun i => { q with addr := q.addr + 8 * i, va := q.va + 8 * i, n := 8, whole := decide (q.n = 32 ∧ i = 3) })
/-- The store of one unit of a lane. -/
def entryOf (lane : Nat) (q : Part) (bs : List Byte) (all : Bool) : StEntry :=
  { lane := lane, sp := q.sp, addr := q.addr, va := q.va, key := q.key, df := q.df, data := bs.take q.n, all := all, whole := q.whole }
/-- A lane's stores of an access enter the store queue, unit by unit (R168, R187). -/
def queueParts (h : Group) (lane : Nat) (bs : List Byte) : List Part → Group
  | [] => h
  | q :: ps => queueParts { h with stq := h.stq ++ [entryOf lane q bs false] } lane (bs.drop q.n) ps

-- spill areas (R279, R345): accesses of the group or of one thread, through its store queue

def chunk8 (va : Nat) (bs : List Byte) : List (Nat × List Byte) :=
  (List.range (ceilDiv bs.length 8)).map (fun i => (va + 8 * i, (bs.drop (8 * i)).take 8))
/-- Stores of pieces through the store queue, up to the first that a page refuses. -/
def spillPieces (lane : Nat) (all : Bool) : List (Nat × List Byte) → State → State × Option (XErr × Nat)
  | [], s => (s, none)
  | c :: cs, s => match partOf s .p c.1 c.2.length .w with
    | .error x => (s, some (x, c.1))
    | .ok q => spillPieces lane all cs { s with g := { s.g with stq := s.g.stq ++ [entryOf lane q c.2 all] } }
/-- Writes a run of 8-byte pieces through the store queue; every lane of the group reads them when all is set. What a page refuses leaves
the pieces before it written (R280). -/
def spillWrite (s : State) (lane : Nat) (all : Bool) (va : Nat) (bs : List Byte) : State × Option (XErr × Nat) := spillPieces lane all (chunk8 va bs) s
/-- Reads n bytes, a multiple of 8 that is aligned to 8. -/
def spillRead (s : State) (lane va n : Nat) : Except (XErr × Nat) (List Byte) :=
  match translateRange s s.g.ctx.fn va n .r with
  | .error x => .error x
  | .ok _ =>
    (List.range (n / 8)).foldr (fun i acc => match acc with
      | .error x => .error x
      | .ok l => match partOf s .p (va + 8 * i) 8 .r with
        | .error x => .error (x, va + 8 * i)
        | .ok q => match loadParts s lane false [q] with
          | none => .error (⟨6, 0⟩, va + 8 * i)
          | some b => .ok (b ++ l)) (.ok [])

end Sys2Proof.Machine
end

