-- ==== Sys2Proof/Machine/Fetch.lean ====
section
/-!
DEFINITION. Machine/Fetch.lean: clause headers (02 R22, R23), the fetch of a whole clause (R28), the instruction at a
position (R26, R29, R40), and the reconvergence stack with its current join (13 R277 to R280, 14 R296).
-/
namespace Sys2Proof.Machine

/-- A clause header (R22). -/
structure Header where
  count : Nat
  cls : Nat
  wait : Nat
  length : Nat
  deriving DecidableEq, Repr
/-- A word as a header, when the checks of R23 on the header alone pass. -/
def headerOf (w : Word) : Option Header :=
  let x := w.toNat
  let h : Header := { count := bits x 27 24, cls := bits x 23 21, wait := bits x 20 15, length := bits x 14 9 }
  if bits x 31 28 = 11 ∧ h.count ≠ 0 ∧ h.cls < 6 ∧ h.wait < 32 ∧ h.count ≤ h.length ∧ h.length ≤ 45 ∧ bits x 8 0 = 0 then some h else none
/-- Offsets of the instructions of a body, from the offset of its first word; none when the body runs out (R23). -/
def starts : Nat → Nat → List Word → Option (List Nat × Nat)
  | 0, o, _ => some ([], o)
  | _ + 1, _, [] => none
  | n + 1, o, w :: ws =>
    let k := litWords w.toNat
    match starts n (o + 1 + k) (ws.drop k) with
    | none => none
    | some r => some (o :: r.1, r.2)
/-- The instruction offsets of a clause that passes R23. -/
def clauseStarts (c : List Word) : Option (List Nat) :=
  match c with
  | [] => none
  | w :: body => match headerOf w with
    | none => none
    | some h => match starts h.count 1 body with
      | none => none
      | some r => if r.2 = h.length + 1 ∧ body.length = h.length then some r.1 else none

def badHeader : XErr := ⟨1, Config.headerDetail⟩
/-- One word of code as the core fetches it, with its address and key: from its instruction cache, which holds it as its leaf's key read it (R377), or from
memory (R28, R30). -/
def fetchWord (s : State) (va : Nat) : Except XErr (Nat × Nat × Word) :=
  match translate s s.g.ctx.fn va .x with
  | .error x => .error x
  | .ok q => match findFirst (fun e => decide (e.1 = s.g.core ∧ e.2.1 = q.spa ∧ e.2.2.1 = q.key)) s.icache with
    | some e => .ok (q.spa, q.key, e.2.2.2)
    | none => if memPoisoned s q.spa 4 then .error ⟨6, 0⟩ else .ok (q.spa, q.key, BitVec.ofNat 32 (leNat (memRead s q.key q.spa 4)))
/-- The words of a core's instruction cache, by address. -/
def icacheOf (s : State) (core : Nat) : List (Nat × Nat) := (s.icache.filter (fun e => decide (e.1 = core))).map (fun e => (e.2.1, e.2.2.1))
/-- A word enters the core's instruction cache; where its 16,384 words are full, one that a free value names gives way (R12, log entry 19). -/
def icacheFill (s : State) (spa key : Nat) (w : Word) : State :=
  if s.icache.any (fun e => decide (e.1 = s.g.core ∧ e.2.1 = spa ∧ e.2.2.1 = key)) then s
  else
    let held := icacheOf s s.g.core
    let kept := if held.length < 16384 then s.icache
      else s.icache.filter (fun e => decide (¬ (e.1 = s.g.core ∧ (e.2.1, e.2.2.1) = held.getD (Config.icacheVictim s.g.core spa % held.length) (0, 0))))
    { s with icache := insBy (fun e => [e.1, e.2.1, e.2.2.1]) (s.g.core, spa, key, w) kept }
def fetchWords : Nat → State → Nat → Except (XErr × Nat) (State × List Word)
  | 0, s, _ => .ok (s, [])
  | n + 1, s, va => match fetchWord s va with
    | .error x => .error (x, va)
    | .ok q => match fetchWords n (icacheFill s q.1 q.2.1 q.2.2) (va + 4) with
      | .error x => .error x
      | .ok r => .ok (r.1, q.2.2 :: r.2)
/-- Fetches and checks the clause at an address (R23, R28): the fault names the first word that failed. -/
def readClause (s : State) (pos : Nat) : Except (XErr × Nat) (State × List Word) :=
  match fetchWords 1 s pos with
  | .error x => .error x
  | .ok (t, hw) => match headerOf (hw.headD 0) with
    | none => .error (badHeader, 0)
    | some h => match fetchWords h.length t (pos + 4) with
      | .error x => .error x
      | .ok (u, body) => if (clauseStarts (hw ++ body)).isSome then .ok (u, hw ++ body) else .error (badHeader, 0)

/-- The decoding context of the word at an offset (R26, R40, R67). -/
def ctxAt (h : Group) : DCtx :=
  let st := (clauseStarts h.clause).getD []
  let w (o : Nat) : Nat := (h.clause.getD o 0).toNat
  { cls := ((headerOf (h.clause.headD 0)).map (·.cls)).getD 0, last := decide (st.getLast? = some h.off),
    regroup := h.ctx.kernel.regroup, regs := h.ctx.kernel.regs,
    prevJoin := st.contains (h.off - 1) && isJoinWord (w (h.off - 1)),
    nextDbr := st.contains (h.off + 1) && isDbrWord (w (h.off + 1)) }
/-- The instruction at a group's position, or the number of the check that fails. In a clause that has changed before a resumed group fetches it again, that is what the word
there decodes to (log entry 74). -/
def instrAt (h : Group) : Except Nat Instr :=
  decodeWord (ctxAt h) (h.clause.getD h.off 0).toNat [h.clause.getD (h.off + 1) 0, h.clause.getD (h.off + 2) 0]
/-- The trap of a word that fails decoding (R40, R68): of check 6, which a misplaced JOIN or divergent branch fails, ILLEGAL_ENCODING (R67, R295; log entry 14). -/
def decodeTrap (n : Nat) : TrapInfo := { code := if n = 5 then 2 else 1, detail := n }

-- the reconvergence stack

/-- The target of a word offset from a clause header (R34), as a 64-bit address. -/
def branchTarget (pos : Nat) (off : BitVec 21) : Nat := wrapN 64 ((pos : Int) + 4 * off.toInt)
/-- J and the word after the body of a clause that ends in JOIN and a divergent branch (R296). -/
def clauseJoin (pos : Nat) (c : List Word) : Option (Nat × Nat) :=
  match (clauseStarts c).map List.reverse with
  | some (b :: j :: _) =>
    if isDbrWord (c.getD b 0).toNat ∧ isJoinWord (c.getD j 0).toNat then
      some (branchTarget pos (BitVec.ofNat 21 (c.getD j 0).toNat), pos + 4 * c.length)
    else none
  | _ => none
/-- The state with a core's instruction cache empty. -/
def icacheDrop (s : State) (core : Nat) : State := { s with icache := s.icache.filter (fun e => decide (e.1 ≠ core)) }
/-- Recovers the current join when a deferred entry stands on top: the clause is read from memory, so that changed code is seen (R296). -/
def recoverJoin (s : State) : Except TrapInfo State :=
  match s.g.rc with
  | [] => .ok s
  | e :: _ =>
    if ¬ e.deferred then .ok s
    else match readClause (icacheDrop s s.g.core) e.target with
      | .error (x, a) => .error (if x.code = 1 then { code := 18, detail := 2 } else { code := x.code, detail := x.cause, addr := a })
      | .ok (t, c) => match clauseJoin e.target c with
        | none => .error { code := 18, detail := 2 }
        | some (j, nx) => .ok { t with g := { t.g with joinAt := j, joinNext := nx } }
/-- A trap of a join arrival with no active lane: the handler runs with the live lanes of the top entry's mask (R297). -/
def atEmpty (h : Group) (t : TrapInfo) : TrapInfo :=
  if h.active = 0 then { t with act := (h.rc.head?).map (fun e => e.mask &&& liveMask h) } else t
/-- The current join (R296). -/
def currentJoin (h : Group) : Option Nat :=
  match h.rc with
  | [] => none
  | e :: _ => some (if e.deferred then h.joinAt else e.target)

def rcBytes (e : RcEntry) : List Byte := natLe 8 e.mask.toNat ++ natLe 8 (e.target % 2251799813685248 + (if e.deferred then 9223372036854775808 else 0))
def rcOf (b : List Byte) : RcEntry := { mask := BitVec.ofNat 64 (fieldAt b 0 8), target := fieldAt b 8 8 % 2251799813685248, deferred := bitOf (fieldAt b 8 8) 63 }
/-- Pushes an entry (R279), spilling 32 entries when all are in use. A trap leaves what was spilled before it as written (R280). -/
def pushRc (s : State) (e : RcEntry) : Except (State × TrapInfo) State :=
  if s.g.rc.length < 32 then .ok { s with g := { s.g with rc := e :: s.g.rc } }
  else if s.g.ctx.kernel.divblocks ≤ s.g.rcblocks then .error (s, { code := 18 })
  else match spillWrite s 0 true (spillBase s.g + 512 * s.g.rcblocks) (s.g.rc.reverse.map rcBytes).flatten with
    | (t, some (x, a)) => .error (t, { code := x.code, detail := x.cause, addr := a })
    | (t, none) => .ok { t with g := { t.g with rc := [e], rcblocks := t.g.rcblocks + 1 } }
/-- Drops the top entry, filling from the latest block when that would empty the on-chip stack (R279). -/
def popRc (s : State) : Except TrapInfo State :=
  let rest := s.g.rc.drop 1
  if rest ≠ [] ∨ s.g.rcblocks = 0 then .ok { s with g := { s.g with rc := rest } }
  else match spillRead s (firstLane s.g) (spillBase s.g + 512 * (s.g.rcblocks - 1)) 512 with
    | .error (x, a) => .error { code := x.code, detail := x.cause, addr := a }
    | .ok b => .ok { s with g := { s.g with rc := ((List.range 32).map (fun i => rcOf ((b.drop (16 * i)).take 16))).reverse, rcblocks := s.g.rcblocks - 1 } }

end Sys2Proof.Machine
end

