-- ==== Sys2Proof/Machine/Fragment.lean ====
section
/-!
DEFINITION. Machine/Fragment.lean: layered targets and their lists as a render output stage keeps them (12 R251 to R267).
-/
namespace Sys2Proof.Machine

-- target records (R251)

def tgHeads (t : List Byte) : Nat := fieldAt t 0 8
def tgBins (t : List Byte) : Nat := fieldAt t 8 8
def tgW (t : List Byte) : Nat := fieldAt t 16 2
def tgH (t : List Byte) : Nat := fieldAt t 18 2
def tgK (t : List Byte) : Nat := fieldAt t 20 1 % 16
def tgMerge (t : List Byte) : Nat := fieldAt t 20 1 / 16 % 4
/-- The policy is MERGE (R260). -/
def tgPolicyMerge (t : List Byte) : Bool := bitOf (fieldAt t 20 1) 6
def tgStage (t : List Byte) : Nat := fieldAt t 21 1
def zeroBytes (t : List Byte) (lo hi : Nat) : Bool := (bytesAt t lo (hi + 1 - lo)).all (fun b => b == 0)
/-- Check 3 of R256. -/
def targetOk (t : List Byte) (nslices : Nat) : Bool :=
  decide (tgHeads t < 2251799813685248 ∧ tgHeads t % 4 = 0 ∧ tgBins t < 2251799813685248 ∧ tgBins t % 64 = 0 ∧
    1 ≤ tgW t ∧ tgW t ≤ 16384 ∧ 1 ≤ tgH t ∧ tgH t ≤ 16384 ∧ 2 ≤ tgK t ∧ tgK t ≤ 8 ∧ tgMerge t ≠ 3 ∧
    fieldAt t 20 1 < 128 ∧ tgStage t < nslices) && zeroBytes t 22 63
def headVA (t : List Byte) (x y : Nat) : Nat := tgHeads t + 4 * (y * tgW t + x)
def binVA (t : List Byte) (x y : Nat) : Nat := tgBins t + 320 * (y / 64 * ceilDiv (tgW t) 64 + x / 64)

/-- A node of a list with its index (R254). -/
structure LNode where
  idx : Nat
  color : Nat
  depth : Word
  cover : Nat
  flags : Nat
  deriving DecidableEq, Repr
/-- A pixel's list: the bin record and the nodes front to back. -/
structure LList where
  bin : List Byte
  nodes : List LNode
  deriving DecidableEq, Repr

def noIndex : Nat := 65535
/-- A malformed list; there is no faulting address (R261, R411). -/
def malformed : XErr × Nat := (⟨2, 6⟩, 0)
def binPages (b : List Byte) : Nat := fieldAt b 256 1
def binFree (b : List Byte) : Nat := fieldAt b 260 2
def binBump (b : List Byte) : Nat := fieldAt b 262 2
def binDrops (b : List Byte) : Nat := fieldAt b 264 4
/-- The address of a node, when the bin's chain holds its page (R253, R261): bits [63:51] of a page entry are ignored (R2), and index 0xFFFF
names no node. The offset is added to the entry as it stands, whatever its bits [14:0] hold (log entry 33). -/
def nodeVA (bin : List Byte) (i : Nat) : Option Nat :=
  let p := fieldAt bin (8 * (i / 2048)) 8 % 2251799813685248
  if i < binPages bin * 2048 ∧ i ≠ noIndex ∧ p ≠ 0 then some (p + 16 * (i % 2048)) else none
def stageRead (s : State) (fn va n : Nat) : Except (XErr × Nat) (List Byte) :=
  agentRead s fn va n
/-- Reads a chain of n nodes from an index: malformed unless it ends right there. -/
def readChain (s : State) (fn : Nat) (bin : List Byte) : Nat → Nat → Except (XErr × Nat) (List LNode)
  | 0, i => if i = noIndex then .ok [] else .error malformed
  | n + 1, i => match nodeVA bin i with
    | none => .error malformed
    | some a => match stageRead s fn a 16 with
      | .error x => .error x
      | .ok b => match readChain s fn bin n (fieldAt b 14 2) with
        | .error x => .error x
        | .ok l => .ok ({ idx := i, color := fieldAt b 0 8, depth := BitVec.ofNat 32 (fieldAt b 8 4), cover := fieldAt b 12 1, flags := fieldAt b 13 1 } :: l)
/-- Reads a pixel's list (R252, R261). -/
def readList (s : State) (fn : Nat) (t : List Byte) (x y : Nat) : Except (XErr × Nat) LList :=
  match stageRead s fn (headVA t x y) 4, stageRead s fn (binVA t x y) 320 with
  | .error e, _ => .error e
  | _, .error e => .error e
  | .ok hb, .ok bin =>
    let w := leNat hb
    if 1048576 ≤ w ∨ tgK t < w % 16 ∨ 32 < binPages bin then .error malformed
    else match readChain s fn bin (w % 16) (w / 16 % 65536) with
      | .error e => .error e
      | .ok l => .ok { bin := bin, nodes := l }

/-- A node's 16 bytes with its link. -/
def nodeBytes (n : LNode) (next : Nat) : List Byte :=
  natLe 8 n.color ++ natLe 4 n.depth.toNat ++ natLe 1 n.cover ++ natLe 1 n.flags ++ natLe 2 next
/-- The list's nodes with the address and bytes of each. -/
def layout (bin : List Byte) : List LNode → List (Nat × List Byte)
  | [] => []
  | [n] => [((nodeVA bin n.idx).getD 0, nodeBytes n noIndex)]
  | n :: m :: l => ((nodeVA bin n.idx).getD 0, nodeBytes n m.idx) :: layout bin (m :: l)
def headWord (l : List LNode) : Nat := l.length + 16 * ((l.head?.map (·.idx)).getD noIndex)
/-- Performs writes in order, none when one fails. -/
def stageWrites (fn : Nat) : List (Nat × List Byte) → State → Except (XErr × Nat) State
  | [], s => .ok s
  | w :: ws, s => match agentWrite s fn w.1 w.2 with
    | .error x => .error x
    | .ok t => stageWrites fn ws t
/-- The writes that take a list from old to new: nodes that changed, then the head word (R258). -/
def relink (t : List Byte) (x y : Nat) (bin : List Byte) (old new : List LNode) : List (Nat × List Byte) :=
  (layout bin new).filter (fun w => !((layout bin old).contains w)) ++
    (if headWord old = headWord new then [] else [(headVA t x y, natLe 4 (headWord new))])

/-- Finds a free node (R253): its index, and the new free head and bump. One on a zero page entry makes the list malformed (R261). -/
def allocNode (s : State) (fn : Nat) (bin : List Byte) : Except (XErr × Nat) (Option (Nat × Nat × Nat)) :=
  if binFree bin ≠ noIndex then
    match nodeVA bin (binFree bin) with
    | none => .error malformed
    | some a => match stageRead s fn a 16 with
      | .error x => .error x
      | .ok b => .ok (some (binFree bin, fieldAt b 14 2, binBump bin))
  else if binBump bin < min (binPages bin * 2048) noIndex then
    (if (nodeVA bin (binBump bin)).isNone then .error malformed else .ok (some (binBump bin, noIndex, binBump bin + 1)))
  else .ok none

-- depth order and separations (R258)

def depthV (d : Word) : FVal := fF32.read d.toNat
def depthLe (a b : Word) : Bool := match cmpV (depthV a) (depthV b) with
  | some .lt => true
  | some .eq => true
  | _ => false
/-- Places a node after every node whose depth is at or before its own. -/
def placeNode (n : LNode) (l : List LNode) : List LNode :=
  let k := (List.range l.length).foldl (fun acc i => if depthLe ((l.getD i n).depth) n.depth then i + 1 else acc) 0
  l.take k ++ n :: l.drop k
/-- The separation of two neighbours: sign of infinity and a rational. -/
def sepOf (a b : Word) : Int × Q :=
  let x := depthV a
  let y := depthV b
  if x.isNan ∨ y.isNan then (0, ⟨(Config.nanSeparation a b : Int), 1⟩)
  else if cmpV x y = some .eq then (0, ⟨0, 1⟩)
  else match x, y with
    | .fin _ p, .fin _ q => (0, Q.sub q p)
    | .inf neg, .fin _ _ => (if neg then 1 else -1, ⟨0, 1⟩)
    | _, .inf neg => (if neg then -1 else 1, ⟨0, 1⟩)
    | _, _ => (0, ⟨0, 1⟩)
def sepLt (a b : Int × Q) : Bool := decide (a.1 < b.1) || (decide (a.1 = b.1) && decide (a.1 = 0) && a.2.lt b.2)
/-- The first least separation. -/
def leastSep : List LNode → Nat → Option (Nat × (Int × Q))
  | a :: b :: l, i => match leastSep (b :: l) (i + 1) with
    | none => some (i, sepOf a.depth b.depth)
    | some r => if sepLt r.2 (sepOf a.depth b.depth) then some r else some (i, sepOf a.depth b.depth)
  | _, _ => none

-- merging (R259)

def chan (c k : Nat) : FVal := fF16.read (c / 2 ^ (16 * k) % 65536)
def oneMinus (v : FVal) : FVal := match v with
  | .fin _ q => let r := Q.sub ⟨1, 1⟩ q; .fin (decide (r.num < 0)) r
  | .inf neg => .inf (!neg)
  | x => x
def weigh (w : Nat) (v : FVal) : FVal := match v with
  | .fin neg q => .fin neg (Q.mul ⟨w, 8⟩ q)
  | .inf neg => if w = 0 then .nan true else .inf neg
  | x => x
/-- f + a x k, rounded once to a format under RNE, denormals kept. -/
def madRound (f : Fmt) (a k c : FVal) : Nat := (fmaR f .rne false a k c).bits
def eighth (w : Nat) : FVal := .fin false ⟨w, 8⟩
/-- One channel of a merge (R259); where it is exactly zero, with the sign of a fused multiply-add (log entry 33). -/
def mergeChan (rule : Nat) (f k : LNode) (c : Nat) : Nat :=
  if rule = 0 then madRound fF16 (oneMinus (chan f.color 3)) (chan k.color c) (chan f.color c)
  else if rule = 1 then (convF fF16 .rne false false (chan f.color c)).bits
  else madRound fF16 (eighth (popN 8 f.cover)) (chan f.color c) (weigh (popN 8 k.cover) (chan k.color c))
def mergeNodes (rule : Nat) (f k : LNode) (idx : Nat) : LNode :=
  { idx := idx
    color := mergeChan rule f k 0 + 65536 * mergeChan rule f k 1 + 4294967296 * mergeChan rule f k 2 + 281474976710656 * mergeChan rule f k 3
    depth := f.depth
    cover := if rule = 1 then f.cover else Nat.lor f.cover k.cover
    flags := 1 }
/-- merge(L') of R258; the newcomer is the node of index 65535. -/
def mergeList (rule : Nat) (l : List LNode) : List LNode :=
  match leastSep l 0 with
  | none => l
  | some (i, _) => match l.drop i with
    | f :: k :: rest =>
      let front := if f.idx = noIndex then k.idx else f.idx
      let both := decide (f.idx ≠ noIndex) && decide (k.idx ≠ noIndex)
      let put (n : LNode) : LNode := if both ∧ n.idx = noIndex then { n with idx := k.idx } else n
      (l.take i).map put ++ mergeNodes rule f k front :: rest.map put
    | _ => l

def dropOne (t : List Byte) (x y : Nat) (bin : List Byte) : List (Nat × List Byte) :=
  [(binVA t x y + 264, natLe 4 (min (binDrops bin + 1) 4294967295))]
/-- The writes of one insert (R258), or why it fails; code 11 is FRAG_POOL. -/
def insertWrites (s : State) (fn : Nat) (t : List Byte) (x y : Nat) (node : List Word) : Except (XErr × Nat) (List (Nat × List Byte)) :=
  let f : LNode := { idx := noIndex, color := (node.getD 0 0).toNat + 4294967296 * (node.getD 1 0).toNat, depth := node.getD 2 0, cover := (node.getD 3 0).toNat % 256, flags := 0 }
  if (depthV f.depth).isNan then (match stageRead s fn (binVA t x y) 320 with | .error e => .error e | .ok bin => .ok (dropOne t x y bin))
  else match readList s fn t x y with
    | .error e => .error e
    | .ok l =>
      let l1 := placeNode f l.nodes
      let merged : List (Nat × List Byte) :=
        if l.nodes = [] then dropOne t x y l.bin else relink t x y l.bin l.nodes (mergeList (tgMerge t) l1)
      if l.nodes.length < tgK t then
        match allocNode s fn l.bin with
        | .error e => .error e
        | .ok none => if tgPolicyMerge t then .ok merged else .error (⟨11, 0⟩, 0)
        | .ok (some (i, fh, bump)) =>
          .ok (relink t x y l.bin l.nodes (l1.map (fun n => if n.idx = noIndex then { n with idx := i } else n)) ++
            [(binVA t x y + 260, natLe 2 fh ++ natLe 2 bump)])
      else .ok merged
/-- The writes that empty a list: its nodes onto the free list front to back (R264). -/
def clearWrites (t : List Byte) (x y : Nat) (l : LList) : List (Nat × List Byte) :=
  let push := l.nodes.foldl (fun (acc : Nat × List (Nat × List Byte)) n => (n.idx, acc.2 ++ [((nodeVA l.bin n.idx).getD 0, nodeBytes n acc.1)])) (binFree l.bin, [])
  push.2 ++ [(headVA t x y, natLe 4 1048560), (binVA t x y + 260, natLe 2 push.1)]

-- inserts at a stage (R256, R257, R261)

def passOf (s : State) (id : Nat) : Option Pass := findFirst (fun p => decide (p.id = id)) s.passes
def pixelKey (x y : Nat) : Nat := x + 65536 * y
/-- The interlock lets an insert proceed (R257), and so do the group's own earlier inserts of the same fragment. -/
def insertFree (s : State) (r : Insert) : Bool :=
  (match passOf s r.pass with
    | none => true
    | some p => !(p.live.any (fun e => decide (e.1 = pixelKey r.px r.py ∧ e.2 < r.seq)))) &&
  !(s.inserts.any (fun q => decide (q.id < r.id ∧ q.group = r.group ∧ q.lane = r.lane) && !q.parked))
def dropInsert (s : State) (id : Nat) : State := { s with inserts := s.inserts.filter (fun r => decide (r.id ≠ id)) }
def setInsert (s : State) (r : Insert) : State := { s with inserts := updIf (fun q => decide (q.id = r.id)) (fun _ => r) s.inserts }
/-- The address that the record of a failed insert names: the virtual address of a failed translation (R375), else the target (R261, log entry 33). -/
def insertAddr (r : Insert) (e : XErr × Nat) : Nat := if e.1.code = 4 ∨ e.1.code = 5 ∨ (e.1.code = 6 ∧ e.1.cause = 7) then e.2 else r.targetVA
/-- A failed insert fills the fragment slot, or adds its lane when the slot is of the same FINS (R261, R409). -/
def oweInsert (h : Group) (r : Insert) (e : XErr × Nat) : Group :=
  let x := e.1
  match owedAt h 18 with
  | some o =>
    if o.seq = r.fins then { h with owed := updIf (fun e => decide (e.1 = 18)) (fun e => (e.1, { o with lanes := o.lanes ||| (1#64 <<< r.lane) })) h.owed }
    else fillOwed h 18 o
  | none => fillOwed h 18 { code := x.code, unit := 4, pos := r.pos, off := r.off, addr := insertAddr r e, lanes := 1#64 <<< r.lane, done := 0,
                            detail := x.cause, more := 0, remote := false, seq := r.fins }
/-- An insert fails: it is parked, and its group owes the trap (R261). -/
def failInsert (s : State) (r : Insert) (e : XErr × Nat) : State :=
  let x := e.1
  let s1 := walkRecord (setInsert s { r with parked := true, code := x.code, cause := x.cause, at_ := insertAddr r e }) r.fn x e.2 (getFn s r.fn).slices[tgStage r.target]?
  match getGroup s1 r.group with
  | none => s1
  | some h => setGroup s1 (oweInsert h r e)
/-- An insert of an earlier FINS of the group is parked: this one is parked too, and has not failed (R261). -/
def parkedBefore (s : State) (r : Insert) : Bool := s.inserts.any (fun q => decide (q.group = r.group ∧ q.fins < r.fins) && q.parked)
/-- The stage performs an insert, or parks it (R258, R261). -/
def performInsert (s : State) (r : Insert) : State :=
  if parkedBefore s r then setInsert s { r with parked := true }
  else
    match insertWrites s r.fn r.target r.px r.py r.node with
    | .error x => failInsert s r x
    | .ok ws => match stageWrites r.fn ws s with
      | .error x => failInsert s r x
      | .ok t => dropInsert t r.id
/-- Retries a group's parked inserts in their order (R261). -/
def retryParked (s : State) (gid : Nat) : State :=
  let mine := s.inserts.filter (fun r => decide (r.group = gid) && r.parked)
  let s1 := { s with inserts := updIf (fun r => decide (r.group = gid)) (fun r => { r with parked := false, code := 0, cause := 0 }) s.inserts }
  mine.foldl (fun t r => let q := { r with parked := false, code := 0, cause := 0 }; if insertFree t q then performInsert t q else t) s1
/-- Fragments of some lanes have exited: the interlock lets later ones proceed (R257). -/
def fragExit (s : State) (h : Group) (lanes : List Nat) : State :=
  let gone := (h.frags.filter (fun f => lanes.contains f.1)).map (fun f => (pixelKey f.2.x f.2.y, f.2.seq))
  { s with passes := s.passes.map (fun p => if h.ctx.frag ∧ p.id = h.ctx.pass then { p with live := p.live.filter (fun e => !(gone.contains e)) } else p) }

end Sys2Proof.Machine
end

