-- ==== Sys2Proof/Machine/Repack.lean ====
section
/-!
DEFINITION. Machine/Repack.lean: re-pack windows and the dealing of threads (13 R281 to R291), and the end of a group slot
with what waits for it (R273, R288, R307).
-/
namespace Sys2Proof.Machine

/-- A group that holds a wave slot and executes or waits there. -/
def residentGroup (h : Group) : Bool :=
  match h.phase with
  | .none => false
  | .saved => false
  | _ => true
/-- The resident groups of a launch's grid on a core; fragment groups are not of the grid (R250). -/
def gridGroups (s : State) (launch core : Nat) : List Group :=
  (allGroups s).filter (fun h => decide (h.ctx.launch = launch ∧ h.core = core) && residentGroup h && !h.ctx.frag)
/-- A group's arrival in a window stands: a pre-emption request withdraws it at once (R289, R328). -/
def arrivedIn (w : Window) (h : Group) : Bool := w.arrivals.contains h.id && !h.preempt
/-- Every group of the grid that is resident on the core has arrived or is hollow (R283). -/
def windowFull (s : State) (w : Window) : Bool :=
  (gridGroups s w.launch w.core).all (fun h => h.hollow || arrivedIn w h)
/-- The operands of the REGROUP at which a group stands: key register, N. -/
def regroupOf (h : Group) : Dst × Nat :=
  match instrAt h with
  | .ok (.regroup k _ n8) => (k, 8 * n8)
  | _ => (.zero, 0)
/-- Un-retired matrix commands and copies of a group. -/
def pendingCmds (s : State) (gid : Nat) : Bool := s.cmds.any (fun c => decide (c.group = gid)) || s.copies.any (fun c => decide (c.group = some gid))

/-- A thread that travels (R285, R286). -/
structure Mover where
  og : Nat
  ol : Nat
  key : Nat
  regs : List Word
  poison : Bool
  stack : TStack
  deriving DecidableEq, Repr

def moversOf (h : Group) : List Mover :=
  let kn := regroupOf h
  (activeLanes h).map (fun l =>
    { og := h.origGrp.getD l h.grpix, ol := h.origLane.getD l l, key := (dst32 h kn.1 l).toNat % 256,
      regs := (List.range kn.2).map (fun r => gReg h r l),
      poison := poisonLanes h (List.range kn.2 ++ dstRegs kn.1 1) [l] ≠ [],
      stack := ((findFirst (fun e => decide (e.1 = l)) h.tstacks).map (·.2)).getD {} })
def sortMovers (l : List Mover) : List Mover := sortBy (fun m => [m.key, m.og, m.ol]) l
def countKey (l : List Mover) (k : Nat) : Nat := (l.filter (fun m => decide (m.key = k))).length
def keysOf (l : List Mover) : List Nat := (List.range 256).filter (fun k => l.any (fun m => decide (m.key = k)))
/-- The keys kept apart (R285): fuel is the number of keys. -/
def keptKeys (l : List Mover) (w slots : Nat) : Nat → List Nat → List Nat
  | 0, kept => kept
  | n + 1, kept =>
    let rem := (l.filter (fun m => !(kept.contains m.key))).length
    if (kept.map (fun k => ceilDiv (countKey l k) w)).sum + ceilDiv rem w ≤ slots then kept
    else match minBy (fun k => [countKey l k, k]) kept with
      | none => kept
      | some k => keptKeys l w slots n (kept.filter (fun j => decide (j ≠ k)))
/-- The chunks in slot order (R285). -/
def dealChunks (l : List Mover) (w slots : Nat) : List (List Mover) :=
  let kept := keptKeys l w slots 256 (keysOf l)
  (kept.map (fun k => chunksOf w 64 (l.filter (fun m => decide (m.key = k))))).flatten ++
    chunksOf w (l.length + 1) (l.filter (fun m => !(kept.contains m.key)))

/-- A participating slot after the re-pack (R286): a chunk in lanes 0, 1, …, or hollow. Loads still in flight return below it: what they write is
zeroed. The registers of vacant lanes below N are 0 too (R286 carries them with threads only; log entry 61). -/
def fillSlot (h : Group) (kn : Dst × Nat) (chunk : List Mover) (flags : BitVec 5) (sq : BitVec 32) (lost : Bool) (next : Nat) : Group :=
  let lanes := List.range chunk.length
  let regs : SMap Word := if lost then [] else
    (List.zip lanes chunk).foldl (fun m e => (List.zip (List.range kn.2) e.2.regs).foldl (fun m2 r => smSet 0 m2 (regKey r.1 e.1) r.2) m) []
  let h1 : Group := { h with
    regs := regs, regPoison := [], loads := [], flags := flags, srseq := sq, rc := [], rcblocks := 0, p := 0, m := 0
    active := fullMask chunk.length, exited := 0, vacant := fullMask (width h) &&& ~~~ fullMask chunk.length
    origGrp := chunk.map (·.og), origLane := chunk.map (·.ol)
    tstacks := (List.zip lanes chunk).filterMap (fun e => if e.2.stack = {} then none else some (e.1, e.2.stack))
    hollow := decide (chunk = []) }
  let h2 := writeLanes h1 kn.1 lanes (fun l => [BitVec.ofNat 32 (h1.origGrp.getD l 0)])
  if chunk = [] then { h2 with phase := .stopped, waiting := .no } else transfer h2 next

/-- The causes of R284 that a participant shows by itself. -/
def regroupFault (s : State) (h : Group) : Nat :=
  (if h.arv ≠ 0 then 1 else 0) + (if pendingCmds s h.id then 2 else 0) + (if h.rc ≠ [] ∨ h.rcblocks ≠ 0 then 4 else 0)
/-- The participants of a window (R283): the groups that arrived and the grid's hollow slots on the core, those apart that another re-pack of the same
cycle has taken, those not yet restored there and those that a request has reached (R288). -/
def participants (s : State) (w : Window) (taken : List Nat) : List Group :=
  sortBy (fun h => [h.grpix]) ((gridGroups s w.launch w.core).filter (fun h => (h.hollow && !h.preempt && decide (h.phase ≠ .placed) && !(taken.contains h.id)) || arrivedIn w h))
/-- Starts the re-pack of a window (R284 to R287, R290). -/
def startRepack (s : State) (w : Window) (taken : List Nat := []) : State :=
  let s0 := { s with windows := s.windows.filter (fun x => decide (x ≠ w)) }
  let arrived := (gridGroups s w.launch w.core).filter (fun h => arrivedIn w h && !h.hollow)
  let parts := participants s w taken
  match arrived with
  | [] => s0
  | a :: _ =>
    let kn := regroupOf a
    let addr (h : Group) : Nat := h.pos + 4 * h.off
    let apart := arrived.any (fun h => decide (addr h ≠ addr a))
    let bad := parts.any (fun h => regroupFault s h ≠ 0)
    if bad ∨ apart then
      arrived.foldl (fun t h =>
        let others := parts.any (fun x => decide (x.id ≠ h.id) && decide (regroupFault s x ≠ 0))
        let d := regroupFault s h + (if apart then 8 else 0) + (if others then 16 else 0)
        withGroup t h.id (fun u => takeTrap { u with g := { u.g with phase := .issue } } { code := 10, detail := d })) s0
    else
      let movers := sortMovers (arrived.map moversOf).flatten
      let chunks := dealChunks movers (width a) parts.length
      let lost := movers.any (fun m => m.poison)
      let flags := orFlags (parts.map (fun h => h.flags))
      let sq := BitVec.ofNat 32 ((parts.map (fun h => h.srseq.toNat)).foldl max 0 + 1)
      let next := afterBody a
      -- the memory order of R184, at team scope, on the one core
      let s1 := invalClean (cleanL1 s0 (fun x => decide (x.core = w.core) && covered .team x.sec)) (fun x => decide (x.core = w.core) && covered .team x.sec)
      let filled := (List.range parts.length).foldl (fun t j =>
        match parts[j]? with
        | none => t
        | some h => setGroup t (fillSlot h kn (chunks.getD j []) flags sq lost next)) s1
      let s2 := { filled with teams := filled.teams.map (fun t =>
        if t.launch = w.launch then
          completeBars { t with hollow := (List.range 16).foldl (fun m i =>
            match findFirst (fun h => decide (h.team = t.id ∧ h.ginteam = i) && parts.any (fun x => decide (x.id = h.id))) (allGroups filled) with
            | none => m
            | some h => if h.hollow then m ||| (1#16 <<< i) else m &&& ~~~ (1#16 <<< i)) t.hollow }
        else t) }
      if lost then
        let s3 := sliceRecord s2 (sliceOfCore w.core) { cause := 2, cls := 2, unit := 0, slice := none, where_ := w.core % 24, detail := Config.syndrome s2.now % 65536, ix := w.core % 24 }
        parts.foldl (fun t h => withGroup t h.id (fun u => if u.g.hollow then u else takeTrap u { code := 6, unit := 6, lost := true })) s3
      else s2
/-- Starts every window that is full, lower sites first (R283); fuel bounds them. -/
def startFull : Nat → State → State
  | 0, s => s
  | n + 1, s => match minBy (fun w => [w.site]) (s.windows.filter (windowFull s)) with
    | none => s
    | some w => startFull n (startRepack s w)
def startWindows (s : State) : State := startFull (s.windows.length + 1) s
/-- Withdraws a group from its window (R289); a window that is left with no arrival closes (log entry 61). -/
def leaveWindow (s : State) (gid : Nat) : State :=
  { s with windows := (s.windows.map (fun w => { w with arrivals := w.arrivals.filter (fun i => decide (i ≠ gid)) })).filter (fun w => decide (w.arrivals ≠ [])) }

/-- Windows of one grid and core start in order: the earlier opened first, and of those of one cycle the lower site, which takes the hollow slots (R283). -/
def startDue : List Window → Nat → List Nat → State → State
  | [], _, _, s => s
  | w :: l, at_, taken, s =>
    let t := if w.opened = at_ then taken else []
    startDue l w.opened (t ++ (participants s w t).map (·.id)) (startRepack s w t)
/-- A window of the grid on the core has been open for 4,096 cycles. -/
def windowDue (s : State) (core launch : Nat) (w : Window) : Bool := decide (w.core = core ∧ w.launch = launch ∧ w.opened + 4096 ≤ coreCycles s core)
/-- Every such window starts its re-pack, in order. -/
def startOverdue (s : State) (core launch : Nat) : State := startDue (sortBy (fun x => [x.opened, x.site]) (s.windows.filter (windowDue s core launch))) 0 [] s
/-- As time passes, every window whose 4,096 cycles are over starts, of each grid and core in turn (R283). -/
def startOverdueAll (s : State) : State :=
  ((s.windows.map (fun w => (w.core, w.launch))).eraseDups).foldl (fun t e => startOverdue t e.1 e.2) s
/-- REGROUP_TIMEOUT (R283): 4,096 cycles after the window opened; every window of the grid on the core that is due starts, in order. -/
def execRegroupTimeout (core launch site : Nat) (s : State) : Out :=
  .next (if s.windows.any (fun w => windowDue s core launch w && decide (w.site = site)) then startOverdue s core launch else s)

/-- REGROUP (R282): the waits, the owed traps, then the window of its site. A window whose 4,096 cycles are over has started by then (R283): it starts first, and the group, which
comes too late for it, then opens a new one. Its wait has completed (R417). -/
def execRegroup (_ : Dst) (site _n8 : Nat) (s : State) : Out :=
  let h := s.g
  if h.stq ≠ [] ∨ s.trvs.any (fun r => decide (r.group = h.id)) ∨ s.handoffs.any (fun r => decide (r.group = h.id)) then .next (stall s)
  else match owedServed h slotsEng with
    | some e => .next (takeOwed s e)
    | none =>
      if s.windows.any (windowDue s h.core h.ctx.launch) then .next (startOverdue s h.core h.ctx.launch) else
      let here (w : Window) : Bool := decide (w.core = h.core ∧ w.launch = h.ctx.launch ∧ w.site = site)
      let s1 := { s with g := { h with phase := .window, idle := 0 } }
      let s2 := if s1.windows.any here then { s1 with windows := updIf here (fun w => { w with arrivals := h.id :: w.arrivals.filter (fun i => decide (i ≠ h.id)) }) s1.windows }
        else { s1 with windows := { core := h.core, launch := h.ctx.launch, site := site, opened := coreCycles s h.core, arrivals := [h.id] } :: s1.windows }
      .next (startWindows s2)
-- the end of a slot

def repOf (s : State) (fn gen : Nat) : Option RepSet := findFirst (fun r => decide (r.fn = fn ∧ r.gen = gen)) s.repsets
def setRep (s : State) (r : RepSet) : State := { s with repsets := updIf (fun x => decide (x.fn = r.fn ∧ x.gen = r.gen)) (fun _ => r) s.repsets }
/-- The lowest package of a set, where its arrivals are gathered (R390), and its function there. -/
def lowestOf (r : RepSet) : Nat × Nat := (minBy (fun m => [m.1, m.2]) r.members).getD (Config.packageNumber, r.fn)
def lowestPackage (r : RepSet) : Nat := (lowestOf r).1
/-- The replica's share arrives in every set of its generation that holds it: replicas of one package share its synchronisation engine. -/
def addReplica (m : Nat × Nat) (r : RepSet) (x : RepSet) : RepSet :=
  if x.gen = r.gen ∧ x.members = r.members ∧ ¬ x.arrived.contains m then { x with arrived := m :: x.arrived } else x
/-- A replica's share of a start barrier is in (R390): the lowest package gathers and sends completion to all. -/
def packageArrived (s : State) (r : RepSet) (m : Nat × Nat) : State :=
  let me := Config.packageNumber
  let t := { s with repsets := s.repsets.map (addReplica m r) }
  if me = lowestPackage r then
    if r.members.all (fun x => x == m || r.arrived.contains x) ∧ ¬ r.completed then
      { t with repsets := t.repsets.map (fun x => if x.gen = r.gen ∧ x.members = r.members then { x with completed := true } else x),
               fabric := (r.members.filter (fun m => decide (m.1 ≠ me))).map (fun m => FabricMsg.complete m.1 m.2 r.gen) ++ s.fabric }
    else t
  else if m.1 = me ∧ ¬ r.arrived.contains m then
    { t with fabric := FabricMsg.arrival (lowestOf r).1 (lowestOf r).2 m.2 r.gen :: s.fabric }
  else t
/-- Counts a local group's arrival or end at its launch's start barrier (R307); the share is in when all have. -/
def countLocal (s : State) (h : Group) : State :=
  if ¬ h.ctx.repl then s
  else match repOf s h.ctx.fn h.ctx.gen with
    | none => s
    | some r =>
      let r1 := { r with local_ := r.local_ + 1 }
      if r.completed then s
      else if r1.local_ = h.ctx.lrec.teams * h.ctx.kernel.team then packageArrived (setRep s r1) r1 (Config.packageNumber, h.ctx.fn) else setRep s r1
/-- Every slot of a launch's grid has been placed and is hollow or has ended: the hollow ones end with it (R273). -/
def endHollow (s : State) (launch : Nat) : State :=
  match getLaunch s launch with
  | none => s
  | some l =>
    let left := (allGroups s).filter (fun h => decide (h.ctx.launch = launch ∧ h.phase ≠ .none) && !h.ctx.frag)
    if l.nextTeam = l.ctx.lrec.teams ∧ left ≠ [] ∧ left.all (fun h => h.hollow) then
      left.foldl (fun t h => withGroup t h.id endSlot) s
    else s
/-- The current group's slot ends, with all that follows (R273, R283, R288, R307). -/
def slotEnds (s : State) : State :=
  let h := s.g
  let s1 := if h.sarv = none then countLocal s h else s
  startWindows (endHollow (endSlot s1) h.ctx.launch)

end Sys2Proof.Machine
end

