-- ==== Sys2Proof/Machine/Sync.lean ====
section
/-!
DEFINITION. Machine/Sync.lean: barriers, synchronisation-engine objects and ENQ (14 R300 to R309, R311; 09 R193).
-/
namespace Sys2Proof.Machine

def misuse (s : State) (n : Nat) : State := trapCode s 9 n

/-- BAR.GRP (R300): every live lane must be active; afterwards every lane reads the group's queued stores. -/
def execBarGrp (s : State) : Out :=
  let h := s.g
  .next (if liveMask h &&& ~~~ h.active ≠ 0 then misuse s 3
    else { s with g := advance { h with stq := h.stq.map (fun e => { e with all := true }) } 1 })

-- team barriers (R302, R303)

def barAt (s : State) (id : Nat) : Bar := ((getTeam s s.g.team).map (fun t => t.bars.getD id {})).getD {}
/-- Whether phase n of a team barrier has completed; a group without a team is a team of one. -/
def barDone (s : State) (id n : Nat) : Bool := (getTeam s s.g.team).isNone || decide (n < (barAt s id).phase)
def arrive (s : State) (id : Nat) : State := updTeam s s.g.team (fun t => arriveBar t id s.g.ginteam)
/-- The group's arrival on a barrier stands open, with the phase it awaits; and it closes (R302, R311). -/
def openArrival (h : Group) (id n : Nat) : Group :=
  { h with arv := h.arv ||| (1#16 <<< id), phases := setAt ((h.phases ++ List.replicate 16 0).take 16) id n }
def closeArrival (h : Group) (id : Nat) : Group := { h with arv := h.arv &&& ~~~ (1#16 <<< id) }
def execBarTeam (id : Nat) (s : State) : Out :=
  match s.g.waiting with
  | .barTeam i n => .next (if barDone s i n then let t := acquire s .team; { t with g := advance (closeArrival t.g i) 1 } else stall s)
  | _ =>
    .next (if s.g.arv.getLsbD id then misuse s 1
      else
        let n := (barAt s id).phase
        let t := arrive (release s .team) id
        if barDone t id n then let u := acquire t .team; { u with g := advance u.g 1 }
        else { t with g := { openArrival t.g id n with waiting := .barTeam id n, stalled := true, idle := 0 } })
/-- BAR.ARV (R302). The arrival counts as open until its BAR.WAIT, as the table of R302 has it, also once its phase has completed (log entry 76). -/
def execBarArv (id : Nat) (s : State) : Out :=
  .next (if s.g.arv.getLsbD id then misuse s 1
    else
      let n := (barAt s id).phase
      let t := arrive (release s .team) id
      { t with g := advance (openArrival t.g id n) 1 })
def execBarWait (id : Nat) (s : State) : Out :=
  .next (if ¬ s.g.arv.getLsbD id then misuse s 2
    else if barDone s id (s.g.phases.getD id 0) then
      let t := acquire s .team
      { t with g := advance (closeArrival t.g id) 1 }
    else stall s)

-- objects (R304 to R306)

/-- The object that an id names: created, of the kind asked for (R304). -/
def objOf (s : State) (id : Nat) (barrier : Bool) : Option Obj :=
  if 16777216 ≤ id then none
  else findFirst (fun o => decide (o.fn = s.g.ctx.fn ∧ o.num = id) && (o.barrier == barrier)) s.objs
def setObj (s : State) (o : Obj) : State := { s with objs := updIf (fun x => decide (x.fn = o.fn ∧ x.num = o.num)) (fun _ => o) s.objs }
/-- A group that a pre-emption request has reached (R328). -/
def preempted (s : State) (gid : Nat) : Bool := ((getGroup s gid).map (·.preempt)).getD false
/-- The head waiter of a semaphore takes its count when the value suffices (R305): its group acquires, receives the old
value and goes on. A waiter whose group is asked to stop is withdrawn at once (R328). An object found corrupt grants nothing (R401). Fuel bounds the waiters. -/
def grantWaiters (fn num : Nat) : Nat → State → State
  | 0, s => s
  | n + 1, s => match findFirst (fun o => decide (o.fn = fn ∧ o.num = num)) s.objs with
    | none => s
    | some o => match (if o.corrupt then [] else o.waiters) with
      | [] => s
      | (gid, k) :: ws =>
        if preempted s gid then grantWaiters fn num n (setObj s { o with waiters := ws })
        else if o.value < k then s
        else
          let s1 := setObj s { o with value := o.value - k, waiters := ws }
          let old := BitVec.ofNat 32 o.value
          grantWaiters fn num n (withGroup s1 gid (fun t =>
            match t.g.waiting with
            | .semaphore _ d words => let u := acquire t .dev; { u with g := advance (writeLanes u.g d (activeLanes u.g) (fun _ => [old])) words }
            | _ => t))
/-- Withdraws a group from every semaphore queue (R305, R328). -/
def withdrawWaiter (s : State) (gid : Nat) : State :=
  { s with objs := s.objs.map (fun o => { o with waiters := o.waiters.filter (fun e => decide (e.1 ≠ gid)) }) }
/-- The object id or generation and the count that a synchronisation form reads from the lowest active lane. -/
def syncArg (h : Group) (a : Src) : Nat := (src32 h a (firstLane h)).toNat
def poisonAt (s : State) : State := trapCode s 6 0
def objCorrupt (s : State) (num : Nat) : Bool := s.objs.any (fun o => decide (o.fn = s.g.ctx.fn ∧ o.num = num) && o.corrupt)
/-- The waiting SEMACQ of the current group fails: its waiter leaves the queue and it takes POISON (R401), as soon as the entry of a trap can (R412). -/
def failWaiter (s : State) : State :=
  let t := withdrawWaiter { s with g := { s.g with waiting := .no, stalled := false } } s.g.id
  if trapWaits t then stall s else poisonAt t

def execSemacq (d : Dst) (a b : Src) (s : State) : Out :=
  match s.g.waiting with
  | .semaphore num _ _ => .next (if objCorrupt s num then failWaiter s else grantWaiters s.g.ctx.fn num s.objs.length (stall s))
  | _ => withRegs s (srcRegs a 1 ++ srcRegs b 1) [firstLane s.g] (fun s => match objOf s (syncArg s.g a) false with
      | none => .next (illegalOperand s)
      | some o =>
        let k := syncArg s.g b
        if k = 0 then .next (illegalOperand s)
        else if o.corrupt then .next (poisonAt s)
        else
          let s1 := setObj s { o with waiters := o.waiters ++ [(s.g.id, k)] }
          let s2 := { s1 with g := { s1.g with waiting := .semaphore o.num d (1 + litsOf a + litsOf b), stalled := true, idle := 0 } }
          .next (grantWaiters o.fn o.num (o.waiters.length + 1) s2))
def execSemrel (a b : Src) (s : State) : Out :=
  withRegs s (srcRegs a 1 ++ srcRegs b 1) [firstLane s.g] (fun s =>
    match objOf s (syncArg s.g a) false with
    | none => .next (illegalOperand s)
    | some o =>
      let k := syncArg s.g b
      if k = 0 then .next (illegalOperand s)
      else if o.corrupt then .next (poisonAt s)
      else
        let s1 := release s .dev
        let s2 := setObj s1 { o with value := min (o.value + k) 4294967295 }
        .next (grantWaiters o.fn o.num o.waiters.length { s2 with g := advance s2.g (1 + litsOf a + litsOf b) }))

/-- One arrival at a device barrier (R306): the phase arrived in, and the object afterwards. -/
def arriveObj (o : Obj) : Nat × Obj :=
  (o.value, if o.count ≤ o.arrived + 1 then { o with value := o.value + 1, arrived := 0 } else { o with arrived := o.arrived + 1 })
def objDone (s : State) (num n : Nat) : Bool := s.objs.any (fun o => decide (o.fn = s.g.ctx.fn ∧ o.num = num ∧ n < o.value) && o.barrier)
/-- DBAR (R306). Of several traps ILLEGAL_OPERAND comes first, then the POISON of a corrupt object, then BARRIER_MISUSE; DBARA and DBARW likewise (log entry 76). -/
def execDbar (a : Src) (s : State) : Out :=
  match s.g.waiting with
  | .dbar num n => .next (if objDone s num n then let t := acquire s .dev; { t with g := advance { t.g with darv := none } (1 + litsOf a) }
      else if objCorrupt s num then poisonAt s else stall s)
  | _ => withRegs s (srcRegs a 1) [firstLane s.g] (fun s => match objOf s (syncArg s.g a) true with
      | none => .next (illegalOperand s)
      | some o =>
        if o.corrupt then .next (poisonAt s)
        else if s.g.darv.isSome then .next (misuse s 4)
        else
          let r := arriveObj o
          let t := setObj (release s .dev) r.2
          .next (if objDone t o.num r.1 then let u := acquire t .dev; { u with g := advance u.g (1 + litsOf a) }
            else { t with g := { t.g with darv := some (o.num, r.1), waiting := .dbar o.num r.1, stalled := true, idle := 0 } }))
def execDbara (a : Src) (s : State) : Out :=
  withRegs s (srcRegs a 1) [firstLane s.g] (fun s =>
    match objOf s (syncArg s.g a) true with
    | none => .next (illegalOperand s)
    | some o =>
      if o.corrupt then .next (poisonAt s)
      else if s.g.darv.isSome then .next (misuse s 4)
      else
        let r := arriveObj o
        let t := setObj (release s .dev) r.2
        .next { t with g := advance { t.g with darv := some (o.num, r.1) } (1 + litsOf a) })
def execDbarw (a : Src) (s : State) : Out :=
  withRegs s (srcRegs a 1) [firstLane s.g] (fun s =>
    match objOf s (syncArg s.g a) true with
    | none => .next (illegalOperand s)
    | some o =>
      if o.corrupt then .next (poisonAt s)
      else match s.g.darv with
        | none => .next (misuse s 5)
        | some (num, n) =>
          if num ≠ o.num then .next (misuse s 5)
          else .next (if objDone s num n then let t := acquire s .dev; { t with g := advance { t.g with darv := none } (1 + litsOf a) } else stall s))

/-- SBAR (R307): the start barrier of the replicated launch; the release before its arrival waits for the group's remote writes (R182). -/
def execSbar (a : Src) (s : State) : Out :=
  let done (t : State) : Bool := match repOf t t.g.ctx.fn t.g.ctx.gen with
    | none => false
    | some r => r.completed
  let go (t : State) : State := let u := acquire t .sys; { u with g := advance { u.g with sarv := none } (1 + litsOf a) }
  match s.g.waiting with
  | .sbar _ => .next (if done s then go s else stall s)
  | _ => withRegs s (srcRegs a 1) [firstLane s.g] (fun s =>
      if ¬ s.g.ctx.repl ∨ syncArg s.g a ≠ s.g.ctx.gen then .next (misuse s 6)
      else if ¬ releaseReady s .sys then .next (stall s)
      else
        let t := release s .sys
        let t1 := if t.g.sarv = none then countLocal { t with g := { t.g with sarv := some t.g.ctx.gen } } t.g else t
        .next (if done t1 then go t1 else { t1 with g := { t1.g with waiting := .sbar t1.g.ctx.gen, stalled := true, idle := 0 } }))

-- queues and ENQ (R308, R312, R314)

/-- One bit of CRC-16 with polynomial 0x1021. -/
def crcBit (c : Nat) : Nat := if 32768 ≤ c then Nat.xor (c * 2 % 65536) 0x1021 else c * 2
def crcByte (c : Nat) (b : Byte) : Nat := crcBit (crcBit (crcBit (crcBit (crcBit (crcBit (crcBit (crcBit (Nat.xor c (b.toNat * 256)))))))))
/-- CRC-16 of bytes in ascending order (R314). -/
def crc16 (l : List Byte) : Nat := l.foldl crcByte 0xFFFF
/-- The crc field of a packet matches its bytes 4 to 63. -/
def crcOk (p : List Byte) : Bool := decide (fieldAt p 2 2 = crc16 (bytesAt p 4 60))
def queueOf (f : Fn) (q : Nat) : Queue := smGet {} f.queues q
def setQueue (s : State) (fn n : Nat) (q : Queue) : State := let f := getFn s fn; setFn s fn { f with queues := smSet {} f.queues n q }
def queueSlots (q : Queue) : Nat := 2 ^ q.lg
def slotVA (q : Queue) (i : Nat) : Nat := q.ring + 64 * (i % queueSlots q)
def treeOf_ (s : State) (id : Nat) : Option Tree := findFirst (fun t => decide (t.id = id)) s.trees
def setTree (s : State) (id : Nat) (f : Tree → Tree) : State := { s with trees := updIf (fun t => decide (t.id = id)) f s.trees }

/-- A launch joins a spawn tree (R309). -/
def joinTree (s : State) (id : Nat) : State := setTree s id (fun t => { t with count := t.count + 1 })

/-- Posts a card into a queue (R308): the status, and the state when it was posted. -/
def postCard (s : State) (fn qn : Nat) (card : List Byte) (tree : Nat) : Nat × State :=
  let q := queueOf (getFn s fn) qn
  if q.stop then (2, s)
  else match agentRead s fn q.wix 4 with
    | .error x => (1, walkRecord s fn x.1 x.2)
    | .ok w =>
      let wr := leNat w
      if queueSlots q ≤ (wr + 4294967296 - q.rd) % 4294967296 then (1, s)
      else if ((treeOf_ s tree).map (·.count)).getD 0 = 4294967295 then (3, s)
      else match agentWrite s fn (slotVA q wr) (natLe 2 (wr / queueSlots q % 65536) ++ card.drop 2) with
        | .error x => (1, walkRecord s fn x.1 x.2)
        | .ok t => match agentWrite t fn q.wix (natLe 4 ((wr + 1) % 4294967296)) with
          | .error x => (1, walkRecord s fn x.1 x.2)
          | .ok u =>
            (0, joinTree (setQueue u fn qn { q with posts := q.posts ++ [(wr, tree)] }) tree)
/-- ENQ (R308, R198): a release at dev scope of what has drained, then the checks and the post. -/
def execEnq (d : Dst) (a b : Src) (s : State) : Out :=
  withRegs s (srcRegs a 2 ++ srcRegs b 1) [firstLane s.g] (fun s0 =>
    let s := cleanL1 s0 (fun x => decide (x.core = s0.g.core) && covered .dev x.sec)
    let va := (src64 s.g false a (firstLane s.g)).toNat
    let qw := syncArg s.g b
    let q := queueOf (getFn s s.g.ctx.fn) qw
    if va % 64 ≠ 0 ∨ 256 ≤ qw ∨ ¬ q.opened ∨ ¬ q.dev then .next (illegalOperand s)
    else match coreRead s va 64 with
      | .error x => .next (trapAddr s x)
      | .ok card =>
        if ¬ crcOk card then .next (illegalOperand s)
        else
          let tree := ((getLaunch s s.g.ctx.launch).map (·.tree)).getD 0
          let r := postCard s s.g.ctx.fn qw card tree
          .next { r.2 with g := advance (writeLanes r.2.g d (activeLanes r.2.g) (fun _ => [BitVec.ofNat 32 r.1])) (1 + litsOf a + litsOf b) })

end Sys2Proof.Machine
end

