-- ==== Sys2Proof/Machine/Control.lean ====
section
/-!
DEFINITION. Machine/Control.lean: branches, joins, calls, exits and the return from a trap (14 R292 to R299, R310; 23 R412, R413).
-/
namespace Sys2Proof.Machine

/-- BRA, BRT, BRF (R294): the lowest active lane decides. -/
def condBit (h : Group) (c lane : Nat) : Bool := (gReg h c lane).getLsbD 0
def execBra (off : BitVec 21) (s : State) : Out := .next { s with g := transfer s.g (branchTarget s.g.pos off) }
def uniform (c : Nat) (off : BitVec 21) (want : Bool) (s : State) : Out :=
  withRegs s [c] [firstLane s.g] (fun s =>
    .next { s with g := if condBit s.g c (firstLane s.g) = want then transfer s.g (branchTarget s.g.pos off) else transfer s.g (afterBody s.g) })
def execBrt (c : Nat) (off : BitVec 21) (s : State) : Out := uniform c off true s
def execBrf (c : Nat) (off : BitVec 21) (s : State) : Out := uniform c off false s

/-- JOIN names the join of the branch that follows it (R67, R295): it has no effect of its own. -/
def execJoin (_ : BitVec 21) (s : State) : Out := .next { s with g := advance s.g 1 }
/-- DBRT and DBRF (R295): the join is named by the word before the branch. -/
def divergent (c : Nat) (off : BitVec 21) (want : Bool) (s : State) : Out :=
  withRegs s [c] (activeLanes s.g) (fun s =>
    let h := s.g
    let taken := maskOf ((activeLanes h).filter (fun l => condBit h c l = want))
    let rest := h.active &&& ~~~ taken
    let target := branchTarget h.pos off
    if taken = 0 then .next { s with g := transfer h (afterBody h) }
    else if rest = 0 then .next { s with g := transfer h target }
    else match pushRc s { mask := h.active, target := h.pos, deferred := true } with
      | .error (u, t) => .next (takeTrap u t)
      | .ok u =>
        let j := branchTarget h.pos (BitVec.ofNat 21 (h.clause.getD (h.off - 1) 0).toNat)
        .next { u with g := transfer { u.g with joinAt := j, joinNext := afterBody h, active := taken } target })
def execDbrt (c : Nat) (off : BitVec 21) (s : State) : Out := divergent c off true s
def execDbrf (c : Nat) (off : BitVec 21) (s : State) : Out := divergent c off false s

/-- CALL (R298). -/
def execCall (off : BitVec 21) (s : State) : Out :=
  let h := s.g
  match pushRc s { mask := h.active, target := afterBody h, deferred := false } with
  | .error (u, t) => .next (takeTrap u t)
  | .ok u => .next { u with g := transfer u.g (branchTarget h.pos off) }

/-- The group has no active lane (R297): its slot ends when the stack is empty, else it is about to arrive at the current join. -/
def noLanes (s : State) : State :=
  match currentJoin s.g with
  | none => slotEnds s
  | some j => { s with g := transfer { s.g with active := 0 } j }
/-- RET (R298). -/
def execRet (s : State) : Out :=
  match s.g.rc with
  | [] => .next (trapCode s 18 1)
  | e :: _ =>
    if e.deferred then .next (trapCode s 18 1)
    else match popRc s with
      | .error t => .next (takeTrap s t)
      | .ok u =>
        let v := { u with g := transfer { u.g with active := e.mask &&& liveMask u.g } e.target }
        match recoverJoin v with
        | .error t => .next (trapAfter s v (atEmpty v.g t))
        | .ok w => .next (if w.g.active = 0 then noLanes w else w)

/-- Arrival at the current join (R296, R297). -/
def arriveJoin (s : State) : State :=
  let h := s.g
  let live := liveMask h
  match h.rc with
  | [] => if h.active = 0 then slotEnds s else s
  | e :: rest =>
    if e.deferred then
      let d := e.mask &&& live &&& ~~~ h.active
      let h1 := { h with rc := { e with target := h.joinAt, deferred := false } :: rest }
      if d = 0 then { s with g := transfer h1 h.joinAt } else { s with g := transfer { h1 with active := d } h.joinNext }
    else
      -- an arrival that finds or leaves no active lane leaves everything as it was when it traps (R297)
      let empty (t : TrapInfo) : State := trapAfter s { s with g := goto_ h e.target } { t with act := some (e.mask &&& live) }
      match popRc s with
      | .error t => if h.active = 0 then empty t else takeTrap s t
      | .ok u =>
        let v := { u with g := transfer { u.g with active := e.mask &&& live } e.target }
        match recoverJoin v with
        | .error t => if h.active = 0 ∨ e.mask &&& live = 0 then empty t else trapAfter s v t
        | .ok w => if w.g.active = 0 then noLanes w else w

/-- What EXIT waits for (R299): stores, commands, copies, traversal requests, inserts and hand-offs. -/
def exitWaits (s : State) : Bool :=
  let h := s.g
  decide (h.stq ≠ []) || pendingCmds s h.id || s.trvs.any (fun r => decide (r.group = h.id)) ||
    s.inserts.any (fun r => decide (r.group = h.id) && !r.parked) || s.handoffs.any (fun r => decide (r.group = h.id))
/-- EXIT (R299): the waits, then a trap still owed, else every active lane exits. An insert parked and never retried is
still owed (R261, R446). -/
def execExit (s : State) : Out :=
  let h := s.g
  if exitWaits s then .next (stall s)
  else match owedServed h slotsAll with
    | some e => .next (takeOwed s e)
    | none => match findFirst (fun r => decide (r.group = h.id ∧ r.code ≠ 0) && r.parked) s.inserts with
      | some r => .next (takeTrap s { code := r.code, unit := 4, detail := r.cause, addr := r.at_, lanes := 1#64 <<< r.lane, fpos := some (r.pos, r.off) })
      | none =>
        let s1 := fragExit s h (activeLanes h)
        .next (noLanes { s1 with g := settled { s1.g with exited := h.exited ||| h.active, active := 0 } })

/-- BRKPT (R310): the return position is the header after its body. -/
def execBrkpt (s : State) : Out := .next (takeTrap s { code := 16, ret := some (afterBody s.g, 0) })

/-- RETT (R310, R413). It reads the record as the group's earlier stores left it (R176, log entry 28), and the handler's loads and tests into the
registers of the pair return before it writes them. A trap of the handler's own ends the launch (R414). -/
def execRett (s0 : State) : Out :=
  if ¬ s0.g.hnd then .next (illegalOperand s0)
  else if pairInFlight s0 then .next (stall s0)
  else
    let t0 := drainStq s0
    let s := { t0 with g := returnLoads t0.g }
    let h := s.g
    match coreRead s h.trec (128 + 8 * width h) with
    | .error x => .next (trapAddr s x)
    | .ok b =>
      let r := readRecord b
      let badOff : Bool := decide (r.roff ≠ 0) && (match readClause s r.rpos with
        | .error _ => false
        | .ok (_, c) => !((clauseStarts c).getD []).contains r.roff)
      if r.depth ≠ rcDepth h then .next (trapCode s 18 1)
      else if badOff then .next (illegalOperand s)
      else
        let s1 := retryParked { s with g := restoreTrap h r s.nextId } h.id
        match recoverJoin s1 with
        | .error t => .next (trapAfter s s1 (atEmpty s1.g t))
        | .ok s2 => .next s2

end Sys2Proof.Machine
end

