-- ==== Sys2Proof/Machine/Scoreboard.lean ====
section
/-!
DEFINITION. Machine/Scoreboard.lean: operand descriptors, control words and copy records as intervals of on-chip memory, and
the range-overlap scoreboard of a region (07 R136 to R139, R156; 08 R171, R172; 11 R229, R236), and the registers that a group's results will write.
-/
namespace Sys2Proof.Machine

/-- An interval of region memory or of the chip scratchpad. -/
structure Iv where
  chip : Bool
  lo : Nat
  hi : Nat
  write : Bool
  deriving DecidableEq, Repr
/-- Overlap at 32-byte granularity (R172). -/
def Iv.meets (a b : Iv) : Bool := a.chip == b.chip && decide (a.lo < a.hi ∧ b.lo < b.hi ∧ a.lo / 32 ≤ (b.hi - 1) / 32 ∧ b.lo / 32 ≤ (a.hi - 1) / 32)

/-- An operand descriptor (R136). -/
structure Desc where
  base : Nat
  pitch : Nat
  ebase : Nat
  chip : Bool
  ok : Bool
  deriving DecidableEq, Repr
def descOf (x : DWord) : Desc :=
  let n := x.toNat
  { base := 32 * (bits n 19 0 + (if bitOf n 58 then 1048576 else 0)), pitch := 32 * bits n 31 20,
    ebase := bits n 56 32 + (if bitOf n 59 then 33554432 else 0), chip := bitOf n 57, ok := bits n 63 60 = 0 }

/-- The intervals of an operand of q rows of n elements (R138). -/
def operandIvs (k : Slot) (d : Desc) (q n : Nat) (write : Bool) : List Iv :=
  { chip := d.chip, lo := d.base, hi := d.base + (q - 1) * d.pitch + rowBytes k n, write := write } ::
    (if k.kind = 1 then [{ chip := d.chip, lo := d.ebase, hi := d.ebase + (q - 1) * epitch k d.pitch + ceilDiv n k.block, write := write }] else [])
def wordIvs (d : Desc) (q n : Nat) (write : Bool) : List Iv :=
  [{ chip := d.chip, lo := d.base, hi := d.base + (q - 1) * d.pitch + 4 * n, write := write }]

-- control words (R139, R150)

def ctM (c : Word) : Nat := bits c.toNat 7 0 + 1
def ctN (c : Word) : Nat := bits c.toNat 14 8 + 1
def ctK (c : Word) : Nat := 16 * (bits c.toNat 22 15 + 1)
def ctSa (c : Word) : Nat := bits c.toNat 25 23
def ctSb (c : Word) : Nat := bits c.toNat 28 26
def ctClr (c : Word) : Bool := bitOf c.toNat 29
def stSlot (c : Word) : Nat := bits c.toNat 25 23
def stCvt (c : Word) : Bool := bitOf c.toNat 26

-- MCONV shape records (R147)

def shIn (r : List Byte) : DWord := BitVec.ofNat 64 (fieldAt r 0 8)
def shIh (r : List Byte) : Nat := fieldAt r 8 2
def shIw (r : List Byte) : Nat := fieldAt r 10 2
def shCh (r : List Byte) : Nat := fieldAt r 12 2
def shB (r : List Byte) (i : Nat) : Nat := fieldAt r i 1
def shOw (r : List Byte) : Nat := fieldAt r 22 2

/-- An MMAP of more than 128 rows: its second half runs on m(K + 8) (R146). -/
def twoHalves (c : Cmd) : Bool := decide (c.kind = .mmap ∧ 128 < ctM c.ctl)
/-- Steps done, as a trap record and a bobbin count them: of halves that have run one after the other, those of both (R155, R332; log entry 57). -/
def stepsDone (c : Cmd) : Nat := if c.serial then c.steps + c.steps2 else c.steps
def slotIn (slots : List Slot) (k : Nat) : Slot := slots.getD k {}
/-- The intervals of a command (R138, R147). -/
def cmdIvs (slots : List Slot) (c : Cmd) : List Iv :=
  match c.kind with
  | .mzero => []
  | .mst => if stCvt c.ctl then operandIvs (slotIn slots (stSlot c.ctl)) (descOf c.a) (ctM c.ctl) (ctN c.ctl) true
    else wordIvs (descOf c.a) (ctM c.ctl) (ctN c.ctl) true
  | .mconv => operandIvs (slotIn slots (ctSa c.ctl)) (descOf (shIn c.shape)) (shIh c.shape * shIw c.shape) (shCh c.shape) false ++
      operandIvs (slotIn slots (ctSb c.ctl)) (descOf c.b) (ctN c.ctl) (ctK c.ctl) false
  | _ => operandIvs (slotIn slots (ctSa c.ctl)) (descOf c.a) (ctM c.ctl) (ctK c.ctl) false ++
      operandIvs (slotIn slots (ctSb c.ctl)) (descOf c.b) (ctN c.ctl) (ctK c.ctl) false

/-- The on-chip intervals of one side of a copy: space code, address, pitch and exponent address. -/
def sideIvs (cpyn : Bool) (k : Slot) (r : List Byte) (sp a pitch e : Nat) (write : Bool) : List Iv :=
  if sp = 0 then []
  else
    let chip := decide (sp = 3)
    let n := if cpyn then (if cpF32 r then 4 * cpRow r else rowBytes k (cpRow r)) else cpRow r
    { chip := chip, lo := a, hi := a + (cpRows r - 1) * pitch + n, write := write } ::
      (if cpyn ∧ ¬ cpF32 r then [{ chip := chip, lo := e, hi := e + (cpRows r - 1) * epitch k pitch + cpRow r / k.block, write := write }] else [])
def counterIv (r : List Byte) : List Iv := if cpCnt r then [{ chip := false, lo := cpCntAt r, hi := cpCntAt r + 4, write := true }] else []
def copyRecIvs (kind : CopyKind) (k : Slot) (r : List Byte) : List Iv :=
  match kind with
  | .publish => []
  | _ => let n := decide (kind = .cpyn)
    sideIvs n k r (cpSsp r) (cpSrc r) (cpSpitch r) (cpSexp r) false ++ sideIvs n k r (cpDsp r) (cpDst r) (cpDpitch r) (cpDexp r) true ++ counterIv r
def copyIvs (c : Copy) : List Iv := copyRecIvs c.kind c.slot c.rcd

-- the scoreboard

def regionOf (core : Nat) : Nat := core / 8
def slotsOfGroup (s : State) (gid : Nat) : List Slot := ((getGroup s gid).map (fun h => h.ctx.lrec.slots)).getD []
/-- The group's un-retired operations below an issue id: number and intervals. -/
def groupOps (s : State) (gid below : Nat) : List (Nat × List Iv) :=
  (s.cmds.filter (fun c => decide (c.group = gid ∧ c.id < below))).map (fun c => (c.id, cmdIvs (slotsOfGroup s gid) c)) ++
    (s.copies.filter (fun c => decide (c.group = some gid ∧ c.id < below))).map (fun c => (c.id, copyIvs c))
/-- What orders one interval behind another: a read behind writes, a write behind everything (R156, R236). -/
def ordered (later earlier : Iv) : Bool := later.meets earlier && (later.write || earlier.write)
/-- The operations of the group that hold an access, by number (R156, R236). -/
def holders (s : State) (gid below : Nat) (ivs : List Iv) : List Nat :=
  ((groupOps s gid below).filter (fun o => o.2.any (fun e => ivs.any (fun i => ordered i e)))).map (·.1)
/-- Entries in use in a region's scoreboard (R171). -/
def boardUsed (s : State) (region : Nat) : Nat :=
  ((allGroups s).map (fun h => if regionOf h.core = region ∧ residentGroup h ∧ h.phase ≠ .placed then ((groupOps s h.id s.nextId).map (fun o => o.2.length)).sum else 0)).sum
/-- A command or copy that needs n entries finds room; one that needs none never waits. -/
def boardRoom (s : State) (n : Nat) : Bool := decide (n = 0 ∨ boardUsed s (regionOf s.g.core) + n ≤ 64)
/-- The intervals of accesses of lanes to an on-chip space that the scoreboard covers. -/
def accessIvs (sp : Space) (n : Nat) (write : Bool) (l : List (Nat × Nat)) : List Iv :=
  match sp with
  | .rg => l.map (fun e => { chip := false, lo := e.2, hi := e.2 + n, write := write })
  | .c => l.map (fun e => { chip := true, lo := e.2, hi := e.2 + n, write := write })
  | _ => []
/-- A load or store behind a command or copy of the group: it serves the owed slot of the one that held it, and is held
while one overlaps (R156, R236, R409), before its own addresses are checked (log entry 70). -/
def whenFree (s : State) (ivs : List Iv) (k : State → Out) : Out :=
  let slots := match s.g.waiting with
    | .held _ l => l
    | _ => []
  match owedServed s.g slots with
  | some e => .next (takeOwed s e (slots.filter (fun i => decide (i ≠ e.1))))
  | none => match holders s s.g.id s.nextId ivs with
    | [] => k s
    | ids => .next { s with g := { s.g with waiting := .held ids [], stalled := true } }
/-- The extent of region memory or of the chip scratchpad. -/
def ivBound (s : State) (i : Iv) : Bool := decide (i.hi ≤ if i.chip then extent s .c else extent s .rg)
/-- Earlier stores of the group to the intervals leave the store queue first (R156). -/
def settleStores (s : State) (ivs : List Iv) : State :=
  if s.g.stq.any (fun e => (accessIvs e.sp e.data.length true [(e.lane, e.addr)]).any (fun a => ivs.any (fun i => a.meets i))) then drainStq s else s

-- the register scoreboard

def fldRegs : Fld → List Nat
  | .w c n _ => if c < 120 then (List.range n).map (c + ·) else []
  | .s c n => if c < 120 then (List.range n).map (c + ·) else []
  | .t c n => if c < 120 then (List.range n).map (c + ·) else []
  | .un _ => []
/-- The registers that the word at a group's position names, and whether it is REGROUP, which names its first N. -/
def touched (h : Group) : List Nat :=
  match rowOf (Fields.of (h.clause.getD h.off 0).toNat) [] with
  | none => []
  | some r => (r.fs.map fldRegs).flatten ++ (if r.regroup then List.range r.top else if r.top = 0 then [] else [r.top - 1])
/-- Registers that an outstanding load or traversal request of the group will write. -/
def heldRegs (s : State) (h : Group) : List Nat :=
  (h.loads.map (·.holds)).flatten ++ ((s.trvs.filter (fun r => decide (r.group = h.id))).map (fun r => dstRegs r.d (if r.tri then 4 else 2))).flatten
/-- The instruction at the group's position names a register that is still to be written: it does not issue. -/
def registerWait (s : State) (h : Group) : Bool := (heldRegs s h).any (fun r => (touched h).contains r)
/-- A group after a result has returned to it: where that ended such a wait, its count of R417 starts again. -/
def returned (s t : State) (h k : Group) : Group := if h.phase = .issue ∧ registerWait s h ∧ ¬ registerWait t k then { k with idle := 0 } else k

end Sys2Proof.Machine
end

