-- ==== Sys2Proof/Machine/Mem.lean ====
section
/-!
DEFINITION. Machine/Mem.lean: loads, stores, multi-register transfers, tag operations, atomics and fences (10 R200 to R225).
-/
namespace Sys2Proof.Machine

def sizeOf_ : Sz → Nat
  | .b1 => 1 | .b2 => 2 | .b4 => 4 | .b8 => 8 | .b16 => 16 | .b32 => 32
def wordsFor (n : Nat) : Nat := ceilDiv n 4
def addrWords (sp : Space) : Nat := if sp = .g then 2 else 1
/-- The address of a lane (R200). -/
def laneAddr (h : Group) (a : Src) (sp : Space) (lane : Nat) : Nat :=
  if sp = .g then (src64 h false a lane).toNat else (src32 h a lane).toNat
def laneAddrs (h : Group) (a : Src) (sp : Space) : List (Nat × Nat) := (activeLanes h).map (fun l => (l, laneAddr h a sp l))
/-- The active lanes whose part of a tag operation or an atomic is still to be performed: those outside M (R211, R221). -/
def pendingLanes (h : Group) : List Nat := (activeLanes h).filter (fun l => !h.m.getLsbD l)
def pendingAddrs (h : Group) (a : Src) (sp : Space) : List (Nat × Nat) := (pendingLanes h).map (fun l => (l, laneAddr h a sp l))

-- fences (R182, R207, R223)

/-- A fence: whether it can complete now, and its effect. -/
def fenceReady (s : State) (o : MOrd) (sc : Scope) : Bool :=
  (decide (o = .rel) || decide (s.g.loads = [])) && (decide (o = .acq) || releaseReady s sc)
/-- The group waits in a fence, or in the fence before an access; a pre-emption request stops it after the instruction (R225, R328). -/
def stallFence (s : State) : State := { s with g := { s.g with waiting := .fence, stalled := true } }
def fenceDo (s : State) (o : MOrd) (sc : Scope) : State :=
  match o with
  | .rlx => s
  | .rel => release s sc
  | .acq => acquire s sc
  | .sc => acquire (drainStq (release s sc)) sc
def execFence (o : MOrd) (sc : Scope) (s : State) : Out :=
  .next (if fenceReady s o sc then let t := fenceDo s o sc; { t with g := advance t.g 1 } else stallFence s)
/-- What an access does before and after itself under its ord (R207). -/
def before (s : State) (o : MOrd) (sc : Scope) : State :=
  match o with
  | .rel => release s sc
  | .sc => fenceDo s .sc sc
  | _ => s
def after (s : State) (o : MOrd) (sc : Scope) : State :=
  match o with
  | .acq => acquire s sc
  | .sc => fenceDo s .sc sc
  | _ => s
/-- After a pass in which some lanes of an ordered operation have performed and others have not: those have acquired, whatever becomes of the
rest (R182, R211, R221). -/
def performed (s t : State) (o : MOrd) (sc : Scope) : State := if s.g.m ≠ t.g.m then after t o sc else t
def bypasses (o : MOrd) (sc : Scope) : Bool := (decide (o = .acq) || decide (o = .sc)) && scopeWide sc
/-- An access with ord sc waits for the loads before it (R223), and one that releases at sys scope for the group's remote writes (R182). -/
def orderedNow (s : State) (o : MOrd) (sc : Scope) : Bool :=
  (decide (o ≠ .sc) || decide (s.g.loads = [])) && (decide (o ≠ .sc ∧ o ≠ .rel) || releaseReady s sc)
def whenOrdered (s : State) (o : MOrd) (sc : Scope) (k : State → Out) : Out := if orderedNow s o sc then k s else .next (stallFence s)

/-- The access goes on after what its ord asks for before it. What that made visible may have changed a page table: a lane that no longer finds its page takes
the trap of its walk (R160, R375; log entry 71). -/
def afterBefore (s : State) (o : MOrd) (sc : Scope) (sp : Space) (n : Nat) (p : Perm) (l : List (Nat × Nat)) (k : State → Out) : Out :=
  match accessCheck (before s o sc) sp n n p l with
  | some x => .next (takeTrap (before s o sc) x)
  | none => k (before s o sc)

-- LD and ST (R204 to R206)

/-- What one lane of a load reads: what it has read before the other lanes, else what stands there now (R185, R205). -/
def loadLane (s : State) (byp : Bool) (sp : Space) (n lane addr : Nat) : Option (List Byte) :=
  match findFirst (fun e => decide (e.1 = s.g.off ∧ e.2.1 = lane)) s.g.early with
  | some e => some e.2.2
  | none => loadParts s lane byp (partsD s sp lane addr n .r)
/-- Some lanes of a load of n bytes that can issue now read before the others (R185, R205; log entry 24); past clean sectors of the L1 also where a load before it, for which
they have read, acquires. -/
def earlyLoad (byp : Bool) (a : Src) (n : Nat) (o : MOrd) (sc : Scope) (sp : Space) (lanes : BitVec 64) (s : State) : State :=
  let l := laneAddrs s.g a sp
  if (o ≠ .rlx ∧ o ≠ .acq) ∨ poisonLanes s.g (srcRegs a (addrWords sp)) (activeLanes s.g) ≠ [] ∨ holders s s.g.id s.nextId (accessIvs sp n false l) ≠ [] ∨
      (accessCheck s sp n n .r l).isSome then s
  else
    let got := (l.filter (fun e => lanes.getLsbD e.1)).filterMap (fun e => (loadParts s e.1 (byp || bypasses o sc) (partsD s sp e.1 e.2 n .r)).map (fun b => (s.g.off, e.1, b)))
    { s with g := { s.g with early := got ++ s.g.early.filter (fun e => !(decide (s.g.off ≤ e.1) && lanes.getLsbD e.2.1)) } }
/-- Lanes that have read for the load at the current group's offset. -/
def earlyLanes (h : Group) : BitVec 64 := maskOf ((h.early.filter (fun e => decide (e.1 = h.off))).map (fun e => e.2.1))
/-- A load of n bytes per lane; conv makes the register words of a lane from its bytes. -/
def loadOp (t : Dst) (a : Src) (n : Nat) (o : MOrd) (sc : Scope) (sp : Space) (conv : List Byte → List Word) (s : State) : Out :=
  withRegs s (srcRegs a (addrWords sp)) (activeLanes s.g) (fun s0 =>
    let l := laneAddrs s0.g a sp
    whenFree s0 (accessIvs sp n false l) (fun s1 =>
      match accessCheck s1 sp n n .r l with
      | some x => .next (takeTrap s1 x)
      | none => whenOrdered s1 o sc (fun s2 => afterBefore s2 o sc sp n .r l (fun s3 =>
        let got := l.map (fun e => (e, loadLane s3 (bypasses o sc) sp n e.1 e.2))
        match failAt l (fun lane _ => if got.any (fun g => decide (g.1.1 = lane) && g.2.isNone) then some ⟨6, 0⟩ else none) with
        | some x => .next (takeTrap s3 x)
        | none =>
          let s4 := l.foldl (fun u e => fillParts u (partsD s3 sp e.1 e.2 n .r) (bypasses o sc)) s3
          let w := match t with
            | .zero => []
            | .reg r => (got.map (fun g => (List.zip (List.range 8) (conv (g.2.getD []))).map (fun p => (regKey (r + p.1) g.1.1, p.2)))).flatten
          let s5 := { s4 with g := { s4.g with loads := s4.g.loads ++ [{ writes := w, holds := dstRegs t (wordsFor n) }] } }
          let s6 := after s5 (if o = .sc then .acq else o) sc
          let s7 := if o = .sc then drainStq s6 else s6
          .next { s7 with g := advance s7.g (1 + litsOf a) }))))
def execLd (t : Dst) (a : Src) (sz : Sz) (o : MOrd) (sc : Scope) (sp : Space) (s : State) : Out :=
  loadOp t a (sizeOf_ sz) o sc sp (fun b => wordsOf (wordsFor (sizeOf_ sz)) b) s
/-- The signed loads: one byte, or two with half (R204). -/
def execLdSigned (t : Dst) (a : Src) (half : Bool) (o : MOrd) (sc : Scope) (sp : Space) (s : State) : Out :=
  let n := if half then 2 else 1
  loadOp t a n o sc sp (fun b => [BitVec.ofNat 32 (wrapN 32 (sx (8 * n) (leNat b)))]) s

/-- The bytes a store's t supplies in a lane (R201). -/
def storeBytes (h : Group) (t : Src) (n lane : Nat) : List Byte :=
  match t with
  | .reg r => (bytesOfWords ((List.range (wordsFor n)).map (fun i => gReg h (r + i) lane))).take n
  | other => natLe n (src64 h false other lane).toNat
def execSt (t : Src) (a : Src) (sz : Sz) (o : MOrd) (sc : Scope) (sp : Space) (s : State) : Out :=
  let n := sizeOf_ sz
  withRegs s (srcRegs t (wordsFor n) ++ srcRegs a (addrWords sp)) (activeLanes s.g) (fun s0 =>
    let l := laneAddrs s0.g a sp
    whenFree s0 (accessIvs sp n true l) (fun s1 =>
      match accessCheck s1 sp n n .w l with
      | some x => .next (takeTrap s1 x)
      | none => whenOrdered s1 o sc (fun s2 => afterBefore s2 o sc sp n .w l (fun s3 =>
        let h := l.foldl (fun g e => queueParts g e.1 (storeBytes g t n e.1) ((partsD s3 sp e.1 e.2 n .w).flatMap unitsOf)) s3.g
        let s4 := after { s3 with g := h } o sc
        .next { s4 with g := advance s4.g (1 + litsOf a + litsOf t) }))))

-- LDM and STM (R208 to R210)

/-- The first word at fault among the n at an address of a lane. -/
def wordErr (n a : Nat) (f : Nat → Option XErr) : Option (XErr × Nat) := ((List.range n).filterMap (fun i => (f (a + 4 * i)).map (fun x => (x, a + 4 * i)))).head?
/-- The lanes that fail a check of their words: the lowest gives the word, in a space other than g the address it presents (R209, log entry 26). -/
def failWord (h : Group) (sp : Space) (l : List (Nat × Nat)) (f : Nat → Nat → Option (XErr × Nat)) : Option TrapInfo :=
  match l.filterMap (fun e => (f e.1 e.2).map (fun x => (e, x))) with
  | [] => none
  | e :: es => some { code := e.2.1.code, detail := e.2.1.cause, addr := if sp = .g then e.2.2 else e.1.2, lanes := maskOf ((e :: es).map (·.1.1)),
                      walk := if sp = .p then some (threadAddr h e.1.1 e.2.2) else none }
/-- One unit of a transfer: n registers from the first of the transfer on. The checks of R160 over the unit's bytes in every lane, then poison
(R209): a failed one answers the trap, which names the lowest lane that fails it. -/
def unitCheck (s : State) (load : Bool) (sp : Space) (first n : Nat) (l : List (Nat × Nat)) : Option TrapInfo :=
  let at_ := l.map (fun e => (e.1, e.2 + 4 * first))
  let p : Perm := if load then .r else .w
  let words (f : Nat → Nat → Option XErr) : Option TrapInfo := failWord s.g sp at_ (fun lane a => wordErr n a (f lane))
  let poisoned (lane w : Nat) : Bool := (loadParts s lane false (partsD s sp lane w 4 .r)).isNone
  ([failAt at_ (fun _ a => if a % 4 ≠ 0 then some ⟨3, 0⟩ else none),
    words (fun _ w => if sp = .g ∧ 2251799813685248 ≤ w then some (pageFault Config.addressCause) else none),
    failAt at_ (fun _ a => if sp ≠ .g ∧ extent s sp < a + 4 * n then some ⟨7, 0⟩ else none),
    words (fun lane w => match partsOf s sp lane w 4 p with | .error x => some x | .ok _ => none),
    failAt at_ (fun lane a => if load ∧ (List.range n).any (fun i => poisoned lane (a + 4 * i)) then some ⟨6, 0⟩ else none)].filterMap id).head?
def loadUnit (s : State) (d : Dst) (sp : Space) (first n : Nat) (l : List (Nat × Nat)) : State :=
  let h := l.foldl (fun g e => (List.range n).foldl (fun g2 i => match d with
    | .zero => g2
    | .reg r => setReg g2 (r + first + i) e.1 (BitVec.ofNat 32 (leNat ((loadParts s e.1 false (partsD s sp e.1 (e.2 + 4 * (first + i)) 4 .r)).getD [])))) g) s.g
  { l.foldl (fun u e => (List.range n).foldl (fun u2 i => fillParts u2 (partsD s sp e.1 (e.2 + 4 * (first + i)) 4 .r)) u) s with g := h }
def storeUnit (s : State) (d : Dst) (sp : Space) (first n : Nat) (l : List (Nat × Nat)) : State :=
  { s with g := l.foldl (fun g e => (List.range n).foldl (fun g2 i =>
      queueParts g2 e.1 (match d with | .zero => natLe 4 0 | .reg r => natLe 4 (gReg s.g (r + first + i) e.1).toNat) (partsD s sp e.1 (e.2 + 4 * (first + i)) 4 .w)) g) s.g }
/-- The units from u on; between units a pending pre-emption request is honoured with P saved (R209, R210), and so is a pending turn of another agent,
before which the group stands at the transfer with its P (log entry 2). Fuel bounds them. -/
def unitsFrom (load : Bool) (d : Dst) (sp : Space) (count lits : Nat) (l : List (Nat × Nat)) : Nat → Nat → State → State
  | 0, _, s => s
  | f + 1, u, s =>
    if count ≤ 8 * u then { s with g := advance s.g (1 + lits) }
    else
      let n := min 8 (count - 8 * u)
      match unitCheck s load sp (8 * u) n l with
      | some x => takeTrap { s with g := { s.g with p := 8 * u } } x
      | none =>
        let t := if load then loadUnit s d sp (8 * u) n l else storeUnit s d sp (8 * u) n l
        if (t.g.preempt ∨ t.agenda ≠ []) ∧ 8 * (u + 1) < count then { t with g := { t.g with p := 8 * (u + 1) } }
        else unitsFrom load d sp count lits l f (u + 1) t
def transferOp (load : Bool) (d : Dst) (a : Src) (count : Nat) (sp : Space) (s : State) : Out :=
  withRegs s (srcRegs a (addrWords sp) ++ (if load then [] else dstRegs d count)) (activeLanes s.g) (fun s0 =>
    let l := laneAddrs s0.g a sp
    whenFree s0 (accessIvs sp (4 * count) (!load) l) (fun s1 => .next (unitsFrom load d sp count (litsOf a) l 5 (s1.g.p / 8) s1)))
def execLdm (d : Dst) (a : Src) (count : Nat) (sp : Space) (s : State) : Out := transferOp true d a count sp s
def execStm (d : Dst) (a : Src) (count : Nat) (sp : Space) (s : State) : Out := transferOp false d a count sp s

-- tag operations (R211 to R214)

inductive TagOp where
  | ldf | ldfe | stef
  deriving DecidableEq, Repr
def TagOp.meets (op : TagOp) (full : Bool) : Bool := match op with
  | .stef => !full
  | _ => full
/-- A queued store of the group to one of the words. -/
def storeTo (s : State) (sp : Space) (l : List (Nat × Nat)) : Bool :=
  s.g.stq.any (fun e => decide (e.sp = sp) && l.any (fun a => decide (e.addr < a.2 + 4 ∧ a.2 < e.addr + e.data.length)))
/-- Such a store performs first, so that their order stands (R176, R186); and where a lane of an `STEF` or an
`LDFE` will write, every earlier store does, so that the group's writes are seen in program order (R177, R192). -/
def settleWords (s : State) (op : TagOp) (sp : Space) (l : List (Nat × Nat)) : State :=
  let m := sramOf s s.g (decide (sp = .rg))
  if storeTo s sp l ∨ (op ≠ .ldf ∧ l.any (fun a => op.meets (tagFull m a.2))) then drainStq s else s
/-- Before its ord allows it, a tag operation waits at a point where a stop finds it at any cycle (R182, R225), also in the wait for its words. -/
def whenTagOrdered (s : State) (o : MOrd) (sc : Scope) (k : State → Out) : Out :=
  if orderedNow s o sc then k s else .next (if s.g.tagWait.isSome then s else stall s)
/-- The pending lanes in order: each whose word meets the condition performs; a poisoned word stops with its lane. -/
def tagPass (op : TagOp) (rg : Bool) (t : Nat → Group → Group × List Byte) : List (Nat × Nat) → State → State × Option (Nat × Nat)
  | [], s => (s, none)
  | e :: l, s =>
    let m := sramOf s s.g rg
    if op.meets (tagFull m e.2) then
      if sramPoisoned m e.2 4 then (s, some e)
      else
        let s1 := match op with
          | .stef => setSramOf s s.g rg (setTag (sramWrite m e.2 (t e.1 s.g).2) e.2 true)
          | .ldfe => setSramOf { s with g := (t e.1 s.g).1 } s.g rg (setTag m e.2 false)
          | .ldf => { s with g := (t e.1 s.g).1 }
        tagPass op rg t l { s1 with g := { s1.g with m := s1.g.m ||| (1#64 <<< e.1) } }
    else tagPass op rg t l s
/-- LDF, LDFE and STEF (R211): a pass over the lanes that are left, then the acquire or release of ord, or the wait. The scoreboard holds them behind the group's own commands and copies, as it
holds loads and stores (R172; log entry 60). -/
def tagOp (op : TagOp) (reads : List Nat) (a : Src) (o : MOrd) (sc : Scope) (sp : Space) (lits : Nat) (put : Nat → Word → Group → Group)
    (get : Nat → Group → List Byte) (s : State) : Out :=
  withRegs s (srcRegs a 1 ++ reads) (pendingLanes s.g) (fun s0 =>
    let l := pendingAddrs s0.g a sp
    whenFree s0 (accessIvs sp 4 (decide (op = .stef)) l) (fun s1 =>
      match accessCheck s1 sp 4 4 .r l with
      | some x => .next (takeTrap s1 x)
      | none => whenTagOrdered s1 o sc (fun s2 =>
        let s3 := settleWords (before s2 o sc) op sp l
        let rg := decide (sp = .rg)
        let step (lane : Nat) (g : Group) : Group × List Byte :=
          (put lane (BitVec.ofNat 32 (leNat (sramRead (sramOf s3 g rg) ((findFirst (fun e => decide (e.1 = lane)) l).map (·.2) |>.getD 0) 4))) g, get lane g)
        let r := tagPass op rg step l s3
        match r.2 with
        | some e => .next (takeTrap (performed s3 r.1 o sc) { code := 6, addr := e.2, lanes := 1#64 <<< e.1 })
        | none =>
          let left := l.filter (fun e => !r.1.g.m.getLsbD e.1)
          if left = [] then let t := after r.1 o sc; .next { t with g := advance t.g (1 + lits) }
          else let t := performed s3 r.1 o sc; .next { t with g := { t.g with waiting := .no, tagWait := some (t.g.tagWait.getD 0), idle := if t.g.tagWait.isNone then 0 else t.g.idle } })))
def putTag (t : Dst) (lane : Nat) (w : Word) (h : Group) : Group := writeDst h t lane [w]
def execLdf (t : Dst) (a : Src) (o : MOrd) (sc : Scope) (sp : Space) (s : State) : Out := tagOp .ldf [] a o sc sp (litsOf a) (putTag t) (fun _ _ => []) s
def execLdfe (t : Dst) (a : Src) (o : MOrd) (sc : Scope) (sp : Space) (s : State) : Out := tagOp .ldfe [] a o sc sp (litsOf a) (putTag t) (fun _ _ => []) s
def execStef (t : Src) (a : Src) (o : MOrd) (sc : Scope) (sp : Space) (s : State) : Out :=
  tagOp .stef (srcRegs t 1) a o sc sp (litsOf a + litsOf t) (fun _ _ h => h) (fun lane h => natLe 4 (src32 h t lane).toNat) s
/-- SETF and SETE (R213): relaxed, each takes its place in the order of its own word, behind the group's stores to it (R191, log entry 31); so does TRD. -/
def tagSet (a : Src) (rg full : Bool) (s : State) : Out :=
  let sp : Space := if rg then .rg else .s
  withRegs s (srcRegs a 1) (activeLanes s.g) (fun s0 =>
    let l := laneAddrs s0.g a sp
    match accessCheck s0 sp 4 4 .w l with
    | some x => .next (takeTrap s0 x)
    | none =>
      let s1 := if storeTo s0 sp l then drainStq s0 else s0
      let t := setSramOf s1 s1.g rg (l.foldl (fun m e => setTag m e.2 full) (sramOf s1 s1.g rg))
      .next { t with g := advance t.g (1 + litsOf a) })
def execSetf (a : Src) (rg : Bool) (s : State) : Out := tagSet a rg true s
def execSete (a : Src) (rg : Bool) (s : State) : Out := tagSet a rg false s
def execTrd (d : Dst) (a : Src) (rg : Bool) (s : State) : Out :=
  let sp : Space := if rg then .rg else .s
  withRegs s (srcRegs a 1) (activeLanes s.g) (fun s0 =>
    let l := laneAddrs s0.g a sp
    match accessCheck s0 sp 4 4 .r l with
    | some x => .next (takeTrap s0 x)
    | none =>
      let s1 := if storeTo s0 sp l then drainStq s0 else s0
      let m := sramOf s1 s1.g rg
      .next { s1 with g := advance (l.foldl (fun h e => writeDst h d e.1 [if tagFull m e.2 then 1 else 0]) s1.g) (1 + litsOf a) })

-- atomics (R215 to R222)

/-- The host operations of R219. -/
inductive AtKind where
  | hostOk | coreOnly
  deriving DecidableEq, Repr
/-- Reads and writes n bytes at the place of one lane's atomic; or the error of its read half, or of its walk, and what stands then. Far atomics call
the sector back from every core, also where its read half then meets poison (R220, R221), and drop the issuer's copy (R188). -/
def atomicPlace (s : State) (sp : Space) (a n : Nat) (f : Nat → List Byte) : Except (XErr × State) (Nat × State) :=
  match sp with
  | .s => let m := sramOf s s.g false
    if sramPoisoned m a n then .error (⟨6, 0⟩, s) else let y := leNat (sramRead m a n); .ok (y, setSramOf s s.g false (sramWrite m a (f y)))
  | .rg => let m := sramOf s s.g true
    if sramPoisoned m a n then .error (⟨6, 0⟩, s) else let y := leNat (sramRead m a n); .ok (y, setSramOf s s.g true (sramWrite m a (f y)))
  | .c => let fn := getFn s s.g.ctx.fn
    if chipPoisoned fn a n then .error (⟨6, 0⟩, s) else let y := leNat (chipRead fn a n); .ok (y, chipWrite s s.g.ctx.fn a (f y))
  | _ => match translate s s.g.ctx.fn a .rw with
    | .error x => .error (x, s)
    | .ok q =>
      let s1 := callBack s (q.spa / 32) (fun _ => true)
      if memPoisoned s1 q.spa n then .error (⟨6, 0⟩, s1)
      else
        let y := leNat (memRead s1 q.key q.spa n)
        let s2 := memWrite s1 q.key q.spa (f y)
        .ok (y, { s2 with l1 := l1Del s2.l1 s2.g.core (q.spa / 32) })
def hostPage (s : State) (a : Nat) : Bool := match translate s s.g.ctx.fn a .rw with
  | .ok q => decide (hostBase ≤ q.spa)
  | .error _ => false
/-- Host memory takes only the operations of R219. -/
def hostBad (k : AtKind) (sp : Space) (s : State) (a : Nat) : Option XErr := if sp = .g ∧ k ≠ .hostOk ∧ hostPage s a then some ⟨5, 4⟩ else none
/-- The checks of an atomic over its lanes: those of R160, then that of R219. -/
def atomicCheck (k : AtKind) (sp : Space) (n : Nat) (l : List (Nat × Nat)) (s : State) : Option TrapInfo :=
  match accessCheck s sp n n .rw l with
  | some x => some x
  | none => failAt l (fun _ va => hostBad k sp s va)
/-- One lane's atomic, where its page is still one that takes it: an earlier lane may have changed the page table. -/
def atomicAt (k : AtKind) (sp : Space) (n : Nat) (f : Group → Nat → Nat → List Byte) (s : State) (e : Nat × Nat) : Except (XErr × State) (Nat × State) :=
  match hostBad k sp s e.2 with
  | some x => .error (x, s)
  | none => atomicPlace s sp e.2 n (f s.g e.1)
/-- The lanes in order from the first not in M (R217, R221). -/
def atomicLanes (k : AtKind) (sp : Space) (n : Nat) (f : Group → Nat → Nat → List Byte) (put : Nat → Nat → Group → Group) :
    List (Nat × Nat) → State → State × Option ((Nat × Nat) × XErr)
  | [], s => (s, none)
  | e :: l, s =>
    if s.g.m.getLsbD e.1 then atomicLanes k sp n f put l s
    else match atomicAt k sp n f s e with
      | .error (x, t) => (t, some (e, x))
      | .ok r => atomicLanes k sp n f put l { r.2 with g := let h := put e.1 r.1 r.2.g; { h with m := h.m ||| (1#64 <<< e.1) } }
def atomicOp (k : AtKind) (reads : List Nat) (a : Src) (n : Nat) (o : MOrd) (sc : Scope) (sp : Space) (f : Group → Nat → Nat → List Byte)
    (put : Nat → Nat → Group → Group) (s : State) : Out :=
  withRegs s (srcRegs a (addrWords sp) ++ reads) (pendingLanes s.g) (fun s0 =>
    let l := pendingAddrs s0.g a sp
    whenFree s0 (accessIvs sp n true l) (fun s1 =>
      match atomicCheck k sp n l s1 with
      | some x => .next (takeTrap s1 x)
      | none => whenOrdered s1 o sc (fun s2 =>
        let s3 := drainStq (before s2 o sc)
        match atomicCheck k sp n l s3 with
        | some x => .next (takeTrap s3 x)
        | none =>
          let r := atomicLanes k sp n f put l s3
          match r.2 with
          | some (e, x) => .next (takeTrap (performed s2 r.1 o sc) { code := x.code, detail := x.cause, addr := e.2, lanes := 1#64 <<< e.1 })
          | none => let t := after r.1 o sc; .next { t with g := advance t.g (1 + litsOf a) })))
/-- An atomic on one operand x from t (R216). -/
def atomic1 (k : AtKind) (t : Dst) (a : Src) (w : Bool) (o : MOrd) (sc : Scope) (sp : Space) (op : Nat → Nat → Nat → Nat) (s : State) : Out :=
  let n := if w then 8 else 4
  atomicOp k (dstRegs t (nRegs w)) a n o sc sp
    (fun h lane y => natLe n (op (8 * n) y (if w then (dst64 h t lane).toNat else (dst32 h t lane).toNat)))
    (fun lane y h => writeDst h t lane (resWords w y)) s
/-- New values of R216 from the width, the old value and x. -/
def newAdd (b y x : Nat) : Nat := (y + x) % 2 ^ b
def newMinS (b y x : Nat) : Nat := if sx b x < sx b y then x else y
def newMaxS (b y x : Nat) : Nat := if sx b y < sx b x then x else y
def execAtadd (t : Dst) (a : Src) (w : Bool) (o : MOrd) (sc : Scope) (sp : Space) (s : State) : Out := atomic1 .hostOk t a w o sc sp newAdd s
def execAtminS (t : Dst) (a : Src) (w : Bool) (o : MOrd) (sc : Scope) (sp : Space) (s : State) : Out := atomic1 .coreOnly t a w o sc sp newMinS s
def execAtminN (t : Dst) (a : Src) (w : Bool) (o : MOrd) (sc : Scope) (sp : Space) (s : State) : Out := atomic1 .coreOnly t a w o sc sp (fun _ y x => min y x) s
def execAtmaxS (t : Dst) (a : Src) (w : Bool) (o : MOrd) (sc : Scope) (sp : Space) (s : State) : Out := atomic1 .coreOnly t a w o sc sp newMaxS s
def execAtmaxN (t : Dst) (a : Src) (w : Bool) (o : MOrd) (sc : Scope) (sp : Space) (s : State) : Out := atomic1 .coreOnly t a w o sc sp (fun _ y x => max y x) s
def execAtand (t : Dst) (a : Src) (w : Bool) (o : MOrd) (sc : Scope) (sp : Space) (s : State) : Out := atomic1 .coreOnly t a w o sc sp (fun _ y x => Nat.land y x) s
def execAtor (t : Dst) (a : Src) (w : Bool) (o : MOrd) (sc : Scope) (sp : Space) (s : State) : Out := atomic1 .coreOnly t a w o sc sp (fun _ y x => Nat.lor y x) s
def execAtxor (t : Dst) (a : Src) (w : Bool) (o : MOrd) (sc : Scope) (sp : Space) (s : State) : Out := atomic1 .coreOnly t a w o sc sp (fun _ y x => Nat.xor y x) s
def execAtxch (t : Dst) (a : Src) (w : Bool) (o : MOrd) (sc : Scope) (sp : Space) (s : State) : Out := atomic1 .hostOk t a w o sc sp (fun _ _ x => x) s
/-- ATCAS: c in t, x in the registers after it. -/
def execAtcas (t : Dst) (a : Src) (w : Bool) (o : MOrd) (sc : Scope) (sp : Space) (s : State) : Out :=
  let n := if w then 8 else 4
  let r := nRegs w
  atomicOp .hostOk (dstRegs t (2 * r)) a n o sc sp
    (fun h lane y =>
      let ws := dstWords h t (2 * r) lane
      let c := leNat (bytesOfWords (ws.take r))
      natLe n (if y = c then leNat (bytesOfWords (ws.drop r)) else y))
    (fun lane y h => writeDst h t lane (resWords w y)) s
/-- binary32 addition of the atomics: RNE, denormals kept, no flag (R218). -/
def addF32 (x y : Nat) : Nat := (addR fF32 .rne false (fF32.read x) (fF32.read y)).bits
def execAtfadd (t : Dst) (a : Src) (o : MOrd) (sc : Scope) (sp : Space) (s : State) : Out := atomic1 .coreOnly t a false o sc sp (fun _ y x => addF32 y x) s
/-- The exact error of a rounded sum, when all three are finite (R218). -/
def sumError (s x : Nat) : Nat :=
  match fF32.read s, fF32.read x, fF32.read (addF32 s x) with
  | .fin _ a, .fin _ b, .fin _ c => let r := Q.sub (Q.add a b) c; if r.isZero then 0 else (roundQ fF32 .rne false false r).bits
  | _, _, _ => 0
def execFaddCp (t : Dst) (a : Src) (o : MOrd) (sc : Scope) (sp : Space) (s : State) : Out :=
  atomicOp .coreOnly (dstRegs t 1) a 8 o sc sp
    (fun h lane y =>
      let x := (dst32 h t lane).toNat
      let sm := y % 4294967296
      natLe 4 (addF32 sm x) ++ natLe 4 (addF32 (y / 4294967296) (sumError sm x)))
    (fun lane y h => writeDst h t lane (resWords true y)) s

-- forms, for the turns that look at an instruction before it runs

/-- The fields of a load: destination, address operand, bytes a lane, ord, scope and space. -/
structure LoadForm where
  t : Dst
  a : Src
  n : Nat
  o : MOrd
  sc : Scope
  sp : Space
  deriving DecidableEq, Repr
def loadForm : Instr → Option LoadForm
  | .ld t a sz o sc sp => some ⟨t, a, sizeOf_ sz, o, sc, sp⟩
  | .ldSigned t a half o sc sp => some ⟨t, a, if half then 2 else 1, o, sc, sp⟩
  | _ => none
/-- The fields of an atomic: the registers that receive the old value, address operand and space. -/
structure AtomicForm where
  regs : List Nat
  a : Src
  sp : Space
  deriving DecidableEq, Repr
def atomicForm : Instr → Option AtomicForm
  | .atadd t a w _ _ sp => some ⟨dstRegs t (nRegs w), a, sp⟩
  | .atminS t a w _ _ sp => some ⟨dstRegs t (nRegs w), a, sp⟩
  | .atminN t a w _ _ sp => some ⟨dstRegs t (nRegs w), a, sp⟩
  | .atmaxS t a w _ _ sp => some ⟨dstRegs t (nRegs w), a, sp⟩
  | .atmaxN t a w _ _ sp => some ⟨dstRegs t (nRegs w), a, sp⟩
  | .atand t a w _ _ sp => some ⟨dstRegs t (nRegs w), a, sp⟩
  | .ator t a w _ _ sp => some ⟨dstRegs t (nRegs w), a, sp⟩
  | .atxor t a w _ _ sp => some ⟨dstRegs t (nRegs w), a, sp⟩
  | .atxch t a w _ _ sp => some ⟨dstRegs t (nRegs w), a, sp⟩
  | .atcas t a w _ _ sp => some ⟨dstRegs t (nRegs w), a, sp⟩
  | .atfadd t a _ _ sp => some ⟨dstRegs t 1, a, sp⟩
  | .faddCp t a _ _ sp => some ⟨dstRegs t 2, a, sp⟩
  | _ => none
/-- A list operation at a stage. -/
def listAccess : Instr → Bool
  | .fpeek _ _ _ => true
  | .fres _ _ _ _ => true
  | .fclr _ _ => true
  | _ => false

-- events

/-- LOAD_DATA_RETURN (R204): the oldest load of the group writes its registers. -/
def execLoadDataReturn (gid : Nat) (s : State) : Out :=
  .next (withGroup s gid (fun t => match t.g.loads with
    | [] => t
    | x :: l => let h := { returnLoad t.g x with loads := l }; { t with g := returned t t t.g h }))
/-- STORE_QUEUE_DRAIN (R168, R177): the oldest store of the group leaves its queue. -/
def execStoreQueueDrain (gid : Nat) (s : State) : Out :=
  .next (withGroup s gid (fun t => match t.g.stq with
    | [] => t
    | e :: l => let u := performStore t t.g e; { u with g := { u.g with stq := l } }))

end Sys2Proof.Machine
end

