-- ==== Sys2Proof/Machine/Matrix.lean ====
section
/-!
DEFINITION. Machine/Matrix.lean: matrix commands, tiles and the arrays that serve them (07; 18 R362 to R366).
-/
namespace Sys2Proof.Machine

-- tiles of a group (R134, R135)

def tileOf (h : Group) (m : Nat) : Option Tile := findFirst (fun t => decide (t.m = m)) h.tiles
def holdsTile (h : Group) (m : Nat) : Bool := (tileOf h m).isSome
def updTile (h : Group) (m : Nat) (f : Tile → Tile) : Group := { h with tiles := updIf (fun t => decide (t.m = m)) f h.tiles }
/-- A fresh tile: every element +0 and no poison. -/
def bindTile (h : Group) (m : Nat) : Group := { h with tiles := insBy (fun t => [t.m]) { m := m, elems := [], poison := [] } h.tiles }
def elemKey (i j : Nat) : Nat := 128 * i + j
/-- Elements (i, j), i < rows, j < cols, become +0 without poison (R139). -/
def clearTile (rows cols : Nat) (t : Tile) : Tile :=
  let out (k : Nat) : Bool := decide (k / 128 < rows ∧ k % 128 < cols)
  { t with elems := t.elems.filter (fun e => !out e.1), poison := t.poison.filter (fun e => !out e.1) }
/-- Tiles in use in one engine's file of a region. -/
def tilesUsed (s : State) (region eng : Nat) : Nat :=
  ((allGroups s).map (fun h => if regionOf h.core = region ∧ residentGroup h then (h.tiles.filter (fun t => decide (t.m / 8 = eng))).length else 0)).sum
def tileFree (s : State) (m : Nat) : Bool := decide (tilesUsed s (regionOf s.g.core) (m / 8) < 8)
/-- The tiles a command names. -/
def cmdTiles (c : Cmd) : List Nat := if c.kind = .mmap then [c.tile, c.tile + 8] else [c.tile]
/-- An un-retired command of the group on a tile. -/
def tileBusy (s : State) (gid m : Nat) : Bool := s.cmds.any (fun c => decide (c.group = gid) && (cmdTiles c).contains m)

-- leases (R362)

def putBytes (l : List Byte) (off : Nat) (bs : List Byte) : List Byte := l.take off ++ bs ++ l.drop (off + bs.length)
def updLease (s : State) (id : Nat) (f : Lease → Lease) : State := { s with leases := updIf (fun l => decide (l.id = id)) f s.leases }
def setLeaseState (s : State) (id st : Nat) : State := updLease s id (fun l => { l with rcd := putBytes l.rcd 48 (natLe 1 st) })
/-- A command that has come to its region: its group has been restored there (R173, R335). -/
def arrivedCmd (s : State) (c : Cmd) : Bool := match getGroup s c.group with
  | none => false
  | some h => residentGroup h && decide (h.phase ≠ .placed)
/-- A command goes through the queue of an array; an MMAP through those of both home arrays (R146). -/
def usesQueue (a : Nat) (c : Cmd) : Bool := decide (c.array = a) || (decide (c.kind = .mmap) && decide (a ≠ 2))
/-- The commands of a region that have come before a number to the queue of an array. -/
def queueBefore (s : State) (region a n : Nat) : Nat := (s.cmds.filter (fun d => decide (d.region = region ∧ d.arrived < n) && usesQueue a d && arrivedCmd s d)).length
/-- A command stands in its queues, which hold 32 each (R133). A saved command whose queue is full when its group resumes enters it, in the order of arrival, when there is
room (log entry 52). -/
def queuedCmd (s : State) (c : Cmd) : Bool := arrivedCmd s c && [0, 1, 2].all (fun a => !(usesQueue a c) || decide (queueBefore s c.region a c.arrived < 32))
/-- A region copy of the group that must run to completion waits behind its commands (R240, log entry 48). -/
def copyNeeds (s : State) (c : Cmd) : Bool :=
  s.copies.any (fun p => decide (p.group = some c.group ∧ c.id < p.id) && (copyIvs p).any (fun i => !i.chip) && decide (holders s c.group p.id (copyIvs p) ≠ []))
/-- A queued command that may run: of a group that has stopped only to the end of a step that has begun, or for such a copy (R157, R329). -/
def liveCmd (s : State) (c : Cmd) : Bool := match getGroup s c.group with
  | none => false
  | some h => queuedCmd s c && (decide (h.phase ≠ .stopped) || decide (0 < c.attempts + c.attempts2) || copyNeeds s c)
/-- The array that executes a command, by key; none when no array of the region is in service. -/
def servedBy (s : State) (c : Cmd) : Option Nat :=
  if c.array = 2 then (leaseAt s c.region).map (·.key)
  else
    let k := arrKey c.region c.array
    let o := arrKey c.region (1 - c.array)
    if inService s k then some k else if inService s o then some o else none
/-- Both home arrays of a region are in service. -/
def bothServe (s : State) (region : Nat) : Bool := inService s (arrKey region 0) && inService s (arrKey region 1)
/-- The arrays that a command works on: both, for the halves of an MMAP while both are in service (R146, R155). -/
def arraysOf (s : State) (c : Cmd) : List Nat :=
  if twoHalves c && bothServe s c.region then [arrKey c.region 0, arrKey c.region 1] else (servedBy s c).toList
/-- The notice of the lease has run out: a command that has not started fails (R366). -/
def revoked (s : State) (c : Cmd) : Bool :=
  decide (c.array = 2) && ((leaseAt s c.region).map (fun l => decide (leaseState l = 1 ∧ l.noticeEnd ≤ s.now))).getD false
/-- Two commands stand in one queue, or one array serves both their queues. -/
def sameQueue (s : State) (c d : Cmd) : Bool :=
  if c.array = 2 ∨ d.array = 2 then decide (c.array = d.array)
  else decide (c.array = d.array) || decide (c.kind = .mmap) || decide (d.kind = .mmap) || !(bothServe s c.region)
/-- Eight corrected mismatches of an array within 2^30 cycles (R405): it starts no command and leaves service at the end of the current one. -/
def failing (s : State) (k : Nat) : Bool :=
  let l := (arrAt s k).residues
  (List.range l.length).any (fun i => decide (i + 7 < l.length ∧ l.getD i 0 - l.getD (i + 7) 0 < 1073741824))
/-- A command may perform its next step (R156): the first of its queue to have arrived, behind nothing the scoreboard orders before it. -/
def cmdReady (s : State) (c : Cmd) : Bool :=
  liveCmd s c && (servedBy s c).isSome && (c.started || !((arraysOf s c).any (failing s) || revoked s c)) &&
  !(s.cmds.any (fun d => decide (d.arrived < c.arrived ∧ d.region = c.region) && liveCmd s d && (sameQueue s c d || (decide (d.group = c.group) && (cmdTiles d).any (cmdTiles c).contains)))) &&
  decide (holders s c.group c.id (cmdIvs (slotsOfGroup s c.group) c) = [])

-- retirement and failure (R153)

def retire (s : State) (c : Cmd) : State := settleLease { s with cmds := s.cmds.filter (fun d => decide (d.id ≠ c.id)) } c.region
/-- A command fails: later commands of the group on its tiles are discarded, its slot fills, and it retires. -/
def failCmd (s : State) (c : Cmd) (x : XErr) (addr : Nat) : State :=
  let s1 := { s with cmds := s.cmds.filter (fun d => !(decide (d.group = c.group ∧ c.id < d.id) && (cmdTiles d).any (cmdTiles c).contains)) }
  let o : Owed := { code := x.code, unit := 1, pos := c.pos, off := c.off, addr := addr, lanes := 0, done := stepsDone c, detail := x.cause, more := 0, remote := false, seq := c.id,
                    pair := decide (c.kind = .mmap) }
  retire (match getGroup s1 c.group with
    | none => s1
    | some h => setGroup s1 (servesHeld (fillOwed h c.tile o) c.id c.tile)) c
def failAll (x : XErr) : List Cmd → State → State
  | [], s => s
  | c :: cs, s => failAll x cs (if s.cmds.any (fun d => decide (d.id = c.id)) then failCmd s c x 0 else s)
/-- With no home array in service, every command for their queues fails (R155). -/
def failIfDark (s : State) (region : Nat) : State :=
  if inService s (arrKey region 0) ∨ inService s (arrKey region 1) then s
  else failAll ⟨13, 0⟩ (s.cmds.filter (fun c => decide (c.region = region ∧ c.array ≠ 2) && arrivedCmd s c)) s
/-- An array goes out of service (R154, R405), with its record; a lent one ends its lease (R366). -/
def arrayOut (s : State) (k : Nat) : State :=
  let a := arrAt s k
  let s1 := sliceRecord (setArr s k { a with out := true }) (k / 6) { cause := 6, cls := 3, unit := 6, slice := none, where_ := k % 6 }
  match a.lease with
  | none => failIfDark s1 (k / 2)
  | some id => match findFirst (fun l => decide (l.id = id)) s1.leases with
    | none => s1
    | some l =>
      let s2 := setLeaseState s1 id 4
      settleLease (failAll ⟨14, 0⟩ (s2.cmds.filter (fun c => decide (c.region = l.host ∧ c.array = 2))) s2) l.host

-- operands (R137, R140, R86)

/-- The step length (R139). -/
def stepLen (a b : Slot) : Nat := if a.kind = 1 ∧ a.block = 32 ∧ b.kind = 1 ∧ b.block = 32 then 32 else 16
def slotBits (k : Slot) : Nat := if k.kind = 1 then k.m else if k.kind = 4 ∨ k.kind = 5 then 16 else 8
/-- Cycles of a step (R142). -/
def stepCycles (a b : Slot) : Nat := 2 * max (slotBits a) (slotBits b) * (stepLen a b / 16)
/-- Bytes of region memory or of the chip scratchpad as the group's engines read them; poison at the first bad byte. A chip scratchpad that has
shrunk since issue raises SCRATCH_BOUNDS (R359). -/
def chipOrRg (s : State) (h : Group) (chip : Bool) (a n : Nat) : Except (XErr × Nat) (List Byte) :=
  let bad (i : Nat) : Bool := if chip then chipPoisoned (getFn s h.ctx.fn) (a + i) 1 else sramPoisoned (sramOf s h true) (a + i) 1
  if chip ∧ chipExtent (getFn s h.ctx.fn) < a + n then .error (⟨7, 0⟩, a)
  else match findFirst bad (List.range n) with
  | some i => .error (⟨6, 0⟩, a + i)
  | none => .ok (if chip then chipRead (getFn s h.ctx.fn) a n else sramRead (sramOf s h true) a n)
/-- Element k of row q of an operand, exactly (R70, R86, R90). -/
def operandElem (s : State) (h : Group) (k : Slot) (d : Desc) (q i : Nat) : Except (XErr × Nat) FVal :=
  let row := d.base + q * d.pitch
  if k.kind = 1 then
    match chipOrRg s h d.chip (d.ebase + q * epitch k d.pitch + i / k.block) 1, chipOrRg s h d.chip (row + i / perByte k) 1 with
    | .error x, _ => .error x
    | _, .error x => .error x
    | .ok e, .ok b =>
      if leNat e = 255 then .error (⟨2, 6⟩, 0)
      else
        let x := bfpVal k.m (leNat e) (leNat b / 2 ^ (k.m * (i % perByte k)))
        .ok (.fin (decide (x.num < 0)) x)
  else match slotFmt k with
    | none => .error (⟨2, 6⟩, 0)
    | some f =>
      let n := rowBytes k 1
      match chipOrRg s h d.chip (row + n * i) n with
      | .error x => .error x
      | .ok b => .ok (f.read (leNat b))
/-- The row and element of the input that element k of row i of an MCONV reads; none outside the input (R147). -/
def convAt (r : List Byte) (i k : Nat) : Option (Nat × Nat) :=
  let p := fieldAt r 24 2 * shOw r + fieldAt r 26 2 + i
  let f := k / shCh r
  let y : Int := ((p / shOw r * shB r 16 + f / shB r 15 * shB r 18 : Nat) : Int) - (shB r 20 : Int)
  let x : Int := ((p % shOw r * shB r 17 + f % shB r 15 * shB r 19 : Nat) : Int) - (shB r 21 : Int)
  if 0 ≤ y ∧ y < (shIh r : Int) ∧ 0 ≤ x ∧ x < (shIw r : Int) then some (y.toNat * shIw r + x.toNat, k % shCh r) else none
def elemA (s : State) (h : Group) (c : Cmd) (k : Slot) (i n : Nat) : Except (XErr × Nat) FVal :=
  if c.kind = .mconv then
    match convAt c.shape i n with
    | none => .ok (.fin false ⟨0, 1⟩)
    | some e => operandElem s h k (descOf (shIn c.shape)) e.1 e.2
  else operandElem s h k (descOf c.a) i n
/-- Every result of a list, or its first error. -/
def allOk {ε α : Type} : List (Except ε α) → Except ε (List α)
  | [] => .ok []
  | .error x :: _ => .error x
  | .ok a :: l => match allOk l with
    | .error x => .error x
    | .ok r => .ok (a :: r)
def rowsOf {ε : Type} (rows : List Nat) (ks : List Nat) (f : Nat → Nat → Except ε FVal) : Except ε (List (List FVal)) :=
  allOk (rows.map (fun i => allOk (ks.map (f i))))

-- the arithmetic of a step (R140, R141)

/-- One product of a step. -/
def prodV : FVal → FVal → FVal
  | .fin _ p, .fin _ q => let r := Q.mul p q; .fin (decide (r.num < 0)) r
  | .inf n, .fin m q => if q.isZero then .nan true else .inf (n != m)
  | .fin m q, .inf n => if q.isZero then .nan true else .inf (n != m)
  | .inf n, .inf m => .inf (n != m)
  | _, _ => .nan true
/-- The exact sum of two values; an exact zero is +0. -/
def sumV : FVal → FVal → FVal
  | .fin _ p, .fin _ q => let r := Q.add p q; .fin (decide (r.num < 0)) r
  | .inf n, .inf m => if n = m then .inf n else .nan true
  | .inf n, .fin _ _ => .inf n
  | .fin _ _, .inf n => .inf n
  | _, _ => .nan true
/-- The step value P of an element. -/
def stepP (a b : List FVal) : FVal := (List.zipWith prodV a b).foldl sumV (.fin false ⟨0, 1⟩)
/-- accumulate(x, P) on the bits of an element. -/
def accumulate (x : Word) (p : FVal) : Word :=
  match sumV (fF32.read x.toNat) p with
  | .nan _ => 0x7FC00000
  | .inf neg => BitVec.ofNat 32 (fF32.infBits neg)
  | .fin _ q => if q.isZero then 0 else BitVec.ofNat 32 (roundQ fF32 .rne false false q).bits
/-- A step's values into the rows of a tile, its first row being row r0 of the product. -/
def accRows (t : Tile) (a b : List (List FVal)) : Tile :=
  { t with elems := (List.zip (List.range a.length) a).foldl (fun m ra =>
      (List.zip (List.range b.length) b).foldl (fun m2 rb =>
        let k := elemKey ra.1 rb.1
        smSet 0 m2 k (accumulate (smGet 0 m2 k) (stepP ra.2 rb.2))) m) t.elems }
/-- The rows of the product that the low or the high half of a command covers: rows 128 on are those of an MMAP's second half (R146). -/
def halfRows (c : Cmd) (high : Bool) : List Nat :=
  if high then (List.range (ctM c.ctl - 128)).map (· + 128) else List.range (min (ctM c.ctl) 128)
def halfTile (c : Cmd) (high : Bool) : Nat := if high then c.tile + 8 else c.tile
def halfSteps (c : Cmd) (high : Bool) : Nat := if high then c.steps2 else c.steps
/-- The halves of a command that step now, with the array of each: both at once where both arrays serve, else one after the other on the array that
does (R146, R155). -/
def halvesOf (s : State) (c : Cmd) (per : Nat) : List (Bool × Nat) :=
  let todo := (if c.steps < per then [false] else []) ++ (if twoHalves c && decide (c.steps2 < per) then [true] else [])
  match arraysOf s c with
  | [] => []
  | [k] => (todo.take 1).map (fun high => (high, k))
  | k :: k2 :: _ => todo.map (fun high => (high, if high then k2 else k))

/-- One step of a half applied to its tile: B rows are read before A rows, and an element's exponent before its mantissa (log entry 57). -/
def stepHalf (s : State) (h g : Group) (c : Cmd) (high : Bool) : Except (XErr × Nat) Group :=
  let ka := slotIn h.ctx.lrec.slots (ctSa c.ctl)
  let kb := slotIn h.ctx.lrec.slots (ctSb c.ctl)
  let len := stepLen ka kb
  let ks := (List.range len).map (fun i => len * halfSteps c high + i)
  match rowsOf (List.range (ctN c.ctl)) ks (fun j k => operandElem s h kb (descOf c.b) j k) with
  | .error x => .error x
  | .ok b => match rowsOf (halfRows c high) ks (fun i k => elemA s h c ka i k) with
    | .error x => .error x
    | .ok a => .ok (updTile g (halfTile c high) (fun t => accRows t a b))
/-- One step of each of the halves, applied to the group's tiles. -/
def stepTiles (s : State) (h : Group) (c : Cmd) (halves : List (Bool × Nat)) : Except (XErr × Nat) Group :=
  halves.foldl (fun acc e => match acc with
    | .error x => .error x
    | .ok g => stepHalf s h g c e.1) (.ok h)
/-- Operand bytes that a step of a leased array reads (R365). -/
def stepBytes (c : Cmd) (ka kb : Slot) (len : Nat) : Nat :=
  let ex (k : Slot) : Nat := if k.kind = 1 then ceilDiv len k.block else 0
  let rows := halfRows c false
  let inRows := if c.kind = .mconv then rows.filter (fun i => (convAt c.shape i (len * c.steps)).isSome) else rows
  inRows.length * (rowBytes ka len + ex ka) + ctN c.ctl * (rowBytes kb len + ex kb)
/-- The meter of a lease counts a step (R365). -/
def meterStep (s : State) (h : Group) (c : Cmd) : State :=
  if c.array ≠ 2 then s
  else match leaseAt s c.region with
    | none => s
    | some l =>
      let ka := slotIn h.ctx.lrec.slots (ctSa c.ctl)
      let kb := slotIn h.ctx.lrec.slots (ctSb c.ctl)
      let len := stepLen ka kb
      let busy := putBytes l.rcd 32 (natLe 8 (fieldAt l.rcd 32 8 + stepCycles ka kb))
      updLease s l.id (fun l => { l with rcd := putBytes busy 40 (natLe 8 (fieldAt l.rcd 40 8 + stepBytes c ka kb len)) })
def setCmd (s : State) (c : Cmd) : State := { s with cmds := updIf (fun d => decide (d.id = c.id)) (fun _ => c) s.cmds }
/-- A command starts: CLR clears. -/
def startCmd (h : Group) (c : Cmd) : Group × Cmd :=
  if c.started then (h, c)
  else
    let m := ctM c.ctl
    let h1 := if ¬ ctClr c.ctl then h
      else
        let g := updTile h c.tile (clearTile (min m 128) (ctN c.ctl))
        if c.kind = .mmap then updTile g (c.tile + 8) (clearTile (m - 128) (ctN c.ctl)) else g
    (h1, { c with started := true })
/-- Mismatches that a retry cleared are recorded against their array (R154, R405). -/
def residueRecord (s : State) (k n : Nat) : State :=
  if n = 0 then s
  else
    let now := (s.dies.getD (k / 48) {}).cycles
    sliceRecord (setArr s k { arrAt s k with residues := List.replicate n now ++ (arrAt s k).residues }) (k / 6)
      { cause := 5, cls := 0, unit := 6, slice := none, where_ := k % 6, count := n, ix := k % 6 }
def stepsPer (slots : List Slot) (c : Cmd) : Nat := ctK c.ctl / stepLen (slotIn slots (ctSa c.ctl)) (slotIn slots (ctSb c.ctl))
/-- Mismatches so far in the current step of a half, one more of them, and a step of the half done. -/
def halfTries (c : Cmd) (high : Bool) : Nat := if high then c.attempts2 else c.attempts
def halfAgain (c : Cmd) (high : Bool) : Cmd := if high then { c with attempts2 := c.attempts2 + 1 } else { c with attempts := c.attempts + 1 }
def halfDone (c : Cmd) (high : Bool) : Cmd := if high then { c with steps2 := c.steps2 + 1, attempts2 := 0 } else { c with steps := c.steps + 1, attempts := 0 }
/-- Every step of every half of a command has been performed. -/
def allDone (c : Cmd) (per : Nat) : Bool := decide (per ≤ c.steps) && (!(twoHalves c) || decide (per ≤ c.steps2))
/-- The command as the arrays now in service go on with it: an MMAP that has one array alone runs its halves one after the other (R155). -/
def servedAs (s : State) (c : Cmd) : Cmd := { c with serial := c.serial || (twoHalves c && decide ((arraysOf s c).length = 1)) }
/-- MATRIX_STEP (R140, R145, R153, R154): one step of a queued product, or a residue mismatch in it: of the first half that steps, and of the second where
both halves of an MMAP step at once. A step that fails is not performed, so no meter counts it (R365). -/
def execMatrixStep (id : Nat) (mismatch : Bool × Bool) (s : State) : Out :=
  .next (match findFirst (fun c => decide (c.id = id)) s.cmds with
    | none => s
    | some c0 => match getGroup s c0.group with
      | none => s
      | some h0 =>
        if ¬ cmdReady s c0 ∨ c0.kind = .mst ∨ c0.kind = .mzero then s
        else
          let st := startCmd h0 c0
          let c := servedAs s st.2
          let s0 := setCmd (setGroup s st.1) c
          let per := stepsPer st.1.ctx.lrec.slots c
          let halves := halvesOf s0 c per
          match stepTiles s0 st.1 c halves with
          | .error (x, a) => failCmd s0 c x a
          | .ok h1 =>
            let s1 := meterStep s0 st.1 c
            let bad := ((List.zip halves [mismatch.1, mismatch.2]).filter (fun e => e.2)).map (fun e => e.1)
            let lost := bad.filter (fun e => decide (halfTries c e.1 = 2))
            if lost ≠ [] then lost.foldl (fun t e => arrayOut t e.2) (failCmd s1 c ⟨13, 0⟩ 0)
            else if bad ≠ [] then setCmd s1 (bad.foldl (fun d e => halfAgain d e.1) c)
            else
              let s3 := halves.foldl (fun t e => residueRecord t e.2 (halfTries c e.1)) (setGroup s1 h1)
              let d := halves.foldl (fun d e => halfDone d e.1) c
              if allDone d per then retire s3 d else setCmd s3 d)

-- MST and MZERO (R149, R150)

/-- A row of a tile converted into a slot's kind: element bytes and exponent bytes (R150, R87, R90). -/
def convertRow (k : Slot) (row : List Word) : List Byte × List Byte :=
  let vals := row.map (fun w => (fF32.read w.toNat, RMode.ofCode k.round 0))
  if k.kind = 1 then
    let blocks := (chunksOf k.block (row.length + 1) vals).map (encodeBlock k.m k.sat)
    let mus := (blocks.map (·.mus)).flatten
    let packed := if perByte k = 1 then mus.map (fun x => BitVec.ofNat 8 (wrapN 8 (sx k.m x)))
      else (chunksOf (perByte k) (row.length + 1) mus).map (fun l => BitVec.ofNat 8 (l.foldr (fun x acc => x + 2 ^ k.m * acc) 0))
    (packed, blocks.map (fun b => BitVec.ofNat 8 b.e))
  else match slotFmt k with
    | none => ([], [])
    | some f => ((vals.map (fun v => natLe (rowBytes k 1) (convF f v.2 k.sat false v.1).bits)).flatten, [])
def putOnChip (s : State) (h : Group) (chip : Bool) (a : Nat) (bs : List Byte) : State :=
  if chip then chipWrite s h.ctx.fn a bs else setSramOf s h true (sramWrite (sramOf s h true) a bs)
def mstRows (h : Group) (c : Cmd) (t : Tile) : List Nat → State → State
  | [], s => retire s c
  | i :: is, s =>
    let d := descOf c.a
    let cols := List.range (ctN c.ctl)
    let k := slotIn h.ctx.lrec.slots (stSlot c.ctl)
    let rowIvs := (if stCvt c.ctl then operandIvs k d (i + 1) (ctN c.ctl) true else wordIvs d (i + 1) (ctN c.ctl) true)
    if cols.any (fun j => smGet false t.poison (elemKey i j)) then failCmd s c ⟨6, 0⟩ 0
    else if d.chip ∧ rowIvs.any (fun v => decide (chipExtent (getFn s h.ctx.fn) < v.hi)) then failCmd s c ⟨7, 0⟩ 0
    else
      let row := cols.map (fun j => smGet 0 t.elems (elemKey i j))
      let at_ := d.base + i * d.pitch
      let s1 := if stCvt c.ctl then
          let p := convertRow k row
          let u := putOnChip s h d.chip at_ p.1
          if k.kind = 1 then putOnChip u h d.chip (d.ebase + i * epitch k d.pitch) p.2 else u
        else putOnChip s h d.chip at_ (bytesOfWords row)
      mstRows h c t is s1
/-- MST_PERFORM: the rows in order, up to a poisoned one, or to one that a shrunk chip scratchpad no longer holds (R359). -/
def execMstPerform (id : Nat) (s : State) : Out :=
  .next (match findFirst (fun c => decide (c.id = id)) s.cmds with
    | none => s
    | some c => match getGroup s c.group with
      | none => s
      | some h => match tileOf h c.tile with
        | none => s
        | some t => if cmdReady s c ∧ c.kind = .mst then mstRows h c t (List.range (ctM c.ctl)) (setCmd s { c with started := true }) else s)
/-- MZERO_PERFORM: every element +0, no poison. -/
def execMzeroPerform (id : Nat) (s : State) : Out :=
  .next (match findFirst (fun c => decide (c.id = id)) s.cmds with
    | none => s
    | some c => match getGroup s c.group with
      | none => s
      | some h => if cmdReady s c ∧ c.kind = .mzero then retire (setGroup s (updTile h c.tile (fun t => { t with elems := [], poison := [] }))) c else s)
/-- ENGINE_OFF (R405): eight corrected mismatches within 2^30 cycles, at the end of the current command. -/
def execEngineOff (region eng : Nat) (s : State) : Out :=
  let k := arrKey region eng
  let busy := s.cmds.any (fun c => c.started && (arraysOf s c).contains k && liveCmd s c)
  .next (if ¬ (arrAt s k).out ∧ ¬ busy ∧ failing s k then arrayOut s k else s)

-- issue (R145 to R150)

/-- A reserved bit of a descriptor is set; a literal or ZERO descriptor is checked like one held in registers (R148 check 4 names only those;
log entry 48). -/
def descBad (x : DWord) : Bool := !(descOf x).ok
/-- Check 2 of R148 for a product: limits and multiples. -/
def ctlBad (slots : List Slot) (limit : Nat) (c : Word) : Bool :=
  let ka := slotIn slots (ctSa c)
  let kb := slotIn slots (ctSb c)
  let mult (k : Slot) : Bool := decide (k.kind ≠ 1 ∨ ctK c % k.block = 0)
  decide (bits c.toNat 31 30 ≠ 0 ∨ limit < ctM c ∨ ctK c % stepLen ka kb ≠ 0) || !(mult ka && mult kb)
def unbound (slots : List Slot) (k : Nat) : Bool := decide ((slotIn slots k).kind = 0)
/-- Check 8 of R148. -/
def noArray (s : State) : Bool := let r := regionOf s.g.core; !(inService s (arrKey r 0) || inService s (arrKey r 1))
/-- The array whose queue a new command joins (R145, R364): the one of the group's last command on the tile, or a home array for those that
always stay there (log entry 15). -/
def chooseArray (s : State) (kind : CmdKind) (tile : Nat) : Nat :=
  let home := tile / 8
  if kind ≠ .mma ∧ kind ≠ .mconv then home
  else match findFirst (fun c => decide (c.group = s.g.id) && (cmdTiles c).contains tile) s.cmds.reverse with
    | some c => if c.array = 2 then 2 else home
    | none => if Config.lentChoice s.nextId ∧ ((leaseAt s (regionOf s.g.core)).map (fun l => decide (leaseState l = 0))).getD false then 2 else home
def queueFull (s : State) (region array : Nat) (mmap : Bool) : Bool :=
  decide (32 ≤ queueBefore s region array s.nextId) || (mmap && decide (32 ≤ queueBefore s region 1 s.nextId))
/-- The failed MMAP that the slot of the tile's partner stands for (log entry 35). -/
def pairOwed (h : Group) (tile : Nat) : Option Owed := if 8 ≤ tile then (owedAt h (tile - 8)).filter (·.pair) else none
/-- The slot of a failed command of the group on the tile, whose trap the group still owes (R153); of two, the one whose command was issued first. -/
def tileOwed (h : Group) (tile : Nat) : Option (Nat × Owed) :=
  match owedAt h tile, pairOwed h tile with
  | some o, some x => some (if x.seq < o.seq then (tile - 8, x) else (tile, o))
  | some o, none => some (tile, o)
  | none, some x => some (tile - 8, x)
  | none, none => none
def tileOwes (h : Group) (tile : Nat) : Bool := (tileOwed h tile).isSome
/-- A command dispatched to the lent array behind a started one after the notice has expired fails (R366). -/
def lateDispatch (s : State) (c : Cmd) : Bool := decide (c.array = 2) && ((leaseAt s c.region).map (fun l => decide (leaseState l = 3))).getD false
/-- Queues a checked command: discarded while one of its tiles owes a trap (R153), stalled while the scoreboard or the queue is full. -/
def enqueue (s : State) (kind : CmdKind) (tile : Nat) (ctl : Word) (a b : DWord) (shape : List Byte) (words : Nat) : State :=
  if tileOwes s.g tile ∨ (kind = .mmap ∧ tileOwes s.g (tile + 8)) then { s with g := advance s.g words }
  else
    let c : Cmd := { id := s.nextId, group := s.g.id, launch := s.g.ctx.launch, region := regionOf s.g.core, kind := kind, word := s.g.clause.getD s.g.off 0, tile := tile, ctl := ctl, a := a, b := b,
                     shape := shape, steps := 0, started := false, attempts := 0, array := chooseArray s kind tile, serial := false, pos := s.g.pos, off := s.g.off, arrived := s.nextId }
    let ivs := cmdIvs s.g.ctx.lrec.slots c
    if ¬ boardRoom s ivs.length ∨ queueFull s c.region c.array (decide (kind = .mmap)) then stall s
    else
      let t := settleStores s ivs
      let u : State := { t with cmds := t.cmds ++ [c], nextId := t.nextId + 1, g := advance t.g words }
      if lateDispatch u c then failCmd u c ⟨14, 0⟩ 0 else u
/-- SCRATCH_BOUNDS of a range (R138). -/
def outOfBounds (s : State) (ivs : List Iv) : Bool := ivs.any (fun i => !(ivBound s i))

/-- MMA and MMAP. The trap of an operand range out of bounds names no address and no lane (R148; log entry 57). The POISON of a register comes before the issue checks of R148,
of MCONV and MST too (log entry 70). -/
def productOp (kind : CmdKind) (tile : Nat) (d : Dst) (a b : Src) (s : State) : Out :=
  let l := firstLane s.g
  withRegs s (dstRegs d 1 ++ srcRegs a 2 ++ srcRegs b 2) [l] (fun s =>
    let ctl := dst32 s.g d l
    let da := src64 s.g false a l
    let db := src64 s.g false b l
    let slots := s.g.ctx.lrec.slots
    let probe : Cmd := { (default : Cmd) with kind := kind, tile := tile, ctl := ctl, a := da, b := db }
    .next (if ¬ holdsTile s.g tile ∨ (kind = .mmap ∧ (7 < tile ∨ ¬ holdsTile s.g (tile + 8))) then illegalOperand s
      else if ctlBad slots (if kind = .mmap then 256 else 128) ctl ∨ unbound slots (ctSa ctl) ∨ unbound slots (ctSb ctl) ∨ descBad da ∨ descBad db then illegalOperand s
      else if outOfBounds s (cmdIvs slots probe) then trapCode s 7 0
      else if noArray s then trapCode s 13 0
      else enqueue s kind tile ctl da db [] (1 + litsOf a + litsOf b)))
def execMma (tile : Nat) (d : Dst) (a b : Src) (s : State) : Out := productOp .mma tile d a b s
def execMmap (tile : Nat) (d : Dst) (a b : Src) (s : State) : Out := productOp .mmap tile d a b s

/-- Check 6 of R148 on a shape record. -/
def shapeBad (slots : List Slot) (ctl : Word) (r : List Byte) : Bool :=
  let ka := slotIn slots (ctSa ctl)
  let within (x lo hi : Nat) : Bool := decide (lo ≤ x ∧ x ≤ hi)
  !(zeroBytes r 28 31 && within (shIh r) 1 65535 && within (shIw r) 1 65535 && within (shCh r) 16 4096 &&
    decide (shCh r % stepLen ka (slotIn slots (ctSb ctl)) = 0 ∧ (ka.kind ≠ 1 ∨ shCh r % ka.block = 0)) &&
    within (shB r 14) 1 16 && within (shB r 15) 1 16 && within (shB r 16) 1 8 && within (shB r 17) 1 8 && within (shB r 18) 1 8 && within (shB r 19) 1 8 &&
    within (shB r 20) 0 15 && within (shB r 21) 0 15 && within (shOw r) 1 65535 && decide (fieldAt r 26 2 < shOw r) && !(descBad (shIn r)) &&
    decide (ctK ctl = shB r 14 * shB r 15 * shCh r))
/-- MCONV (R147): the shape record is read at issue, as a load of the group; a failed read names its address and no lane (log entry 57). -/
def execMconv (tile : Nat) (d : Dst) (a b : Src) (s : State) : Out :=
  let l := firstLane s.g
  withRegs s (dstRegs d 1 ++ srcRegs a 2 ++ srcRegs b 2) [l] (fun s =>
    let ctl := dst32 s.g d l
    let sa := src64 s.g false a l
    let pa := sa.toNat
    let db := src64 s.g false b l
    let slots := s.g.ctx.lrec.slots
    let at_ := bits pa 24 0 + (if bitOf pa 26 then 33554432 else 0)
    let iv : Iv := { chip := bitOf pa 25, lo := at_, hi := at_ + 32, write := false }
    if ¬ holdsTile s.g tile ∨ ctlBad slots 128 ctl ∨ unbound slots (ctSa ctl) ∨ unbound slots (ctSb ctl) ∨ descBad db ∨ bits pa 63 27 ≠ 0 ∨ at_ % 32 ≠ 0 then .next (illegalOperand s)
    else if ¬ ivBound s iv then .next (trapAddr s (⟨7, 0⟩, at_))
    else whenFree s [iv] (fun s0 =>
      let s1 := settleStores s0 [iv]
      .next (match chipOrRg s1 s1.g iv.chip at_ 32 with
        | .error x => trapAddr s1 x
        | .ok r =>
          if shapeBad slots ctl r then illegalOperand s1
          else if outOfBounds s1 (cmdIvs slots { (default : Cmd) with kind := .mconv, tile := tile, ctl := ctl, b := db, shape := r }) then trapCode s1 7 0
          else if noArray s1 then trapCode s1 13 0
          else enqueue s1 .mconv tile ctl sa db r (1 + litsOf a + litsOf b))))
def execMzero (tile : Nat) (s : State) : Out :=
  .next (if ¬ holdsTile s.g tile then illegalOperand s
    else if noArray s then trapCode s 13 0
    else enqueue s .mzero tile 0 0 0 [] 1)
/-- MST (R150). -/
def execMst (tile : Nat) (d : Dst) (a : Src) (s : State) : Out :=
  let l := firstLane s.g
  withRegs s (dstRegs d 1 ++ srcRegs a 2) [l] (fun s =>
    let ctl := dst32 s.g d l
    let da := src64 s.g false a l
    let slots := s.g.ctx.lrec.slots
    let k := slotIn slots (stSlot ctl)
    .next (if ¬ holdsTile s.g tile ∨ bits ctl.toNat 22 15 ≠ 0 ∨ bits ctl.toNat 31 27 ≠ 0 ∨ 128 < ctM ctl then illegalOperand s
      else if stCvt ctl ∧ (k.kind = 0 ∨ k.round = 4 ∨ (k.kind = 1 ∧ ctN ctl % k.block ≠ 0)) then illegalOperand s
      else if descBad da then illegalOperand s
      else if outOfBounds s (cmdIvs slots { (default : Cmd) with kind := .mst, tile := tile, ctl := ctl, a := da }) then trapCode s 7 0
      else if noArray s then trapCode s 13 0
      else enqueue s .mst tile ctl da 0 [] (1 + litsOf a)))

-- tiles by thread and by slot (R149, R151)

/-- A point that waits for the group's commands on a tile and then serves the slot that a failed command on it fills (R149, R151, R153). -/
def atTile (s : State) (tile : Nat) (k : State → Out) : Out :=
  if tileBusy s s.g.id tile then .next (stall s)
  else match tileOwed s.g tile with
    | some e => .next (takeOwed s e)
    | none => k s
def selKey (w : Word) : Nat := elemKey (bits w.toNat 6 0) (bits w.toNat 14 8)
/-- MRD (R149): the tile, then the trap owed on it, then the poison of registers and elements (log entry 70); MWR likewise. -/
def execMrd (tile : Nat) (d : Dst) (a : Src) (s : State) : Out :=
  if ¬ holdsTile s.g tile then .next (illegalOperand s)
  else atTile s tile (fun s => withRegs s (srcRegs a 1) (activeLanes s.g) (fun s =>
    match tileOf s.g tile with
    | none => .next s
    | some t =>
      let bad := (activeLanes s.g).filter (fun l => smGet false t.poison (selKey (src32 s.g a l)))
      .next (if bad ≠ [] then takeTrap s { code := 6, lanes := maskOf bad }
        else { s with g := advance (writeLanes s.g d (activeLanes s.g) (fun l => [smGet 0 t.elems (selKey (src32 s.g a l))])) (1 + litsOf a) })))
def execMwr (tile : Nat) (d : Dst) (a : Src) (s : State) : Out :=
  if ¬ holdsTile s.g tile then .next (illegalOperand s)
  else atTile s tile (fun s => withRegs s (dstRegs d 1 ++ srcRegs a 1) (activeLanes s.g) (fun s =>
    let put (t : Tile) (l : Nat) : Tile :=
      let k := selKey (src32 s.g a l)
      { t with elems := smSet 0 t.elems k (dst32 s.g d l), poison := smSet false t.poison k false }
    .next { s with g := advance (updTile s.g tile (fun t => (activeLanes s.g).foldl put t)) (1 + litsOf a) }))
def execMtake (tile : Nat) (s : State) : Out :=
  .next (if holdsTile s.g tile then { s with g := advance s.g 1 }
    else if tileFree s tile then { s with g := advance (bindTile s.g tile) 1 }
    else stall s)
def execMfree (tile : Nat) (s : State) : Out :=
  atTile s tile (fun s => .next { s with g := advance { s.g with tiles := s.g.tiles.filter (fun t => decide (t.m ≠ tile)) } 1 })
/-- TILE_BIND (R151): a stalled MTAKE receives a freed tile; under a pre-emption request it stops at its position with none taken (R328). -/
def execTileBind (gid : Nat) (s : State) : Out :=
  .next (withGroup s gid (fun t =>
    if t.g.phase = .issue ∧ t.g.stalled then
      match instrAt t.g with
      | .ok (.mtake m) => if tileFree t m ∧ ¬ holdsTile t.g m ∧ ¬ t.g.preempt then { t with g := advance (bindTile t.g m) 1 } else t
      | _ => t
    else t))

end Sys2Proof.Machine
end

