-- ==== Sys2Proof/Machine/Copy.lean ====
section
/-!
DEFINITION. Machine/Copy.lean: copy records, issue, units, retirement and failure of copies, and the turn (11).
-/
namespace Sys2Proof.Machine

/-- A unit of a destination: row, plane, offset in it, address and bytes. -/
structure CopyUnit where
  q : Nat
  exp : Bool
  o : Nat
  addr : Nat
  n : Nat
  deriving DecidableEq, Repr
/-- The unit that follows the bytes done (R231). Within a row of a `CPYN` the units of the element plane come first, each plane in address order: R231 and R232 do not order
the two planes (log entry 36). -/
def unitAt (c : Copy) : CopyUnit :=
  let p := planeBytes c
  let q := c.done / (p.1 + p.2)
  let r := c.done % (p.1 + p.2)
  let exp := decide (p.1 ≤ r)
  let o := if exp then r - p.1 else r
  let a := destAddr c exp q o
  { q := q, exp := exp, o := o, addr := a, n := min (32 - a % 32) ((if exp then p.2 else p.1) - o) }

-- source bytes

def copyRead (s : State) (c : Copy) (sp a n : Nat) : Except (XErr × Nat) (List Byte) :=
  if sp = 0 then agentRead s c.fn a n
  else
    let rg : Sram := ((c.team.bind (getTeam s)).map (·.rg)).getD {}
    let f := getFn s c.fn
    let bad (i : Nat) : Bool := if sp = 2 then sramPoisoned rg (a + i) 1 else chipPoisoned f (a + i) 1
    if sp = 3 ∧ chipExtent f < a + n then .error (⟨7, 0⟩, a)
    else match findFirst bad (List.range n) with
    | some i => .error (⟨6, 0⟩, a + i)
    | none => .ok (if sp = 2 then sramRead rg a n else chipRead f a n)
/-- An exponent byte as an engine reads it: the reserved 255 fails the copy, of a compaction too (R86, R232, R237, log entry 36). -/
def expByte (s : State) (c : Copy) (sp a : Nat) : Except (XErr × Nat) Byte :=
  match copyRead s c sp a 1 with
  | .error x => .error x
  | .ok e => if leNat e = 255 then .error (⟨2, 6⟩, a) else .ok (e.headD 0)
/-- Mantissa bits of element i of a tight plane, and its exponent (R89, R90). -/
def tightElem (s : State) (c : Copy) (i : Nat) : Except (XErr × Nat) (Nat × Nat) :=
  let ea := cpSexp c.rcd + i / c.slot.block
  let bit := i * c.slot.m
  match expByte s c 0 ea with
  | .error x => .error x
  | .ok e => match copyRead s c 0 (cpSrc c.rcd + bit / 8) ((bit + c.slot.m - 1) / 8 - bit / 8 + 1) with
    | .error x => .error x
    | .ok b => .ok (leNat b / 2 ^ (bit % 8) % 2 ^ c.slot.m, e.toNat)
/-- The exponent byte of block b of row q on chip. -/
def chipExp (s : State) (c : Copy) (q b : Nat) : Except (XErr × Nat) Byte := expByte s c (cpSsp c.rcd) (cpSexp c.rcd + q * epitch c.slot (cpSpitch c.rcd) + b)
/-- The mantissa of element k of row q on chip. -/
def chipMu (s : State) (c : Copy) (q k : Nat) : Except (XErr × Nat) Nat :=
  match chipExp s c q (k / c.slot.block), copyRead s c (cpSsp c.rcd) (cpSrc c.rcd + q * cpSpitch c.rcd + k / perByte c.slot) 1 with
  | .error x, _ => .error x
  | _, .error x => .error x
  | .ok _, .ok b => .ok (leNat b / 2 ^ (c.slot.m * (k % perByte c.slot)) % 2 ^ c.slot.m)
/-- Block b of row q of a compaction from binary32 (R232, R87, R84). -/
def f32Block (s : State) (c : Copy) (q b : Nat) : Except (XErr × Nat) Block :=
  let k0 := b * c.slot.block
  match copyRead s c (cpSsp c.rcd) (cpSrc c.rcd + q * cpSpitch c.rcd + 4 * k0) (4 * c.slot.block) with
  | .error x => .error x
  | .ok bs => .ok (encodeBlock c.slot.m c.slot.sat ((List.zip (List.range c.slot.block) (wordsOf c.slot.block bs)).map (fun e =>
      let i := q * cpRow c.rcd + k0 + e.1
      (fF32.read e.2.toNat, RMode.ofCode c.slot.round ((philox c.skey [e.2.toNat, i % 4294967296, i / 4294967296 % 4294967296, 4294967295]).getD 0 0)))))
/-- One byte of a CPYN's destination. -/
def cpynByte (s : State) (c : Copy) (u : CopyUnit) (j : Nat) : Except (XErr × Nat) Byte :=
  let o := u.o + j
  let row := cpRow c.rcd
  let m := c.slot.m
  let sum (l : List Nat) (w : Nat) : Byte := BitVec.ofNat 8 (l.foldr (fun x acc => x + 2 ^ w * acc) 0)
  if c.compact then
    if u.exp then
      if cpF32 c.rcd then (match f32Block s c u.q o with | .error x => .error x | .ok b => .ok (BitVec.ofNat 8 b.e))
      else chipExp s c u.q o
    else
      match allOk ((List.range 8).map (fun b =>
        let k := (8 * o + b) / m
        let mu : Except (XErr × Nat) Nat := if cpF32 c.rcd then
            (match f32Block s c u.q (k / c.slot.block) with | .error x => .error x | .ok bl => .ok (bl.mus.getD (k % c.slot.block) 0))
          else chipMu s c u.q k
        match mu with
        | .error x => .error x
        | .ok v => .ok (v / 2 ^ ((8 * o + b) % m) % 2))) with
      | .error x => .error x
      | .ok l => .ok (sum l 1)
  else if u.exp then (match tightElem s c (u.q * row + o * c.slot.block) with | .error x => .error x | .ok e => .ok (BitVec.ofNat 8 e.2))
  else if cpF32 c.rcd then
    match tightElem s c (u.q * row + o / 4) with
    | .error x => .error x
    | .ok e => .ok (BitVec.ofNat 8 ((bfpWord false m e.2 e.1).1 / 256 ^ (o % 4)))
  else
    match allOk ((List.range (perByte c.slot)).map (fun b => match tightElem s c (u.q * row + o * perByte c.slot + b) with | .error x => .error x | .ok e => .ok e.1)) with
    | .error x => .error x
    | .ok l => .ok (if perByte c.slot = 1 then BitVec.ofNat 8 (wrapN 8 (sx m (l.headD 0))) else sum l m)
/-- The bytes of a unit. -/
def unitBytes (s : State) (c : Copy) (u : CopyUnit) : Except (XErr × Nat) (List Byte) :=
  if cpN c then allOk ((List.range u.n).map (cpynByte s c u))
  else copyRead s c (cpSsp c.rcd) (cpSrc c.rcd + u.q * cpSpitch c.rcd + u.o) u.n

-- destinations (R233, R238)

/-- The counter word holds an uncorrectable error, which the engine's addition reads (R166, R400): the unit fails and writes nothing (R237, log entry 36). -/
def counterLost (s : State) (c : Copy) : Bool := cpCnt c.rcd && ((c.team.bind (getTeam s)).map (fun t => sramPoisoned t.rg (cpCntAt c.rcd) 4)).getD false
/-- Adds a unit's bytes to the counter word; its tag becomes full at the threshold (R233). -/
def countLanded (m : Sram) (c : Copy) (n : Nat) : Sram :=
  if ¬ cpCnt c.rcd then m
  else
    let a := cpCntAt c.rcd
    let v := (leNat (sramRead m a 4) + n) % 4294967296
    let m1 := { m with bytes := smSetMany 0 m.bytes a (natLe 4 v) }
    if cpThresh c.rcd ≤ v then setTag m1 a true else m1
def landUnit (m : Sram) (c : Copy) (u : CopyUnit) (bs : List Byte) : Sram :=
  let words := (List.range ((u.addr + u.n + 3) / 4 - u.addr / 4)).map (fun i => 4 * (u.addr / 4 + i))
  countLanded (words.foldl (fun m2 a => setTag m2 a true) (sramWrite m u.addr bs)) c u.n
/-- A unit at its destination; a chip scratchpad that has shrunk since issue raises SCRATCH_BOUNDS (R359). -/
def writeUnit (s : State) (c : Copy) (u : CopyUnit) (bs : List Byte) : Except (XErr × Nat) State :=
  match cpDsp c.rcd with
  | 0 => agentWrite s c.fn u.addr bs true
  | 2 => if counterLost s c then .error (⟨6, 0⟩, cpCntAt c.rcd) else .ok (match c.team with | none => s | some t => updTeam s t (fun t => { t with rg := landUnit t.rg c u bs }))
  | _ => if chipExtent (getFn s c.fn) < u.addr + u.n then .error (⟨7, 0⟩, u.addr) else .ok (chipWrite s c.fn u.addr bs)

-- retirement (R235, R237)

def setCopy (s : State) (c : Copy) : State := { s with copies := updIf (fun d => decide (d.id = c.id)) (fun _ => c) s.copies }
def setEntry (s : State) (c : Copy) (st code : Nat) : State :=
  if c.kind = .publish ∨ c.group.isNone then s
  else let f := getFn s c.fn; setFn s c.fn { f with ring := smSet {} f.ring c.entry { (smGet {} f.ring c.entry) with state := st, code := code } }
/-- A copy retires: the issuing core, and the one its group runs on, drop clean sectors of the destination. -/
def retireCopy (s : State) (c : Copy) : State := dropDest { s with copies := s.copies.filter (fun d => decide (d.id ≠ c.id)) } c
def failCopy (s : State) (c : Copy) (x : XErr) (addr : Nat) (remote : Bool) : State :=
  let s1 := walkRecord (setEntry s c 3 x.code) c.fn x addr (some (c.eng / 2))
  match c.group with
  | none => endLaunch { s1 with copies := s1.copies.filter (fun d => decide (d.id ≠ c.id)) } c.launch 4 x.code
  | some g =>
    let o : Owed := { code := x.code, unit := 2, pos := c.pos, off := c.off, addr := addr, lanes := 0, done := c.done, detail := x.cause, more := 0, remote := remote, seq := c.id }
    retireCopy (match getGroup s1 g with
      | none => s1
      | some h => setGroup s1 (servesHeld (fillOwed h 16 o) c.id 16)) c

-- turns and what they hold (R239)

def pubBase (c : Copy) : Nat := c.desc.toNat % 2251799813685248
def pubPages (c : Copy) : Nat := c.desc.toNat / 2251799813685248 + 1
def intoBuffer (c t : Copy) : Bool :=
  (destRuns c).any (fun r => decide (r.1 < pubBase t + 32768 * pubPages t ∧ pubBase t < r.1 + r.2 ∧ c.fn = t.fn))
def buffersMeet (a b : Copy) : Bool := decide (a.fn = b.fn ∧ pubBase a < pubBase b + 32768 * pubPages b ∧ pubBase b < pubBase a + 32768 * pubPages a)
def earlierTurn (s : State) (t : Copy) : Bool := s.copies.any (fun x => decide (x.kind = .publish ∧ x.id < t.id) && buffersMeet x t)
def awaited (c t : Copy) : Bool := decide (c.group = t.group ∧ c.id < t.id)
/-- The first turn of a buffer holds the copies into it that have not started and that it does not wait for. -/
def heldByTurn (s : State) (c : Copy) : Bool :=
  !c.started && s.copies.any (fun t => decide (t.kind = .publish) && intoBuffer c t && !awaited c t && !earlierTurn s t)
def turnReady (s : State) (t : Copy) : Bool :=
  !earlierTurn s t && !(s.copies.any (fun c => decide (c.kind ≠ .publish) && intoBuffer c t && (c.started || awaited c t)))
def copyReady (s : State) (c : Copy) : Bool :=
  decide (c.kind ≠ .publish) && !c.awaiting && !heldByTurn s c &&
  (match c.group with | none => true | some g => decide (holders s g c.id (copyIvs c) = []))

/-- COPY_UNIT (R231): one unit; a CPYR's goes out on the fabric and awaits its acknowledgement (R241). -/
def execCopyUnit (id : Nat) (s : State) : Out :=
  .next (match findFirst (fun c => decide (c.id = id)) s.copies with
    | none => s
    | some c0 =>
      if ¬ copyReady s c0 then s
      else
        let c := { c0 with started := true }
        let s1 := setEntry (setCopy s c) c 1 0
        let u := unitAt c
        match unitBytes s1 c u with
        | .error (x, a) => failCopy s1 c x a false
        | .ok bs =>
          if c.kind = .cpyr then
            let s2 := setCopy s1 { c with awaiting := true, sent := s1.now }
            let tg := cpTarget c.rcd
            { s2 with fabric := FabricMsg.write c.id c.fn (bits tg 16 0) (bits tg 21 17) u.addr bs :: s2.fabric }
          else match writeUnit s1 c u bs with
            | .error (x, a) => failCopy s1 c x a false
            | .ok t =>
              let d := { c with done := c.done + u.n }
              if d.done = copyTotal d then retireCopy (setEntry t d 2 0) d else setCopy t d)

/-- The leaf of each page of a buffer, with the address and key of its entry, or why the turn fails. -/
def turnPages (s : State) (c : Copy) : Except (XErr × Nat) (List (Nat × Nat × Nat × Nat)) :=
  allOk ((List.range (pubPages c)).map (fun i =>
    let va := pubBase c + 32768 * i
    if 2251799813685248 ≤ va then .error (pageFault Config.addressCause, va)
    else match walk s c.fn va with
      | .error x => .error (x, va)
      | .ok r => if bitOf r.1 55 then .ok r else .error (⟨2, 6⟩, va)))
/-- TURN (R194, R239, R380): the buffer's faces swap in one event. -/
def execTurn (id : Nat) (s : State) : Out :=
  .next (match findFirst (fun c => decide (c.id = id)) s.copies with
    | none => s
    | some c =>
      if c.kind ≠ .publish ∨ ¬ turnReady s c then s
      else match turnPages s c with
        | .error (x, a) => failCopy s c x a false
        | .ok ents =>
          let runs := ents.map (fun e => (entSpa e.1, 65536))
          let s1 := flushL1 s (fun x => secIn x.sec runs)
          let flip (t : State) (e : Nat × Nat × Nat × Nat) : State :=
            let at_ := e.2.2.1
            let t1 := callBack t (at_ / 32) (fun _ => true)
            memWrite t1 e.2.2.2 at_ (natLe 8 (Nat.xor (leNat (memRead t1 e.2.2.2 at_ 8)) 72057594037927936))
          let s2 := ents.foldl flip s1
          let hi := pubBase c + 32768 * pubPages c
          retireCopy { s2 with tlb := s2.tlb.filter (fun x => !(decide (x.fn = c.fn ∧ x.base < hi ∧ pubBase c < x.base + x.size))) } c)

-- issue (R227, R230)

def inRange (x lo hi : Nat) : Bool := decide (lo ≤ x ∧ x ≤ hi)
/-- An address in a side's encoding (R229). -/
def sideOk (sp a : Nat) : Bool := decide (a < if sp = 0 then 2251799813685248 else 4294967296)
/-- Check 3 of R230. The F32 bit is an error in a record of CPY or CPYR (R229 says "CPYN only"; log entry 60), and so are more than 2^31 elements a row in one of `CPYN`,
the limit that R229 gives for bytes a row (log entry 36). -/
def copyBad (kind : CopyKind) (k : Slot) (compact : Bool) (r : List Byte) : Bool :=
  let n := decide (kind = .cpyn)
  let remote := decide (kind = .cpyr)
  let ssp := cpSsp r
  let dsp := cpDsp r
  let space (x : Nat) : Bool := x == 0 || x == 2 || x == 3
  let oneG := decide (if compact then dsp = 0 ∧ ssp ≠ 0 else ssp = 0 ∧ dsp ≠ 0)
  let sp := if compact then ssp else dsp
  let gexp := if compact then cpDexp r else cpSexp r
  let oexp := if compact then cpSexp r else cpDexp r
  let opitch := if compact then cpSpitch r else cpDpitch r
  let runs : List Iv := (sideIvs n k r dsp (cpDst r) (cpDpitch r) (cpDexp r) true)
  !(decide (fieldAt r 32 1 < 64 ∧ fieldAt r 33 1 < 4 ∧ fieldAt r 34 2 = 0) && space ssp && space dsp && sideOk ssp (cpSrc r) && sideOk dsp (cpDst r) &&
    inRange (cpRows r) 1 1048576 &&
    (if remote then decide (cpTarget r < 4194304 ∧ bits (cpTarget r) 21 17 ≤ 16 ∧ dsp = 0 ∧ ssp ≠ 2) else decide (cpTarget r = 0)) &&
    (if n then decide (k.kind = 1 ∧ 0 < cpRow r ∧ cpRow r ≤ 2147483648 ∧ cpRow r % k.block = 0) && oneG && sideOk 0 gexp &&
        (cpF32 r || sideOk sp oexp) && decide (opitch * perByte k % k.block = 0)
      else decide (cpF32 r = false) && zeroBytes r 48 63 && inRange (cpRow r) 4 2147483648 && decide (cpRow r % 4 = 0)) &&
    (!(cpCnt r) || (decide (dsp = 2 ∧ 1 ≤ cpThresh r) && !(runs.any (fun i => decide (i.lo < cpCntAt r + 4 ∧ cpCntAt r < i.hi))))))
/-- Check 4 of R230. -/
def copyMisaligned (kind : CopyKind) (compact : Bool) (r : List Byte) : Bool :=
  decide (cpSsp r ≠ 0 ∧ cpSrc r % 4 ≠ 0 ∨ cpDsp r ≠ 0 ∧ cpDst r % 4 ≠ 0 ∨ cpCnt r ∧ cpCntAt r % 4 ≠ 0) ||
  (if kind = .cpyn then decide ((if compact then cpSpitch r else cpDpitch r) % 4 ≠ 0 ∨ ¬ cpF32 r ∧ (if compact then cpSexp r else cpDexp r) % 4 ≠ 0) else decide (cpSpitch r % 4 ≠ 0 ∨ cpDpitch r % 4 ≠ 0))
/-- Bytes of [0, x) that lie in the share of core k of a region (R164). -/
def stripeTo (x k : Nat) : Nat := x / 2048 * 256 + min 256 (x % 2048 - 256 * k)
/-- Runs of region memory, address and bytes, that row q of a copy still has to read from or land in: the destination's from byte o of the row's
planes on, a source's of `CPY` or `CPYR` likewise, and all of a `CPYN` row's source (R234, log entry 36). -/
def rowLeft (c : Copy) (q o : Nat) : List (Nat × Nat) :=
  let p := planeBytes c
  let k := c.slot
  let run (a lo n : Nat) : List (Nat × Nat) := if lo < n then [(a + lo, n - lo)] else []
  (if cpDsp c.rcd = 2 then run (destAddr c false q 0) o p.1 ++ run (destAddr c true q 0) (o - p.1) p.2 else []) ++
  (if cpSsp c.rcd ≠ 2 then []
   else
    let a := cpSrc c.rcd + q * cpSpitch c.rcd
    if ¬ cpN c then run a o p.1
    else if cpF32 c.rcd then run a 0 (4 * cpRow c.rcd)
    else run a 0 (rowBytes k (cpRow c.rcd)) ++ run (cpSexp c.rcd + q * epitch k (cpSpitch c.rcd)) 0 (cpRow c.rcd / k.block))
/-- Bytes that a copy still has to read from or land in one core's share of region memory. -/
def shareLeft (c : Copy) (k : Nat) : Nat :=
  let per := (planeBytes c).1 + (planeBytes c).2
  if cpSsp c.rcd ≠ 2 ∧ cpDsp c.rcd ≠ 2 then 0
  else (List.range (cpRows c.rcd - c.done / per)).foldl (fun n i =>
    (rowLeft c (c.done / per + i) (if i = 0 then c.done % per else 0)).foldl (fun m r => m + (stripeTo (r.1 + r.2) k - stripeTo r.1 k)) n) 0
def copyRegion (s : State) (c : Copy) : Option Nat := (c.team.bind (getTeam s)).map (·.region)
/-- The limit of 256 KiB a core (R234): a copy that would exceed it waits. -/
def shareFull (s : State) (region : Nat) (c : Copy) : Bool :=
  (List.range 8).any (fun k =>
    decide (0 < shareLeft c k ∧ 262144 < ((s.copies.filter (fun x => decide (copyRegion s x = some region))).map (fun x => shareLeft x k)).sum + shareLeft c k))
/-- The engine a command joins: the least loaded of the partition, by index (R226); none when all queues are full. -/
def pickEngine (s : State) (fn : Nat) : Option Nat :=
  let f := getFn s fn
  let engs := ((f.slices.filter (fun p => !f.leaving.contains p)).map (fun p => [2 * p, 2 * p + 1])).flatten
  let load (e : Nat) : Nat := (s.copies.filter (fun c => decide (c.eng = e))).length
  minBy (fun e => [load e]) (engs.filter (fun e => decide (load e < 64)))
/-- A free entry of the copy status ring (R235). -/
def freeEntry (f : Fn) : Option Nat :=
  findFirst (fun i => decide (2 ≤ (smGet {} f.ring i).state)) ((List.range 4096).map (fun i => (Config.copyEntry f.nextCopy + i) % 4096))
def copyWords (a : Src) : Nat := 1 + litsOf a

/-- CPY, CPYN and CPYR (R227, R230). A trap of any of the checks 1 to 5 names no lane, and of checks 4 and 5 no address (log entry 70). -/
def copyOp (kind : CopyKind) (k : Slot) (compact : Bool) (d : Dst) (a : Src) (s : State) : Out :=
  withRegs s (srcRegs a 2) [firstLane s.g] (fun s =>
    let va := (src64 s.g false a (firstLane s.g)).toNat
    let s := release s .dev
    .next (if va % 64 ≠ 0 ∨ 2251799813685248 ≤ va then illegalOperand s
      else match coreRead s va 64 with
        | .error x => trapAddr s x
        | .ok r =>
          let ivs := copyRecIvs kind k r
          let onChip (c : Copy) : Bool := (copyIvs c).any (·.chip)
          if copyBad kind k compact r then illegalOperand s
          else if copyMisaligned kind compact r then trapCode s 3 0
          else if outOfBounds s ivs then trapCode s 7 0
          else
            let f := getFn s s.g.ctx.fn
            let full := shareFull s (regionOf s.g.core) { (default : Copy) with kind := kind, slot := k, compact := compact, rcd := r } ||
              (ivs.any (·.chip) && decide (32 ≤ (s.copies.filter (fun c => decide (c.group = some s.g.id) && onChip c)).length)) || !(boardRoom s ivs.length)
            match pickEngine s s.g.ctx.fn, freeEntry f with
            | some e, some i =>
              if full then stall s
              else
                let gen := ((smGet {} f.ring i).gen + 1) % 1048576
                let c : Copy := { id := s.nextId, fn := s.g.ctx.fn, kind := kind, group := some s.g.id, launch := s.g.ctx.launch, core := s.g.core,
                                  team := some s.g.team, entry := i, rcd := r, desc := 0, slot := k, compact := compact, skey := s.g.ctx.lrec.skey,
                                  eng := e, done := 0, started := false, awaiting := false, sent := 0, pos := s.g.pos, off := s.g.off }
                let s1 := setFn s s.g.ctx.fn { f with ring := smSet {} f.ring i { gen := gen, state := 0, code := 0 }, nextCopy := f.nextCopy + 1 }
                let g := writeLanes s1.g d (activeLanes s1.g) (fun _ => [BitVec.ofNat 32 (gen * 4096 + i)])
                { s1 with copies := s1.copies ++ [c], nextId := s1.nextId + 1, g := advance g (copyWords a) }
            | _, _ => stall s))
def execCpy (d : Dst) (a : Src) (s : State) : Out := copyOp .cpy {} false d a s
def execCpyn (d : Dst) (a : Src) (k : Nat) (compact : Bool) (s : State) : Out := copyOp .cpyn (slotAt s.g k) compact d a s
def execCpyr (d : Dst) (a : Src) (s : State) : Out := copyOp .cpyr {} false d a s
/-- PUBLISH (R239). -/
def execPublish (a : Src) (s : State) : Out :=
  withRegs s (srcRegs a 2) [firstLane s.g] (fun s =>
    let x := src64 s.g false a (firstLane s.g)
    let s := release s .dev
    .next (if x.toNat % 32768 ≠ 0 then illegalOperand s
      else match pickEngine s s.g.ctx.fn with
        | none => stall s
        | some e =>
          let c : Copy := { id := s.nextId, fn := s.g.ctx.fn, kind := .publish, group := some s.g.id, launch := s.g.ctx.launch, core := s.g.core,
                            team := some s.g.team, entry := 0, rcd := [], desc := x, slot := {}, compact := false, skey := 0,
                            eng := e, done := 0, started := false, awaiting := false, sent := 0, pos := s.g.pos, off := s.g.off }
          { s with copies := s.copies ++ [c], nextId := s.nextId + 1, g := advance s.g (copyWords a) }))
/-- The status word of a handle (R235). -/
def handleStatus (f : Fn) (h : Nat) : Nat :=
  let e := smGet {} f.ring (h % 4096)
  if e.gen ≠ h / 4096 then 6 else e.state + 256 * e.code
def execCpyq (d : Dst) (a : Src) (s : State) : Out :=
  withRegs s (srcRegs a 1) (activeLanes s.g) (fun s =>
    let f := getFn s s.g.ctx.fn
    let st (l : Nat) : Nat := handleStatus f (src32 s.g a l).toNat
    let done (l : Nat) : Bool := decide (st l / 4 % 2 = 0 ∧ 2 ≤ st l % 4)
    let s1 := if (activeLanes s.g).any done then acquire s .dev else s
    .next { s1 with g := advance (writeLanes s1.g d (activeLanes s1.g) (fun l => [BitVec.ofNat 32 (st l)])) (copyWords a) })

end Sys2Proof.Machine
end

