-- ==== Sys2Proof/Machine/Records.lean ====
section
/-!
DEFINITION. Machine/Records.lean: kernel records, launch records and format slots as the front end reads and checks them
(02 R41 to R45).
-/
namespace Sys2Proof.Machine

/-- A checked field: its offset and whether it passes. -/
abbrev FieldCheck := Nat × Bool
/-- The offset of the first field that fails. -/
def firstBad (l : List FieldCheck) : Option Nat := (findFirst (fun c => !c.2) l).map (·.1)
def vaOk (x align : Nat) : Bool := decide (x < 2251799813685248 ∧ x % align = 0)

/-- A kernel record's fields (R41). -/
def kernelOf (r : List Byte) : Kernel where
  entry := fieldAt r 0 8
  handler := fieldAt r 8 8
  regs := 8 * (fieldAt r 16 1 % 16)
  width := 16 * 2 ^ (fieldAt r 17 1 % 4)
  team := fieldAt r 18 1 % 32
  regroup := bitOf (fieldAt r 19 1) 0
  ftz := bitOf (fieldAt r 19 1) 1
  travtrap := bitOf (fieldAt r 19 1) 2
  fptrap := BitVec.ofNat 5 (fieldAt r 20 1)
  divblocks := fieldAt r 21 1
  scratch := fieldAt r 24 4
  region := fieldAt r 28 4
  priv := fieldAt r 32 4
  trav := fieldAt r 36 4
/-- The first failing field of a kernel record (R44). -/
def kernelBad (r : List Byte) : Option Nat :=
  let k := kernelOf r
  firstBad [(0, vaOk k.entry 4 && decide (k.entry ≠ 0)), (8, vaOk k.handler 4), (16, decide (k.regs ≠ 0)), (17, decide (fieldAt r 17 1 % 4 ≠ 3)),
    (18, inRange k.team 1 16), (24, decide (k.scratch ≤ 262144 ∧ k.scratch % 256 = 0)), (28, decide (k.region ≤ 2097152 ∧ k.region % 256 = 0)),
    (32, decide (k.priv ≤ 65536 ∧ k.priv % 16 = 0)), (36, decide (k.trav ≤ 65536 ∧ k.trav % 64 = 0))]

/-- A format slot from its eight bytes (R43). -/
def slotOf (b : List Byte) : Slot where
  kind := fieldAt b 0 1
  m := fieldAt b 1 1
  block := fieldAt b 2 1
  round := fieldAt b 3 1
  sat := bitOf (fieldAt b 4 1) 0
  raw := fieldAt b 0 8
/-- The bytes of a slot at an offset, checked (R43, R44). -/
def slotChecks (b : List Byte) (at_ : Nat) : List FieldCheck :=
  let k := slotOf b
  [(at_, decide (k.kind ≤ 5)), (at_ + 1, if k.kind = 1 then inRange k.m 2 8 else decide (k.m = 0)),
    (at_ + 2, if k.kind = 1 then decide (k.block = 16 ∨ k.block = 32) else decide (k.block = 0)),
    (at_ + 3, decide (k.round ≤ 4) && (decide (k.kind ≠ 0) || decide (k.round = 0)))]
/-- A launch record's fields (R42). -/
def launchOf (r : List Byte) : LaunchRec where
  kernel := fieldAt r 0 8
  args := fieldAt r 8 8
  teams := fieldAt r 16 4
  fresh := bitOf (fieldAt r 20 1) 0
  slots := (List.range 8).map (fun k => slotOf (bytesAt r (32 + 8 * k) 8))
  skey := BitVec.ofNat 64 (fieldAt r 96 8)
/-- The first failing field of a launch record; a fragment launch's teams field is not checked (R44, R243). -/
def launchBad (r : List Byte) (teams : Bool) : Option Nat :=
  let l := launchOf r
  firstBad ([(0, vaOk l.kernel 64), (8, vaOk l.args 16), (16, !teams || decide (l.teams ≠ 0))] ++
    ((List.range 8).map (fun k => slotChecks (bytesAt r (32 + 8 * k) 8) (32 + 8 * k))).flatten)

end Sys2Proof.Machine
end

