-- ==== Sys2Proof/Machine/Raster.lean ====
section
/-!
DEFINITION. Machine/Raster.lean: passes, PRIM and the raster unit (12 R242 to R249; 27 R442).
-/
namespace Sys2Proof.Machine

-- pass records (R242)

def paFrec (r : List Byte) : Nat := fieldAt r 0 8
def paAttrs (r : List Byte) : Nat := fieldAt r 28 1
def paSize (r : List Byte) : Nat := fieldAt r 16 4
def passOk (r : List Byte) (nslices : Nat) : Bool :=
  vaOk (paFrec r) 64 && vaOk (fieldAt r 8 8) 128 && inRange (paSize r) 128 2147483648 && decide (paSize r % 128 = 0) &&
  decide (fieldAt r 20 2 ≤ 16383 ∧ fieldAt r 22 2 ≤ 16383 ∧ fieldAt r 20 2 < fieldAt r 24 2 ∧ fieldAt r 24 2 ≤ 16384 ∧ fieldAt r 22 2 < fieldAt r 26 2 ∧
    fieldAt r 26 2 ≤ 16384 ∧ paAttrs r < 8 ∧ fieldAt r 29 1 < 16 ∧ fieldAt r 29 1 < nslices) && zeroBytes r 30 63

-- coverage and interpolation (R246, R247)

/-- A point in the plane. -/
structure Pt where
  x : Q
  y : Q
  deriving DecidableEq, Repr
/-- Twice the signed area of a triangle; positive for vertices that run clockwise on screen. -/
def cross (a b p : Pt) : Q := Q.sub (Q.mul (Q.sub b.x a.x) (Q.sub p.y a.y)) (Q.mul (Q.sub b.y a.y) (Q.sub p.x a.x))
/-- A point is inside the edge from a to b of a clockwise triangle, or on it where it is a top or a left edge. -/
def insideEdge (a b p : Pt) : Bool :=
  let e := cross a b p
  let dx := (Q.sub b.x a.x).num
  let dy := (Q.sub b.y a.y).num
  decide (0 < e.num) || (e.isZero && ((decide (dy = 0) && decide (0 < dx)) || decide (dy < 0)))
def samplesAt : List (Nat × Nat) := [(1, 5), (3, 13), (5, 1), (7, 9), (9, 7), (11, 15), (13, 3), (15, 11)]
/-- The coverage byte of a pixel for a clockwise triangle. -/
def coverage (a b c : Pt) (x y : Nat) : Nat :=
  (List.zip (List.range 8) samplesAt).foldl (fun acc e =>
    let p : Pt := { x := ⟨16 * x + e.2.1, 16⟩, y := ⟨16 * y + e.2.2, 16⟩ }
    if insideEdge a b p && insideEdge b c p && insideEdge c a p then acc + 2 ^ e.1 else acc) 0
/-- One interpolated value (R247); an exact zero is +0 (log entry 33). -/
def interpolate (w : List Q) (v : List FVal) : Word :=
  if v.any FVal.isNan then BitVec.ofNat 32 fF32.cnan
  else
    let terms := List.zip w v
    let infs := terms.filterMap (fun e => match e.2 with | .inf neg => if e.1.isZero then none else some (neg != decide (e.1.num < 0)) | _ => none)
    match infs with
    | n :: ns => if ns.all (fun m => m == n) then BitVec.ofNat 32 (fF32.infBits n) else BitVec.ofNat 32 fF32.cnan
    | [] =>
      let q := terms.foldl (fun acc e => match e.2 with | .fin _ x => Q.add acc (Q.mul e.1 x) | _ => acc) ⟨0, 1⟩
      if q.isZero then 0 else BitVec.ofNat 32 (roundQ fF32 .rne false false q).bits

def vWord (r : List Byte) (off : Nat) : FVal := fF32.read (fieldAt r off 4)
def coord (v : FVal) : Option Q := match v with
  | .fin _ q => some q
  | _ => none
/-- A vertex's position, when it is finite. -/
def vertex (r : List Byte) (v : Nat) : Option Pt :=
  match coord (vWord r (12 * v)), coord (vWord r (12 * v + 4)) with
  | some x, some y => some { x := x, y := y }
  | _, _ => none
/-- Pixels from lo on that a span of the plane can reach, below hi. -/
def spanOf (a b c : Q) (lo hi : Nat) : List Nat :=
  let l := min (min a.floor b.floor) c.floor
  let h := max (max a.floor b.floor) c.floor
  let from_ := max lo l.toNat
  if h < 0 then [] else (List.range (min hi (h.toNat + 1) - from_)).map (· + from_)
/-- The fragments of a primitive with a sequence number, in ascending y and then x. -/
def fragmentsOf (pass prim : List Byte) (seq : Nat) : List FragRec :=
  match vertex prim 0, vertex prim 1, vertex prim 2 with
  | some a, some b, some c =>
    let area := cross a b c
    if area.isZero then []
    else
      let cw := decide (0 < area.num)
      let b' := if cw then b else c
      let c' := if cw then c else b
      let value (px py : Nat) (off : Nat → Nat) : Word :=
        let p : Pt := { x := ⟨2 * px + 1, 2⟩, y := ⟨2 * py + 1, 2⟩ }
        interpolate [Q.div (cross b c p) area, Q.div (cross c a p) area, Q.div (cross a b p) area] ((List.range 3).map (fun v => vWord prim (off v)))
      ((spanOf a.y b.y c.y (fieldAt pass 22 2) (fieldAt pass 26 2)).map (fun y =>
        (spanOf a.x b.x c.x (fieldAt pass 20 2) (fieldAt pass 24 2)).filterMap (fun x =>
          let cv := coverage a b' c' x y
          if cv = 0 then none
          else some { x := x, y := y, seq := seq, cover := cv, face := cw, depth := value x y (fun v => 12 * v + 8),
                      attrs := (List.range (paAttrs pass)).map (fun j => value x y (fun v => 40 + 4 * (7 * v + j))) }))).flatten
  | _, _, _ => []

-- passes

def setPass (s : State) (p : Pass) : State := { s with passes := updIf (fun q => decide (q.id = p.id)) (fun _ => p) s.passes }
/-- Bytes of one fragment group's own areas (R442). -/
def fragArea (k : Kernel) : Nat := k.width * k.priv + k.divblocks * 512 + k.width * k.trav + 1024
/-- Where the fragment areas of a geometry launch begin (R442). -/
def fragBase (c : Ctx) : Nat :=
  let k := c.kernel
  c.pbase + c.areas * (k.width * k.priv + k.divblocks * 512 + k.width * k.trav + 1024)
/-- Packs one fragment: a group is full, or holds the pixel already (R248). -/
def packFrag (p : Pass) (f : FragRec) : Pass :=
  if p.opened.length = p.ctx.kernel.width ∨ p.opened.any (fun g => decide (g.x = f.x ∧ g.y = f.y)) then
    { p with ready := p.ready ++ [(p.nextGroup, p.opened)], nextGroup := p.nextGroup + 1, opened := [f], live := (pixelKey f.x f.y, f.seq) :: p.live }
  else { p with opened := p.opened ++ [f], live := (pixelKey f.x f.y, f.seq) :: p.live }
/-- The open group launches as it stands. -/
def flushPass (p : Pass) : Pass :=
  if p.opened = [] then p else { p with ready := p.ready ++ [(p.nextGroup, p.opened)], nextGroup := p.nextGroup + 1, opened := [] }
/-- The primitive that comes next, once every group of lower index has exited (R244). -/
def nextPrim (s : State) (p : Pass) : Option Prim :=
  match minBy (fun q => [q.grpix, q.seq]) p.prims with
  | none => none
  | some q => if (allGroups s).any (fun h => decide (h.ctx.launch = p.launch ∧ h.phase ≠ .none ∧ h.grpix < q.grpix) && !h.ctx.frag) then none else some q
/-- PRIMITIVE_RASTERISE (R244, R248): the next primitive's fragments are packed; with none left the open group launches. -/
def execPrimitiveRasterise (id : Nat) (s : State) : Out :=
  .next (match passOf s id with
    | none => s
    | some p => match nextPrim s p with
      | none => s
      | some q =>
        let p1 := (fragmentsOf p.rcd q.rcd p.nextSeq).foldl packFrag { p with prims := p.prims.filter (fun x => decide (x ≠ q)), nextSeq := p.nextSeq + 1 }
        let s1 := setPass s p1
        if (nextPrim s1 p1).isSome then s1 else setPass s1 (flushPass p1))

-- PRIM (R243)

/-- Check 3 of R243, but for the register count and the buffer size. -/
def passRecordsOk (pass frec krec : List Byte) (nslices : Nat) : Bool :=
  let k := kernelOf krec
  passOk pass nslices && (launchBad frec false).isNone && (kernelBad krec).isNone && decide (k.team = 1 ∧ 4 + paAttrs pass ≤ k.regs) && !k.regroup
/-- The records a PRIM reads: pass, fragment launch record and its kernel record. -/
def readPass (s : State) (fn va : Nat) : Except (XErr × Nat) (List Byte × List Byte × List Byte) :=
  match agentRead s fn va 64 with
  | .error x => .error x
  | .ok p => match agentRead s fn (paFrec p % 2251799813685248) 128 with
    | .error x => .error x
    | .ok l => match agentRead s fn (fieldAt l 0 8 % 2251799813685248) 64 with
      | .error x => .error x
      | .ok k => .ok (p, l, k)
/-- The primitive records of the lanes, or the trap of the first check that fails (checks 4 to 6). -/
def readPrims (s : State) (fn : Nat) (l : List (Nat × Nat)) : Except TrapInfo (List (List Byte)) :=
  match failAt l (fun _ a => if a % 32 ≠ 0 then some ⟨3, 0⟩ else none) with
  | some t => .error t
  | none =>
    let got := l.map (fun e => (e, agentRead s fn e.2 128))
    match got.filterMap (fun g => match g.2 with | .error x => some (g.1.1, x) | .ok _ => none) with
    | e :: es => .error { code := e.2.1.code, detail := e.2.1.cause, addr := e.2.2, lanes := maskOf ((e :: es).map (·.1)) }
    | [] =>
      let recs := got.map (fun g => (g.1, match g.2 with | .ok b => b | .error _ => []))
      let bad := recs.filter (fun g => !(zeroBytes g.2 36 39 && zeroBytes g.2 124 127))
      if bad ≠ [] then .error { code := 2, detail := 6, addr := ((bad.map (·.1.2)).headD 0), lanes := maskOf (bad.map (·.1.1)) }
      else .ok (recs.map (·.2))
/-- The pass that a launch's first PRIM bound. -/
def boundPass (s : State) (launch : Nat) : Option Pass := findFirst (fun p => decide (p.launch = launch)) s.passes
def newPass (s : State) (va : Nat) (pass frec krec : List Byte) : Pass :=
  let c := s.g.ctx
  { id := s.nextId, fn := c.fn, launch := c.launch, va := va, rcd := pass, slice := (getFn s c.fn).slices.getD (fieldAt pass 29 1) 0,
    ctx := { fn := c.fn, launch := c.launch, lrecVA := paFrec pass, kernel := kernelOf krec, lrec := launchOf frec, pbase := fragBase c, areas := 1,
             deadline := c.deadline, repl := false, gen := 0, frag := true, pass := s.nextId, tree := c.tree },
    prims := [], nextSeq := 0, opened := [], ready := [], nextGroup := 0, live := [] }
/-- The lowest n free places of a pass's primitive buffer. -/
def freePlaces (p : Pass) (n : Nat) : List Nat :=
  ((List.range (p.prims.length + n)).filter (fun i => !(p.prims.any (fun q => decide (q.place = i))))).take n
/-- The raster unit copies records into the primitive buffer, in its lowest free places; a page that refuses one leaves memory as it is, and the unit
goes on with the record it read (R243 names no trap for it; log entry 33); a walk that meets poison writes its record (R375). -/
def fillBuffer (fn p pbuf : Nat) : List Prim → State → State
  | [], s => s
  | q :: l, s => fillBuffer fn p pbuf l (match agentWrite s fn (pbuf + 128 * q.place) q.rcd with
    | .ok t => t
    | .error x => walkRecord s fn x.1 x.2 (some p))
/-- The raster unit that a pass takes runs another one. -/
def unitTaken (s : State) (p : Pass) : Bool := s.passes.any (fun q => decide (q.slice = p.slice ∧ q.id ≠ p.id))
/-- The primitive buffer of a pass lacks room for n more records. -/
def bufferFull (p : Pass) (n : Nat) : Bool := decide (paSize p.rcd < 128 * (p.prims.length + n))
def execPrim (d : Dst) (a : Src) (s : State) : Out :=
  withRegs s (dstRegs d 2) [firstLane s.g] (fun s => withRegs s (srcRegs a 2) (activeLanes s.g) (fun s =>
    let va := (dst64 s.g d (firstLane s.g)).toNat
    let fn := s.g.ctx.fn
    let s := release s .dev
    let bound := boundPass s s.g.ctx.launch
    .next (if va % 64 ≠ 0 ∨ (bound.map (fun p => decide (p.va ≠ va))).getD false then illegalOperand s
      else match readPass s fn va with
        | .error x => trapAddr s x
        | .ok (pr, lr, kr) =>
          let n := (activeLanes s.g).length
          if ¬ passRecordsOk pr lr kr (getFn s fn).slices.length ∨ paSize pr < 128 * n then illegalOperand s
          else match readPrims s fn (laneAddrs s.g a .g) with
            | .error t => takeTrap s t
            | .ok recs =>
              let p := bound.getD (newPass s va pr lr kr)
              if unitTaken s p ∨ bufferFull p n then stall s
              else
                let base := (p.prims.map (fun q => q.seq + 1)).foldl max 0
                let new := (List.zip (List.range n) (List.zip (freePlaces p n) recs)).map (fun e => ({ grpix := s.g.grpix, seq := base + e.1, place := e.2.1, rcd := e.2.2 } : Prim))
                let p1 := { p with prims := p.prims ++ new }
                let s := fillBuffer fn p.slice (fieldAt p.rcd 8 8 % 2251799813685248) new s
                let s1 := if bound.isSome then setPass s p1
                  else updLaunch { s with passes := s.passes ++ [p1], nextId := s.nextId + 1 } s.g.ctx.launch (fun l => { l with pass := some p1.id })
                { s1 with g := advance s1.g (1 + litsOf a) })))

end Sys2Proof.Machine
end

