-- ==== Sys2Proof/Machine/Graphics.lean ====
section
/-!
DEFINITION. Machine/Graphics.lean: FINS, FPEEK, FRES, FCLR and the render output stage; ENC.TILE and the encoder lane (12).
-/
namespace Sys2Proof.Machine

/-- A point that serves one owed slot before it executes (R409). -/
def servingSlot (s : State) (slot : Nat) (k : State → Out) : Out :=
  match owedAt s.g slot with
  | some o => .next (takeOwed s (slot, o))
  | none => k s
/-- Checks 2 and 3 of R256: the target record that the lowest active lane names. -/
def readTarget (s : State) (a : Src) : Except TrapInfo (Nat × List Byte) :=
  let va := (src64 s.g false a (firstLane s.g)).toNat
  if va % 64 ≠ 0 then .error { code := 2, detail := 6 }
  else match coreRead s va 64 with
    | .error (x, e) => .error { code := x.code, detail := x.cause, addr := e }
    | .ok t => if targetOk t (getFn s s.g.ctx.fn).slices.length then .ok (va, t) else .error { code := 2, detail := 6 }
def fragOf (h : Group) (l : Nat) : Option Frag := (findFirst (fun f => decide (f.1 = l)) h.frags).map (·.2)

/-- FINS (R256): one insert of each active thread is queued. -/
def execFins (d : Dst) (a : Src) (s : State) : Out :=
  servingSlot s 18 (fun s => withRegs s (srcRegs a 2) [firstLane s.g] (fun s => withRegs s (dstRegs d 4) (activeLanes s.g) (fun s =>
    let h := s.g
    let ls := activeLanes h
    let none_ := ls.filter (fun l => (fragOf h l).isNone)
    .next (if none_ ≠ [] then takeTrap s { code := 2, detail := 6, lanes := maskOf none_ }
      else match readTarget s a with
        | .error t => takeTrap s t
        | .ok (va, t) =>
          let px (l : Nat) : Frag := (fragOf h l).getD {}
          let out := ls.filter (fun l => decide (tgW t ≤ (px l).x ∨ tgH t ≤ (px l).y))
          if out ≠ [] then takeTrap s { code := 7, lanes := maskOf out }
          else
            let open_ := ((s.inserts.filter (fun r => decide (r.group = h.id) && !r.parked)).map (·.fins)).eraseDups
            if 4 ≤ open_.length then stall s
            else
              let new := (List.zip (List.range ls.length) ls).map (fun e =>
                let f := px e.2
                ({ id := s.nextId + e.1, group := h.id, launch := h.ctx.launch, fn := h.ctx.fn, pass := h.ctx.pass, lane := e.2, seq := f.seq, fins := s.nextId,
                   px := f.x, py := f.y, node := dstWords h d 4 e.2, targetVA := va, target := t, parked := false, code := 0, cause := 0, pos := h.pos, off := h.off } : Insert))
              { s with inserts := s.inserts ++ new, nextId := s.nextId + ls.length, g := advance h (1 + litsOf a) }))))
/-- FRAGMENT_INSERT (R257, R258). -/
def execFragmentInsert (id : Nat) (s : State) : Out :=
  .next (match findFirst (fun r => decide (r.id = id)) s.inserts with
    | none => s
    | some r => if r.parked ∨ ¬ insertFree s r then s else performInsert s r)

-- reading, resolving and clearing (R262 to R265)

def pixX (w : Word) : Nat := bits w.toNat 13 0
def pixY (w : Word) : Nat := bits w.toNat 27 14
def pixPos (w : Word) : Nat := bits w.toNat 30 28
/-- Runs a list operation in each active lane, the lowest first; any failure traps with the address it met and changes nothing (R262, R375); it
names the first lane that fails (log entry 26). -/
def eachList (fn : Nat) (t : List Byte) (f : State → Nat → Word → LList → Except (XErr × Nat) (State × List Word)) : List (Nat × Word) → State → List (Nat × List Word) →
    Except ((XErr × Nat) × Nat) (State × List (Nat × List Word))
  | [], s, acc => .ok (s, acc)
  | e :: l, s, acc => match readList s fn t (pixX e.2) (pixY e.2) with
    | .error x => .error (x, e.1)
    | .ok r => match f s e.1 e.2 r with
      | .error x => .error (x, e.1)
      | .ok (u, ws) => eachList fn t f l u (acc ++ [(e.1, ws)])
def listOp (a b : Src) (d : Option Dst) (f : List Byte → State → Nat → Word → LList → Except (XErr × Nat) (State × List Word)) (s : State) : Out :=
  servingSlot s 18 (fun s => withRegs s (srcRegs a 2) [firstLane s.g] (fun s => withRegs s (srcRegs b 1) (activeLanes s.g) (fun s =>
    .next (match readTarget s a with
      | .error t => takeTrap s t
      | .ok (_, t) =>
        let ls := (activeLanes s.g).map (fun l => (l, src32 s.g b l))
        let out := ls.filter (fun e => decide (tgW t ≤ pixX e.2 ∨ tgH t ≤ pixY e.2))
        if out ≠ [] then takeTrap s { code := 7, lanes := maskOf (out.map (·.1)) }
        else match eachList s.g.ctx.fn t (f t) ls s [] with
          | .error ((x, e), l) => takeTrap s { code := x.code, detail := x.cause, addr := e, lanes := 1#64 <<< l }
          | .ok (u, res) =>
            let g := match d with
              | none => u.g
              | some d => res.foldl (fun h r => writeDst h d r.1 r.2) u.g
            { u with g := advance g (1 + litsOf a + litsOf b) }))))
/-- FPEEK (R263). -/
def peekWords (w : Word) (r : LList) : List Word :=
  let n := r.nodes.length
  match r.nodes[pixPos w]? with
  | none => [0, 0, 0, BitVec.ofNat 32 (65536 * n)]
  | some k => [BitVec.ofNat 32 k.color, BitVec.ofNat 32 (k.color / 4294967296), k.depth, BitVec.ofNat 32 (65536 * n + 256 * k.flags + k.cover)]
def execFpeek (d : Dst) (a b : Src) (s : State) : Out := listOp a b (some d) (fun _ s _ w r => .ok (s, peekWords w r)) s
/-- The front-to-back composition of a list (R264): the four channels as binary32. -/
def resolveAcc (l : List LNode) : List Nat :=
  l.foldl (fun acc k =>
    let ia := oneMinus (fF32.read (acc.getD 3 0))
    (List.range 4).map (fun c => madRound fF32 ia (chan k.color c) (fF32.read (acc.getD c 0)))) [0, 0, 0, 0]
def resolveWords (l : List LNode) : List Word :=
  let h := (resolveAcc l).map (fun x => (convF fF16 .rne false false (fF32.read x)).bits)
  [BitVec.ofNat 32 (h.getD 0 0 + 65536 * h.getD 1 0), BitVec.ofNat 32 (h.getD 2 0 + 65536 * h.getD 3 0)]
def clearList (t : List Byte) (s : State) (w : Word) (r : LList) : Except (XErr × Nat) State :=
  stageWrites s.g.ctx.fn (clearWrites t (pixX w) (pixY w) r) s
def execFres (d : Dst) (a b : Src) (clear : Bool) (s : State) : Out :=
  listOp a b (some d) (fun t s _ w r =>
    if clear then (match clearList t s w r with | .error x => .error x | .ok u => .ok (u, resolveWords r.nodes)) else .ok (s, resolveWords r.nodes)) s
def execFclr (a b : Src) (s : State) : Out :=
  listOp a b none (fun t s _ w r => match clearList t s w r with | .error x => .error x | .ok u => .ok (u, [])) s

-- the encoder lane (R269 to R271)

def tlTx (t : List Byte) : Nat := fieldAt t 14 1
def tlTy (t : List Byte) : Nat := fieldAt t 15 1
def tlFrame (t : List Byte) : Nat := fieldAt t 16 4
def tlStream (t : List Byte) : Nat := fieldAt t 24 8
def smLane (r : List Byte) : Nat := fieldAt r 1 1
def smW (r : List Byte) : Nat := fieldAt r 2 2
def smH (r : List Byte) : Nat := fieldAt r 4 2
def smRing (r : List Byte) : Nat := fieldAt r 16 8
def smSize (r : List Byte) : Nat := fieldAt r 24 4
def tileRecOk (t : List Byte) : Bool :=
  vaOk (fieldAt t 0 8) 32 && decide (fieldAt t 8 4 % 32 = 0 ∧ fieldAt t 12 1 < 2) && zeroBytes t 13 13 && zeroBytes t 20 23 && vaOk (tlStream t) 64 && zeroBytes t 32 63
def streamOk (r : List Byte) (nslices : Nat) : Bool :=
  decide (fieldAt r 0 1 < 2 ∧ smLane r < 16 ∧ smLane r < nslices ∧ smW r % 8 = 0 ∧ smH r % 8 = 0 ∧ smSize r % 64 = 0) && inRange (smW r) 64 3840 && inRange (smH r) 64 2160 &&
  vaOk (smRing r) 64 && zeroBytes r 6 7 && zeroBytes r 12 15 && zeroBytes r 36 39 && zeroBytes r 48 63
/-- ENC.TILE (R270): the hand-off is queued. -/
def execEncTile (a : Src) (s : State) : Out :=
  servingSlot s 19 (fun s => withRegs s (srcRegs a 2) [firstLane s.g] (fun s =>
    let va := (src64 s.g false a (firstLane s.g)).toNat
    let s := release s .dev
    .next (if va % 64 ≠ 0 then illegalOperand s
      else match coreRead s va 64 with
        | .error x => trapAddr s x
        | .ok t =>
          if ¬ tileRecOk t then illegalOperand s
          else match coreRead s (tlStream t) 64 with
            | .error x => trapAddr s x
            | .ok r =>
              if ¬ streamOk r (getFn s s.g.ctx.fn).slices.length ∨ smW r ≤ 64 * tlTx t ∨ smH r ≤ 64 * tlTy t then illegalOperand s
              else
                let o : HandOff := { id := s.nextId, group := s.g.id, launch := s.g.ctx.launch, fn := s.g.ctx.fn, deadline := s.g.ctx.deadline, tile := t, stream := r,
                                     pos := s.g.pos, off := s.g.off }
                { s with handoffs := s.handoffs ++ [o], nextId := s.nextId + 1, g := advance s.g (1 + litsOf a) })))

/-- Width and height of a tile of a stream: edge tiles cover only the frame (R270). -/
def tileW (r t : List Byte) : Nat := min 64 (smW r - 64 * tlTx t)
def tileH (r t : List Byte) : Nat := min 64 (smH r - 64 * tlTy t)
def tileBpp (t : List Byte) : Nat := if fieldAt t 12 1 = 0 then 8 else 4
/-- A tile read as black (R270). -/
def blackTile (o : HandOff) : List Byte := List.replicate (tileW o.stream o.tile * tileH o.stream o.tile * tileBpp o.tile) 0
/-- A colour channel in [0, 1]: of a binary16 pixel clamped with NaN as 0, of a packed one its 10 bits over 1,023 (R269, R270). -/
def unitChan (v : FVal) : Q := match v with
  | .nan _ => ⟨0, 1⟩
  | .inf neg => ⟨if neg then 0 else 1, 1⟩
  | .fin _ q => if q.num ≤ 0 then ⟨0, 1⟩ else if Q.le ⟨1, 1⟩ q then ⟨1, 1⟩ else q
/-- The channels of a pixel as the lane converts them. Alpha is left out: premultiplied channels are converted as they stand (R269, R270; log entry 8). -/
def pixelRgb (fmt : Nat) (b : List Byte) : List Q :=
  (List.range 3).map (fun k => if fmt = 0 then unitChan (fF16.read (fieldAt b (2 * k) 2)) else ⟨(bits (leNat b) (10 * k + 9) (10 * k) : Nat), 1023⟩)
/-- Luma and the two colour differences of BT.709 (R269, log entry 8). -/
def ycc (c : List Q) : List Q :=
  let ch (i : Nat) : Q := c.getD i ⟨0, 1⟩
  let y := Q.add (Q.add (Q.mul ⟨2126, 10000⟩ (ch 0)) (Q.mul ⟨7152, 10000⟩ (ch 1))) (Q.mul ⟨722, 10000⟩ (ch 2))
  [y, Q.mul ⟨10000, 18556⟩ (Q.sub (ch 2) y), Q.mul ⟨10000, 15748⟩ (Q.sub (ch 0) y)]
/-- The 10-bit limited-range code: 4 x (range x v + base), to nearest. -/
def code10 (range base : Int) (v : Q) : List Byte :=
  natLe 2 (Q.floor (Q.add (Q.add (Q.mul ⟨4 * range, 1⟩ v) ⟨4 * base, 1⟩) ⟨1, 2⟩)).toNat
def pairUp {α : Type} : List α → List (α × α)
  | a :: b :: l => (a, b) :: pairUp l
  | _ => []
/-- The samples of a tile as the lane converts them: the luma plane, then the two chroma planes, each sample the mean of a square of four (R269, log
entry 8). -/
def tileSamples (w fmt : Nat) (px : List Byte) : List Byte :=
  let bpp := if fmt = 0 then 8 else 4
  let rows := chunksOf w (px.length + 1) ((chunksOf bpp (px.length + 1) px).map (fun b => ycc (pixelRgb fmt b)))
  let comp (i : Nat) (c : List Q) : Q := c.getD i ⟨0, 1⟩
  let squares := ((pairUp rows).map (fun r => List.zip (pairUp r.1) (pairUp r.2))).flatten
  let chroma (i : Nat) : List Byte := (squares.map (fun e =>
    code10 224 128 (Q.mul ⟨1, 4⟩ ([e.1.1, e.1.2, e.2.1, e.2.2].foldl (fun acc c => Q.add acc (comp i c)) ⟨0, 1⟩)))).flatten
  (rows.map (fun r => (r.map (fun c => code10 219 16 (comp 0 c))).flatten)).flatten ++ chroma 1 ++ chroma 2
/-- Pixels of a tile, row by row, or the first failure (R270). -/
def tilePixels (s : State) (o : HandOff) : Except (XErr × Nat) (List Byte) :=
  match allOk ((List.range (tileH o.stream o.tile)).map (fun y => agentRead s o.fn (fieldAt o.tile 0 8 + y * fieldAt o.tile 8 4) (tileW o.stream o.tile * tileBpp o.tile))) with
  | .error x => .error x
  | .ok l => .ok l.flatten
def tilesAcross (r : List Byte) : Nat := ceilDiv (smW r) 64
def tileCount (r : List Byte) : Nat := tilesAcross r * ceilDiv (smH r) 64
/-- The highest frame of a stream that has started encoding, plus 1; 0 for none. -/
def startedUpTo (s : State) (fn stream : Nat) : Nat :=
  ((findFirst (fun e => decide (e.1 = fn ∧ e.2.1 = stream)) s.encoded).map (fun e => e.2.2 + 1)).getD 0
def putTile (fr : Frame) (ix : Nat) (px : List Byte) (o : HandOff) (bad : Bool) : Frame :=
  { fr with tiles := insBy (fun e => [e.1]) (ix, px) (fr.tiles.filter (fun e => decide (e.1 ≠ ix))), rcd := o.stream,
            deadline := max fr.deadline o.deadline, error := fr.error || bad,
            launches := if fr.launches.contains o.launch then fr.launches else o.launch :: fr.launches }
/-- The lane accepts a hand-off with the pixels that it has read; a failed read is a black tile and an owed trap (R270). -/
def acceptTile (s : State) (o : HandOff) (px : Except (XErr × Nat) (List Byte)) : State :=
  let s1 := { s with handoffs := s.handoffs.filter (fun x => decide (x.id ≠ o.id)) }
  let s2 := match px, getGroup s1 o.group with
    | .error (x, a), some h => setGroup (walkRecord s1 o.fn x a (getFn s o.fn).slices[smLane o.stream]?) (fillOwed h 19
      { code := x.code, unit := 5, pos := o.pos, off := o.off, addr := a, lanes := 0, done := 0, detail := x.cause,
        more := 0, remote := false, seq := o.id })
    | _, _ => s1
  let st := tlStream o.tile
  let fno := tlFrame o.tile
  if fno < startedUpTo s2 o.fn st then s2
  else
    let ix := tlTy o.tile * tilesAcross o.stream + tlTx o.tile
    let b : List Byte := tileSamples (tileW o.stream o.tile) (fieldAt o.tile 12 1) (match px with | .ok l => l | .error _ => blackTile o)
    let here (f : Frame) : Bool := decide (f.fn = o.fn ∧ f.stream = st ∧ f.frame = fno)
    let bad := match px with | .ok _ => false | .error _ => true
    if s2.frames.any here then { s2 with frames := updIf here (fun f => putTile f ix b o bad) s2.frames }
    else { s2 with frames := putTile { fn := o.fn, stream := st, frame := fno, tiles := [], rcd := o.stream, deadline := 0, error := false, launches := [] } ix b o bad :: s2.frames }
/-- TILE_ACCEPT (R270): the lane reads the pixels. -/
def execTileAccept (id : Nat) (s : State) : Out :=
  .next (match findFirst (fun o => decide (o.id = id)) s.handoffs with
    | none => s
    | some o => acceptTile s o (tilePixels s o))

def frameFull (f : Frame) : Bool := decide (f.tiles.length = tileCount f.rcd)
/-- Lower frames of the stream hold a frame back (R271). -/
def frameHeld (s : State) (f : Frame) : Bool :=
  s.frames.any (fun x => decide (x.fn = f.fn ∧ x.stream = f.stream ∧ x.frame < f.frame)) ||
  s.handoffs.any (fun o => decide (o.fn = f.fn ∧ tlStream o.tile = f.stream ∧ tlFrame o.tile < f.frame ∧ startedUpTo s o.fn f.stream ≤ tlFrame o.tile))
def frameReady (s : State) (f : Frame) : Bool := frameFull f && !frameHeld s f
/-- The slice of a frame's lane. -/
def frameLane (s : State) (f : Frame) : Nat := (getFn s f.fn).slices.getD (smLane f.rcd) 0
/-- The lane goes on with the frame that it has begun; else it serves the earliest deadline first. -/
def frameFirst (s : State) (f : Frame) : Bool :=
  f.rest.isSome || !(s.frames.any (fun x => decide (frameLane s x = frameLane s f) && (x.rest.isSome || (frameReady s x && decide (x.deadline < f.deadline)))))
def isFrame (f x : Frame) : Bool := decide (x.fn = f.fn ∧ x.stream = f.stream ∧ x.frame = f.frame)
/-- A frame has started encoding: what is handed off to it, or to a lower number of its stream, is discarded. -/
def noteStarted (s : State) (f : Frame) : State :=
  { s with encoded := insBy (fun e => [e.1, e.2.1]) (f.fn, f.stream, max f.frame (startedUpTo s f.fn f.stream - 1)) (s.encoded.filter (fun e => !(decide (e.1 = f.fn ∧ e.2.1 = f.stream)))) }
def dropFrame (s : State) (f : Frame) : State := { noteStarted s f with frames := s.frames.filter (fun x => !(isFrame f x)) }
/-- The frame is being encoded, with what is left of its bitstream. -/
def keepFrame (s : State) (f : Frame) (rest : List Byte) (total : Nat) : State :=
  { noteStarted s f with frames := updIf (isFrame f) (fun x => { x with rest := some rest, total := total }) s.frames }
/-- The record of a lane's failed access (R271). -/
def laneRecord (s : State) (f : Frame) (x : XErr) (va : Nat) : State :=
  errorRecord s f.fn { cause := if x.code = 6 then 2 else 11, cls := 1, unit := 11, slice := some (frameLane s f), where_ := va, detail := x.cause }
/-- Writes of parts in order, up to the first that fails or meets poison, which leaves those before it written. -/
def writeParts (fn : Nat) : List (Nat × List Byte) → State → State × Option (XErr × Nat)
  | [], s => (s, none)
  | w :: ws, s => match agentMerge s fn w.1 w.2 with
    | .error x => (s, some x)
    | .ok t => writeParts fn ws t
/-- Writes bytes around a ring, page by page. -/
def ringBytes (s : State) (fn ring size wr : Nat) (bs : List Byte) : State × Option (XErr × Nat) :=
  let parts (va : Nat) (l : List Byte) : List (Nat × List Byte) := pageParts (l.length / 32768 + 2) va l
  writeParts fn (parts (ring + wr) (bs.take (size - wr)) ++ parts ring (bs.drop (size - wr))) s
/-- Room in a ring between the lane's offset and the consumer's, both taken modulo its size (log entry 38). The ring keeps one byte free, so that a full one differs from an
empty one. -/
def ringRoom (size rd wr : Nat) : Nat := size - 1 - (wr % max size 1 + size - rd % max size 1) % max size 1
/-- The word done of a frame: its number, the bytes of its bitstream, LATE and ERROR (R269). -/
def doneWord (frame n : Nat) (late err : Bool) : Nat :=
  frame % 4294967296 + 4294967296 * (n % 1073741824) + (if late then 4611686018427387904 else 0) + (if err then 9223372036854775808 else 0)
/-- The frame ends: done is written, and vector 4 raised; a write of done that fails is dropped (R271). -/
def endFrame (s : State) (f : Frame) (n : Nat) (err : Bool) : State :=
  match agentMerge (dropFrame s f) f.fn (f.stream + 40) (natLe 8 (doneWord f.frame n (decide (f.deadline < (baseOf s f.fn).value)) err)) with
  | .error (x, a) => laneRecord (dropFrame s f) f x a
  | .ok t => raiseVector t f.fn 4
/-- FRAME_ENCODE (R271): the lane starts the frame, or goes on with it: it writes what the ring takes of the bitstream, and wr; after the last byte, done. A failed write of the
ring or of wr discards what is left of the bitstream, and what was written stays. -/
def execFrameEncode (fn stream frame : Nat) (s : State) : Out :=
  .next (match findFirst (fun f => decide (f.fn = fn ∧ f.stream = stream ∧ f.frame = frame)) s.frames with
    | none => s
    | some f =>
      if ¬ frameReady s f ∨ ¬ frameFirst s f then s
      else match agentRead s fn stream 64 with
        | .error (x, a) => laneRecord (dropFrame s f) f x a
        | .ok r =>
          let out := f.rest.getD (Config.bitstream [fieldAt r 0 1, smW f.rcd, smH f.rcd, fieldAt r 8 4, frame, s.now] (f.tiles.map (·.2)).flatten)
          let total := if f.rest.isSome then f.total else out.length
          let size := smSize r
          let wr := fieldAt r 32 4 % max size 1
          let n := min out.length (ringRoom size (fieldAt r 28 4) wr)
          let s1 := keepFrame s f (out.drop n) total
          let written : State × Option (XErr × Nat) := if n = 0 then (s1, none) else match ringBytes s1 fn (smRing r) size wr (out.take n) with
            | (t, some x) => (t, some x)
            | (t, none) => writeParts fn [(stream + 32, natLe 4 ((wr + n) % size))] t
          match written with
          | (t, some (x, a)) => endFrame (laneRecord t f x a) f 0 true
          | (t, none) => if n < out.length then t else endFrame t f total f.error)

end Sys2Proof.Machine
end

