-- ==== Sys2Proof/Machine/Traverse.lean ====
section
/-!
DEFINITION. Machine/Traverse.lean: traversal testers and the traversal stack (17).
-/
namespace Sys2Proof.Machine

-- box tests (R342)

/-- A binary32 value with its bits. -/
def f32 (w : Word) : Nat × FVal := (w.toNat, fF32.read w.toNat)
def leV (a b : FVal) : Bool := match cmpV a b with
  | some .gt => false
  | some _ => true
  | none => false
def ltV (a b : FVal) : Bool := decide (cmpV a b = some .lt)
/-- round_rne of the quotient (bound − o) ÷ d, for a finite o and a finite d that is not zero. -/
def quotient (bound : FVal) (o d : Q) : Nat × FVal :=
  let bits_ := match bound with
    | .fin _ q => let r := Q.div (Q.sub q o) d; if r.isZero then 0 else (roundQ fF32 .rne false false r).bits
    | .inf neg => fF32.infBits (neg != decide (d.num < 0))
    | .nan _ => fF32.cnan
  (bits_, fF32.read bits_)
/-- The greater of two values, the first on a tie; and the lesser. -/
def maxV (a b : Nat × FVal) : Nat × FVal := if ltV a.2 b.2 then b else a
def minV (a b : Nat × FVal) : Nat × FVal := if ltV b.2 a.2 then b else a
/-- One axis narrows the interval; none when the slab is empty. -/
def slab (iv : (Nat × FVal) × (Nat × FVal)) (o d lo hi : FVal) : Option ((Nat × FVal) × (Nat × FVal)) :=
  match o, d with
  | .fin _ p, .fin _ q =>
    if q.isZero then (if leV lo o && leV o hi then some iv else none)
    else
      let t1 := quotient lo p q
      let t2 := quotient hi p q
      some (maxV iv.1 (minV t1 t2), minV iv.2 (maxV t1 t2))
  | _, _ => none
/-- Child c of a box node: its tnear when it is hit. -/
def childHit (ray node : List Word) (c : Nat) : Option (Nat × FVal) :=
  let rv (i : Nat) : Nat × FVal := f32 (ray.getD i 0)
  let nv (i : Nat) : FVal := (f32 (node.getD (6 * c + i) 0)).2
  let finite (i : Nat) : Bool := match (rv i).2 with | .fin _ _ => true | _ => false
  if ¬ ([0, 1, 2, 4, 5, 6].all finite) ∨ (rv 3).2.isNan ∨ (rv 7).2.isNan then none
  else if ¬ ([0, 1, 2].all (fun i => leV (nv i) (nv (i + 3)))) then none
  else
    let step (acc : Option ((Nat × FVal) × (Nat × FVal))) (i : Nat) := acc.bind (fun iv => slab iv (rv i).2 (rv (4 + i)).2 (nv i) (nv (i + 3)))
    match [0, 1, 2].foldl step (some (rv 3, rv 7)) with
    | some (near, far) => if leV near.2 far.2 then some near else none
    | none => none
/-- Inserts a hit behind every hit that is as near. -/
def insHit (h : Nat × (Nat × FVal)) : List (Nat × (Nat × FVal)) → List (Nat × (Nat × FVal))
  | [] => [h]
  | x :: l => if ltV h.2.2 x.2.2 then h :: x :: l else x :: insHit h l
/-- The two result words of a box test. -/
def boxResult (ray node : List Word) : List Word :=
  let hits := ([0, 1, 2, 3].filterMap (fun c => (childHit ray node c).map (fun t => (c, t)))).foldl (fun acc h => insHit h acc) []
  let mask := (hits.map (fun h => 2 ^ h.1)).sum
  let order := ((List.zip (List.range 4) hits).map (fun e => e.2.1 * 4 ^ e.1)).sum
  [BitVec.ofNat 32 (mask + 16 * order + 4096 * hits.length), match hits with | h :: _ => BitVec.ofNat 32 h.2.1 | [] => 0x7F800000]

-- triangle tests (R343)

def subQ3 (a b : List Q) : List Q := List.zipWith Q.sub a b
def crossQ (a b : List Q) : List Q :=
  let g (l : List Q) (i : Nat) : Q := l.getD i ⟨0, 1⟩
  [Q.sub (Q.mul (g a 1) (g b 2)) (Q.mul (g a 2) (g b 1)), Q.sub (Q.mul (g a 2) (g b 0)) (Q.mul (g a 0) (g b 2)), Q.sub (Q.mul (g a 0) (g b 1)) (Q.mul (g a 1) (g b 0))]
def dotQ (a b : List Q) : Q := (List.zipWith Q.mul a b).foldl Q.add ⟨0, 1⟩
def roundWord (q : Q) : Word := if q.isZero then 0 else BitVec.ofNat 32 (roundQ fF32 .rne false false q).bits
def missTri : List Word := [0x7F800000, 0, 0, 0]
/-- The four result words of a triangle test. -/
def triResult (ray tri : List Word) : List Word :=
  match allOk ((ray.take 8 ++ tri.take 9).map (fun w => match (f32 w).2 with | .fin _ q => Except.ok q | _ => Except.error ())) with
  | .error _ => missTri
  | .ok v =>
    let at_ (i : Nat) : List Q := (v.drop i).take 3
    let o := at_ 0
    let dir := at_ 4
    let v0 := at_ 8
    let e1 := subQ3 (at_ 11) v0
    let e2 := subQ3 (at_ 14) v0
    let r := subQ3 o v0
    let nd := dir.map Q.neg
    let det (a b c : List Q) : Q := dotQ a (crossQ b c)
    let dd := det e1 e2 nd
    if dd.isZero then missTri
    else
      let u := Q.div (det r e2 nd) dd
      let w := Q.div (det e1 r nd) dd
      let t := Q.div (det e1 e2 r) dd
      let zero : Q := ⟨0, 1⟩
      if Q.le zero u && Q.le zero w && Q.le (Q.add u w) ⟨1, 1⟩ && Q.le (v.getD 3 zero) t && Q.le t (v.getD 7 zero) then
        [roundWord t, roundWord u, roundWord w, if (dotQ (crossQ e1 e2) dir).num < 0 then 3 else 1]
      else missTri

-- requests (R337 to R341)

/-- A request as it enters the tester, which reads its record at the L2: after every access of the group before it, and before every one after it (R338; log entry 66). The bytes
of a node or a triangle that belong to the program are never read (R342, R343). -/
def readTest (s : State) (r : TrvReq) : TrvReq :=
  match agentRead s s.g.ctx.fn r.addr (if r.tri then 36 else 96) with
  | .error (x, _) => { r with fault := some (x.code, x.cause) }
  | .ok b => { r with bytes := b }
/-- TRVBOX and TRVTRI: one request a thread enters the region's tester. -/
def testOp (tri : Bool) (d a : Dst) (b : Src) (s : State) : Out :=
  servingSlot s 17 (fun s => withRegs s (dstRegs a 8 ++ srcRegs b 2) (activeLanes s.g) (fun s =>
    let l := laneAddrs s.g b .g
    let al := if tri then 64 else 128
    .next (match failAt l (fun _ x => if x % al ≠ 0 then some ⟨3, 0⟩ else none) with
      | some t => takeTrap s t
      | none => match failAt l (fun _ x => if 2251799813685248 ≤ x then some (pageFault Config.addressCause) else none) with
        | some t => takeTrap s t
        | none =>
          let region := regionOf s.g.core
          if 256 < (s.trvs.filter (fun r => decide (r.region = region))).length + l.length then stall s
          else
            let new := (List.zip (List.range l.length) l).map (fun e =>
              readTest s ({ id := s.nextId + e.1, group := s.g.id, launch := s.g.ctx.launch, region := region, tri := tri, lane := e.2.1, d := d, ray := dstWords s.g a 8 e.2.1
                            addr := e.2.2, first := s.nextId, pos := s.g.pos, off := s.g.off } : TrvReq))
            { s with trvs := s.trvs ++ new, nextId := s.nextId + l.length, g := advance s.g (1 + litsOf b) })))
def execTrvbox (d a : Dst) (b : Src) (s : State) : Out := testOp false d a b s
def execTrvtri (d a : Dst) (b : Src) (s : State) : Out := testOp true d a b s
/-- A failed request fills the traversal slot, or adds its lane when the slot is of the same instruction (R339, R409). -/
def oweTest (h : Group) (r : TrvReq) (x : XErr) (a : Nat) : Group :=
  let o : Owed := { code := x.code, unit := 3, pos := r.pos, off := r.off, addr := a, lanes := 1#64 <<< r.lane, done := 0, detail := x.cause, more := 0, remote := false, seq := r.first }
  match owedAt h 17 with
  | some q => if q.seq = r.first then { h with owed := updIf (fun e => decide (e.1 = 17)) (fun e => (e.1, { q with lanes := q.lanes ||| (1#64 <<< r.lane) })) h.owed } else fillOwed h 17 o
  | none => fillOwed h 17 o
/-- TRAVERSAL_RESULT (R338, R339): the result of the record that the tester has read is written; of a read that failed, a miss, and the trap is owed. -/
def execTraversalResult (id : Nat) (s : State) : Out :=
  .next (match findFirst (fun r => decide (r.id = id)) s.trvs with
    | none => s
    | some r =>
      let s1 := { s with trvs := s.trvs.filter (fun x => decide (x.id ≠ id)) }
      match getGroup s1 r.group with
      | none => s1
      | some h =>
        match r.fault with
        | some x => setGroup (walkRecord s1 h.ctx.fn ⟨x.1, x.2⟩ r.addr (some (r.region / 3))) (returned s s1 h (writeDst (oweTest h r ⟨x.1, x.2⟩ r.addr) r.d r.lane (if r.tri then missTri else [0, 0x7F800000])))
        | none =>
          let ws := wordsOf (if r.tri then 9 else 24) r.bytes
          setGroup s1 (returned s s1 h (writeDst h r.d r.lane (if r.tri then triResult r.ray ws else boxResult r.ray ws))))

-- the stack (R344 to R348)

def nodeTag : Nat := 4611686018427387904
def isEnd (e : DWord) : Bool := decide (e.toNat / nodeTag = 0)
def isInst (e : DWord) : Bool := decide (e.toNat / nodeTag = 2)
def endDepth : DWord := 2
def stackOf (h : Group) (l : Nat) : TStack := ((findFirst (fun e => decide (e.1 = l)) h.tstacks).map (·.2)).getD {}
def setStack (h : Group) (l : Nat) (k : TStack) : Group :=
  let rest := h.tstacks.filter (fun e => decide (e.1 ≠ l))
  { h with tstacks := if k = {} then rest else insBy (fun e => [e.1]) (l, k) rest }
/-- The capacity of a thread's spill area, in blocks. -/
def stackCap (h : Group) : Nat := h.ctx.kernel.trav / 64 - 1
def stackArea (h : Group) (l : Nat) : Nat := travBase h (h.origGrp.getD l h.grpix) (h.origLane.getD l l)
def instOf (e : DWord) : Nat := e.toNat % 16777216
/-- The topmost instance of entries, top first. -/
def topInst (l : List DWord) : Option Nat := (findFirst isInst l).map instOf
def currentInst (k : TStack) : Option Nat := match topInst k.entries with
  | some i => some i
  | none => k.base
/-- Writes bytes of a thread's spill area; a page that refuses them leaves the instruction without effect (R346). -/
def areaWrite (s : State) (l va : Nat) (bs : List Byte) : Except (XErr × Nat) State :=
  match spillWrite s l false va bs with
  | (_, some x) => .error x
  | (t, none) => .ok t
/-- The thread's header is written from its wave state (R345). Its bytes 8 to 63, which R345 leaves unnamed, stay as they are (log entry 37). -/
def writeHeader (s : State) (l : Nat) (k : TStack) : Except (XErr × Nat) State :=
  if s.g.ctx.kernel.trav < 64 then .ok s
  else areaWrite s l (stackArea s.g l) (natLe 4 k.blocks ++ natLe 4 (match k.base with | none => 0 | some i => i + 2147483648))
def readBlock (s : State) (l j : Nat) : Except (XErr × Nat) (List DWord) :=
  match spillRead s l (stackArea s.g l + 64 + 64 * j) 64 with
  | .error x => .error x
  | .ok b => .ok ((List.range 8).map (fun i => BitVec.ofNat 64 (fieldAt b (8 * i) 8))).reverse
/-- The topmost instance in the blocks below j. -/
def instBelow (s : State) (l : Nat) : Nat → Except (XErr × Nat) (Option Nat)
  | 0 => .ok none
  | j + 1 => match readBlock s l j with
    | .error x => .error x
    | .ok e => match topInst e with
      | some i => .ok (some i)
      | none => instBelow s l j
/-- What one thread's stack operation leaves: the state with its spills, the stack, the words of d, whether the walk ended. -/
structure StackStep where
  s : State
  k : TStack
  words : List Word
  depth : Bool
/-- Pushes an entry (R346). -/
def pushEntry (s : State) (l : Nat) (e : DWord) : Except (XErr × Nat) StackStep :=
  let k := stackOf s.g l
  if (k.entries.head?.map isEnd).getD false then .ok ⟨s, k, [], false⟩
  else if k.entries.length < 16 then .ok ⟨s, { k with entries := e :: k.entries }, [], false⟩
  else if k.blocks < stackCap s.g then
    let oldest := k.entries.drop 8
    match areaWrite s l (stackArea s.g l + 64 + 64 * k.blocks) ((oldest.reverse.map (fun x => natLe 8 x.toNat)).flatten) with
    | .error x => .error x
    | .ok t =>
      let k1 : TStack := { entries := e :: k.entries.take 8, blocks := k.blocks + 1, base := match topInst oldest with | some i => some i | none => k.base }
      match writeHeader t l k1 with
      | .error x => .error x
      | .ok u => .ok ⟨u, k1, [], false⟩
  else
    let k1 : TStack := { entries := [endDepth], blocks := 0, base := none }
    match writeHeader s l k1 with
    | .error x => .error x
    | .ok u => .ok ⟨u, k1, [], true⟩
def dwords (x : DWord) : List Word := [x.lo, x.hi]
def popTop (s : State) (k : TStack) : StackStep := match k.entries with
  | [] => ⟨s, k, [1, 0], false⟩
  | e :: l => ⟨s, { k with entries := l }, dwords e, false⟩
/-- TRVPOP (R346); a walk that ends with END EMPTY writes the header (R345). -/
def popEntry (s : State) (l : Nat) : Except (XErr × Nat) StackStep :=
  let k := stackOf s.g l
  match k.entries with
  | e :: _ => .ok (if isEnd e then ⟨s, k, dwords e, false⟩ else popTop s k)
  | [] =>
    if k.blocks = 0 then (match writeHeader s l k with | .error x => .error x | .ok u => .ok (popTop u k))
    else match readBlock s l (k.blocks - 1), instBelow s l (k.blocks - 1) with
      | .error x, _ => .error x
      | _, .error x => .error x
      | .ok e, .ok i =>
        let k1 : TStack := { entries := e, blocks := k.blocks - 1, base := i }
        match writeHeader s l k1 with
        | .error x => .error x
        | .ok u => .ok (popTop u k1)
/-- The latest block below j that holds an instance, with the entries older than it, top first. -/
def blockWithInst (s : State) (l : Nat) : Nat → Except (XErr × Nat) (Nat × List DWord)
  | 0 => .ok (0, [])
  | j + 1 => match readBlock s l j with
    | .error x => .error x
    | .ok e => if (topInst e).isSome then .ok (j, (e.dropWhile (fun x => !isInst x)).drop 1) else blockWithInst s l j
/-- TRVINST.leave (R346). -/
def leaveInst (s : State) (l : Nat) : Except (XErr × Nat) StackStep :=
  let k := stackOf s.g l
  let k1 : Except (XErr × Nat) (Option TStack) :=
    if (topInst k.entries).isSome then .ok (some { k with entries := (k.entries.dropWhile (fun x => !isInst x)).drop 1 })
    else if k.base.isNone then .ok none
    else match blockWithInst s l k.blocks with
      | .error x => .error x
      | .ok (j, e) => match instBelow s l j with
        | .error x => .error x
        | .ok i => .ok (some { entries := e, blocks := j, base := i })
  match k1 with
  | .error x => .error x
  | .ok none => .ok ⟨s, k, [], false⟩
  | .ok (some k2) => match writeHeader s l k2 with
    | .error x => .error x
    | .ok u => .ok ⟨u, k2, [], false⟩
/-- TRVRD (R348). -/
def readStack (s : State) (l : Nat) (stop : Bool) : Except (XErr × Nat) StackStep :=
  let k := stackOf s.g l
  let ended := decide (k.entries.head? = some endDepth)
  let st := if ended then 2 else if k.entries = [] ∧ k.blocks = 0 then 1 else 0
  let ws : List Word := [BitVec.ofNat 32 (k.entries.length + 32 * k.blocks + 65536 * st), match currentInst k with | none => 0 | some i => BitVec.ofNat 32 (i + 2147483648)]
  if stop then
    match writeHeader s l {} with
    | .error x => .error x
    | .ok u => .ok ⟨u, {}, ws, false⟩
  else .ok ⟨s, k, ws, false⟩
/-- A stack operation of every active thread, from the lowest; a fault leaves every stack as it was. -/
def eachStack (f : State → Nat → Except (XErr × Nat) StackStep) : List Nat → State → List (Nat × StackStep) → Except ((XErr × Nat) × Nat) (State × List (Nat × StackStep))
  | [], s, acc => .ok (s, acc)
  | l :: ls, s, acc => match f s l with
    | .error x => .error (x, l)
    | .ok r => eachStack f ls r.s (acc ++ [(l, r)])
def stackOp (reads : List Nat) (bad : Group → Nat → Bool) (d : Dst) (words : Nat) (f : State → Nat → Except (XErr × Nat) StackStep) (s : State) : Out :=
  servingSlot s 17 (fun s => withRegs s reads (activeLanes s.g) (fun s =>
    let wrong := (activeLanes s.g).filter (bad s.g)
    .next (if wrong ≠ [] then takeTrap s { code := 2, detail := 6, lanes := maskOf wrong }
      else match eachStack f (activeLanes s.g) s [] with
        | .error ((x, a), l) => takeTrap s { code := x.code, detail := x.cause, addr := a, lanes := 1#64 <<< l }
        | .ok (t, rs) =>
          let g := rs.foldl (fun h r => writeDst (setStack h r.1 r.2.k) d r.1 r.2.words) t.g
          let u : State := { t with g := advance g words }
          let ended : BitVec 64 := maskOf ((rs.filter (fun r => r.2.depth)).map (fun r => r.1))
          if u.g.ctx.kernel.travtrap ∧ ended ≠ 0 then trapAfter s u { code := 12, detail := ended.toNat, lanes := ended } else u)))
def execTrvpsh (a : Src) (s : State) : Out :=
  stackOp (srcRegs a 2) (fun _ _ => false) .zero (1 + litsOf a) (fun t l => pushEntry t l (BitVec.ofNat 64 ((src64 t.g false a l).toNat % nodeTag + nodeTag))) s
def execTrvpop (d : Dst) (s : State) : Out := stackOp [] (fun _ _ => false) d 1 popEntry s
def execTrvinstEnter (a : Src) (s : State) : Out :=
  stackOp (srcRegs a 1) (fun h l => decide (16777216 ≤ (src32 h a l).toNat)) .zero (1 + litsOf a) (fun t l => pushEntry t l (BitVec.ofNat 64 ((src32 t.g a l).toNat + 2 * nodeTag))) s
def execTrvinstLeave (s : State) : Out := stackOp [] (fun _ _ => false) .zero 1 leaveInst s
def execTrvrd (d : Dst) (a : Src) (s : State) : Out :=
  stackOp (srcRegs a 1) (fun h l => decide (2 ≤ (src32 h a l).toNat)) d (1 + litsOf a) (fun t l => readStack t l ((src32 t.g a l).getLsbD 0)) s

end Sys2Proof.Machine
end

