-- ==== Sys2Proof/Machine/Issue.lean ====
section
/-!
DEFINITION. Machine/Issue.lean: how a group comes to issue: clause fetch and arrival at a join (02 R27, R28; 14 R296), the wait
mask (02 R24, R25), tag waits and their limit (10 R211, R212), and the end of a stall.
-/
namespace Sys2Proof.Machine

/-- What an instruction answers, as a state: a fault or a refusal leaves the state as it was. -/
def outState (s : State) : Out → State
  | .next t => t
  | _ => s

-- clause fetch

/-- The group is about to arrive at its current join (R296, R297); a handler does not, also where it runs with no lane (log entry 74). -/
def atJoin (h : Group) : Bool := (decide (h.active = 0) && !h.hnd) || (decide (h.off = 0) && decide (currentJoin h = some h.pos))
/-- The current group fetches the clause at its position, or arrives (R28). A fault is raised at the position. -/
def fetchClause (s : State) : State :=
  if s.g.phase ≠ .fetch ∨ s.g.hollow then s
  else if atJoin s.g then arriveJoin s
  else match readClause s s.g.pos with
    | .error (x, a) => takeTrap s { code := x.code, detail := x.cause, addr := a }
    | .ok (t, c) => { t with g := { t.g with clause := c, phase := .waitMask, since := if t.g.off = 0 then t.nextId else t.g.since, till := if t.g.off = 0 then none else t.g.till }, quantum := t.quantum + 1 }
def execClauseFetch (gid : Nat) (s : State) : Out := .next (withGroup s gid fetchClause)

-- the wait mask

def waitBits (h : Group) : Nat := ((headerOf (h.clause.headD 0)).map (·.wait)).getD 0
/-- An operation of the group that the header of its clause waits for: one issued by an earlier clause (R24, R25). -/
def earlier (h : Group) (group id : Nat) : Bool := decide (group = h.id) && (decide (id < h.since) || (h.till.map (fun t => decide (t ≤ id))).getD false)
def ownCmds (s : State) (h : Group) : Bool :=
  s.cmds.any (fun c => earlier h c.group c.id) || s.copies.any (fun c => decide (c.group = some h.id) && earlier h h.id c.id)
def ownTests (s : State) (h : Group) : Bool := s.trvs.any (fun r => earlier h r.group r.id)
def ownInserts (s : State) (h : Group) : Bool := s.inserts.any (fun r => earlier h r.group r.id && !r.parked)
def ownHandOffs (s : State) (h : Group) : Bool := s.handoffs.any (fun r => earlier h r.group r.id)
/-- Every condition that the mask names holds (R24). A store queue holds no store of the clause itself when its header is passed: a stop and a trap
drain it. -/
def maskHolds (s : State) (h : Group) : Bool :=
  let w := waitBits h
  !(bitOf w 0 && decide (h.stq ≠ [])) && !(bitOf w 1 && ownCmds s h) && !(bitOf w 2 && ownTests s h) &&
  !(bitOf w 3 && ownInserts s h) && !(bitOf w 4 && ownHandOffs s h)
/-- The owed slots that the mask's bits serve (R409). -/
def maskSlots (h : Group) : List Nat :=
  let w := waitBits h
  (if bitOf w 1 then slotsEng else []) ++ (if bitOf w 2 then [17] else []) ++ (if bitOf w 3 then [18] else []) ++ (if bitOf w 4 then [19] else [])
/-- The header of the clause names a condition, which has come about: a wait has completed (R417). -/
def maskWaited (h : Group) : Bool := decide (waitBits h ≠ 0)
/-- The mask is satisfied: an owed trap that the header serves, else the first instruction may issue (R25). Under a pre-emption request the group stops
here instead (R328). -/
def passMask (s : State) : State :=
  if s.g.phase ≠ .waitMask ∨ s.g.preempt ∨ ¬ maskHolds s s.g then s
  else match owedServed s.g (maskSlots s.g) with
    | some e => takeOwed s e
    | none => { s with g := { s.g with phase := .issue, off := max s.g.off 1, till := none, idle := if maskWaited s.g then 0 else s.g.idle } }
def execWaitMaskSatisfied (gid : Nat) (s : State) : Out := .next (withGroup s gid passMask)

-- the next move of a group

/-- The group can issue the instruction at its position. A pre-emption request stops it at this boundary, but for a fence that it waits in (R225, R328);
an over-full L1 of its core evicts first (R12). -/
def canIssue (s : State) (h : Group) : Bool :=
  decide (h.phase = .issue) && !h.hollow && !h.stalled && h.tagWait.isNone && (!h.preempt || decide (h.waiting = .fence)) &&
  !registerWait s h && !(l1Over s h.core)

/-- What a group does next by itself. -/
inductive Move where
  | exec (i : Instr)
  | trap (check : Nat)
  deriving DecidableEq, Repr
def groupMove (s : State) (h : Group) : Option Move :=
  match h.phase with
  | .fetch => if h.hollow || h.preempt || h.stalled then none else some (.exec (.clauseFetch h.id))
  | .waitMask => if h.preempt || h.stalled || !(maskHolds s h) then none else some (.exec (.waitMaskSatisfied h.id))
  | .issue => if canIssue s h then (match instrAt h with | .ok i => some (.exec i) | .error n => some (.trap n)) else none
  | _ => none

-- tag waits and stalls

/-- In a tag wait that no pre-emption request has ended: any cycle of it is a stopping point (R328). -/
def tagWaiting (h : Group) : Bool := decide (h.phase = .issue) && h.tagWait.isSome && !h.preempt
/-- TAG_WAIT_SATISFIED (R190, R211): the pending lanes whose words meet the condition perform. -/
def execTagWaitSatisfied (gid : Nat) (s : State) : Out :=
  .next (withGroup s gid (fun t =>
    if ¬ tagWaiting t.g then t
    else match instrAt t.g with
      | .ok (.ldf d a o sc sp) => outState t (execLdf d a o sc sp t)
      | .ok (.ldfe d a o sc sp) => outState t (execLdfe d a o sc sp t)
      | .ok (.stef x a o sc sp) => outState t (execStef x a o sc sp t)
      | _ => t))
/-- TAG_TIMEOUT (R212): after 2^20 resident cycles; lanes outside M fail, and no address is named (log entry 70). -/
def execTagTimeout (gid : Nat) (s : State) : Out :=
  .next (withGroup s gid (fun t =>
    if tagWaiting t.g ∧ 1048576 ≤ t.g.tagWait.getD 0 then takeTrap t { code := 8, lanes := t.g.active &&& ~~~ t.g.m } else t))
/-- ISSUE_STALL_END (R148, R171, R226, R234): the stalled instruction issues again. -/
def execIssueStallEnd (gid : Nat) (s : State) : Out :=
  .next (withGroup s gid (fun t => { t with g := { t.g with stalled := false } }))

end Sys2Proof.Machine
end

