-- ==== Sys2Proof/Machine/Schedule.lean ====
section
/-!
DEFINITION. Machine/Schedule.lean: queues and their fetcher, launch packets and node records, release and completion of a
launch (15 R312 to R319, R324 to R326; 14 R309).
-/
namespace Sys2Proof.Machine

-- the fetcher (R313)

/-- Cycles, in n units of 10 ns, of the die whose front end serves a function: that of its logical slice 0 (R17; log entry 73). -/
def fnCycles (s : State) (f : Fn) (n : Nat) : Nat := n * (s.dies.getD (f.slices.headD 0 / 8) {}).clock
/-- Those cycles pass for the slots that the fetcher has found torn (R17, R313): a count goes on where the function's slice moves. -/
def passTorn (c : Nat) (f : Fn) : Fn := { f with queues := f.queues.map (fun e => (e.1, { e.2 with tornAt := e.2.tornAt.map (· + c) })) }
/-- Time on a function's slice time base. -/
def timeOf (s : State) (fn : Nat) : Nat := (baseOf s fn).value
/-- Stops a queue with a detail of QUEUE_TORN, reported to the function's driver when the turn of that event comes (R313, R392). -/
def stopQueue (s : State) (fn n detail : Nat) : State :=
  raiseEvent (setQueue s fn n { queueOf (getFn s fn) n with stop := true, tornAt := none, torn := detail }) (.stop fn n)
/-- The lap of an index. -/
def lapOf (q : Queue) (i : Nat) : Nat := i / queueSlots q % 65536
def packetWhole (q : Queue) (i : Nat) (p : List Byte) : Bool := decide (fieldAt p 0 2 = lapOf q i) && crcOk p
/-- Accepts the packet at rd: its spawn tree is the poster's, or a new one (R309); rd moves on and is written to rix. A write that meets a fault or poison stops the
queue (R313). -/
def acceptPacket (s : State) (fn n : Nat) (q : Queue) (p : List Byte) : State :=
  let post := findFirst (fun e => decide (e.1 = q.rd)) q.posts
  let id := s.nextId
  let rd := (q.rd + 1) % 4294967296
  let k : Packet := { id := id, fn := fn, queue := some n, ix := q.rd, va := slotVA q q.rd, bytes := p, tree := (post.map (·.2)).getD id, order := id, posted := post.isSome }
  let s1 := setQueue { s with packets := s.packets ++ [k], nextId := id + 1 } fn n
    { q with rd := rd, tornAt := none, posts := q.posts.filter (fun e => decide (e.1 ≠ q.rd)) }
  let s2 := if post.isSome then s1 else { s1 with trees := s1.trees ++ [{ id := id, fn := fn, count := 1, status := fieldAt p 40 8 }] }
  match agentMerge s2 fn q.rix (natLe 4 rd) with
  | .error x => stopQueue (walkRecord s2 fn x.1 x.2) fn n 3
  | .ok t => t
/-- The fetcher has something to do for a queue: a changed write index, and at rd no slot that it has already found torn and still is. -/
def fetchDue (s : State) (fn : Nat) (e : Nat × Queue) : Bool :=
  let q := e.2
  q.opened && !q.stop && (match agentRead s fn q.wix 4 with
    | .error _ => true
    | .ok w =>
      let d := (leNat w + 4294967296 - q.rd) % 4294967296
      decide (d ≠ 0) && (decide (queueSlots q < d) || q.tornAt.isNone || (match agentRead s fn (slotVA q q.rd) 64 with
        | .error _ => true
        | .ok p => packetWhole q q.rd p)))
/-- The queue that the fetcher serves next: round-robin in ascending number, a packet to a queue (log entry 51). -/
def nextQueue (s : State) (fn : Nat) : Option Nat :=
  let f := getFn s fn
  (minBy (fun e => [(e.1 + 255 - f.served) % 256]) (f.queues.filter (fetchDue s fn))).map (·.1)
/-- QUEUE_FETCH (R313): the packet at rd of the queue whose turn it is is taken, or read again later, or stops its queue. -/
def execQueueFetch (fn n : Nat) (s : State) : Out :=
  let q := queueOf (getFn s fn) n
  .next (if (getFn s fn).quiesced ∨ nextQueue s fn ≠ some n then s
    else
      let s := setFn s fn { getFn s fn with served := n }
      match agentRead s fn q.wix 4 with
      | .error x => stopQueue (walkRecord s fn x.1 x.2) fn n 3
      | .ok w =>
        let d := (leNat w + 4294967296 - q.rd) % 4294967296
        if d = 0 then s
        else if queueSlots q < d then stopQueue s fn n 2
        else match agentRead s fn (slotVA q q.rd) 64 with
          | .error x => stopQueue (walkRecord s fn x.1 x.2) fn n 3
          | .ok p =>
            if packetWhole q q.rd p then acceptPacket s fn n q p
            else if q.tornAt.isSome then s
            else setQueue s fn n { q with tornAt := some 0 })
/-- QUEUE_TORN (R313): 4,096 cycles after the first read of a slot that is still torn; a whole one is taken in its turn. -/
def execQueueTorn (fn n : Nat) (s : State) : Out :=
  let q := queueOf (getFn s fn) n
  .next (match q.tornAt with
    | none => s
    | some c =>
      if ¬ q.opened ∨ q.stop ∨ c < 4096 then s
      else match agentRead s fn (slotVA q q.rd) 64 with
        | .error x => stopQueue (walkRecord s fn x.1 x.2) fn n 3
        | .ok p => if packetWhole q q.rd p then s else stopQueue s fn n 1)

-- packets and node records (R315 to R317)

def pkKind (p : List Byte) : Nat := fieldAt p 4 1
def pkClass (p : List Byte) : Nat := fieldAt p 5 1 % 8
def pkRepl (p : List Byte) : Bool := bitOf (fieldAt p 5 1) 3
def pkSerial (p : List Byte) : Bool := bitOf (fieldAt p 5 1) 4
/-- Kind 1 runs a CPYN. -/
def pkCpyn (p : List Byte) : Bool := bitOf (fieldAt p 6 1) 4
def pkBody (p : List Byte) : Nat := fieldAt p 8 8
def pkDeadline (p : List Byte) : Nat := fieldAt p 16 8
def pkStart (p : List Byte) : Nat := fieldAt p 24 8
def pkPbase (p : List Byte) : Nat := fieldAt p 32 8
def pkStatus (p : List Byte) : Nat := fieldAt p 40 8
def pkNode (p : List Byte) : Nat := fieldAt p 48 8
def pkGen (p : List Byte) : Nat := fieldAt p 56 4
/-- The first failing field of a packet (R315, R316). -/
def packetBad (s : State) (fn : Nat) (graph : Bool) (p : List Byte) : Option Nat :=
  let k := pkKind p
  let b6 := fieldAt p 6 1
  firstBad [(2, !graph || crcOk p), (4, decide (k ≤ 2)), (5, decide (fieldAt p 5 1 < 32)),
    (6, decide (b6 < 32) && (if k = 1 then pkCpyn p || decide (b6 % 16 = 0) else decide (b6 = 0))), (7, zeroBytes p 7 7),
    (8, if k = 2 then decide (pkBody p = 0) else vaOk (pkBody p) 64), (24, !pkRepl p || decide (pkStart p ≠ 0)),
    (32, if k = 0 then vaOk (pkPbase p) 256 else if k = 1 ∧ pkCpyn p then vaOk (pkPbase p) 64 else decide (pkPbase p = 0)),
    (40, vaOk (pkStatus p) 8), (48, vaOk (pkNode p) 64), (56, if pkRepl p then (repOf s fn (pkGen p)).isSome else decide (pkGen p = 0)),
    (60, if pkRepl p then decide (fieldAt p 60 1 < 64) else zeroBytes p 60 60), (61, zeroBytes p 61 63)]

def ndSucc (n : List Byte) : Nat := fieldAt n 4 1 % 8
def ndComp (n : List Byte) : Nat := fieldAt n 5 1 % 4
/-- The first failing field of a node record (R316, R317): the reserved fields of every entry, bits [63:51] of its addresses among them (R2), and the
alignment of the packets of those in use. The bits of bytes 4 and 5
above nsucc and ncomp, which no row defines, are checked as reserved (log entry 44). -/
def nodeBad (n : List Byte) : Option Nat :=
  firstBad ([(2, decide (fieldAt n 2 2 % 32768 = 0)), (4, decide (fieldAt n 4 1 < 7)), (5, decide (fieldAt n 5 1 < 3)), (6, zeroBytes n 6 15)] ++
    (List.range 2).map (fun i => (16 + 16 * i, vaOk (fieldAt n (16 + 16 * i) 8) 1)) ++ [(48, zeroBytes n 48 63)] ++
    ((List.range 6).map (fun e => let o := 64 + 32 * e
      [(o, vaOk (fieldAt n o 8) (if e < ndSucc n then 64 else 1)), (o + 8, vaOk (fieldAt n (o + 8) 8) 1), (o + 24, zeroBytes n (o + 24) (o + 31))])).flatten)
/-- Completion regions, and successor entries as packet address and region. -/
def nodeComps (n : List Byte) : List (Nat × Nat) := (List.range (ndComp n)).map (fun i => (fieldAt n (16 + 16 * i) 8, fieldAt n (24 + 16 * i) 8))
def nodeSuccs (n : List Byte) : List (Nat × Nat × Nat) :=
  (List.range (ndSucc n)).map (fun e => (fieldAt n (64 + 32 * e) 8, fieldAt n (72 + 32 * e) 8, fieldAt n (80 + 32 * e) 8))

-- regions of edges (R196)

/-- The page of an address, whatever its permissions; a page that does not translate is skipped. -/
def anySpa (s : State) (fn va : Nat) : Option Nat :=
  match translate s fn va .r with
  | .ok q => some q.spa
  | .error _ => match translate s fn va .w with
    | .ok q => some q.spa
    | .error _ => match translate s fn va .x with
      | .ok q => some q.spa
      | .error _ => none
def regionRuns (s : State) (fn : Nat) (l : List (Nat × Nat)) : List (Nat × Nat) :=
  ((l.map (fun r => pagesOf r.1 r.2)).flatten).filterMap (fun r => (anySpa s fn r.1).map (fun a => (a, r.2)))
/-- A core of a function's partition. -/
def ownCore (s : State) (fn core : Nat) : Bool := (getFn s fn).slices.contains (sliceOfCore core)
/-- Writes back what the cores that a launch has used hold dirty of some regions (R196). -/
def cleanRegions (s : State) (la : Launch) (l : List (Nat × Nat)) : State :=
  let runs := regionRuns s la.fn l
  cleanL1 s (fun x => la.used.contains x.core && secIn x.sec runs)
def invalRegions (s : State) (fn : Nat) (l : List (Nat × Nat)) : State :=
  let runs := regionRuns s fn l
  invalClean s (fun x => ownCore s fn x.core && secIn x.sec runs)

-- what a team needs of a region (R274, R321)

def regionShare (k : Kernel) : Nat := ceilDiv k.region 2048 * 256
def granules (k : Kernel) : Nat := k.regs / 8 * (k.width / 16)
/-- What a core has free for a team: wave slots, granules, scratchpad bytes, and whether the team holds scratch there. -/
structure CoreFree where
  core : Nat
  slots : Nat
  gran : Nat
  spad : Nat
  holds : Bool := false
  deriving DecidableEq, Repr, Inhabited
def canTake (k : Kernel) (n : Nat) (c : CoreFree) : Bool :=
  decide (n ≤ c.slots ∧ n * granules k ≤ c.gran) && (c.holds || decide (k.scratch ≤ c.spad))
/-- Deals sets of groups to cores: each to the core with the most free slots among those that can take it whole; apart, no
two go to one core. -/
def dealSets (k : Kernel) (apart : Bool) : List Nat → List CoreFree → Option (List Nat)
  | [], _ => some []
  | n :: ns, l =>
    match minBy (fun c => [64 - c.slots, c.core]) (l.filter (fun c => canTake k n c && !(apart && c.holds))) with
    | none => none
    | some c =>
      let c1 := { c with slots := c.slots - n, gran := c.gran - n * granules k, spad := if c.holds then c.spad else c.spad - k.scratch, holds := true }
      (dealSets k apart ns (updIf (fun x => decide (x.core = c.core)) (fun _ => c1) l)).map (fun r => c.core :: r)
/-- Cores with every one having room for the team's region share. -/
def shareCores (k : Kernel) (l : List CoreFree) : Option (List CoreFree) :=
  if l.all (fun c => decide (regionShare k ≤ c.spad)) then some (l.map (fun c => { c with spad := c.spad - regionShare k })) else none
def emptyCores : List CoreFree := (List.range 8).map (fun i => { core := i, slots := 64, gran := 1024, spad := 262144 })
/-- A team that could be placed on an empty region (R316). -/
def placeable (k : Kernel) : Bool := ((shareCores k emptyCores).bind (dealSets k false (List.replicate k.team 1))).isSome

-- release (R318)

/-- A packet may be released. -/
def releasable (s : State) (k : Packet) : Bool :=
  let f := getFn s k.fn
  let st := pkStart k.bytes
  let earlier := s.packets.any (fun x => decide (x.fn = k.fn ∧ x.queue = k.queue ∧ x.order < k.order)) || s.launches.any (fun x => decide (x.fn = k.fn ∧ x.queue = k.queue ∧ x.order < k.order))
  !f.quiesced && (st == 0 || ((baseOf s k.fn).set && decide (st ≤ timeOf s k.fn))) && !(pkSerial k.bytes && k.queue.isSome && earlier)
/-- A launch that ends at its release, with what its status word says. -/
def overAt (l : Launch) (code trap offset : Nat) (krec nrec : Bool) : Launch :=
  { l with stopped := true, code := code, trap := trap, offset := offset, krec := krec, nrec := nrec }
/-- What ends a launch whose record cannot be read at its release; a walk that met poison writes a record (R316, R375). -/
def overRead (s : State) (l : Launch) (x : XErr × Nat) (krec nrec : Bool) : State × Launch := (walkRecord s l.fn x.1 x.2, overAt l 4 x.1.code 0 krec nrec)
/-- The checks of a kernel launch (R44, R316): the launch as it goes on, with FRESH. -/
def releaseKernel (s : State) (p : List Byte) (l : Launch) : (State × Launch) × Bool :=
  match agentRead s l.fn (pkBody p) 128 with
  | .error x => (overRead s l x false false, false)
  | .ok lr => match launchBad lr true with
    | some o => ((s, overAt l 1 0 o false false), false)
    | none =>
      let r := launchOf lr
      match agentRead s l.fn r.kernel 64 with
      | .error x => (overRead s l x true false, false)
      | .ok kr => match kernelBad kr with
        | some o => ((s, overAt l 1 0 o true false), false)
        | none =>
          let k := kernelOf kr
          if 4294967296 < r.teams * k.team then ((s, overAt l 1 0 16 false false), false)
          else if ¬ placeable k then ((s, overAt l 5 0 0 false false), false)
          else
            let c : Ctx := { fn := l.fn, launch := l.id, lrecVA := pkBody p, kernel := k, lrec := r, pbase := pkPbase p, areas := r.teams * k.team,
                             deadline := pkDeadline p, repl := pkRepl p, gen := pkGen p, frag := false, pass := 0, tree := l.tree }
            ((s, { l with ctx := c }), r.fresh)
/-- The checks of a copy node (R230, R315, R316): the copy, or its trap with the address. There is no region memory. -/
def releaseCopy (s : State) (p : List Byte) (l : Launch) (eng : Nat) : Except (XErr × Nat) Copy :=
  let kind : CopyKind := if pkCpyn p then .cpyn else .cpy
  match agentRead s l.fn (pkBody p) 64 with
  | .error x => .error x
  | .ok r =>
    match (if pkCpyn p then agentRead s l.fn (pkPbase p) 128 else .ok []) with
    | .error x => .error x
    | .ok b =>
      let slot := if pkCpyn p then slotOf (bytesAt b (32 + 8 * (fieldAt p 6 1 % 8)) 8) else {}
      let compact := bitOf (fieldAt p 6 1) 3
      let ivs := copyRecIvs kind slot r
      if (pkCpyn p ∧ (firstBad (slotChecks (natLe 8 slot.raw) 0)).isSome) ∨ copyBad kind slot compact r then .error (⟨2, 0⟩, 0)
      else if copyMisaligned kind compact r then .error (⟨3, 0⟩, 0)
      else if ivs.any (fun i => !(decide (i.hi ≤ if i.chip then chipExtent (getFn s l.fn) else 0))) then .error (⟨7, 0⟩, 0)
      else .ok { id := s.nextId, fn := l.fn, kind := kind, group := none, launch := l.id, core := 0, team := none, entry := 0, rcd := r, desc := 0,
                 slot := slot, compact := compact, skey := BitVec.ofNat 64 (fieldAt b 96 8), eng := eng, done := 0, started := false,
                 awaiting := false, sent := 0, pos := 0, off := 0 }
/-- The node record of a packet: its bytes when it passes its checks. -/
def nodeOf (s : State) (fn va : Nat) : Option (List Byte) :=
  if va = 0 ∨ ¬ vaOk va 64 then none
  else match agentRead s fn va 256 with
    | .error _ => none
    | .ok n => if (nodeBad n).isNone then some n else none
/-- Why a packet is rejected before its body is looked at (R316 checks 1 and 2), cancelled first (R324): a node address that is not aligned names no record with a FAIL bit. -/
def rejectAt (s : State) (k : Packet) (l : Launch) : Option (State × Launch) :=
  let p := k.bytes
  let node := if pkNode p = 0 then none else some (agentRead s k.fn (pkNode p) 256)
  let failed := decide (k.queue = none) && vaOk (pkNode p) 64 && (match node with | some (.ok n) => bitOf (fieldAt n 0 4) 31 | _ => false)
  if failed then some (s, overAt l 3 0 0 false false)
  else match packetBad s k.fn k.queue.isNone p with
    | some o => some (s, overAt l 2 0 o false false)
    | none => match node with
      | none => none
      | some (.error x) => some (overRead s l x false true)
      | some (.ok n) => (nodeBad n).map (fun o => (s, overAt l 2 0 o false true))
/-- Releases a packet (R316, R318): edges are acquired, the launch numbered and checked. -/
def releasePacket (s : State) (k : Packet) (eng : Nat) : State :=
  let p := k.bytes
  let f := getFn s k.fn
  let mine (e : Nat × Nat × Nat × Nat) : Bool := decide (e.1 = k.fn ∧ e.2.1 = k.va) && k.queue.isNone
  let s1 := invalRegions s k.fn ((s.edges.filter mine).map (fun e => e.2.2))
  let s2 := if k.posted then invalClean s1 (fun x => ownCore s1 k.fn x.core && covered .dev x.sec) else s1
  let s3 := setFn { s2 with packets := s2.packets.filter (fun x => decide (x.id ≠ k.id)), edges := s2.edges.filter (fun e => !mine e), nextId := s2.nextId + 2 } k.fn
    { f with releaseSeq := f.releaseSeq + 1 }
  let l : Launch := { id := s.nextId + 1, fn := k.fn, kind := pkKind p, packet := p, queue := k.queue, order := k.order, seq := f.releaseSeq + 1, released := timeOf s k.fn,
                      deadline := pkDeadline p, cls := pkClass p, tree := k.tree, status := pkStatus p, node := pkNode p }
  let add (t : State) (l : Launch) : State := { t with launches := t.launches ++ [l] }
  match rejectAt s3 k l with
  | some r => add r.1 r.2
  | none =>
    if l.kind = 0 then
      let r := releaseKernel s3 p l
      let s4 := if r.2 then { r.1.1 with icache := r.1.1.icache.filter (fun e => !(ownCore s3 k.fn e.1)) } else r.1.1
      add s4 r.1.2
    else if l.kind = 1 then
      match releaseCopy s p l eng with
      | .error x => let o := overRead s3 l x false false; add o.1 o.2
      | .ok c => add { s3 with copies := s3.copies ++ [c] } l
    else add s3 { l with stopped := true }
/-- A packet can be released now: a copy node waits for room in an engine queue (R226). -/
def canRelease (s : State) (k : Packet) : Bool := releasable s k && (decide (pkKind k.bytes ≠ 1) || (pickEngine s k.fn).isSome)
/-- Packets that can be released together go in ascending queue number, then graph packets in the order of the entries that completed them (R318). -/
def releaseKey (k : Packet) : List Nat := [k.queue.getD 256, k.order]
/-- LAUNCH_RELEASE (R318). -/
def execLaunchRelease (id : Nat) (s : State) : Out :=
  .next (match findFirst (fun k => decide (k.id = id)) s.packets with
    | none => s
    | some k =>
      if ¬ canRelease s k ∨ s.packets.any (fun x => decide (x.fn = k.fn) && lexLt (releaseKey x) (releaseKey k) && canRelease s x) then s
      else releasePacket s k ((pickEngine s k.fn).getD 0))

-- completion (R324, R325)

/-- The work of a launch has ended (R250, R324). -/
def launchDone (s : State) (l : Launch) : Bool :=
  let mine (x : Nat) : Bool := decide (x = l.id)
  l.stopped || (!(s.copies.any (fun c => mine c.launch)) &&
    (l.kind != 0 || (decide (l.nextTeam = l.ctx.lrec.teams) && !((allGroups s).any (fun h => mine h.ctx.launch && decide (h.phase ≠ .none))) &&
      !(s.cmds.any (fun c => mine c.launch)) && !(s.inserts.any (fun r => mine r.launch && !r.parked)) &&
      !(s.passes.any (fun p => mine p.launch && decide (p.prims ≠ [] ∨ p.opened ≠ [] ∨ p.ready ≠ []))))))
/-- The completion status word (R325). -/
def statusWord (l : Launch) (late : Bool) : Nat :=
  l.code + 256 * l.trap + 65536 * l.offset + (if late then 4294967296 else 0) + (if l.krec then 8589934592 else 0) + (if l.nrec then 34359738368 else 0)
/-- A write of the front end that may find no page: it is then lost. -/
def writeOr (s : State) (fn va : Nat) (bs : List Byte) : State :=
  match agentWrite s fn va bs with
  | .error x => walkRecord s fn x.1 x.2
  | .ok t => t
/-- ORs a bit pattern into an aligned word of n bytes that a status write reaches: it asks W alone (R371). -/
def orStatus (s : State) (fn va n m : Nat) : State :=
  match translate s fn va .w with
  | .error x => walkRecord s fn x va
  | .ok q =>
    let t := callBack s (q.spa / 32) (fun _ => true)
    memWrite t q.key q.spa (natLe n (Nat.lor (leNat (memRead t q.key q.spa n)) m))
/-- Subtracts 1 from a spawn tree's counter (R309). -/
def treeDone (s : State) (id : Nat) : State := setTree s id (fun t => { t with count := t.count - 1 })
/-- The synchronisation engine reports a tree whose counter is 0: TREE goes into the root's status word, and vector 2 is raised (R309, R325, R384). It is a turn of the
engine's own, after the launch has completed with the status word that it wrote (R440, R452; log entry 44). -/
def treeReport (s : State) (id : Nat) : State :=
  match treeOf_ s id with
  | none => s
  | some t =>
    if t.count ≠ 0 then s
    else
      let s1 := { s with trees := s.trees.filter (fun x => decide (x.id ≠ id)) }
      raiseVector (if t.status = 0 ∨ ¬ vaOk t.status 8 then s1 else orStatus s1 t.fn t.status 8 17179869184) t.fn 2
/-- Step 3 of R324 for one edge: the successor's count falls; from 1 to 0 its packet comes to the front end. An edge whose packet or node cannot be read is dropped, and
a packet with no node comes at once (R324 gives neither case; log entry 62). -/
def passEdge (l : Launch) (s : State) (va : Nat) : State :=
  match agentRead s l.fn va 64 with
  | .error x => walkRecord s l.fn x.1 x.2
  | .ok p =>
    let arrive (t : State) : State :=
      let k : Packet := { id := t.nextId, fn := l.fn, queue := none, ix := 0, va := va, bytes := p, tree := l.tree, order := t.nextId, posted := false }
      joinTree { t with packets := t.packets ++ [k], nextId := t.nextId + 1 } l.tree
    if pkNode p = 0 ∨ ¬ vaOk (pkNode p) 64 then arrive s
    else match translate s l.fn (pkNode p) .rw with
      | .error x => walkRecord s l.fn x (pkNode p)
      | .ok q =>
        let s1 := callBack s (q.spa / 32) (fun _ => true)
        if memPoisoned s1 q.spa 4 then s1
        else
          let w := leNat (memRead s1 q.key q.spa 4)
          let n := w % 65536
          let w1 := w - (if n = 0 then 0 else 1)
          let s2 := memWrite s1 q.key q.spa (natLe 4 (if l.code = 0 then w1 else Nat.lor w1 2147483648))
          if n = 1 then arrive s2 else s2
/-- Consecutive entries that name one successor form one edge. -/
def edgeVAs : List (Nat × Nat × Nat) → List Nat
  | [] => []
  | [e] => [e.1]
  | e :: f :: l => if e.1 = f.1 then edgeVAs (f :: l) else e.1 :: edgeVAs (f :: l)
/-- Two registrations of one set, by functions of this package. -/
def sameSet (r x : RepSet) : Bool := decide (x.gen = r.gen ∧ x.members = r.members)
/-- A replica's launch has completed. -/
def addDone (m : Nat × Nat) (l : List (Nat × Nat)) : List (Nat × Nat) := if l.contains m then l else m :: l
/-- Every set of this package that holds a replica notes that it has ended. -/
def noteDone (s : State) (r : RepSet) (m : Nat × Nat) : State := { s with repsets := s.repsets.map (fun x => if sameSet r x then { x with done := addDone m x.done } else x) }
/-- The launch of a replica is over: every set of this package that holds it notes it, and its share of the start barrier counts as ended (R326, R390). -/
def replicaOver (s : State) (l : Launch) : State :=
  if pkRepl l.packet then
    match repOf s l.fn (pkGen l.packet) with
    | none => s
    | some r =>
      let m := (Config.packageNumber, l.fn)
      let r1 := { r with local_ := l.ctx.lrec.teams * l.ctx.kernel.team, done := addDone m r.done }
      packageArrived (noteDone (setRep s r1) r1 m) r1 m
  else s
/-- LAUNCH_COMPLETE (R324): the clean, the status, the edges, the tree. -/
def completeLaunch (s : State) (l : Launch) : State :=
  let node := nodeOf s l.fn l.node
  let s := if l.node = 0 ∨ ¬ vaOk l.node 64 then s else match agentRead s l.fn l.node 256 with | .error x => walkRecord s l.fn x.1 x.2 | .ok _ => s
  let succs := (node.map nodeSuccs).getD []
  let regions := (node.map nodeComps).getD [] ++ succs.map (fun e => e.2)
  let s1 := cleanRegions s l regions
  let late := decide (l.deadline < timeOf s1 l.fn)
  let s2 := if l.status = 0 ∨ ¬ vaOk l.status 8 then s1 else writeOr s1 l.fn l.status (natLe 8 (statusWord l late))
  let s3 := { s2 with edges := s2.edges ++ succs.map (fun e => (l.fn, e.1, e.2)) }
  let s4 := (edgeVAs succs).foldl (passEdge l) s3
  let s5 := replicaOver (treeDone s4 l.tree) l
  { s5 with launches := s5.launches.filter (fun x => decide (x.id ≠ l.id)), passes := s5.passes.filter (fun p => decide (p.launch ≠ l.id)) }
def execLaunchComplete (id : Nat) (s : State) : Out :=
  .next (match getLaunch s id with
    | none => s
    | some l => if launchDone s l then completeLaunch s l else s)

end Sys2Proof.Machine
end

