-- ==== Sys2Proof/Machine/Bobbin.lean ====
section
/-!
DEFINITION. Machine/Bobbin.lean: what a bobbin holds (16 R331, R332), its place in the pool (R330), the save and the restore of
a group (R329, R334, R335).
-/
namespace Sys2Proof.Machine

/-- The key index under which Aqmal writes bobbins (log entry 17). -/
def aqmalKey : Nat := 8192
/-- Groups of a team that have not ended. -/
def teamGroups (s : State) (t : Nat) : List Group := (allGroups s).filter (fun h => decide (h.team = t ∧ h.phase ≠ .none))
def teamKernel (s : State) (t : Nat) : Kernel := (((teamGroups s t).head?).map (fun h => h.ctx.kernel)).getD {}
def lowestIn (l : List Group) (h : Group) : Bool := l.all (fun x => decide (h.ginteam ≤ x.ginteam))

/-- Bits as bytes, bit k at bit k mod 8 of byte k / 8. -/
def packBits (n : Nat) (f : Nat → Bool) : List Byte :=
  (List.range (ceilDiv n 8)).map (fun i => BitVec.ofNat 8 (((List.range 8).map (fun b => if f (8 * i + b) then 2 ^ b else 0)).sum))
/-- Copies of a group with intervals in space c. -/
def chipCopies (s : State) (h : Group) : List Copy :=
  s.copies.filter (fun c => decide (c.group = some h.id) && (copyIvs c).any (·.chip))
def groupCmds (s : State) (h : Group) : List Cmd := s.cmds.filter (fun c => decide (c.group = h.id))
/-- The header (R331). -/
def bobbinHeader (s : State) (h : Group) : List Byte :=
  let mine := s.inserts.filter (fun r => decide (r.group = h.id))
  let fins := (((mine.filter (fun r => !r.parked)).map (·.fins)).eraseDups).length
  let bit (b : Bool) (n : Nat) : Nat := if b then n else 0
  let d := h.darv.getD (0, 0)
  natLe 8 (h.pos % 2251799813685248) ++ natLe 1 (h.off + bit h.hnd 64 + bit h.hollow 128) ++ natLe 1 h.p ++ natLe 1 h.rc.length ++ natLe 1 h.rcblocks ++
  natLe 1 h.flags.toNat ++ natLe 1 (fins + bit (mine.any (·.parked)) 8) ++ natLe 1 (chipCopies s h).length ++ natLe 1 (groupCmds s h).length ++
  natLe 4 h.srseq.toNat ++ natLe 4 h.grpix ++ natLe 8 h.active.toNat ++ natLe 8 h.exited.toNat ++ natLe 8 h.vacant.toNat ++ natLe 8 h.m.toNat ++
  natLe 8 h.ctx.lrecVA ++ natLe 8 (if h.hnd then h.trec else 0) ++ natLe 8 (if h.ctx.frag then ((passOf s h.ctx.pass).map (·.va)).getD 0 else 0) ++
  natLe 2 h.arv.toNat ++ natLe 2 ((h.tiles.map (fun t => 2 ^ t.m)).sum) ++ natLe 4 ((s.handoffs.filter (fun r => decide (r.group = h.id))).length) ++
  natLe 4 (d.1 % 16777216 + bit h.darv.isSome 2147483648) ++ natLe 4 d.2 ++ natLe 4 (h.sarv.getD 0) ++ natLe 1 (bit h.sarv.isSome 1) ++ natLe 1 h.owed.length ++
  List.replicate 26 0 ++ ((List.range 16).map (fun i => natLe 4 (h.phases.getD i 0))).flatten ++ List.replicate 64 0

def secRegs (h : Group) : List Byte :=
  ((List.range h.ctx.kernel.regs).map (fun r => ((List.range (width h)).map (fun l => natLe 4 (gReg h r l).toNat)).flatten)).flatten
def secLanes (h : Group) : List Byte :=
  ((List.range (width h)).map (fun l =>
    let f := ((findFirst (fun e => decide (e.1 = l)) h.frags).map (·.2)).getD {}
    natLe 4 (h.origGrp.getD l h.grpix) ++ natLe 1 (h.origLane.getD l l) ++ List.replicate 3 0 ++ natLe 4 (f.x + 65536 * f.y) ++ natLe 4 f.seq)).flatten
def secStack (h : Group) : List Byte := (h.rc.reverse.map rcBytes).flatten
def secTrav (h : Group) : List Byte :=
  ((List.range (width h)).map (fun l =>
    let k := ((findFirst (fun e => decide (e.1 = l)) h.tstacks).map (·.2)).getD {}
    ((List.range 16).map (fun i => natLe 8 ((k.entries.reverse).getD i 0).toNat)).flatten ++ natLe 1 k.entries.length ++ natLe 1 0 ++ natLe 2 k.blocks ++
      natLe 4 (match k.base with | none => 0 | some b => b + 2147483648))).flatten
def secTiles (h : Group) : List Byte :=
  (h.tiles.map (fun t => ((List.range 16384).map (fun k => natLe 4 (smGet 0 t.elems k).toNat)).flatten ++ packBits 16384 (fun k => smGet false t.poison k))).flatten
def secCmds (s : State) (h : Group) : List Byte :=
  ((groupCmds s h).map (fun c => natLe 4 c.word.toNat ++ natLe 4 c.ctl.toNat ++ natLe 8 c.a.toNat ++ natLe 8 c.b.toNat ++ natLe 8 (stepsDone c) ++ bytesAt c.shape 0 32)).flatten
def secCopies (s : State) (h : Group) : List Byte :=
  ((chipCopies s h).map (fun c =>
    let ivs := (copyIvs c).filter (·.chip)
    let iv (i : Nat) : List Byte := match ivs[i]? with | none => List.replicate 8 0 | some v => natLe 4 v.lo ++ natLe 4 v.hi
    natLe 4 ((smGet {} (getFn s c.fn).ring c.entry).gen * 4096 + c.entry) ++
      natLe 4 ((if ivs.any (·.write) then 1 else 0) + (if 1 < ivs.length then 2 else 0)) ++ iv 0 ++ iv 1 ++ List.replicate 8 0)).flatten
def secOwed (h : Group) : List Byte :=
  (h.owed.map (fun e => let o := e.2
    natLe 1 e.1 ++ natLe 1 o.code ++ natLe 2 o.unit ++ natLe 4 o.more ++ natLe 8 o.pos ++ natLe 8 o.off ++ natLe 8 o.addr ++ natLe 8 o.lanes.toNat ++ natLe 8 o.done ++
      natLe 8 o.detail ++ List.replicate 8 0)).flatten
def secScratch (k : Kernel) (m : Sram) : List Byte := sramRead m 0 k.scratch ++ packBits (k.scratch / 4) (fun w => smGet false m.full w)
/-- The byte of region memory that byte j of core k's share is (R164). -/
def shareByte (k j : Nat) : Nat := j / 256 * 2048 + 256 * k + j % 256
def secRegion (k : Kernel) (m : Sram) : List Byte :=
  let sh := regionShare k
  ((List.range 8).map (fun c => (List.range sh).map (fun j => smGet 0 m.bytes (shareByte c j)))).flatten ++
    ((List.range 8).map (fun c => packBits (sh / 4) (fun w => smGet false m.full (shareByte c (4 * w) / 4)))).flatten
/-- Appends a section at the next 256-byte boundary; an empty one takes no space. -/
def addSection (b sec : List Byte) : List Byte := if sec = [] then b else b ++ List.replicate (roundUp b.length 256 - b.length) 0 ++ sec
/-- The bytes of a group's bobbin (R332). -/
def bobbinBytes (s : State) (h : Group) : List Byte :=
  let mates := teamGroups s h.team
  let t := (getTeam s h.team).getD {}
  let k := h.ctx.kernel
  [secRegs h, secLanes h, secStack h, secTrav h, secTiles h, secCmds s h, secCopies s h, secOwed h,
    (if lowestIn (mates.filter (fun x => decide (x.core = h.core))) h then secScratch k (teamScratch t h.core) else []),
    (if lowestIn mates h then secRegion k t.rg else [])].foldl addSection (bobbinHeader s h)

-- the pool

def overlapsRun (a n : Nat) (b : Nat × Nat) : Bool := decide (a < b.1 + b.2 ∧ b.1 < a + n)
/-- The first run of n bytes of the pool that is free, aligned to 256 bytes. -/
def findRun (pool : Nat × Nat) (used : List (Nat × Nat)) (n : Nat) : Option Nat :=
  let starts := roundUp pool.1 256 :: used.map (fun b => roundUp (b.1 + b.2) 256)
  minBy (fun a => [a]) (starts.filter (fun a => decide (pool.1 ≤ a ∧ a + n ≤ pool.1 + pool.2) && !(used.any (overlapsRun a n))))
/-- The pool can hold runs of all the sizes given. -/
def holdsRuns (pool : Nat × Nat) : List Nat → List (Nat × Nat) → Bool
  | [], _ => true
  | n :: ns, used => match findRun pool used n with
    | none => false
    | some a => holdsRuns pool ns ((a, n) :: used)

-- the save (R329)

/-- A copy that reads or writes its team's region memory (R240). -/
def regionCopy (s : State) (team : Nat) : Bool := s.copies.any (fun c => decide (c.team = some team) && (copyIvs c).any (fun i => !i.chip))
/-- A step of one of the group's commands is being computed again: it ends before the save (R157, R329). -/
def stepBegun (s : State) (h : Group) : Bool := (groupCmds s h).any (fun c => decide (0 < c.attempts + c.attempts2))
/-- Everything of R329 has drained. -/
def saveReady (s : State) (h : Group) : Bool :=
  decide (h.phase = .stopped) && h.preempt && decide (h.stq = [] ∧ h.loads = []) && !(s.trvs.any (fun r => decide (r.group = h.id))) && !(stepBegun s h) && !(regionCopy s h.team)
def regSector (start : Nat) (h : Group) (key : Nat) : Nat := (start + 256 + 4 * (key / 64 * width h + key % 64)) / 32
/-- A team whose groups have all been saved leaves its region (R322). -/
def settleTeams (s : State) : State :=
  { s with teams := s.teams.map (fun t => if t.evicting ∧ (teamGroups s t.id).all (fun h => decide (h.phase = .saved)) then { t with evicting := false, resident := false } else t) }
/-- The bobbin of a group is written at `start`. The release before it cleans host sectors too, so that the group finds its own stores on its new core
(R176, R183). What the bobbin holds also stays in the group's record, which the restore takes: no program reaches the pool (R330, log entry 47). -/
def saveGroup (s : State) (h : Group) (start : Nat) : State :=
  let s1 := cleanL1 s (fun x => decide (x.core = h.core))
  let b := bobbinBytes s1 h
  let s2 := memWrite s1 aqmalKey start b
  let s3 := { s2 with poison := h.regPoison.foldl (fun p e => smSet false p (regSector start h e.1) true) s2.poison }
  let f := getFn s3 h.ctx.fn
  let s4 := setFn s3 h.ctx.fn { f with bobbins := (start, b.length) :: f.bobbins }
  let s5 := setGroup s4 { h with phase := .saved, bobbin := some start, preempt := false, clause := [] }
  -- its commands leave the arrays of the region, a lent one included (R173)
  let s6 := { s5 with cmds := updIf (fun c => decide (c.group = h.id)) (fun c => { c with array := c.tile / 8 }) s5.cmds }
  startWindows (settleTeams (settleLease s6 (regionOf h.core)))
/-- BOBBIN_SAVE: waits for room in the pool (R330). -/
def execBobbinSave (gid : Nat) (s : State) : Out :=
  .next (match getGroup s gid with
    | none => s
    | some h =>
      if ¬ saveReady s h then s
      else
        let f := getFn s h.ctx.fn
        match findRun f.pool f.bobbins (bobbinBytes s h).length with
        | none => s
        | some a => saveGroup s h a)

-- a team that is torn down (R334)

/-- What a group has stored is performed, and what it has under way is discarded, as R416 has it for the groups of a launch that ends. -/
def discardGroup (trap : Nat) (s : State) (h : Group) : State :=
  let mine (c : Copy) : Bool := decide (c.group = some h.id)
  let s1 := (s.copies.filter mine).foldl (fun t c => dropDest (failRing trap t c) c) (h.stq.foldl (fun u e => performStore u h e) s)
  { withdrawWaiter s1 h.id with
    cmds := s1.cmds.filter (fun c => decide (c.group ≠ h.id))
    copies := s1.copies.filter (fun c => !mine c)
    trvs := s1.trvs.filter (fun r => decide (r.group ≠ h.id))
    inserts := s1.inserts.filter (fun r => decide (r.group ≠ h.id))
    handoffs := s1.handoffs.filter (fun r => decide (r.group ≠ h.id))
    fns := s1.fns.map (fun f => { f with bobbins := f.bobbins.filter (fun b => decide (some b.1 ≠ h.bobbin)) }) }
/-- One team is torn down: its slots end, and its launch, whose other teams go on, carries the code and the trap when it completes (log entry 65). -/
def endTeam (s : State) (team code trap : Nat) : State :=
  let l := teamGroups s team
  let x := (getTeam s team).getD {}
  let t := l.foldl (fun t h => withGroup t h.id slotEnds) (l.foldl (fun t h => leaveWindow (discardGroup trap t h) h.id) s)
  let u := (t.leases.map (·.host)).foldl settleLease { forgetWork s t with reserved := t.reserved.filter (fun e => decide (e.2 ≠ (x.launch, x.teamix))) }
  updLaunch u x.launch (fun y => if y.stopped then y else { y with code := code, trap := trap })

-- the restore (R334, R335)

/-- A sector of a bobbin holds an error that the save did not put there. -/
def bobbinBad (s : State) (h : Group) : Bool :=
  match h.bobbin with
  | none => false
  | some a => match findFirst (fun b => decide (b.1 = a)) (getFn s h.ctx.fn).bobbins with
    | none => false
    | some b =>
      let own := h.regPoison.map (fun e => regSector a h e.1)
      s.poison.any (fun e => e.2 && decide (a / 32 ≤ e.1 ∧ e.1 < (a + b.2 + 31) / 32) && !(own.contains e.1))
/-- A resumed group's commands join the queues of its region behind those that stand there (R156, R173). -/
def requeue (s : State) (h : Group) : State :=
  let mine := groupCmds s h
  { s with cmds := updIf (fun c => decide (c.group = h.id)) (fun c => { c with region := regionOf h.core, array := c.tile / 8, arrived := s.nextId + (mine.filter (fun d => decide (d.id < c.id))).length }) s.cmds,
           nextId := s.nextId + mine.length }
/-- The registers that a bobbin's poisoned sectors hold: each sector has eight words of the register section, and all of them come back poisoned (R334). -/
def sectorRegs (h : Group) (key : Nat) : List Nat :=
  let w := key / 64 * width h + key % 64
  ((List.range 8).map (fun i => w / 8 * 8 + i)).filterMap (fun v => if v < h.ctx.kernel.regs * width h then some (64 * (v / width h) + v % width h) else none)
def sectorPoison (h : Group) : SMap Bool := h.regPoison.foldl (fun m e => (sectorRegs h e.1).foldl (fun m k => smSet false m k true) m) h.regPoison
/-- A restored group fetches its clause again and walks afresh (R335, R373); its commands run on the arrays of the new region, or fail when both are out of
service (R155). -/
def restoreGroup (s : State) (h : Group) : State :=
  let f := getFn s h.ctx.fn
  let s1 := setFn s h.ctx.fn { f with bobbins := f.bobbins.filter (fun b => decide (some b.1 ≠ h.bobbin)) }
  let s2 := invalClean { s1 with tlb := s1.tlb.filter (fun t => decide (t.fn ≠ h.ctx.fn)) } (fun x => decide (x.core = h.core))
  let s3 := requeue s2 h
  let s4 := failIfDark (setGroup s3 { h with phase := if h.hollow then .stopped else .fetch, bobbin := none, regPoison := sectorPoison h, drainReq := false, stalled := false, tagWait := none, idle := 0 }) (regionOf h.core)
  if h.hollow then s4
  else withGroup s4 h.id (fun t => match recoverJoin t with | .error x => takeTrap t (atEmpty t.g x) | .ok u => u)
/-- The saved commands and copies of the groups find entries in the scoreboard of their region (R171, R173, log entry 52). -/
def boardTakes (s : State) (l : List Group) : Bool :=
  let need := (l.map (fun h => ((groupOps s h.id s.nextId).map (fun o => o.2.length)).sum)).sum
  l.all (fun h => decide (need = 0 ∨ boardUsed s (regionOf h.core) + need ≤ 64))
/-- TEAM_RESUME: every placed group of the team is restored, or an error in a bobbin tears the team down. -/
def execTeamResume (team : Nat) (s : State) : Out :=
  let l := (teamGroups s team).filter (fun h => decide (h.phase = .placed))
  .next (match findFirst (bobbinBad s) l with
    | some h => endTeam s h.team 4 6
    | none => if boardTakes s l then l.foldl restoreGroup s else s)

end Sys2Proof.Machine
end

