-- ==== Sys2Proof/Machine/Place.lean ====
section
/-!
DEFINITION. Machine/Place.lean: the deadline scheduler (15 R320 to R323), stopping points (16 R328), core drains (15 R322) and the
watchdog (23 R417).
-/
namespace Sys2Proof.Machine

-- keys (R320)

def launchKey (s : State) (l : Launch) (teamix : Nat) : List Nat :=
  [max (min l.deadline (l.released + (getFn s l.fn).ageing)) l.released, l.cls, l.seq, teamix]
def keyOfTeam (s : State) (t : Team) : List Nat :=
  match getLaunch s t.launch with
  | none => []
  | some l => launchKey s l t.teamix
def effOf (k : List Nat) : Nat := k.headD 0

/-- What waits for a place: the next team of a launch, a saved team, the next fragment group of a pass, a drained group. -/
inductive ReadySrc where
  | fresh (l : Launch)
  | saved (t : Team)
  | frag (p : Pass)
  | drained (h : Group)
  deriving DecidableEq, Repr
structure Ready where
  key : List Nat
  src : ReadySrc
  deriving DecidableEq, Repr

/-- Groups that a drained core gave up, and that go back to a core of their own team's region (R322): not those of a team that is evicted as a whole. -/
def drainedGroups (s : State) (fn : Nat) : List Ready :=
  (allGroups s).filterMap (fun h =>
    if h.drainReq ∧ h.phase = .saved ∧ h.ctx.fn = fn then
      match getTeam s h.team with
      | some t => if t.resident ∧ ¬ t.evicting then some { key := keyOfTeam s t, src := .drained h } else none
      | none => none
    else none)
/-- The ready teams of a function in key order (R320). -/
def readyTeams (s : State) (fn : Nat) : List Ready :=
  let mine (l : Launch) : Bool := decide (l.fn = fn ∧ l.kind = 0) && !l.stopped
  let ofLaunch (id : Nat) : Option Launch := findFirst (fun l => decide (l.id = id) && mine l) s.launches
  let fresh := (s.launches.filter (fun l => mine l && decide (l.nextTeam < l.ctx.lrec.teams))).map (fun l => ({ key := launchKey s l l.nextTeam, src := .fresh l } : Ready))
  let saved := (s.teams.filter (fun t => !t.resident && (ofLaunch t.launch).isSome)).map (fun t => ({ key := keyOfTeam s t, src := .saved t } : Ready))
  let frag := s.passes.filterMap (fun p => match ofLaunch p.launch, p.ready with
    | some l, r :: _ => some ({ key := launchKey s l r.1, src := .frag p } : Ready)
    | _, _ => none)
  sortBy (fun r => r.key) (fresh ++ saved ++ frag)
/-- What waits for a place, in key order. -/
def readyAll (s : State) (fn : Nat) : List Ready := sortBy (fun r => r.key) (readyTeams s fn ++ drainedGroups s fn)

-- room (R321)

/-- What a core has free, teams of a list left out. -/
def coreFree (s : State) (core : Nat) (out : List Nat) : CoreFree :=
  let gs := (allGroups s).filter (fun h => decide (h.core = core) && residentGroup h && !(out.contains h.team))
  let ts := s.teams.filter (fun t => t.resident && decide (t.region = regionOf core) && !(out.contains t.id))
  let spad (t : Team) : Nat := let k := teamKernel s t.id; regionShare k + (if t.scratch.any (fun e => decide (e.1 = core)) then k.scratch else 0)
  { core := core, slots := 64 - gs.length, gran := 1024 - (gs.map (fun h => granules h.ctx.kernel)).sum, spad := 262144 - (ts.map spad).sum }
def regionCores (region : Nat) : List Nat := (List.range 8).map (fun i => 8 * region + i)
/-- The partition's regions in logical order, those of slices that have left placement apart (R356, R357). -/
def regionsOf (f : Fn) : List Nat := ((f.slices.filter (fun p => !f.leaving.contains p)).map (fun p => [3 * p, 3 * p + 1, 3 * p + 2])).flatten
/-- The sets of groups of a saved team that shared a core, by lowest ginteam. -/
def savedSets (s : State) (t : Team) : List (List Group) :=
  let gs := sortBy (fun h => [h.ginteam]) (teamGroups s t.id)
  ((gs.map (fun h => h.core)).eraseDups).map (fun c => gs.filter (fun h => decide (h.core = c)))
def tilesOfSide (l : List Group) (eng : Nat) : Nat := (l.map (fun h => (h.tiles.filter (fun t => decide (t.m / 8 = eng))).length)).sum
/-- Tiles in use in a region, teams of a list left out. -/
def tilesOut (s : State) (region eng : Nat) (out : List Nat) : Nat :=
  tilesOfSide ((allGroups s).filter (fun h => decide (regionOf h.core = region) && residentGroup h && !(out.contains h.team))) eng
def tilesFit (s : State) (region : Nat) (out : List Nat) (gs : List Group) : Bool :=
  [0, 1].all (fun e => decide (tilesOut s region e out + tilesOfSide gs e ≤ 8))
/-- A drained group's core: its own, or one without groups of its team when it was alone on its own (R322). -/
def drainedCore (s : State) (h : Group) (t : Team) : Option Nat :=
  let mates := (teamGroups s t.id).filter (fun x => decide (x.id ≠ h.id))
  let alone := !(mates.any (fun x => decide (x.core = h.core)))
  let ok (c : CoreFree) : Bool :=
    decide (1 ≤ c.slots ∧ granules h.ctx.kernel ≤ c.gran) &&
    (decide (c.core = h.core) || (alone && !(mates.any (fun x => decide (x.core = c.core))) && decide (h.ctx.kernel.scratch ≤ c.spad)))
  if tilesFit s t.region [] [h] then
    (minBy (fun c => [64 - c.slots, c.core]) (((regionCores t.region).map (fun c => coreFree s c [])).filter ok)).map (·.core)
  else none
/-- The cores of a region that take a ready team's groups, one for each group or set; none when it does not fit. -/
def fitOn (s : State) (r : Ready) (region : Nat) (out : List Nat) : Option (List Nat) :=
  let deal (k : Kernel) (apart : Bool) (sets : List Nat) : Option (List Nat) :=
    (shareCores k ((regionCores region).map (fun c => coreFree s c out))).bind (dealSets k apart sets)
  match r.src with
  | .fresh l => deal l.ctx.kernel false (List.replicate l.ctx.kernel.team 1)
  | .frag p => deal p.ctx.kernel false [1]
  | .saved t =>
    let sets := savedSets s t
    if tilesFit s region out sets.flatten then deal (teamKernel s t.id) true (sets.map (·.length)) else none
  | .drained h => match getTeam s h.team with
    | none => none
    | some t => if t.region = region then (drainedCore s h t).map (fun c => [c]) else none

-- placing

/-- The groups of a team as first placed (R275). -/
def newGroup (c : Ctx) (id team teamix ginteam core : Nat) : Group :=
  { id := id, ctx := c, core := core, team := team, grpix := teamix * c.kernel.team + ginteam, teamix := teamix, ginteam := ginteam, phase := .fetch, pos := c.kernel.entry,
    active := fullMask c.kernel.width, phases := List.replicate 16 0 }
/-- A fragment group as first placed (R249, R442): unused lanes are vacant. -/
def newFragGroup (c : Ctx) (id team ix core : Nat) (fs : List FragRec) : Group :=
  let lanes := List.zip (List.range fs.length) fs
  let cx := { c with pbase := c.pbase + ix * fragArea c.kernel }
  let h : Group := { id := id, ctx := cx, core := core, team := team, grpix := ix, teamix := ix, ginteam := 0, phase := .fetch, pos := c.kernel.entry,
                     active := fullMask fs.length, vacant := fullMask c.kernel.width &&& ~~~ fullMask fs.length, phases := List.replicate 16 0,
                     frags := lanes.map (fun e => (e.1, { x := e.2.x, y := e.2.y, seq := e.2.seq })) }
  lanes.foldl (fun g e => setRegs g 0 e.1
    ([BitVec.ofNat 32 (e.2.x + 65536 * e.2.y), BitVec.ofNat 32 (e.2.cover + (if e.2.face then 256 else 0)), e.2.depth, BitVec.ofNat 32 e.2.seq] ++ e.2.attrs)) h
def newTeam (id launch teamix region size : Nat) (cores : List Nat) : Team :=
  { id := id, launch := launch, teamix := teamix, region := region, size := size, scratch := cores.eraseDups.map (fun c => (c, {})), bars := List.replicate 16 {} }
/-- A group takes a wave slot: the slot that issues when it is empty. -/
def addGroup (s : State) (h : Group) : State := if s.g.phase = .none then { s with g := h } else { s with others := s.others ++ [h] }
/-- Moves a saved group to a core. -/
def moveTo (core : Nat) (h : Group) : Group := { h with phase := .placed, core := core, preempt := false }
/-- The launch and the team index of a ready team: what a reservation is held for. -/
def readyId (r : Ready) : Nat × Nat :=
  match r.src with
  | .fresh l => (l.id, l.nextTeam)
  | .saved t => (t.launch, t.teamix)
  | .frag p => (p.launch, (p.ready.head?.map (·.1)).getD 0)
  | .drained h => (h.ctx.launch, h.teamix)
/-- A launch notes the cores that its groups take (R196). -/
def usesCores (s : State) (launch : Nat) (cores : List Nat) : State :=
  updLaunch s launch (fun l => { l with used := (l.used ++ cores).eraseDups })
/-- Places a ready team on a region (R321). A drained group takes its core's scratch share along, in place of one that no group there uses any more (R166). -/
def placeTeam (s : State) (r : Ready) (region : Nat) (cores : List Nat) : State :=
  let s0 := usesCores { s with reserved := s.reserved.filter (fun e => decide (e.2 ≠ readyId r)) } (readyId r).1 cores
  match r.src with
  | .fresh l =>
    let id := s0.nextId
    let n := l.ctx.kernel.team
    let groups := (List.zip (List.range n) cores).map (fun e => newGroup l.ctx (id + 1 + e.1) id l.nextTeam e.1 e.2)
    let s1 := updLaunch { s0 with teams := s0.teams ++ [newTeam id l.id l.nextTeam region n cores], nextId := id + n + 1 } l.id (fun x => { x with nextTeam := x.nextTeam + 1 })
    groups.foldl addGroup s1
  | .frag p => match p.ready with
    | [] => s0
    | f :: rest =>
      let id := s0.nextId
      let s1 := setPass { s0 with teams := s0.teams ++ [newTeam id p.launch f.1 region 1 cores], nextId := id + 2 } { p with ready := rest }
      addGroup s1 (newFragGroup p.ctx (id + 1) id f.1 (cores.headD 0) f.2)
  | .saved t =>
    let sets := List.zip (savedSets s0 t) cores
    let scratch := sets.map (fun e => (e.2, teamScratch t ((e.1.head?.map (·.core)).getD 0)))
    let s1 := updTeam s0 t.id (fun t => { t with resident := true, region := region, scratch := scratch })
    sets.foldl (fun u e => e.1.foldl (fun v h => setGroup v (moveTo e.2 h)) u) s1
  | .drained h => match getTeam s0 h.team with
    | none => s0
    | some t =>
      let c := cores.headD h.core
      let alone := !((teamGroups s0 t.id).any (fun x => decide (x.id ≠ h.id ∧ x.core = h.core)))
      let s1 := if c = h.core ∨ ¬ alone then s0
        else updTeam s0 t.id (fun t => { t with scratch := updIf (fun e => decide (e.1 = h.core)) (fun e => (c, e.2)) (t.scratch.filter (fun e => decide (e.1 ≠ c))) })
      setGroup s1 (moveTo c h)

-- eviction (R321, R322)

/-- A group of the team stands stalled on a full primitive buffer: at PRIM, its pass bound and the raster unit its own (R243). -/
def atPrim (s : State) (t : Team) : Bool :=
  (teamGroups s t.id).any (fun h => h.stalled && (match instrAt h, boundPass s h.ctx.launch with
    | .ok (.prim _ _), some p => !(unitTaken s p) && bufferFull p (activeLanes h).length
    | _, _ => false))
def launchIdOf (r : Ready) : Nat :=
  match r.src with
  | .fresh l => l.id
  | .saved t => t.launch
  | .frag _ => 0
  | .drained _ => 0
/-- A resident team may be evicted for a ready one: a later effective deadline, or the same grid's higher index stalled at PRIM,
where a saved team counts as one not yet placed (R243; log entry 43). -/
def evictable (s : State) (r : Ready) (t : Team) : Bool :=
  let k := keyOfTeam s t
  t.resident && !t.evicting && decide (effOf r.key < effOf k ∨ (launchIdOf r = t.launch ∧ lexLt r.key k ∧ atPrim s t))
/-- The teams of a region that make room, taken in descending key order until the ready team fits. -/
def makeRoom (s : State) (r : Ready) (region : Nat) : List Team → List Team → Option (List Team)
  | [], acc => if (fitOn s r region (acc.map (·.id))).isSome then some acc else none
  | t :: l, acc => if (fitOn s r region (acc.map (·.id))).isSome then some acc else makeRoom s r region l (acc ++ [t])
def descending (s : State) (l : List Team) : List Team := (sortBy (keyOfTeam s) l).reverse
/-- A choice of region: the teams to evict there, those that leave already left out. -/
structure Choice where
  region : Nat
  ix : Nat
  out : List Team
  deriving DecidableEq, Repr
def choiceOn (s : State) (r : Ready) (ix region : Nat) : Option Choice :=
  let there := s.teams.filter (fun t => decide (t.region = region) && t.resident)
  let leaving := there.filter (·.evicting)
  (makeRoom s r region (descending s (there.filter (evictable s r))) leaving).map (fun l =>
    { region := region, ix := ix, out := l.filter (fun t => !t.evicting) })
def leastKey (s : State) (l : List Team) : Option (List Nat) := (minBy (keyOfTeam s) l).map (keyOfTeam s)
/-- A choice is better: a greater smallest key, then fewer teams, then a lower logical index. -/
def betterChoice (s : State) (a b : Choice) : Bool :=
  match leastKey s a.out, leastKey s b.out with
  | none, none => decide (a.ix < b.ix)
  | none, some _ => true
  | some _, none => false
  | some x, some y => lexLt y x || (decide (x = y) && (decide (a.out.length < b.out.length) || (decide (a.out.length = b.out.length) && decide (a.ix < b.ix))))
def bestChoice (s : State) : List Choice → Option Choice
  | [] => none
  | c :: l => match bestChoice s l with
    | none => some c
    | some d => if betterChoice s d c then some d else some c
/-- A group that is on its way to its bobbin. -/
def savePending (h : Group) : Bool := h.preempt && decide (h.phase ≠ .none ∧ h.phase ≠ .saved)
/-- The pool can hold the bobbins of groups to be pre-empted beside those of every group that is on its way there (R330). -/
def poolTakes (s : State) (fn : Nat) (l : List Group) : Bool :=
  let f := getFn s fn
  let due := (allGroups s).filter (fun h => decide (h.ctx.fn = fn) && savePending h)
  holdsRuns f.pool ((due ++ l.filter (fun h => !savePending h && decide (h.phase ≠ .saved))).map (fun h => (bobbinBytes s h).length)) f.bobbins
/-- The same of the teams to be evicted. -/
def poolHolds (s : State) (fn : Nat) (l : List Team) : Bool := poolTakes s fn ((l.map (fun t => teamGroups s t.id)).flatten)
/-- Pre-empts every group of the teams and reserves the region. -/
def evictFor (s : State) (r : Ready) (c : Choice) : State :=
  let ids := c.out.map (·.id)
  let hit (h : Group) : Group := if ids.contains h.team && decide (h.phase ≠ .none) && decide (h.phase ≠ .saved) then { h with preempt := true } else h
  { s with g := hit s.g, others := s.others.map hit, teams := updIf (fun t => ids.contains t.id) (fun t => { t with evicting := true }) s.teams,
           reserved := (c.region, readyId r) :: s.reserved.filter (fun e => decide (e.1 ≠ c.region ∧ e.2 ≠ readyId r)) }
/-- A region that a waiting team of a smaller key holds reserved; the reservation goes with its launch (R416). -/
def reservedFrom (s : State) (r : Ready) (region : Nat) : Bool :=
  s.reserved.any (fun e => decide (e.1 = region) && (match getLaunch s e.2.1 with | none => false | some l => !l.stopped && lexLt (launchKey s l e.2.2) r.key))
/-- The first placement in key order, and the regions it takes. -/
def firstFit (s : State) (regions : List Nat) : List Ready → Option (Ready × Nat × List Nat)
  | [] => none
  | r :: l =>
    match findFirst (fun g => !(reservedFrom s r g) && (fitOn s r g []).isSome) regions with
    | some g => some (r, g, (fitOn s r g []).getD [])
    | none => firstFit s regions l
/-- The eviction for the smallest ready team, when no region drains for it already. -/
def evictionFor (s : State) (fn : Nat) (regions : List Nat) (r : Ready) : Option Choice :=
  let waits := s.reserved.any (fun e => decide (e.2 = readyId r) && s.teams.any (fun t => t.evicting && decide (t.region = e.1)))
  if waits ∨ regions.any (fun g => (fitOn s r g []).isSome) then none
  else match bestChoice s ((List.zip (List.range regions.length) regions).filterMap (fun e => choiceOn s r e.1 e.2)) with
    | none => none
    | some c => if poolHolds s fn c.out then some c else none
/-- The eviction that is due: for the smallest ready team. -/
def evictionDue (s : State) (fn : Nat) (regions : List Nat) : Option (Ready × Choice) :=
  match readyTeams s fn with
  | [] => none
  | r :: _ => (evictionFor s fn regions r).map (fun c => (r, c))
/-- TEAM_PLACE (R321): an eviction for the smallest ready team, else the first placement in key order. -/
def execTeamPlace (fn : Nat) (s : State) : Out :=
  let s := settleTeams s
  let f := getFn s fn
  let regions := regionsOf f
  .next (if f.quiesced then s
    else match evictionDue s fn regions with
      | some e => evictFor s e.1 e.2
      | none => match firstFit s regions (readyAll s fn) with
        | none => s
        | some p => placeTeam s p.1 p.2.1 p.2.2)

-- stopping points (R328), drains and the watchdog

/-- A stopping point: not inside a fence or an ordered access that waits, which completes first (R225). -/
def stoppable (h : Group) : Bool := h.preempt && decide (h.waiting ≠ .fence) && (decide (h.phase = .fetch ∨ h.phase = .waitMask ∨ h.phase = .issue ∨ h.phase = .window))
/-- GROUP_STOP: an arrival in a window and a waiter are withdrawn; barrier arrivals stand, and a held access serves the slots of what held it (R409). -/
def stopGroup (s : State) : State :=
  if ¬ stoppable s.g then s
  else
    let h := s.g
    let w := match h.waiting with
      | .semaphore _ _ _ => Waiting.no
      | x => x
    let s1 := leaveWindow { s with g := { h with phase := .stopped, waiting := w, stalled := false, tagWait := none, early := [] } } h.id
    match h.waiting with
    | .semaphore num _ _ => let t := withdrawWaiter s1 h.id; grantWaiters h.ctx.fn num t.objs.length t
    | _ => s1
def execGroupStop (gid : Nat) (s : State) : Out := .next (withGroup s gid stopGroup)
/-- CORE_DRAIN (R322): one group is pre-empted alone, once the pool has room for it (R330); a hollow slot, which goes with its
team (R288), is never taken alone (log entry 43). -/
def execCoreDrain (gid : Nat) (s : State) : Out :=
  .next (match getGroup s gid with
    | none => s
    | some h => if residentGroup h ∧ ¬ h.preempt ∧ h.phase ≠ .placed ∧ ¬ h.hollow ∧ poolTakes s h.ctx.fn [h] then setGroup s { h with preempt := true, drainReq := true } else s)
/-- WATCHDOG (R417): 2^31 cycles without progress. -/
def execWatchdog (gid : Nat) (s : State) : Out :=
  .next (match getGroup s gid with
    | none => s
    | some h => if residentGroup h ∧ 2147483648 ≤ h.idle then endLaunchD s h.ctx.launch 4 17 1 else s)

end Sys2Proof.Machine
end

