-- ==== Sys2Proof/Machine/Reset.lean ====
section
/-!
DEFINITION. Machine/Reset.lean: the reset of a slice, hangs and function-level resets (23 R418 to R422).
-/
namespace Sys2Proof.Machine

/-- A launch that the reset of a physical slice ends (R420 step 3): a resident group there, a pass on its raster unit, a target on its
stage, a stream frame in its lane, or a running copy on its engines. -/
def touchesSlice (s : State) (p : Nat) (l : Launch) : Bool :=
  let at_ (fn logical : Nat) : Bool := decide ((getFn s fn).slices[logical]? = some p)
  (allGroups s).any (fun h => decide (h.ctx.launch = l.id ∧ sliceOfCore h.core = p) && residentGroup h) ||
  s.passes.any (fun q => decide (q.launch = l.id ∧ q.slice = p)) ||
  s.inserts.any (fun r => decide (r.launch = l.id) && at_ r.fn (tgStage r.target)) ||
  s.frames.any (fun f => f.launches.contains l.id && decide (frameLane s f = p)) ||
  s.handoffs.any (fun o => decide (o.launch = l.id) && at_ o.fn (smLane o.stream)) ||
  s.copies.any (fun c => decide (c.launch = l.id ∧ c.eng / 2 = p) && c.started)
def endLaunches (s : State) (trap detail : Nat) (p : Launch → Bool) : State :=
  (s.launches.filter (fun l => p l && !l.stopped)).foldl (fun t l => endLaunchD t l.id 4 trap detail) s
/-- Copies queued on a slice's engines move to the partition's other engines (R420 step 4); with none they stay. -/
def moveCopies (s : State) (p : Nat) : State :=
  s.copies.foldl (fun t c =>
    if c.eng / 2 ≠ p then t
    else
      let others := (((getFn t c.fn).slices.filter (fun q => decide (q ≠ p))).map (fun q => [2 * q, 2 * q + 1])).flatten
      match minBy (fun e => [(t.copies.filter (fun d => decide (d.eng = e))).length]) others with
      | none => t
      | some e => setCopy t { c with eng := e }) s
/-- The leases that a function borrows end (R366): its commands finish or went with their groups; one that had ended returns its empty array. -/
def endBorrowed (s : State) (fn : Nat) : State :=
  (s.leases.filter (fun l => l.granted && decide (fieldAt l.rcd 2 1 % 32 = fn))).foldl (fun t l =>
    settleLease (if leaseState l < 2 then setLeaseState t l.id 2 else t) l.host) s
/-- R420: launches are ended with a trap, dirty bytes go back, on-slice state is scrubbed, the cycle selector restarts; chip-scratchpad
ways and rd of every queue stand, the time base is that of logical slice 0. The slice is in placement again when the event ends. -/
def resetSlice (s : State) (p trap detail : Nat) (e : ErrRec) : State :=
  let s1 := moveCopies (endLaunches s trap detail (touchesSlice s p)) p
  let s2 := flushL1 s1 (fun x => decide (sliceOfCore x.core = p))
  let s3 := { s2 with icache := s2.icache.filter (fun e => decide (sliceOfCore e.1 ≠ p)),
                      cycleBase := smSet 0 s2.cycleBase p ((s2.dies.getD (p / 8) {}).cycles),
                      watch := s2.watch.filter (fun e => decide (e.1 / 1024 ≠ p)) }
  let s4 := match fnOfSlice s3 p with
    | none => s3
    | some fn => endBorrowed { s3 with tlb := s3.tlb.filter (fun t => decide (t.fn ≠ fn)), bases := smSet {} s3.bases p (baseOf s3 fn) } fn
  sliceRecord s4 p e

-- hangs (R418)

/-- The units that Aqmal watches in a slice, as 32 x index + code of R403: six engine queues, and those of the arrays that its regions borrow, 6; two copy
queues 8; three testers 9; the render output stage and the raster unit 10; the encoder lane 11; the task-graph walker 13; the fetcher and the scheduler 17
(log entry 56). -/
def watchedUnits : List Nat :=
  (List.range 9).map (fun i => 32 * i + 6) ++ (List.range 2).map (fun i => 32 * i + 8) ++ (List.range 3).map (fun i => 32 * i + 9) ++
    [10, 42, 11, 13, 17, 49]
/-- The engine queues of a slice that a command stands in, by index there: both of its region for an MMAP (R146). -/
def enginesOf (c : Cmd) : List Nat :=
  let r := c.region % 3
  if c.array = 2 then [6 + r] else if c.kind = .mmap then [2 * r, 2 * r + 1] else [2 * r + c.array]
/-- What waits for a place, as an item of work. -/
def readyItem (r : Ready) : List Nat :=
  match r.src with
  | .fresh l => [l.id, l.nextTeam]
  | .saved t => [t.id]
  | .frag p => [p.id, (p.ready.head?.map (·.1)).getD 0]
  | .drained h => [h.id]
/-- The work of a kind of unit of a function, item by item: an item changes with every progress on it, and goes when it is done. With each, whether it stands in the unit
asked for, and whether the unit could act on it. The front end is that of logical slice 0. -/
def unitWork (s : State) (fn p x : Nat) : List (List Nat × Bool × Bool) :=
  let u := x % 32
  let i := x / 32
  let here (logical : Nat) : Bool := decide ((getFn s fn).slices[logical]? = some p)
  let bit (b : Bool) : Nat := if b then 1 else 0
  if u = 6 then s.cmds.map (fun c => ([c.id, c.steps, c.steps2, c.attempts, c.attempts2], decide (c.region / 3 = p) && (enginesOf c).contains i, queuedCmd s c))
  else if u = 8 then s.copies.map (fun c => ([c.id, c.done, bit c.awaiting], decide (c.eng = 2 * p + i), !c.awaiting))
  else if u = 9 then s.trvs.map (fun r => ([r.id], decide (r.region = 3 * p + i), true))
  else if u = 10 ∧ i = 0 then s.inserts.map (fun r => ([r.id, bit r.parked], decide (r.fn = fn) && here (tgStage r.target), !r.parked))
  else if u = 10 then s.passes.map (fun q => ([q.id, q.nextSeq], decide (q.slice = p), decide (q.prims ≠ [])))
  else if u = 11 then s.handoffs.map (fun o => ([o.id], decide (o.fn = fn) && here (smLane o.stream), true)) ++
    s.frames.map (fun f => ([0, f.fn, f.stream, f.frame, (f.rest.getD []).length], decide (f.fn = fn ∧ frameLane s f = p), frameReady s f))
  else if (getFn s fn).slices.head? ≠ some p then []
  else if u = 13 then (s.packets.filter (fun k => decide (k.fn = fn))).map (fun k => ([k.id], true, canRelease s k))
  else if i = 0 then (getFn s fn).queues.map (fun q => ([0, q.1, q.2.rd], true, !(getFn s fn).quiesced && fetchDue s fn q))
  else (readyAll s fn).map (fun r => (readyItem r, true, !(getFn s fn).quiesced && (regionsOf (getFn s fn)).any (fun g => !(reservedFrom s r g) && (fitOn s r g []).isSome)))
/-- The unit could act on some of its work. -/
def unitPending (w : List (List Nat × Bool × Bool)) : Bool := w.any (fun e => e.2.1 && e.2.2)
/-- Every item that the watch has noted of a unit is as it was. -/
def unitStill (w : List (List Nat × Bool × Bool)) (items : List (List Nat)) : Bool := items.all (fun i => (w.map (·.1)).contains i)
/-- A unit's entry in the watch: since when its pending work stands still. Work that arrives, or that an ended launch takes away (`forgetWork`), is no progress. -/
def watchUnit (s : State) (fn p x : Nat) : Option (Nat × Nat × List (List Nat)) :=
  let w := unitWork s fn p x
  let k := 1024 * p + x
  let items := (w.filter (fun e => e.2.1)).map (·.1)
  if ¬ unitPending w then none
  else match findFirst (fun e => decide (e.1 = k)) s.watch with
    | some e => some (k, if e.2.2 ≠ [] ∧ unitStill w e.2.2 then e.2.1 else s.now, items)
    | none => some (k, s.now, items)
/-- Aqmal's watch over every unit of every slice. -/
def watchUnits (s : State) : State :=
  { s with watch := ((List.range s.fns.length).map (fun fn => ((getFn s fn).slices.map (fun p => watchedUnits.filterMap (watchUnit s fn p))).flatten)).flatten }
/-- A unit has had pending work and made no progress for 100 ms. -/
def hangs (s : State) (fn p x : Nat) : Bool :=
  let w := unitWork s fn p x
  watchedUnits.contains x && unitPending w && s.watch.any (fun e => decide (e.1 = 1024 * p + x ∧ e.2.1 + 100000000 ≤ s.now ∧ e.2.2 ≠ []) && unitStill w e.2.2)
/-- An event of Aqmal's own is handled when its turn comes, and waits in the queue till then (R392). -/
def whenTurn (s : State) (e : AqEvent) (k : State → State) : State := if eventTurn s e then serveEvents (k (dropEvent s e)) else joinQueue s e
/-- HANG (R418): a unit of a slice made no progress for 100 ms. A free slice runs nothing, so nothing hangs there (R350). -/
def execHang (slice unit : Nat) (s : State) : Out :=
  .next (match fnOfSlice s slice with
    | none => dropEvent s (.hang slice unit)
    | some fn =>
      if hangs s fn slice unit ∨ s.mailq.contains (.hang slice unit) then
        whenTurn s (.hang slice unit) (fun t => resetSlice t slice 17 2 { cause := 13, cls := 2, unit := unit % 32, slice := none, where_ := unit / 32, ix := unit / 32 })
      else s)
/-- Units of package-shared services (R21, R226): an error in their control state fails one object, queue entry or copy (R401). -/
def sharedUnit (u : Nat) : Bool := u == 8 || u == 12 || u == 16
/-- An uncorrectable error in control state of a slice's unit (R401, R419), whoever owns the slice. -/
def controlError (s : State) (slice unit idx : Nat) : State :=
  if 16 ≤ slice ∨ sharedUnit unit then s
  else whenTurn s (.control slice unit idx) (fun t =>
    resetSlice t slice 6 0 { cause := 2, cls := 2, unit := unit, slice := none, where_ := idx, ix := idx, detail := Config.syndrome t.now % 65536 })

/-- R422: every slice of the function is reset in one event, its launches complete, and what the function made is
destroyed; table, windows, admission list, ways, key blocks and pool stand. -/
def resetFn (s : State) (fn : Nat) : State :=
  let f0 := getFn s fn
  let s1 := f0.slices.foldl (fun t p => resetSlice t p (Config.resetTrap % 256) 0
    { cause := Config.resetRecord.1 % 256, cls := 2, unit := Config.resetRecord.2 % 256, slice := none, where_ := 0 }) s
  let s2 := endLaunches s1 (Config.resetTrap % 256) 0 (fun l => decide (l.fn = fn))
  let s3 := (s2.launches.filter (fun l => decide (l.fn = fn))).foldl (fun t l => completeLaunch t { l with stopped := true }) s2
  let s3 := (s3.trees.filter (fun t => decide (t.fn = fn))).foldl (fun t x => treeReport t x.id) s3
  let f := getFn s3 fn
  let s4 := setFn s3 fn { f with queues := [], root := 0, chip := [], chipPoison := [], quiesced := false, captured := false, leaving := [] }
  raiseVector { s4 with
    mailq := s4.mailq.filter (fun e => match e with | .stop i _ => decide (i ≠ fn) | _ => true)
    packets := s4.packets.filter (fun k => decide (k.fn ≠ fn))
    trees := s4.trees.filter (fun t => decide (t.fn ≠ fn))
    edges := s4.edges.filter (fun e => decide (e.1 ≠ fn))
    objs := s4.objs.filter (fun o => decide (o.fn ≠ fn))
    encoded := s4.encoded.filter (fun e => decide (e.1 ≠ fn))
    keys := s4.keys.filter (fun e => !(hasKey f e.1))
    tlb := s4.tlb.filter (fun t => decide (t.fn ≠ fn)) } fn 0
/-- FUNCTION_LEVEL_RESET (R419, R422): one event under the locks of the function's slices; where Aqmal does not run, no function is presented (R393). -/
def execFunctionLevelReset (fn : Nat) (s : State) : Out := .next (if s.boot = .running then whenTurn s (.reset fn) (fun t => resetFn t fn) else s)

end Sys2Proof.Machine
end

