-- ==== Sys2Proof/Machine/Sha.lean ====
section
/-!
DEFINITION. Machine/Sha.lean: SHA-256 and the verification of an RSASSA-PSS signature, as R393 and R396 name them. The constants of
SHA-256 are computed from the primes that define them, so no table stands here.
-/
namespace Sys2Proof.Machine

-- SHA-256

/-- The integer square root, from the bits given down. -/
def sqrtFrom (x : Nat) : Nat → Nat → Nat
  | 0, acc => if (acc + 1) * (acc + 1) ≤ x then acc + 1 else acc
  | b + 1, acc => let t := acc + 2 ^ (b + 1); sqrtFrom x b (if t * t ≤ x then t else acc)
/-- The integer cube root, from the bits given down. -/
def cbrtFrom (x : Nat) : Nat → Nat → Nat
  | 0, acc => if (acc + 1) * (acc + 1) * (acc + 1) ≤ x then acc + 1 else acc
  | b + 1, acc => let t := acc + 2 ^ (b + 1); cbrtFrom x b (if t * t * t ≤ x then t else acc)
def isPrime (n : Nat) : Bool := decide (2 ≤ n) && (List.range n).all (fun d => decide (d < 2 ∨ n % d ≠ 0))
/-- The first 64 primes lie below 312. -/
def primes64 : List Nat := (List.range 312).filter isPrime
/-- 32 bits of the fraction of a square root, and of a cube root. -/
def shaStart : List Nat := (primes64.take 8).map (fun p => sqrtFrom (p * 2 ^ 64) 40 0 % 2 ^ 32)
def shaRound : List Nat := primes64.map (fun p => cbrtFrom (p * 2 ^ 96) 40 0 % 2 ^ 32)

def rotr (x n : Nat) : Nat := (x / 2 ^ n + x * 2 ^ (32 - n)) % 2 ^ 32
def xor3 (a b c : Nat) : Nat := Nat.xor (Nat.xor a b) c
def not32 (x : Nat) : Nat := 2 ^ 32 - 1 - x
/-- The message schedule: sixteen words extended, n more, newest first. -/
def schedule : Nat → List Nat → List Nat
  | 0, w => w
  | n + 1, w =>
    let s0 := let x := w.getD 14 0; xor3 (rotr x 7) (rotr x 18) (x / 2 ^ 3)
    let s1 := let x := w.getD 1 0; xor3 (rotr x 17) (rotr x 19) (x / 2 ^ 10)
    schedule n (((w.getD 15 0 + s0 + w.getD 6 0 + s1) % 2 ^ 32) :: w)
/-- One round on the eight working words. -/
def shaStep (h : List Nat) (kw : Nat × Nat) : List Nat :=
  let a := h.getD 0 0
  let b := h.getD 1 0
  let c := h.getD 2 0
  let e := h.getD 4 0
  let s1 := xor3 (rotr e 6) (rotr e 11) (rotr e 25)
  let ch := Nat.xor (Nat.land e (h.getD 5 0)) (Nat.land (not32 e) (h.getD 6 0))
  let t1 := h.getD 7 0 + s1 + ch + kw.1 + kw.2
  let s0 := xor3 (rotr a 2) (rotr a 13) (rotr a 22)
  let mj := xor3 (Nat.land a b) (Nat.land a c) (Nat.land b c)
  [(t1 + s0 + mj) % 2 ^ 32, a, b, c, (h.getD 3 0 + t1) % 2 ^ 32, e, h.getD 5 0, h.getD 6 0]
def beNat (l : List Byte) : Nat := l.foldl (fun x b => 256 * x + b.toNat) 0
def natBe (n x : Nat) : List Byte := (natLe n x).reverse
def shaBlock (h : List Nat) (blk : List Byte) : List Nat :=
  let w := (List.range 16).map (fun i => beNat (bytesAt blk (4 * i) 4))
  let ws := (schedule 48 w.reverse).reverse
  List.zipWith (fun x y => (x + y) % 2 ^ 32) h ((List.zip shaRound ws).foldl shaStep h)
def shaPad (m : List Byte) : List Byte := m ++ [0x80] ++ List.replicate ((119 - m.length % 64) % 64) 0 ++ natBe 8 (8 * m.length)
/-- SHA-256 of bytes: 32 bytes. -/
def sha256 (m : List Byte) : List Byte :=
  let p := shaPad m
  ((chunksOf 64 (p.length / 64 + 1) p).foldl shaBlock shaStart).flatMap (natBe 4)

-- RSASSA-PSS with SHA-256, MGF1 with SHA-256, a 32-byte salt, a 3,072-bit modulus and exponent 65,537

def squareMod (n : Nat) : Nat → Nat → Nat
  | 0, x => x
  | k + 1, x => squareMod n k (x * x % n)
/-- x to the power 65,537. -/
def power65537 (n x : Nat) : Nat := squareMod n 16 x * x % n
def mgf1 (seed : List Byte) (n : Nat) : List Byte := (((List.range (ceilDiv n 32)).map (fun i => sha256 (seed ++ natBe 4 i))).flatten).take n
/-- The encoded message's highest bit cleared. -/
def clearTop : List Byte → List Byte
  | [] => []
  | b :: l => (b &&& 0x7F) :: l
def xorBytes (a b : List Byte) : List Byte := List.zipWith (fun x y => x ^^^ y) a b
/-- The signature of bytes m: a modulus of 384 bytes, stored least significant byte first (R1), and a signature, the octet string that RSASSA-PSS makes
(log entry 9). -/
def pssOk (modulus sig m : List Byte) : Bool :=
  let n := leNat modulus
  let s := beNat sig
  -- the modulus has 3,072 bits, so the encoded message has 3,071 bits in 384 bytes
  let em := natBe 384 (power65537 n s)
  let db0 := xorBytes (em.take 351) (mgf1 (bytesAt em 351 32) 351)
  let db := clearTop db0
  let salt := db.drop 319
  decide (0 < n ∧ s < n) && decide ((em.getD 383 0) = 0xBC) && decide ((em.getD 0 0) < 128) && (db.take 318).all (fun b => b == 0) && decide (db.getD 318 0 = 1) &&
    decide (bytesAt em 351 32 = sha256 (List.replicate 8 0 ++ sha256 m ++ salt))
/-- The RSASSA-PSS signature of bytes m with a salt, under a modulus and a private exponent. -/
def pssSign (n d : Nat) (salt m : List Byte) : List Byte :=
  let h := sha256 (List.replicate 8 0 ++ sha256 m ++ salt)
  let db := clearTop (xorBytes (List.replicate 318 0 ++ [1] ++ salt) (mgf1 h 351))
  natBe 384 (beNat (db ++ h ++ [0xBC]) ^ d % n)

end Sys2Proof.Machine
end

