-- ==== Sys2Proof/Machine/Service.lean ====
section
/-!
DEFINITION. Machine/Service.lean: events of memory, links, clocks and power, and the host's accesses (19 R372, R373; 22 R398 to R406;
20 R381, R383, R391; 21 R393; 01 R20; 09 R199).
-/
namespace Sys2Proof.Machine

/-- Aqmal runs and the host link presents its functions (R393). -/
def running (s : State) : Bool := decide (s.boot = .running)

/-- PAGE_WALK (R372, R373), by the walker of a slice: a leaf enters the translation cache; a failure leaves nothing. -/
def execPageWalk (walker : Nat × Nat) (va : Nat) (s : State) : Out :=
  let fn := walker.1
  .next (if 2251799813685248 ≤ va ∨ (tlbFind s fn va).isSome then s
    else match walk s fn va with
      | .error x => walkRecord s fn x va (some walker.2)
      | .ok (leaf, lv, _) => { s with tlb := s.tlb ++ [{ fn := fn, base := va / pageSize lv * pageSize lv, size := pageSize lv, leaf := leaf }] })

-- memory (R399, R400, R404)

/-- The channel that holds a sector. -/
def channelOf (sec : Nat) : Nat := 3 * sliceOfSpa (32 * sec) + Config.channelWithin sec % 3
/-- A record of a sector: its owner, its slice, its SPA; a storage error gives its syndrome. -/
def sectorRecord (s : State) (sec cause cls unit : Nat) : State :=
  errorRecord s ((fnOfSpa s (32 * sec)).getD 0) { cause := cause, cls := cls, unit := unit, slice := some (sliceOfSpa (32 * sec)), where_ := 32 * sec,
                                                  detail := Config.syndrome s.now % 65536, ix := channelOf sec % 3 }
/-- One corrected error of a channel, in its window of 1 s; the count that passes 4,096 asks for a step. -/
def countCorrected (now : Nat) (c : Chan) : Chan :=
  let w := now / 1000000000
  if c.window = w then { c with errors := c.errors + 1, due := c.due || decide (c.errors = 4096) } else { c with window := w, errors := 1 }
/-- A corrected error of a sector: counted on its channel (R404) and recorded. -/
def correctedSector (s : State) (sec : Nat) : State :=
  let k := channelOf sec
  sectorRecord { s with chans := smSet {} s.chans k (countCorrected s.now (smGet {} s.chans k)) } sec 1 0 5
/-- Units that transform a datum and deliver it to a sector: a copy engine, a render output stage, an encoder lane (R398). -/
def transforms (unit : Nat) : Bool := unit == 8 || unit == 10 || unit == 11
/-- A sector is found poisoned, by a patrol or a fill, or receives the result of a second path mismatch (R398): the record then names the unit that computed it, by its slice
and its index in it (R403). -/
def poisonSector (s : State) (sec unit slice idx : Nat) : State :=
  let t := { s with poison := smSet false s.poison sec true }
  if transforms unit ∧ slice < 16 then
    sliceRecord t slice { cause := 2, cls := 1, unit := unit, slice := none, where_ := idx, detail := Config.syndrome s.now % 65536, ix := idx }
  else sectorRecord t sec 2 1 unit
/-- PATROL_READ (R399): Aqmal reads a sector; where it does not run, nothing does (R393). -/
def execPatrolRead (sec : Nat) (found : Check) (s : State) : Out :=
  if gddrBytes / 32 ≤ sec then .fault .spaAbsent
  else if ¬ running s then .next s
  else match found with
    | .clean => .next s
    | .corrected => .next (correctedSector s sec)
    | .uncorrectable => .next (poisonSector s sec 5 0 0)
def nextRate (r : Nat) : Nat := if r = 40 then 32 else 24
/-- CHANNEL_STEP (R404), by Aqmal: once for a window whose count has passed 4,096; retraining begins, and what may access the channel waits for its end
(`retraining`). -/
def execChannelStep (ch : Nat) (s : State) : Out :=
  let c := smGet {} s.chans ch
  .next (if ¬ running s ∨ 48 ≤ ch ∨ ¬ c.due ∨ c.rate ≤ 24 then s
    else
      let r := nextRate c.rate
      sliceRecord { s with chans := smSet {} s.chans ch { c with rate := r, due := false, training := true } } (ch / 3)
        { cause := 7, cls := 3, unit := 5, slice := none, where_ := ch % 3, detail := r })
def execChannelRetrainDone (ch : Nat) (s : State) : Out :=
  .next { s with chans := smSet {} s.chans ch { (smGet {} s.chans ch) with training := false } }

/-- A channel that retrains: no access moves before it has done (R404). -/
def retraining (s : State) : Option Nat := (findFirst (fun e => e.2.training) s.chans).map (·.1)
def trained (m : SMap Chan) : SMap Chan := m.foldl (fun a e => smSet {} a e.1 { e.2 with training := false }) []

-- clocks (R406)

def setClock (s : State) (die clock : Nat) : State :=
  errorRecord { s with dies := setAt s.dies die { (s.dies.getD die {}) with clock := clock, changed := s.now } } 0
    { cause := 8, cls := 3, unit := 19, slice := none, where_ := die, detail := clock }
/-- THERMAL: one step of 100 MHz down, to no less than 1.0 GHz. -/
def execThermal (die : Nat) (s : State) : Out :=
  let c := (s.dies.getD die {}).clock
  .next (if die < 2 ∧ 10 < c then setClock s die (c - 1) else s)
/-- CLOCK_STEP_UP: one step for each millisecond since the last change, to 2.0 GHz. -/
def execClockStepUp (die : Nat) (s : State) : Out :=
  let d := s.dies.getD die {}
  .next (if die < 2 ∧ d.clock < 20 ∧ d.changed + 1000000 ≤ s.now then setClock s die (d.clock + 1) else s)
def execThermalTrip (die : Nat) (s : State) : Out := .next (if die < 2 then { s with thermalTrip := true } else s)

-- power (R20, R393)

/-- What LOCK, base and size of a die's carve-out register become. -/
def carveReg (die : Nat) : DWord := BitVec.ofNat 64 (1 + Config.carveOut die % 4294967296 * 1048576)
/-- The SPA of a die's carve-out and its bytes. -/
def carveRange (s : State) (die : Nat) : Nat × Nat :=
  let r := (s.carve.getD die 0).toNat
  (die * (gddrBytes / 2) + bits r 35 20 * 1048576, bits r 51 36 * 1048576)
/-- Why the ROM refuses an image (R393): 1 a bad signature, 2 rollback. A header that no image has counts as a bad signature. -/
def imageFault (body modulus sig : List Byte) : Option Nat :=
  if fieldAt body 0 4 ≠ 0x4C4D5141 ∨ fieldAt body 12 4 % 64 ≠ 0 ∨ fieldAt body 12 4 = 0 then some 1
  else if sha256 modulus ≠ Config.fusedKeyHash ∨ ¬ pssOk modulus sig body then some 1
  else if fieldAt body 8 4 < Config.fusedMinSvn then some 2
  else none
def bootFail (s : State) (code : Nat) : State := { s with boot := .failed code, bootWord := BitVec.ofNat 64 code }
/-- POWER_UP (R393): both boot ROMs lock their carve-outs, copy the image that the boot word names (body, modulus and signature, by the length that its header
gives), check the copies and start Aqmal. -/
def execPowerUp (s : State) : Out :=
  .next (if s.boot ≠ .rom ∧ s.boot ≠ .off then s
    else
      let s1 := { s with carve := [carveReg 0, carveReg 1] }
      let at_ := s1.bootWord.toNat
      let n := fieldAt (memRead s1 aqmalKey at_ 16) 12 4
      let image := memRead s1 aqmalKey at_ (n + 768)
      let s2 := [0, 1].foldl (fun t d => memWrite t aqmalKey (carveRange t d).1 image) s1
      let copy (d : Nat) : List Byte := memRead s2 aqmalKey (carveRange s2 d).1 (n + 768)
      let body (d : Nat) : List Byte := (copy d).take n
      match imageFault (body 0) (bytesAt (copy 0) n 384) (bytesAt (copy 0) (n + 384) 384) with
      | some c => bootFail s2 c
      | none =>
        if sha256 (body 0) ≠ sha256 (body 1) then bootFail s2 3
        else { s2 with boot := .running, measurement := sha256 (body 0), svn := fieldAt (body 0) 8 4 })
/-- POWER_REMOVAL (R20): all device state is lost; host memory is not the device's. -/
def execPowerRemoval (s : State) : Out :=
  .next { State.reset with agenda := s.agenda, mem := s.mem.filter (fun c => decide (hostBase ≤ c.1)), boot := .off }

-- links (R381, R398)

/-- Modules of the die-to-die link and of the host link (R381). -/
def linkModules (link : Nat) : Nat := if link = 0 then 8 else 4
/-- LINK_DOWN: link 0 is die 0 to die 1, link 1 the host die. -/
def execLinkDown (link : Nat) (s : State) : Out :=
  let n := s.linksDown.getD link 0
  .next (if 2 ≤ link ∨ linkModules link ≤ n then s
    else errorRecord { s with linksDown := setAt s.linksDown link (n + 1) } 0
      { cause := 12, cls := 3, unit := 14 + link, slice := none, where_ := n, ix := n })
/-- A host access through BAR 2 that does not translate writes a record with the cause of R376 (R383). -/
def barFailed (s : State) (fn : Nat) (x : XErr × Nat) : State :=
  errorRecord (walkRecord s fn x.1 x.2) fn { cause := 11, cls := 1, unit := 15, slice := none, where_ := x.2, detail := x.1.cause }
/-- A datum is delivered poisoned to a core's L1 (R398, R400): the poison covers what the core has not stored there (R206). -/
def poisonDelivered (s : State) (core sec key : Nat) : State :=
  let s1 := match l1Find s core sec with
    | some x => if x.key = key then s else evictSec s x
    | none => s
  let x := (l1Find s1 core sec).getD { core := core, sec := sec, data := List.replicate 32 0, dirty := List.replicate 32 false, valid := true, key := key }
  if x.dirty.all id && x.dirty.length == 32 then s1
  else { s1 with l1 := l1Put s1.l1 { x with poison := true, valid := true, fresh := (List.range 32).map (fun i => x.dirty.getD i false && (!x.poison || x.fresh.getD i false)) } }
/-- The record of a link's retries, or of the datum that it delivers poisoned after the ninth failing arrival. -/
def retryRecord (s : State) (fn fails : Nat) (e : ErrRec) : State :=
  if fails < 9 then errorRecord s fn { e with cause := 3, cls := 0, count := fails } else errorRecord s fn { e with cause := 4, cls := 1 }
/-- The function that owns a sector's address; the physical function has those that no window holds (R402). -/
def fnOfSec (s : State) (sec : Nat) : Nat := (fnOfSpa s (32 * sec)).getD 0
/-- The record of a link that all slices share, for a sector (R403). -/
def linkRecord (s : State) (sec unit fails : Nat) : State := retryRecord s (fnOfSec s sec) fails { cause := 3, cls := 0, unit := unit, slice := none, where_ := 0 }
/-- The fabric port of a copy's unit (R386). -/
def portOf (c : Copy) : Nat := Config.portOf c.id % 16
-- messages of other packages (R387, R390)

/-- The pair is on a function's admission list (R387). -/
def admitted (s : State) (fn pkg srcFn : Nat) : Bool := (getFn s fn).admission.any (fun e => decide (e.2 = (pkg, srcFn, true)))
/-- A message or an answer has come from a package (R390). -/
def heardFrom (s : State) (pkg : Nat) : State := { s with heard := smSet 0 s.heard pkg s.now }
def reply (s : State) (pkg : Nat) (r : AckResult) : State := { s with fabric := .reply pkg r :: s.fabric }
/-- Refusal reasons 1 and 2 of R387, else what follows. -/
def ifAdmitted (s : State) (fn pkg srcFn : Nat) (k : State) : State :=
  if ¬ running s then s
  else if ¬ admitted s fn pkg srcFn then reply s pkg (.refused 1)
  else if (getFn s fn).slices = [] then reply s pkg (.refused 2)
  else k

/-- A core's L1 writes a sector back, and the L2 receives it poisoned (R398, R400). -/
def poisonedBack (s : State) (core sec : Nat) : State :=
  match l1Find s core sec with
  | none => s
  | some x => if isDirty x then (let t := evictSec s x; { t with poison := smSet false t.poison sec true }) else s
/-- The record of a beat between a core and the L2 of its slice: of the structure that receives it (R403). -/
def beatRecord (s : State) (core unit place fails : Nat) : State :=
  retryRecord s ((fnOfSlice s (sliceOfCore core)).getD 0) fails
    { cause := 3, cls := 0, unit := unit, slice := some (sliceOfCore core), where_ := place, ix := core % 24 }
/-- The record of a beat of a sector between a core and the L2, the host link or the die-to-die link. -/
def hopRecord (s : State) (core sec unit : Nat) (die : Bool) (fails : Nat) : State :=
  if die then linkRecord s sec 14 fails
  else if isHostSec sec then linkRecord s sec 15 fails else beatRecord s core unit (32 * sec) fails
/-- A datum of a function's chip scratchpad on its way between a core and the L2 (R167). -/
def chipRecord (s : State) (core fn place unit : Nat) (die : Bool) (fails : Nat) : State :=
  if die then retryRecord s fn fails { cause := 3, cls := 0, unit := 14, slice := none, where_ := 0 } else beatRecord s core unit place fails
/-- What receives what a copy reads: the die-to-die link, the host link, a fabric port for CPYR, else its copy engine. -/
def copyHop (c : Copy) (link : Nat) : ErrRec :=
  if link = 1 ∨ link = 2 then { cause := 3, cls := 0, unit := 13 + link, slice := none, where_ := 0 }
  else if c.kind = .cpyr then { cause := 3, cls := 0, unit := 16, slice := none, where_ := portOf c, ix := portOf c }
  else { cause := 3, cls := 0, unit := 8, slice := some (c.eng / 2), where_ := c.eng % 2, ix := c.eng % 2 }
/-- What stands at an address of a function, n bytes of it, has been delivered poisoned: each sector that it touches. -/
def poisonBytes (s : State) (fn va n : Nat) : State :=
  (List.range ((va + n + 31) / 32 - va / 32)).foldl (fun t i => match translate t fn (32 * (va / 32 + i)) .w with
    | .error _ => t
    | .ok q => { t with poison := smSet false t.poison (q.spa / 32) true }) s
/-- LINK_RETRY (R398): a datum is asked for again after each failing arrival, 8 times at most; after the ninth it is delivered poisoned: a sector to the L2,
or on to a core's L1, a unit to its copy, which fails, a write-back, an agent's write, a store to the chip scratchpad or what the host writes through BAR 2 to the sectors it lands
in, and what the host reads there to the host. A flit of another package then writes nothing, and its
sender is told (R400). What only a reader receives (a sector of host memory, or one that no L1 keeps) is `Turn.delivered` (log entry 68). -/
def execLinkRetry (hop : Hop) (fails : Nat) (s : State) : Out :=
  let given (core sec key : Nat) : State := if fails < 9 then s else poisonDelivered s core sec key
  .next (if fails = 0 ∨ 9 < fails then s
    else match hop with
      | .sector sec =>
        if isHostSec sec then linkRecord s sec 15 fails
        else
          let s1 := if fails < 9 then s else { s with poison := smSet false s.poison sec true }
          retryRecord s1 (fnOfSec s sec) fails { cause := 3, cls := 0, unit := 5, slice := some (sliceOfSpa (32 * sec)), where_ := 32 * sec, ix := channelOf sec % 3 }
      | .write sec die =>
        let s1 := if fails < 9 then s else { s with poison := smSet false s.poison sec true }
        if die then linkRecord s1 sec 14 fails
        else if isHostSec sec then linkRecord s1 sec 15 fails
        else retryRecord s1 (fnOfSec s sec) fails { cause := 3, cls := 0, unit := 4, slice := some (sliceOfSpa (32 * sec)), where_ := 32 * sec }
      | .beat core sec key die => hopRecord (given core sec key) core sec 2 die fails
      | .fetch core sec die => hopRecord s core sec 3 die fails
      | .reply core sec die => hopRecord s core sec 2 die fails
      | .back core sec die => hopRecord (if fails < 9 then s else poisonedBack s core sec) core sec 4 die fails
      | .chip core fn sec store die =>
        if chipExtent (getFn s fn) ≤ 32 * sec then s
        else if store then chipRecord (if fails < 9 then s else setFn s fn { getFn s fn with chipPoison := smSet false (getFn s fn).chipPoison sec true }) core fn (32 * sec) 4 die fails
        else chipRecord s core fn (32 * sec) 2 die fails
      | .bar fn va bytes =>
        if ¬ running s ∨ 68719476736 < va + bytes.length then s
        else
          let t := retryRecord s fn fails { cause := 3, cls := 0, unit := 15, slice := none, where_ := 0 }
          if fails < 9 then t
          else match agentWrite t fn va bytes with
            | .ok u => poisonBytes u fn va bytes.length
            | .error x => barFailed t fn x
      | .barRead fn =>
        if ¬ running s then s
        else
          let t := retryRecord s fn fails { cause := 3, cls := 0, unit := 15, slice := none, where_ := 0 }
          if fails < 9 then t else { t with hostData := none }
      | .flit pkg srcFn fn port =>
        if ¬ running s ∨ 16 ≤ port then s
        else
          let t := retryRecord (heardFrom s pkg) fn fails { cause := 3, cls := 0, unit := 16, slice := none, where_ := port, ix := port }
          if fails < 9 then t else ifAdmitted t fn pkg srcFn (reply t pkg .poisoned)
      | .copy id link => match findFirst (fun c => decide (c.id = id)) s.copies with
        | none => s
        | some c =>
          let s1 := retryRecord s c.fn fails (copyHop c link)
          if fails < 9 then s1 else failCopy s1 c ⟨6, 0⟩ 0 false)

/-- The servo of a slice's time base (R391): the first message sets it, later ones only slew its rate, by at most 200 ppm. -/
def discipline (now ns : Nat) (b : TimeBase) : TimeBase :=
  if b.set then { b with rate := satI (Config.slewRate now) (-200) 200 } else { b with value := ns, set := true }
/-- PTP_EVENT_MESSAGE (R16, R391): a message of the path that a partition takes its time from disciplines the bases of its slices. -/
def execPtpEventMessage (source : Nat × Bool) (ns : DWord) (s : State) : Out :=
  .next (if ¬ running s ∨ source.2 ≠ Config.fabricTime source.1 then s
    else { s with bases := (getFn s source.1).slices.foldl (fun m p => smSet {} m p (discipline s.now ns.toNat (smGet {} m p))) s.bases })

-- the host (R383, R199)

/-- HOST_BAR_ACCESS (R383): through BAR 2, at the L2; poisoned data is marked so (R400). -/
def execHostBarAccess (fn va : Nat) (acc : BarAccess) (s : State) : Out :=
  .next (if ¬ running s then s
    else match acc with
      | .read n =>
        if 68719476736 < va + n then s
        else match agentRead s fn va n with
          | .ok b => { s with hostData := some b }
          | .error (⟨6, 0⟩, _) => { s with hostData := none }
          | .error x => { barFailed s fn x with hostData := some (List.replicate n 0xFF) }
      | .write bs =>
        if 68719476736 < va + bs.length then s
        else match agentWrite s fn va bs with
          | .ok t => t
          | .error x => barFailed s fn x)
/-- HOST_WRITE (R199): a host write reaches host memory at an offset; dirty bytes of its sectors that an L1 holds come first (log entry 69). -/
def execHostWrite (off : Nat) (bytes : List Byte) (s : State) : Out :=
  let a := hostBase + off
  .next (if hostBase < off + bytes.length then s
    else memWrite ((List.range ((a + bytes.length + 31) / 32 - a / 32)).foldl (fun t i => callBack t (a / 32 + i) (fun _ => true)) s) 0 a bytes)

end Sys2Proof.Machine
end

