-- ==== Sys2Proof/Machine/Mailbox.lean ====
section
/-!
DEFINITION. Machine/Mailbox.lean: a function's mailbox in BAR 0 (21 R394, R395) and host writes to its registers.
-/
namespace Sys2Proof.Machine

/-- No SPLIT, MOVE or CAPTURE of the physical function is under way any more: what one that goes with its request had taken out of placement or quiesced goes on
(R354, R394; log entry 43). -/
def endUnderway (s : State) : State := { s with fns := s.fns.map (fun f => { f with leaving := [], quiesced := f.captured }) }
/-- Completion (R394): resp, status, done, then vector 0. A request that was under way still has gone with its number, and so has a RATOMIC that is unanswered. -/
def complete (s0 : State) (fn status : Nat) (resp : List (Nat × List Byte)) : State :=
  let s := if fn = 0 then endUnderway s0 else s0
  let f := getFn s fn
  let f1 := resp.foldl (fun g r => { g with bar0 := smSetMany 0 g.bar0 r.1 r.2 }) f
  serveEvents (raiseVector (setFn { dropEvent s (.request fn) with ratomic := if fn = 0 then none else s.ratomic } fn (bar0Write (bar0Write f1 10 2 status) 4 4 (reqSeq f))) fn 0)

/-- The request codes reserved to the physical function. -/
def physicalOnly (op : Nat) : Bool := (decide (1 ≤ op) && decide (op ≤ 5)) || op == 0x10 || op == 0x18 || op == 0x19 || op == 0x1A
/-- A write of seq posts an event: a wrong number completes at once, and so does a code that no row lists. -/
def post (s : State) (fn : Nat) : State :=
  let f := getFn s fn
  if ¬ outstanding f then complete s fn 2 []
  else if physicalOnly (reqOp f) ∧ fn ≠ 0 then complete s fn 4 []
  else if unlisted f then complete s fn 2 []
  else joinQueue s (.request fn)
/-- The bytes of BAR 0 that the host writes (R394, R402); reserved ones stay 0 (R2). -/
def hostWritable (a : Nat) : Bool :=
  decide (a < 4) || (decide (8 ≤ a) && decide (a < 10)) || decide (a = 12) || (decide (16 ≤ a) && decide (a < 256)) || (decide (4100 ≤ a) && decide (a < 4104))
/-- Where the physical function's boot word stands among the registers (R393 gives it no offset; log entry 20). -/
def bootWordAt : Nat := 65536
def writeBoot (w : DWord) (off : Nat) (bs : List Byte) : DWord := BitVec.ofNat 64 (leNat (putBytes (natLe 8 w.toNat) off bs))
/-- REGISTER_WRITE (R394, R402): bytes of read-only registers are left. -/
def execRegisterWrite (fn off : Nat) (bytes : List Byte) (s : State) : Out :=
  .next (if fn = 0 ∧ bootWordAt ≤ off then
      (if off + bytes.length ≤ bootWordAt + 8 then { s with bootWord := writeBoot s.bootWord (off - bootWordAt) bytes } else s)
    else if ¬ running s then s
    else
      let f := getFn s fn
      let b := (List.zip (List.range bytes.length) bytes).foldl (fun m e => if hostWritable (off + e.1) then smSet 0 m (off + e.1) e.2 else m) f.bar0
      let s1 := setFn s fn { f with bar0 := b }
      if off < 4 ∧ 0 < bytes.length then post s1 fn else s1)

/-- Every args byte that a request does not name is zero (R395). -/
def restZero (f : Fn) (used : List (Nat × Nat)) : Bool :=
  f.bar0.all (fun e => decide (e.1 < 16 ∨ 256 ≤ e.1) || used.any (fun u => decide (u.1 ≤ e.1 ∧ e.1 < u.1 + u.2)))
/-- Serves an outstanding request whose turn it is: a virtual function that names another one receives status 4, a reserved byte status 2 (R395). -/
def request (fn op sub : Nat) (names : Bool) (used : Fn → List (Nat × Nat)) (k : Fn → State) (s : State) : Out :=
  let f := getFn s fn
  .next (if ¬ running s ∨ 17 ≤ fn ∨ ¬ outstanding f ∨ reqOp f ≠ op ∨ reqSub f ≠ sub ∨ ¬ requestTurn s fn then s
    else if (physicalOnly op ∧ fn ≠ 0) ∨ (names ∧ fn ≠ 0 ∧ arg f 16 1 ≠ fn) then complete s fn 4 []
    else if ¬ restZero f (used f) then complete s fn 2 []
    else k f)
/-- A posted request whose code the host has since overwritten with one that no row lists completes with status 2 when its turn comes (R394). -/
def badRequest (fn : Nat) (s : State) : State :=
  if running s ∧ fn < 17 ∧ outstanding (getFn s fn) ∧ unlisted (getFn s fn) ∧ requestTurn s fn then complete s fn 2 [] else s
/-- The event of a request is enabled. -/
def requestReady (s : State) (fn op sub : Nat) : Bool :=
  let f := getFn s fn
  running s && decide (fn < 17) && outstanding f && decide (reqOp f = op ∧ reqSub f = sub) && requestTurn s fn

end Sys2Proof.Machine
end

