-- ==== Sys2Proof/Machine/Partition.lean ====
section
/-!
DEFINITION. Machine/Partition.lean: requests that change a partition: FUSE, SPLIT, MOVE, WAYS and KEYS (18 R354 to R361; 19 R378).
-/
namespace Sys2Proof.Machine

/-- The slice indirection table (R349). -/
def tableBytes (f : Fn) : List Byte := (List.range 16).map (fun i => match f.slices[i]? with | some p => BitVec.ofNat 8 (128 + p) | none => 0)
def allFns (s : State) : List Nat := List.range s.fns.length
def sliceFree (s : State) (p : Nat) : Bool := (fnOfSlice s p).isNone
def defaultWays (p : Nat) : List Nat := (List.range 4).map (fun i => 4 * p + i)
/-- The key blocks of a slice in its default shape (R361): eight of 64 keys. -/
def defaultBlocks (p : Nat) : BitVec 128 := BitVec.ofNat 128 255 <<< (8 * p)
/-- The key blocks of the range that a physical slice brings, which MOVE exchanges (R357). -/
def blocksOf (s : State) (p : Nat) : BitVec 128 := defaultBlocks (s.ranges.getD p p)
def heldBlocks (s : State) (but : Nat) : BitVec 128 := ((allFns s).filter (fun i => decide (i ≠ but))).foldl (fun m i => m ||| (getFn s i).keyBlocks) 0

/-- The store queues of the groups of functions that a test picks drain. -/
def drainFns (s : State) (p : Nat → Bool) : State :=
  (allGroups s).foldl (fun t h => if p h.ctx.fn ∧ h.phase ≠ .none then withGroup t h.id drainStq else t) s
/-- INVAL of runs of a function's addresses (R379): stores and dirty bytes reach the L2, then no translation of the run is left. -/
def invalSpace (s : State) (fn : Nat) (hit : Tlb → Bool) : State :=
  let s1 := drainFns s (fun i => i == fn)
  let s2 := cleanL1 s1 (fun x => ownCore s1 fn x.core)
  { s2 with tlb := s2.tlb.filter (fun t => !(decide (t.fn = fn) && hit t)) }

-- FUSE (R355)

def fuseList (f : Fn) : List Nat := (List.range (min (arg f 17 1) 16)).map (fun i => arg f (24 + i) 1)
/-- Slices join a table with the ways and the key blocks that no other function holds, and take the partition's time base. -/
def fuseInto (s : State) (fn : Nat) (l : List Nat) : State :=
  let f := getFn s fn
  let base := baseOf s fn
  let s := if f.slices = [] then s else { s with bases := l.foldl (fun m p => smSet {} m p base) s.bases }
  let new := ((l.map defaultWays).flatten).filter (fun w => (fnOfWay s w).isNone)
  setFn s fn { f with slices := f.slices ++ l, cacheWays := f.cacheWays ++ new,
                      keyBlocks := f.keyBlocks ||| (l.foldl (fun m p => m ||| blocksOf s p) 0 &&& ~~~ heldBlocks s fn) }
/-- Every die that a partition spans has one of its cache ways (R358). -/
def onDie (f : Fn) (die : Nat) : Bool := f.slices.any (fun p => decide (p / 8 = die))
def cachesOk (f : Fn) : Bool := [0, 1].all (fun d => !(onDie f d) || f.cacheWays.any (fun w => decide (w / 32 = d)))
/-- The status of FUSE: a limit of R358 that it would break makes it invalid, as it makes a SPLIT (log entry 58). -/
def fuseStatus (s : State) (fn n : Nat) (l : List Nat) : Nat :=
  if 17 ≤ fn ∨ n = 0 ∨ 16 < n ∨ l.any (fun p => decide (16 ≤ p)) ∨ l.eraseDups.length ≠ l.length ∨ 16 < (getFn s fn).slices.length + n then 2
  else if l.any (fun p => !sliceFree s p) then 3 else if ¬ cachesOk (getFn (fuseInto s fn l) fn) then 2 else 0
def execFuse (fn : Nat) (s : State) : Out :=
  request fn 0x01 0 true (fun f => [(16, 2), (24, min (arg f 17 1) 16)]) (fun f =>
    let t := arg f 16 1
    let st := fuseStatus s t (arg f 17 1) (fuseList f)
    if st ≠ 0 then complete s fn st []
    else let s1 := fuseInto s t (fuseList f); complete s1 fn 0 [(256, tableBytes (getFn s1 t))]) s

-- evictions of whole slices (R356, R357, R423)

/-- Pre-empts every team on regions that a test picks. -/
def evictRegions (s : State) (p : Nat → Bool) : State :=
  let ids := (s.teams.filter (fun t => t.resident && p t.region)).map (·.id)
  let hit (h : Group) : Group := if ids.contains h.team && decide (h.phase ≠ .none) && decide (h.phase ≠ .saved) then { h with preempt := true } else h
  settleTeams { s with g := hit s.g, others := s.others.map hit, teams := updIf (fun t => ids.contains t.id) (fun t => { t with evicting := true }) s.teams }
def sliceOfRegion (r : Nat) : Nat := r / 3
def regionBusy (s : State) (p : Nat → Bool) : Bool :=
  s.teams.any (fun t => t.resident && p t.region) || (allGroups s).any (fun h => residentGroup h && p (regionOf h.core))
/-- A slice hosts or lends an array. -/
def leaseOn (s : State) (p : Nat) : Bool :=
  s.leases.any (fun l => decide ((arrAt s l.key).lease = some l.id) && (decide (sliceOfRegion l.host = p) || decide (l.key / 6 = p)))
/-- An encoder frame in a slice's lane has all its tiles and is not encoded. -/
def frameWaits (s : State) (p : Nat) : Bool := s.frames.any (fun f => frameFull f && decide (frameLane s f = p))
def stageBusy (s : State) (fn p : Nat) : Bool := s.inserts.any (fun r => decide (r.fn = fn ∧ (getFn s fn).slices[tgStage r.target]? = some p) && !r.parked)
/-- What a slice's cores hold goes back or is dropped; regions reserved there are free again. -/
def clearSlice (s : State) (p : Nat) : State :=
  let s1 := flushL1 s (fun x => decide (sliceOfCore x.core = p))
  { s1 with icache := s1.icache.filter (fun e => decide (sliceOfCore e.1 ≠ p)), reserved := s1.reserved.filter (fun e => decide (sliceOfRegion e.1 ≠ p)) }

-- SPLIT (R356)

/-- The physical slices that a mask of logical ones names. -/
def maskSlices (f : Fn) (m : Nat) : List Nat := (List.zip (List.range f.slices.length) f.slices).filterMap (fun e => if bitOf m e.1 then some e.2 else none)
def splitBusy (s : State) (fn : Nat) (l : List Nat) : Bool :=
  l.any (fun p => (getFn s fn).spadWays.any (fun w => decide (sliceOfWay w = p)) || s.passes.any (fun q => decide (q.slice = p)) || frameWaits s p || leaseOn s p)
/-- Everything of the slices has drained. -/
def splitDrained (s : State) (fn : Nat) (l : List Nat) : Bool :=
  l.all (fun p => !(regionBusy s (fun r => decide (sliceOfRegion r = p))) && !(stageBusy s fn p) && !(s.copies.any (fun c => decide (c.eng / 2 = p))))
/-- A function without some slices, their own cache ways and key range; ways and key blocks that WAYS or KEYS moved in from another slice stay with it, also where it keeps no slice of
that die (R10 and R356 say nothing of these; log entry 54). -/
def withoutSlices (f : Fn) (l : List Nat) : Fn :=
  { f with slices := f.slices.filter (fun p => !l.contains p), cacheWays := f.cacheWays.filter (fun w => !l.contains (sliceOfWay w)) }
/-- Steps 4 to 6: the partition's L1s go back to the L2 ways that leave (R360), the slices leave with their ways and their key ranges, whose values are erased,
and their time bases are scrubbed; the new logical slice 0 goes on with the partition's. -/
def removeSlices (s : State) (fn : Nat) (l : List Nat) : State :=
  let base := baseOf s fn
  let s1 := endBorrowed (l.foldl clearSlice (cleanL1 s (fun x => ownCore s fn x.core))) fn
  let f := getFn s1 fn
  let gone := l.foldl (fun m p => m ||| blocksOf s p) 0 &&& f.keyBlocks
  let f1 := { withoutSlices f l with keyBlocks := f.keyBlocks &&& ~~~ gone, leaving := [] }
  let bases := l.foldl (fun m p => smSet {} m p {}) s1.bases
  { setFn s1 fn f1 with keys := s1.keys.filter (fun e => !(gone.getLsbD (e.1 / 64))),
                        bases := match f1.slices.head? with | none => bases | some p => smSet {} bases p base }
def execSplit (fn : Nat) (s : State) : Out :=
  request fn 0x02 0 true (fun _ => [(16, 1), (24, 2)]) (fun a =>
    let t := arg a 16 1
    let m := arg a 24 2
    let f := getFn s t
    let l := maskSlices f m
    if 17 ≤ t ∨ m = 0 ∨ 2 ^ f.slices.length ≤ m ∨ ¬ cachesOk (withoutSlices f l) then complete s fn 2 []
    else if splitBusy s t l then complete (setFn s t { f with leaving := [] }) fn 1 []
    else if splitDrained s t l ∧ f.leaving = l then let s1 := removeSlices s t l; complete s1 fn 0 [(256, tableBytes (getFn s1 t))]
    else evictRegions (setFn s t { f with leaving := l }) (fun r => l.contains (sliceOfRegion r))) s

-- MOVE (R357)

def moveWay (p q w : Nat) : Nat := if sliceOfWay w = p then w + 4 * q - 4 * p else w
/-- A function after its slice at a logical index has moved. -/
def movedFn (f : Fn) (ix p q : Nat) : Fn :=
  { f with slices := setAt f.slices ix q, cacheWays := f.cacheWays.map (moveWay p q), spadWays := f.spadWays.map (moveWay p q), leaving := [] }
/-- Steps 2 to 4: one table entry is rewritten, ways take the target's place, and the key range, the time base, engine queues and passes go along; the target's
key range goes to the slice that is free now. -/
def moveSlice (s : State) (fn ix p q : Nat) : State :=
  let s1 := clearSlice (cleanL1 s (fun x => ownCore s fn x.core)) p
  let s2 := setFn s1 fn (movedFn (getFn s1 fn) ix p q)
  { s2 with ranges := setAt (setAt s2.ranges q (s2.ranges.getD p p)) p (s2.ranges.getD q q)
            bases := smSet {} (smSet {} s2.bases q (smGet {} s2.bases p)) p {}
            copies := updIf (fun c => decide (c.eng / 2 = p)) (fun c => { c with eng := 2 * q + c.eng % 2 }) s2.copies
            passes := updIf (fun x => decide (x.slice = p)) (fun x => { x with slice := q }) s2.passes }
/-- A die carries at most 8 scratchpad ways (R8, R358). -/
def spadsOk (l : List Fn) : Bool := [0, 1].all (fun d => decide (((l.map (fun f => (f.spadWays.filter (fun w => decide (w / 32 = d))).length)).sum) ≤ 8))
/-- The target is free, and so are the ways that the moving slice needs there, within the limits of R358. -/
def targetFree (s : State) (fn ix p q : Nat) : Bool :=
  let f := movedFn (getFn s fn) ix p q
  sliceFree s q && ((waysOf (getFn s fn)).filter (fun w => decide (sliceOfWay w = p))).all (fun w => (fnOfWay s (moveWay p q w)).isNone) &&
  cachesOk f && spadsOk (setAt s.fns fn f)
def execMove (fn : Nat) (s : State) : Out :=
  request fn 0x03 0 true (fun _ => [(16, 1), (24, 2)]) (fun a =>
    let t := arg a 16 1
    let ix := arg a 24 1
    let q := arg a 25 1
    let f := getFn s t
    let p := f.slices.getD ix 0
    if 17 ≤ t ∨ f.slices.length ≤ ix ∨ 16 ≤ q then complete s fn 2 []
    else if ¬ targetFree s t ix p q then complete (setFn s t { f with leaving := [] }) fn 3 []
    else if leaseOn s p then complete (setFn s t { f with leaving := [] }) fn 1 []
    else if ¬ regionBusy s (fun r => decide (sliceOfRegion r = p)) ∧ f.leaving = [p] then let s1 := moveSlice s t ix p q; complete s1 fn 0 [(256, tableBytes (getFn s1 t))]
    else evictRegions (setFn s t { f with leaving := [p] }) (fun r => decide (sliceOfRegion r = p))) s

-- WAYS (R358 to R360)

def waysDie (l : List Nat) (die : Nat) : Nat := ((l.filter (fun w => decide (w / 32 = die))).map (fun w => 2 ^ (w % 32))).sum
/-- Ways in the order of R167: by the logical slice of the function that brings them, then by number; those that none of its slices brings come last. -/
def inOrder (f : Fn) (l : List Nat) : List Nat := sortBy (fun w => [f.slices.idxOf (sliceOfWay w), w]) l
/-- A function after ways have moved to a role of function t. What one request appends stands in the order of R167 (R395; log entry 54). -/
def afterWays (t : Nat) (spad : Bool) (l : List Nat) (fn : Nat) (f : Fn) : Fn :=
  let mine := fn == t
  let kept (old : List Nat) (role : Bool) : List Nat := if mine && role == spad then old ++ inOrder f (l.filter (fun w => !old.contains w)) else old.filter (fun w => !l.contains w)
  let sp := kept f.spadWays true
  { f with cacheWays := kept f.cacheWays false, spadWays := sp, chip := smClear f.chip (4194304 * min sp.length f.spadWays.length) (4294967296),
           chipPoison := smClear f.chipPoison (131072 * min sp.length f.spadWays.length) 134217728 }
/-- R167 puts a scratchpad way before another: that of a lower logical slice, or of a lower number in one slice. It orders no way that none of the partition's slices brings. -/
def wayBefore (f : Fn) (x y : Nat) : Bool :=
  let i := f.slices.idxOf (sliceOfWay x)
  let j := f.slices.idxOf (sliceOfWay y)
  decide (i < f.slices.length ∧ j < f.slices.length ∧ (i < j ∨ i = j ∧ x < y))
/-- Scratchpad ways are added and removed only at the end of the concatenation (R358): none is added that R167 puts before one already there (log entry 54). -/
def endOnly (f g : Fn) : Bool :=
  decide (f.spadWays.take g.spadWays.length = g.spadWays) ||
    (decide (g.spadWays.take f.spadWays.length = f.spadWays) && (g.spadWays.drop f.spadWays.length).all (fun x => !(f.spadWays.any (wayBefore f x))))
def waysOk (s : State) (new : List Fn) : Bool := (List.zip s.fns new).all (fun e => endOnly e.1 e.2 && cachesOk e.2) && spadsOk new
/-- The L1s of a partition that loses a cache way are cleaned first (R178, R360). -/
def cleanDeparting (s : State) (new : List Fn) : State :=
  cleanL1 s (fun x => (allFns s).any (fun i => ownCore s i x.core && (getFn s i).cacheWays.any (fun w => !(new.getD i {}).cacheWays.contains w)))
/-- A function loses a scratchpad way. -/
def losesScratch (s : State) (new : List Fn) (fn : Nat) : Bool := decide ((new.getD fn {}).spadWays.length < (getFn s fn).spadWays.length)
/-- Ways change roles or partitions: what was stored before is performed first, in the scratchpad ways that leave and from the L1s of a partition that
loses a cache way (R359, R360; log entry 50). -/
def changeWays (s : State) (t : Nat) (spad : Bool) (l : List Nat) (new : List Fn) : State :=
  let s1 := cleanDeparting (drainFns s (losesScratch s new)) new
  { s1 with fns := (List.zip (List.range s1.fns.length) s1.fns).map (fun e => afterWays t spad l e.1 e.2) }
def execWays (fn : Nat) (s : State) : Out :=
  request fn 0x04 0 true (fun _ => [(16, 3), (20, 4)]) (fun a =>
    let t := arg a 16 1
    let die := arg a 17 1
    let l := maskWays die (arg a 20 4)
    if 17 ≤ t ∨ 2 ≤ die ∨ 2 ≤ arg a 18 1 ∨ ¬ onDie (getFn s t) die ∨ l = [] ∨ l.any (fun w => (fnOfWay s w).isNone) then complete s fn 2 []
    else
      let new := (List.zip (List.range s.fns.length) s.fns).map (fun e => afterWays t (decide (arg a 18 1 = 1)) l e.1 e.2)
      if ¬ waysOk s new then complete s fn 3 []
      else
        let g := new.getD t {}
        complete (changeWays s t (decide (arg a 18 1 = 1)) l new) fn 0 [(256, natLe 4 (waysDie g.cacheWays 0) ++ natLe 4 (waysDie g.cacheWays 1) ++ natLe 4 (waysDie g.spadWays 0) ++ natLe 4 (waysDie g.spadWays 1))]) s

-- KEYS (R361, R378)

def execKeys (fn : Nat) (s : State) : Out :=
  request fn 0x05 0 true (fun _ => [(16, 2), (24, 16)]) (fun a =>
    let t := arg a 16 1
    let r := arg a 17 1
    let m := BitVec.ofNat 128 (arg a 24 16)
    if 17 ≤ t ∨ 17 ≤ r ∨ t = r then complete s fn 2 []
    else if m &&& ~~~ (getFn s t).keyBlocks ≠ 0 then complete s fn 3 []
    else
      let s1 := invalSpace s t (fun _ => true)
      let s2 := { s1 with keys := s1.keys.filter (fun e => !(m.getLsbD (e.1 / 64))) }
      let f := getFn s2 t
      let g := getFn s2 r
      let s3 := setFn (setFn s2 t { f with keyBlocks := f.keyBlocks &&& ~~~ m }) r { g with keyBlocks := g.keyBlocks ||| m }
      complete s3 fn 0 [(256, natLe 16 (g.keyBlocks ||| m).toNat)]) s

end Sys2Proof.Machine
end

