-- ==== Sys2Proof/Machine/Lease.lean ====
section
/-!
DEFINITION. Machine/Lease.lean: leases of matrix arrays: offer, grant, reclaim, return, quota, meters (18 R362 to R366).
-/
namespace Sys2Proof.Machine

def lsSlice (r : List Byte) : Nat := fieldAt r 0 1
def lsRegion (r : List Byte) : Nat := fieldAt r 1 1 % 4
def lsEng (r : List Byte) : Nat := fieldAt r 1 1 / 4 % 2
def lsHslice (r : List Byte) : Nat := fieldAt r 3 1 % 16
def lsHregion (r : List Byte) : Nat := fieldAt r 3 1 / 16 % 4
def lsNotice (r : List Byte) : Nat := fieldAt r 24 4
/-- The fields of an offered record (R362), its meters and state zero; bits that R362 neither defines nor reserves are zero too (log entry 72). -/
def leaseRecOk (r : List Byte) (lender : Nat) : Bool :=
  decide (lsSlice r < 8 ∧ fieldAt r 1 1 < 8 ∧ lsRegion r < 3 ∧ lsBfn r < 17 ∧ lsBfn r ≠ lender ∧ fieldAt r 3 1 < 64 ∧ lsHregion r < 3 ∧ lsNotice r ≤ 10000000) &&
  zeroBytes r 4 7 && zeroBytes r 28 63
/-- The host region and the lent array: the die is the one that holds the host region, and the lender owns the slice there. -/
def leasePlace (s : State) (lender : Nat) (r : List Byte) : Option (Nat × Nat) :=
  match (getFn s (lsBfn r)).slices[lsHslice r]? with
  | none => none
  | some h =>
    let p := h / 8 * 8 + lsSlice r
    if (getFn s lender).slices.contains p then some (3 * h + lsHregion r, arrKey (3 * p + lsRegion r) (lsEng r)) else none
/-- The array is out of service or lent, or the region hosts a lease. -/
def leaseTaken (s : State) (host key : Nat) : Bool := !(inService s key) || (leaseAt s host).isSome

/-- LEASE by the lender (R362): the record is offered under the array's package index. -/
def execLeaseLender (fn : Nat) (s : State) : Out :=
  request fn 0x06 0 false (fun _ => [(24, 64)]) (fun a =>
    let r := argBytes a 24 64
    if ¬ leaseRecOk r fn then complete s fn 2 []
    else match leasePlace s fn r with
      | none => complete s fn 2 []
      | some (host, key) =>
        if leaseTaken s host key then complete s fn 3 []
        else
          let l : Lease := { id := key, lender := fn, rcd := r, granted := false, noticeEnd := 0, host := host, key := key }
          complete { s with leases := l :: s.leases.filter (fun x => decide (x.id ≠ key)) } fn 0 [(256, natLe 4 key)]) s
/-- LEASE by the borrower (R363): the array leaves the lender's region, whose other array serves it. -/
def execLeaseBorrower (fn : Nat) (s : State) : Out :=
  request fn 0x06 1 false (fun _ => [(24, 4)]) (fun a =>
    match leaseOf s (arg a 24 4) with
    | none => complete s fn 2 []
    | some l =>
      if lsBfn l.rcd ≠ fn then complete s fn 4 []
      else if l.granted then complete s fn 3 []
      else match leasePlace s l.lender l.rcd with
        | none => complete s fn 2 []
        | some (host, key) =>
          if key ≠ l.key then complete s fn 2 []
          else if leaseTaken s host key then complete s fn 3 []
          else
            let s1 := updLease (setArr s key { arrAt s key with lease := some l.id }) l.id (fun x => { x with granted := true, host := host })
            complete (failIfDark s1 (key / 2)) fn 0 [(256, l.rcd)]) s
/-- RECLAIM by the lender: dispatch stops at once, and the notice runs (R366). -/
def execReclaim (fn : Nat) (s : State) : Out :=
  request fn 0x07 0 false (fun _ => [(24, 4)]) (fun a =>
    match leaseOf s (arg a 24 4) with
    | none => complete s fn 2 []
    | some l =>
      if l.lender ≠ fn then complete s fn 4 []
      else if ¬ l.granted ∨ leaseState l ≠ 0 then complete s fn 2 []
      else
        let n := lsNotice l.rcd
        complete (updLease (setLeaseState s l.id 1) l.id (fun x => { x with noticeEnd := s.now + n })) fn 0 [(256, natLe 8 (timeOf s fn + n))]) s
/-- RETURN by the borrower: queued and running commands finish (R366). -/
def execLeaseReturn (fn : Nat) (s : State) : Out :=
  request fn 0x08 0 false (fun _ => [(24, 4)]) (fun a =>
    match leaseOf s (arg a 24 4) with
    | none => complete s fn 2 []
    | some l =>
      if lsBfn l.rcd ≠ fn then complete s fn 4 []
      else if ¬ l.granted ∨ 2 ≤ leaseState l then complete s fn 2 []
      else complete (settleLease (setLeaseState s l.id 2) l.host) fn 0 []) s
/-- LEASE_NOTICE_EXPIRY (R366): commands of the lent array that have not started fail; started ones finish. -/
def execLeaseNoticeExpiry (lease : Nat) (s : State) : Out :=
  .next (match leaseOf s lease with
    | none => dropEvent s (.notice lease)
    | some l =>
      if ¬ l.granted ∨ leaseState l ≠ 1 ∨ s.now < l.noticeEnd then dropEvent s (.notice lease)
      else whenTurn s (.notice lease) (fun t =>
        let s1 := setLeaseState t l.id 3
        settleLease (failAll ⟨14, 0⟩ (s1.cmds.filter (fun c => decide (c.region = l.host ∧ c.array = 2) && !c.started)) s1) l.host))
/-- A meter has reached its quota (R365). -/
def quotaSpent (l : Lease) : Bool :=
  (decide (fieldAt l.rcd 8 8 ≠ 0) && decide (fieldAt l.rcd 8 8 ≤ fieldAt l.rcd 32 8)) || (decide (fieldAt l.rcd 16 8 ≠ 0) && decide (fieldAt l.rcd 16 8 ≤ fieldAt l.rcd 40 8))
def execLeaseQuota (lease : Nat) (s : State) : Out :=
  .next (match leaseOf s lease with
    | none => dropEvent s (.quota lease)
    | some l => if l.granted ∧ leaseState l ≤ 1 ∧ quotaSpent l then whenTurn s (.quota lease) (fun t => settleLease (setLeaseState t l.id 5) l.host) else dropEvent s (.quota lease))
/-- The ends of notice and the quotas reached, which come to Aqmal's queue as time passes (R365, R366, R392). -/
def leaseEvents (s : State) : List AqEvent :=
  s.leases.filterMap (fun l => if ¬ l.granted then none else if leaseState l = 1 ∧ l.noticeEnd ≤ s.now then some (.notice l.id)
    else if leaseState l ≤ 1 ∧ quotaSpent l then some (.quota l.id) else none)
/-- METER (R365): the record with its meters, for either party. -/
def execMeter (fn : Nat) (s : State) : Out :=
  request fn 0x17 0 false (fun _ => [(24, 4)]) (fun a =>
    match leaseOf s (arg a 24 4) with
    | none => complete s fn 2 []
    | some l => if l.lender ≠ fn ∧ lsBfn l.rcd ≠ fn then complete s fn 4 [] else complete s fn 0 [(256, l.rcd)]) s

end Sys2Proof.Machine
end

