-- ==== Sys2Proof/Machine/Requests.lean ====
section
/-!
DEFINITION. Machine/Requests.lean: the requests that set up a function: windows, admission, root, INVAL, keys, queues, objects, ageing,
pool and replica sets (21 R394, R395; 19 R368, R374, R377, R379; 15 R312, R313, R320; 14 R304; 16 R330; 20 R387, R390).
-/
namespace Sys2Proof.Machine

-- windows, admission, root

def aligned32K (x : Nat) : Bool := decide (x % 32768 = 0)
/-- A range of system physical addresses that the package has: GDDR7, or host memory (R15, R370). -/
def spaRange (a n : Nat) : Bool := decide (a + n ≤ gddrBytes ∨ (hostBase ≤ a ∧ a + n ≤ 4503599627370496))
def meetsCarve (s : State) (a n : Nat) : Bool := [0, 1].any (fun d => let r := carveRange s d; decide (a < r.1 + r.2 ∧ r.1 < a + n))
def setWindow (f : Fn) (k : Nat) (w : Nat × Nat) : Fn := { f with windows := setAt ((f.windows ++ List.replicate 16 (0, 0)).take 16) k w }
/-- WINDOW (R368, R393, R395): length 0 removes the window. -/
def execWindow (fn : Nat) (s : State) : Out :=
  request fn 0x10 0 true (fun _ => [(16, 2), (24, 16)]) (fun a =>
    let t := arg a 16 1
    let k := arg a 17 1
    let b := arg a 24 8
    let n := arg a 32 8
    if 17 ≤ t ∨ 16 ≤ k ∨ ¬ aligned32K b ∨ ¬ aligned32K n ∨ (n ≠ 0 ∧ (¬ spaRange b n ∨ meetsCarve s b n)) then complete s fn 2 []
    else complete (setFn s t (setWindow (getFn s t) k (if n = 0 then (0, 0) else (b, n)))) fn 0 []) s
/-- ADMIT (R387): an entry of the admission list: package, function, valid; the bits between are zero (log entry 72). -/
def execAdmitEntry (fn : Nat) (s : State) : Out :=
  request fn 0x10 1 true (fun _ => [(16, 1), (18, 6)]) (fun a =>
    let t := arg a 16 1
    let k := arg a 18 2
    let w := arg a 20 4
    let f := getFn s t
    if 17 ≤ t ∨ 256 ≤ k ∨ bits w 30 22 ≠ 0 ∨ 17 ≤ bits w 21 17 then complete s fn 2 []
    else complete (setFn s t { f with admission := smSet (0, 0, false) f.admission k (if bitOf w 31 then (bits w 16 0, bits w 21 17, true) else (0, 0, false)) }) fn 0 []) s
/-- A root that ROOT accepts (R368): V clear, or a pointer entry of the function. -/
def rootOk (f : Fn) (e : Nat) : Bool := !(bitOf e 0) || (!(bitOf e 1) && (ptrErr f e).isNone)
def execRoot (fn : Nat) (s : State) : Out :=
  request fn 0x11 0 false (fun _ => [(24, 8)]) (fun a =>
    let e := arg a 24 8
    if ¬ rootOk a e then complete s fn 2 [] else complete (setFn s fn { a with root := e }) fn 0 []) s

-- INVAL (R379)

def execInvalRange (fn : Nat) (s : State) : Out :=
  request fn 0x12 0 true (fun _ => [(16, 1), (24, 16)]) (fun a =>
    let t := arg a 16 1
    let v := arg a 24 8
    let n := arg a 32 8
    if 17 ≤ t ∨ ¬ aligned32K v ∨ ¬ aligned32K n ∨ 2251799813685248 < v + n then complete s fn 2 []
    else complete (invalSpace s t (fun e => decide (e.base < v + n ∧ v < e.base + e.size))) fn 0 []) s
def execInvalSpace (fn : Nat) (s : State) : Out :=
  request fn 0x12 1 true (fun _ => [(16, 1)]) (fun a =>
    let t := arg a 16 1
    if 17 ≤ t then complete s fn 2 [] else complete (invalSpace s t (fun _ => true)) fn 0 []) s

-- keys (R377)

def execKeyload (fn : Nat) (s : State) : Out :=
  request fn 0x13 0 false (fun _ => [(24, 2), (32, 32)]) (fun a =>
    let k := arg a 24 2
    if 8192 ≤ k then complete s fn 2 []
    else if ¬ hasKey a k then complete s fn 4 []
    else complete { s with keys := smSet (0, 0) s.keys k (arg a 32 16, arg a 48 16) } fn 0 []) s
def execKeyErase (fn : Nat) (s : State) : Out :=
  request fn 0x13 1 false (fun _ => [(24, 2)]) (fun a =>
    let k := arg a 24 2
    if 8192 ≤ k then complete s fn 2 []
    else if ¬ hasKey a k then complete s fn 4 []
    else complete { s with keys := smDel s.keys k } fn 0 []) s

-- queues (R312, R313)

def descBytes (q : Queue) : List Byte :=
  natLe 8 q.ring ++ natLe 1 q.lg ++ natLe 1 ((if q.dev then 1 else 0) + (if q.stop then 2 else 0)) ++ [0, 0] ++ natLe 4 q.rd ++ natLe 8 q.wix ++ natLe 8 q.rix ++ List.replicate 32 0
/-- Bytes 0 to 31 of a descriptor; STOP and rd are read-only there. -/
def queueDescOk (d : List Byte) : Bool :=
  vaOk (fieldAt d 0 8) 4096 && inRange (fieldAt d 8 1) 4 16 && decide (fieldAt d 9 1 < 4) && zeroBytes d 10 11 && vaOk (fieldAt d 16 8) 64 && vaOk (fieldAt d 24 8) 4
def execQueueCreate (fn : Nat) (s : State) : Out :=
  request fn 0x14 0 false (fun _ => [(24, 1), (32, 32)]) (fun a =>
    let n := arg a 24 1
    let d := argBytes a 32 32
    if ¬ queueDescOk d then complete s fn 2 []
    else if (queueOf a n).opened then complete s fn 1 []
    else
      let q : Queue := { ring := fieldAt d 0 8, lg := fieldAt d 8 1, dev := bitOf (fieldAt d 9 1) 0, wix := fieldAt d 16 8, rix := fieldAt d 24 8 }
      complete (setQueue s fn n q) fn 0 [(256, descBytes q)]) s
/-- Open, close and restart act on a created queue. -/
def queueRequest (fn sub : Nat) (f : Queue → Queue) (s : State) : Out :=
  request fn 0x14 sub false (fun _ => [(24, 1)]) (fun a =>
    let n := arg a 24 1
    let q := queueOf a n
    if q.lg < 4 then complete s fn 2 []
    else complete (setQueue s fn n (f q)) fn 0 [(256, descBytes (f q))]) s
def execQueueOpen (fn : Nat) (s : State) : Out := queueRequest fn 1 (fun q => { q with opened := true }) s
def execQueueClose (fn : Nat) (s : State) : Out := queueRequest fn 2 (fun q => { q with opened := false, tornAt := none }) s
def execQueueRestart (fn : Nat) (s : State) : Out := queueRequest fn 3 (fun q => { q with stop := false, torn := 0, tornAt := none }) s

-- objects (R304)

def objNums (s : State) (fn : Nat) : List Nat := (s.objs.filter (fun o => decide (o.fn = fn))).map (·.num)
/-- The lowest number not in use: one of the first n + 1 when n are (R304 says not which; log entry 59). -/
def freeNum (l : List Nat) : Nat := (findFirst (fun k => !l.contains k) (List.range (l.length + 1))).getD 0
def execObjectCreate (fn : Nat) (s : State) : Out :=
  request fn 0x15 0 false (fun _ => [(24, 1), (28, 4)]) (fun a =>
    let kind := arg a 24 1
    let v := arg a 28 4
    let l := objNums s fn
    if 2 ≤ kind ∨ (kind = 1 ∧ v = 0) then complete s fn 2 []
    else if 16777216 ≤ l.length then complete s fn 3 []
    else
      let n := freeNum l
      let o : Obj := { fn := fn, num := n, barrier := kind == 1, value := if kind = 1 then 0 else v, count := if kind = 1 then v else 0, arrived := 0, waiters := [], corrupt := false }
      complete { s with objs := s.objs ++ [o] } fn 0 [(256, natLe 4 n)]) s
/-- A group waits on an object or holds an open arrival on it. -/
def objHeld (s : State) (o : Obj) : Bool :=
  decide (o.waiters ≠ []) || (allGroups s).any (fun h => decide (h.ctx.fn = o.fn ∧ h.phase ≠ .none) &&
    (decide ((h.darv.map (·.1)) = some o.num) && o.barrier || (match h.waiting with | .dbar k _ => decide (k = o.num) && o.barrier | _ => false)))
def objFind (s : State) (fn id : Nat) : Option Obj := if 16777216 ≤ id then none else findFirst (fun o => decide (o.fn = fn ∧ o.num = id)) s.objs
def execObjectDestroy (fn : Nat) (s : State) : Out :=
  request fn 0x15 1 false (fun _ => [(24, 4)]) (fun a =>
    match objFind s fn (arg a 24 4) with
    | none => complete s fn 2 []
    | some o => if objHeld s o then complete s fn 1 [] else complete { s with objs := s.objs.filter (fun x => decide (¬ (x.fn = fn ∧ x.num = o.num))) } fn 0 []) s
def execObjectRead (fn : Nat) (s : State) : Out :=
  request fn 0x15 2 false (fun _ => [(24, 4)]) (fun a =>
    match objFind s fn (arg a 24 4) with
    | none => complete s fn 2 []
    | some o => complete s fn 0 [(256, natLe 4 o.value ++ natLe 4 o.arrived)]) s

-- ageing, the bobbin pool, replica sets

def execAgeing (fn : Nat) (s : State) : Out :=
  request fn 0x16 0 false (fun _ => [(24, 8)]) (fun a =>
    let n := arg a 24 8
    if ¬ inRange n 1000000 1000000000 then complete s fn 2 [] else complete (setFn s fn { a with ageing := n }) fn 0 []) s
def execPool (fn : Nat) (s : State) : Out :=
  request fn 0x16 1 false (fun _ => [(24, 16)]) (fun a =>
    let b := arg a 24 8
    let n := arg a 32 8
    if ¬ aligned32K b ∨ ¬ aligned32K n ∨ ¬ inWindow a b n then complete s fn 2 []
    else if a.bobbins ≠ [] then complete s fn 1 []
    else complete (setFn s fn { a with pool := (b, n) }) fn 0 []) s
def repMember (f : Fn) (i : Nat) : Nat := arg f (32 + 3 * i) 3
/-- A set as it is registered: where another function of this package has registered it, with what that one knows of the replicas. -/
def newRep (s : State) (fn g : Nat) (members : List (Nat × Nat)) : RepSet :=
  let r : RepSet := { fn := fn, gen := g, members := members, arrived := [], local_ := 0, completed := false, done := [], since := s.now }
  match findFirst (sameSet r) s.repsets with
  | none => r
  | some x => { r with arrived := x.arrived, completed := x.completed, done := x.done }
def execReplsetRegister (fn : Nat) (s : State) : Out :=
  request fn 0x16 2 false (fun a => [(24, 5), (32, 3 * min (arg a 28 1) 64)]) (fun a =>
    let n := arg a 28 1
    let g := arg a 24 4
    let l := (List.range n).map (repMember a)
    if n = 0 ∨ 64 < n ∨ l.any (fun w => decide (bits w 23 22 ≠ 0 ∨ 17 ≤ bits w 21 17)) then complete s fn 2 []
    else if (repOf s fn g).isSome then complete s fn 3 []
    else complete { s with repsets := s.repsets ++ [newRep s fn g (l.map (fun w => (bits w 16 0, bits w 21 17)))] } fn 0 []) s
/-- Every replica's launch has completed: the local ones by what this package saw, the others as the fabric reports, or by their
silence (R390). -/
def replicasDone (s : State) (r : RepSet) : Bool :=
  r.members.all (fun m => r.done.contains m || (decide (m.1 ≠ Config.packageNumber) && Config.replicaDone m s.now))
def execReplsetRelease (fn : Nat) (s : State) : Out :=
  request fn 0x16 3 false (fun _ => [(24, 4)]) (fun a =>
    match repOf s fn (arg a 24 4) with
    | none => complete s fn 2 []
    | some r => if replicasDone s r then complete { s with repsets := s.repsets.filter (fun x => decide (¬ (x.fn = fn ∧ x.gen = r.gen))) } fn 0 [] else complete s fn 1 []) s

end Sys2Proof.Machine
end

