-- ==== Sys2Proof/Machine/Fabric.lean ====
section
/-!
DEFINITION. Machine/Fabric.lean: what arrives from other packages and what is sent to them (20 R386 to R390; 11 R241).
-/
namespace Sys2Proof.Machine

/-- REMOTE_COPY_WRITE (R387): a unit is written at the target, at the lining of a double-faced page (R238). -/
def execRemoteCopyWrite (srcPkg srcFn fn va : Nat) (bytes : List Byte) (s0 : State) : Out :=
  let s := heardFrom s0 srcPkg
  .next (ifAdmitted s fn srcPkg srcFn (match agentWrite s fn va bytes true with
    | .ok t => reply t srcPkg (.ok 0)
    | .error x => reply (walkRecord s fn x.1 x.2) srcPkg (.refused 3)))

/-- The new value of a remote atomic (R216, R388) on a word of b bits. -/
def remoteNew (op b y x c : Nat) : Nat :=
  if op = 0x41 then newAdd b y x else if op = 0x42 then newMinS b y x else if op = 0x43 then min y x else if op = 0x44 then newMaxS b y x
  else if op = 0x45 then max y x else if op = 0x46 then Nat.land y x else if op = 0x47 then Nat.lor y x else if op = 0x48 then Nat.xor y x
  else if op = 0x49 then x else if y = c then x else y
def remoteOpOk (va op size : Nat) : Bool := decide (0x41 ≤ op ∧ op ≤ 0x4A ∧ (size = 4 ∨ size = 8) ∧ va % max size 1 = 0)
/-- REMOTE_ATOMIC_MESSAGE (R388): a far atomic at the home L2 bank; host memory takes three operations (R219). -/
def execRemoteAtomicMessage (srcPkg fn va op size : Nat) (x cmp : DWord) (s0 : State) : Out :=
  let s := heardFrom s0 srcPkg
  .next (ifAdmitted s fn srcPkg 0 (match translate s fn va .rw with
    | .error e => reply (walkRecord s fn e va) srcPkg (.refused 3)
    | .ok q =>
      if ¬ remoteOpOk va op size ∨ (hostBase ≤ q.spa ∧ ¬ (op = 0x41 ∨ op = 0x49 ∨ op = 0x4A)) then reply s srcPkg (.refused 3)
      else
        let s1 := callBack s (q.spa / 32) (fun _ => true)
        if memPoisoned s1 q.spa size then reply s1 srcPkg .poisoned
        else
          let y := leNat (memRead s1 q.key q.spa size)
          let m := 2 ^ (8 * size)
          reply (memWrite s1 q.key q.spa (natLe size (remoteNew op (8 * size) y (x.toNat % m) (cmp.toNat % m)))) srcPkg (.ok (BitVec.ofNat 64 y))))

-- what this package sent

/-- RATOMIC (R388, R395): sent once; it completes when its response arrives, or is refused with reason 4 after 100 ms.
The bits above the function are zero (log entry 72). -/
def execRatomic (fn : Nat) (s : State) : Out :=
  request fn 0x1A 0 false (fun a => [(16, 6), (24, 16)] ++ (if arg a 20 1 = 0x4A then [(40, 8)] else [])) (fun a =>
    let w := arg a 16 4
    let va := arg a 24 8
    if bits w 31 22 ≠ 0 ∨ 17 ≤ bits w 21 17 ∨ ¬ remoteOpOk va (arg a 20 1) (arg a 21 1) ∨ 2251799813685248 ≤ va then complete s fn 2 []
    else if s.ratomic.isSome then s
    else { s with ratomic := some s.now, fabric := .atomic (bits w 16 0) (bits w 21 17) va (arg a 20 1) (arg a 21 1) (BitVec.ofNat 64 (arg a 32 8)) (BitVec.ofNat 64 (arg a 40 8)) :: s.fabric }) s
/-- The RATOMIC completes: with its old value, or refused with a reason. -/
def endRatomic (s : State) (r : AckResult) : State :=
  match s.ratomic, r with
  | some _, .ok v => complete { s with ratomic := none } 0 0 [(256, natLe 8 v.toNat), (264, [0])]
  | some _, .refused n => complete { s with ratomic := none } 0 4 [(256, natLe 8 0), (264, natLe 1 n)]
  | _, _ => s
/-- An answer to the unit that a CPYR has sent (R241, R387, R400). -/
def endUnit (s : State) (c : Copy) (r : AckResult) : State :=
  let u := unitAt c
  match r with
  | .refused n => failCopy s c ⟨5, n⟩ u.addr true
  | .poisoned => failCopy s c ⟨6, 0⟩ u.addr false
  | .ok _ =>
    let d := { c with done := c.done + u.n, awaiting := false }
    if d.done = copyTotal d then retireCopy (setEntry s d 2 0) d else setCopy s d
def waitingUnit (s : State) (id : Nat) : Option Copy := findFirst (fun c => decide (c.id = id ∧ c.kind = .cpyr) && c.awaiting) s.copies
/-- REMOTE_ACKNOWLEDGEMENT (R241, R387, R388): number 0 is the outstanding RATOMIC. The package that answers has been heard (R390). -/
def execRemoteAcknowledgement (c : Nat) (res : AckResult) (s : State) : Out :=
  .next (if c = 0 then (if s.ratomic.isSome then endRatomic (heardFrom s (bits (arg (getFn s 0) 16 4) 16 0)) res else s)
    else match waitingUnit s c with
      | none => s
      | some d => endUnit (heardFrom s (bits (cpTarget d.rcd) 16 0)) d res)
/-- CPYR_ACK_TIMEOUT (R387): 100 ms without an answer is a refusal with reason 4. -/
def execCpyrAckTimeout (c : Nat) (s : State) : Out :=
  .next (if c = 0 then (match s.ratomic with
      | some t => if t + 100000000 ≤ s.now then endRatomic s (.refused 4) else s
      | none => s)
    else match waitingUnit s c with
      | none => s
      | some d => if d.sent + 100000000 ≤ s.now then endUnit s d (.refused 4) else s)

-- start barriers (R390)

/-- START_BARRIER_ARRIVAL: at the lowest package the share of another's function; elsewhere the lowest package's completion. -/
def execStartBarrierArrival (fn gen : Nat) (source : Nat × Nat) (s0 : State) : Out :=
  let pkg := source.1
  let s := heardFrom s0 pkg
  .next (match repOf s fn gen with
    | none => s
    | some r =>
      if r.members.contains source ∧ pkg ≠ Config.packageNumber then
        (if pkg = lowestPackage r then setRep s { r with completed := true } else packageArrived s r source)
      else s)
/-- When a package of a set last answered: at the earliest when the set was registered. -/
def lastHeard (s : State) (r : RepSet) (pkg : Nat) : Nat := max r.since (smGet 0 s.heard pkg)
/-- REPLICA_TIMEOUT: the replicas of a package that has not answered for 100 ms count as ended, at the start barrier and for the set's release. -/
def execReplicaTimeout (fn gen pkg : Nat) (s : State) : Out :=
  .next (match repOf s fn gen with
    | none => s
    | some r =>
      if pkg = Config.packageNumber ∨ s.now < lastHeard s r pkg + 100000000 then s
      else (r.members.filter (fun m => decide (m.1 = pkg))).foldl (fun t m => match repOf t fn gen with
        | none => t
        | some x => packageArrived (noteDone t x m) x m) s)

end Sys2Proof.Machine
end

