-- ==== Sys2Proof/Machine/Identity.lean ====
section
/-!
DEFINITION. Machine/Identity.lean: ATTEST and CERT (21 R394, R396).
-/
namespace Sys2Proof.Machine

/-- The digest of a function's windows in ascending base order, 16 bytes each. -/
def windowsDigest (f : Fn) : List Byte :=
  sha256 ((sortBy (fun w => [w.1]) (f.windows.filter (fun w => decide (w.2 ≠ 0)))).map (fun w => natLe 8 w.1 ++ natLe 8 w.2)).flatten
/-- Bytes 0 to 175 of a report (R396). -/
def reportBody (s : State) (fn : Nat) (nonce : List Byte) : List Byte :=
  let f := getFn s fn
  natLe 4 1 ++ natLe 1 fn ++ natLe 1 f.slices.length ++ [0, 0] ++ nonce ++ bytesAt s.measurement 0 32 ++ bytesAt Config.romMeasurement 0 32 ++ tableBytes f ++
    natLe 16 f.keyBlocks.toNat ++ windowsDigest f ++ natLe 4 s.svn ++ [0, 0, 0, 0]
/-- The signature over bytes 0 to 175, by the package identity key (R396). -/
def identitySignature (b : List Byte) : List Byte :=
  pssSign Config.identityModulus Config.identityExponent (bytesAt (Config.signatureSalt b) 0 32) b
/-- ATTEST (R396): the report and its signature. -/
def execAttest (fn : Nat) (s : State) : Out :=
  request fn 0x20 0 false (fun _ => [(24, 32)]) (fun a =>
    let b := reportBody s fn (argBytes a 24 32)
    complete s fn 0 [(256, b ++ identitySignature b)]) s
/-- CERT (R394): the certificate, at most 2,048 bytes. -/
def execCert (fn : Nat) (s : State) : Out :=
  request fn 0x21 0 false (fun _ => []) (fun _ =>
    let c := Config.certificate.take 2048
    complete s fn 0 [(256, natLe 2 c.length), (264, c)]) s

end Sys2Proof.Machine
end

