-- ==== Sys2Proof/Machine/Migrate.lean ====
section
/-!
DEFINITION. Machine/Migrate.lean: CAPTURE and RESTORE (23 R423 to R426).
-/
namespace Sys2Proof.Machine

/-- The sections of an image, from all that is captured, and what an image that this package did not write loads: no rule gives their layout (log
entry 10). -/
opaque imageSections : Snapshot → List Byte
opaque imageLoad : List Byte → Snapshot

-- CAPTURE (R423)

def fnBusy (s : State) (fn : Nat) : Bool :=
  s.passes.any (fun p => decide (p.fn = fn)) || s.frames.any (fun f => decide (f.fn = fn) && frameFull f) || (getFn s fn).slices.any (leaseOn s) ||
  s.repsets.any (fun r => decide (r.fn = fn))
/-- Every team is saved, and copies, turns, inserts and hand-offs have retired. -/
def fnDrained (s : State) (fn : Nat) : Bool :=
  (getFn s fn).slices.all (fun p => !(regionBusy s (fun r => decide (sliceOfRegion r = p)))) && !(s.copies.any (fun c => decide (c.fn = fn))) &&
  !(s.inserts.any (fun r => decide (r.fn = fn) && !r.parked)) && !(s.handoffs.any (fun o => decide (o.fn = fn)))
def snapshotOf (s : State) (fn : Nat) (digest : List Byte) : Snapshot :=
  let f := getFn s fn
  let ls := s.launches.filter (fun l => decide (l.fn = fn))
  let ids := ls.map (·.id)
  { digest := digest, teams := s.teams.filter (fun t => ids.contains t.launch), groups := (allGroups s).filter (fun h => decide (h.ctx.fn = fn ∧ h.phase ≠ .none)),
    launches := ls, packets := s.packets.filter (fun k => decide (k.fn = fn)), trees := s.trees.filter (fun t => decide (t.fn = fn)),
    objs := s.objs.filter (fun o => decide (o.fn = fn)), cmds := s.cmds.filter (fun c => ids.contains c.launch), queues := f.queues,
    openQueues := (f.queues.filter (fun q => q.2.opened)).map (·.1), root := f.root, releaseSeq := f.releaseSeq, chip := f.chip, chipPoison := f.chipPoison,
    keyBlocks := f.keyBlocks, edges := s.edges.filter (fun e => decide (e.1 = fn)), top := s.nextId }
/-- The header of an image (R424). -/
def imageHeader (s : State) (fn : Nat) (sections : List Byte) : List Byte :=
  let f := getFn s fn
  natLe 4 0x4D47494D ++ natLe 4 (64 + sections.length) ++
    natLe 2 1 ++ [1] ++ natLe 1 f.slices.length ++ natLe 1 f.spadWays.length ++ natLe 1 (popN 128 f.keyBlocks.toNat) ++ natLe 2 s.svn ++ natLe 8 (baseOf s fn).value ++ List.replicate 8 0 ++ sha256 sections
/-- What was captured leaves the function, which stays quiesced. -/
def emptyFn (s : State) (fn : Nat) : State :=
  let f := getFn s fn
  let ids := (s.launches.filter (fun l => decide (l.fn = fn))).map (·.id)
  let s1 := setFn s fn { f with queues := f.queues.map (fun q => (q.1, { q.2 with opened := false, tornAt := none })), bobbins := [], quiesced := true, captured := true }
  { s1 with g := if s1.g.ctx.fn = fn ∧ s1.g.phase ≠ .none then {} else s1.g, others := s1.others.filter (fun h => decide (h.ctx.fn ≠ fn)),
            teams := s1.teams.filter (fun t => !ids.contains t.launch), launches := s1.launches.filter (fun l => decide (l.fn ≠ fn)),
            packets := s1.packets.filter (fun k => decide (k.fn ≠ fn)), trees := s1.trees.filter (fun t => decide (t.fn ≠ fn)),
            objs := s1.objs.filter (fun o => decide (o.fn ≠ fn)), cmds := s1.cmds.filter (fun c => !ids.contains c.launch), edges := s1.edges.filter (fun e => decide (e.1 ≠ fn)) }
/-- Writes the image and takes the snapshot; an image that does not fit or does not translate is refused whole, with the record of a walk that met
poison (R375). -/
def writeImage (s : State) (fn va n : Nat) : Except State (State × Nat) :=
  let s1 := cleanL1 s (fun x => ownCore s fn x.core)
  let sec := imageSections (snapshotOf s1 fn [])
  let img := imageHeader s1 fn sec ++ sec
  if n < img.length then .error s
  else match agentWrite s1 fn va img with
    | .error x => .error (walkRecord s fn x.1 x.2)
    | .ok t => .ok ({ emptyFn t fn with images := snapshotOf s1 fn (sha256 sec) :: t.images }, img.length)
/-- A refused CAPTURE lets its function go on; one that an earlier CAPTURE left quiesced stays so (R423). -/
def refuseCapture (s : State) (fn : Nat) : State := setFn s fn { getFn s fn with quiesced := (getFn s fn).captured }
def execCapture (fn : Nat) (s : State) : Out :=
  request fn 0x18 0 true (fun _ => [(16, 1), (24, 16)]) (fun a =>
    let t := arg a 16 1
    let f := getFn s t
    if 17 ≤ t then complete s fn 2 []
    else if fnBusy s t then complete (refuseCapture s t) fn 1 []
    else if ¬ f.quiesced ∨ ¬ fnDrained s t then evictRegions (setFn s t { f with quiesced := true }) (fun r => f.slices.contains (sliceOfRegion r))
    else match writeImage s t (arg a 24 8) (arg a 32 8) with
      | .error u => complete (refuseCapture u t) fn 2 []
      | .ok (u, n) => complete u fn 0 [(256, natLe 8 n)]) s

-- RESTORE (R425)

/-- Numbers of a snapshot go above every number in use. -/
def shiftGroup (k fn : Nat) (h : Group) : Group :=
  { h with id := h.id + k, team := h.team + k, since := h.since + k, till := h.till.map (· + k), trsince := h.trsince + k, trtill := h.trtill + k, owed := h.owed.map (fun e => (e.1, { e.2 with seq := e.2.seq + k })),
           waiting := (match h.waiting with | .held ops l => .held (ops.map (· + k)) l | x => x), ctx := { h.ctx with fn := fn, launch := h.ctx.launch + k, tree := h.ctx.tree + k }, bobbin := none }
def shiftLaunch (k fn : Nat) (l : Launch) : Launch :=
  { l with id := l.id + k, fn := fn, tree := l.tree + k, order := l.order + k, used := [], ctx := { l.ctx with fn := fn, launch := l.ctx.launch + k, tree := l.ctx.tree + k } }
/-- A frame of the function, whose tiles captured launches have handed off, follows their new numbers. -/
def shiftFrame (k fn : Nat) (x : Snapshot) (f : Frame) : Frame :=
  if f.fn = fn then { f with launches := f.launches.map (fun i => if x.launches.any (fun l => decide (l.id = i)) then i + k else i) } else f
/-- Loads a snapshot into a function; the number of each bobbin's run is set after. -/
def loadSnapshot (s : State) (fn : Nat) (x : Snapshot) : State :=
  let k := s.nextId
  let f := getFn s fn
  let qs := x.queues.map (fun q => (q.1, { q.2 with opened := x.openQueues.contains q.1, posts := q.2.posts.map (fun e => (e.1, e.2 + k)) }))
  let s1 := setFn s fn { f with queues := qs, root := x.root, releaseSeq := x.releaseSeq, chip := x.chip, chipPoison := x.chipPoison, quiesced := false, captured := false }
  { s1 with others := s1.others ++ x.groups.map (shiftGroup k fn), teams := s1.teams ++ x.teams.map (fun t => { t with id := t.id + k, launch := t.launch + k, resident := false, evicting := false }),
            launches := s1.launches ++ x.launches.map (shiftLaunch k fn),
            packets := s1.packets ++ x.packets.map (fun p => { p with id := p.id + k, fn := fn, tree := p.tree + k, order := p.order + k }),
            trees := s1.trees ++ x.trees.map (fun t => { t with id := t.id + k, fn := fn }), objs := s1.objs.filter (fun o => decide (o.fn ≠ fn)) ++ x.objs.map (fun o => { o with fn := fn }),
            cmds := s1.cmds ++ x.cmds.map (fun c => { c with id := c.id + k, group := c.group + k, launch := c.launch + k, arrived := c.arrived + k }),
            frames := s1.frames.map (shiftFrame k fn x), edges := s1.edges ++ x.edges.map (fun e => (fn, e.2)), tlb := s1.tlb.filter (fun t => decide (t.fn ≠ fn)), nextId := k + x.top + 1 }
/-- Puts the bobbins of a function's saved groups into its pool (R330); none when one does not fit. -/
def placeBobbins (fn : Nat) : List Group → State → Option State
  | [], s => some s
  | h :: l, s =>
    let b := bobbinBytes s h
    let f := getFn s fn
    match findRun f.pool f.bobbins b.length with
    | none => none
    | some a => placeBobbins fn l (setGroup (setFn (memWrite s aqmalKey a b) fn { f with bobbins := (a, b.length) :: f.bobbins }) { h with bobbin := some a })
/-- The image at a VA of a function: header and sections; else the state with the record of a walk that met poison (R375). -/
def readImage (s : State) (fn va n : Nat) : Except State (List Byte × List Byte) :=
  match agentRead s fn va 64 with
  | .error x => .error (walkRecord s fn x.1 x.2)
  | .ok h =>
    let len := fieldAt h 4 4
    if fieldAt h 0 4 ≠ 0x4D47494D ∨ len < 64 ∨ n < len then .error s
    else match agentRead s fn (va + 64) (len - 64) with
      | .error x => .error (walkRecord s fn x.1 x.2)
      | .ok b => .ok (h, b)
def snapshotFor (s : State) (h b : List Byte) : Snapshot := (findFirst (fun x => decide (x.digest = bytesAt h 32 32)) s.images).getD (imageLoad b)
/-- Why RESTORE refuses an image (R425). -/
def restoreOk (s : State) (fn : Nat) (h b : List Byte) : Bool :=
  let f := getFn s fn
  let x := snapshotFor s h b
  decide (sha256 b = bytesAt h 32 32 ∧ fieldAt h 8 2 = 1 ∧ fieldAt h 10 1 = 1 ∧ fieldAt h 11 1 = f.slices.length ∧ fieldAt h 12 1 = f.spadWays.length ∧
    fieldAt h 13 1 = popN 128 f.keyBlocks.toNat ∧ fieldAt h 14 2 ≤ s.svn ∧ x.keyBlocks = f.keyBlocks) && (baseOf s fn).set && !(f.queues.any (fun q => q.2.opened)) &&
    !(s.launches.any (fun l => decide (l.fn = fn)))
def execRestore (fn : Nat) (s : State) : Out :=
  request fn 0x19 0 true (fun _ => [(16, 1), (24, 16)]) (fun a =>
    let t := arg a 16 1
    if 17 ≤ t then complete s fn 2 []
    else match readImage s t (arg a 24 8) (arg a 32 8) with
      | .error u => complete u fn 2 []
      | .ok (h, b) =>
        if ¬ restoreOk s t h b then complete s fn 2 []
        else
          let u := loadSnapshot s t (snapshotFor s h b)
          match placeBobbins t ((allGroups u).filter (fun g => decide (g.ctx.fn = t ∧ g.phase = .saved))) u with
          | none => complete s fn 1 []
          | some v => complete v fn 0 []) s

end Sys2Proof.Machine
end

