-- ==== Sys2Proof/Machine/Xlane.lean ====
section
/-!
DEFINITION. Machine/Xlane.lean: shuffles, votes, reductions, scans and block conversion (06 R121 to R132).
-/
namespace Sys2Proof.Machine

/-- A shuffle (R123): the source lane of a lane position, none when there is none. -/
def shflOp (d : Dst) (a b : Src) (w : Bool) (from_ : Nat → Nat → Option Nat) (s : State) : Out :=
  .next (aluInt s (1 + litsOf a + litsOf b) (srcRegs a (nRegs w) ++ srcRegs b 1) d (fun l =>
    let j := (from_ l ((src32 s.g b l).toNat % 64)).getD l
    resWords w (srcNat s.g w a (if j < width s.g ∧ s.g.active.getLsbD j then j else l))))
def execShfl (d : Dst) (a b : Src) (w : Bool) (s : State) : Out := shflOp d a b w (fun _ k => some k) s
def execShflup (d : Dst) (a b : Src) (w : Bool) (s : State) : Out := shflOp d a b w (fun i k => if k ≤ i then some (i - k) else none) s
def execShfldn (d : Dst) (a b : Src) (w : Bool) (s : State) : Out := shflOp d a b w (fun i k => some (i + k)) s
def execShflx (d : Dst) (a b : Src) (w : Bool) (s : State) : Out := shflOp d a b w (fun i k => some (Nat.xor i k)) s

/-- The active lanes whose bit 0 of a is set (R124). -/
def voters (h : Group) (a : Src) : List Nat := (activeLanes h).filter (fun l => (src32 h a l).getLsbD 0)
def execVany (d : Dst) (a : Src) (s : State) : Out :=
  .next (aluInt s (1 + litsOf a) (srcRegs a 1) d (fun _ => [if voters s.g a ≠ [] then 1 else 0]))
def execVall (d : Dst) (a : Src) (s : State) : Out :=
  .next (aluInt s (1 + litsOf a) (srcRegs a 1) d (fun _ => [if voters s.g a = activeLanes s.g then 1 else 0]))
def execVbal (d : Dst) (a : Src) (s : State) : Out :=
  .next (aluInt s (1 + litsOf a) (srcRegs a 1) d (fun _ => resWords true (maskOf (voters s.g a)).toNat))
def execVmatch (d : Dst) (a b : Src) (s : State) : Out :=
  .next (aluInt s (1 + litsOf a + litsOf b) (srcRegs a 1 ++ srcRegs b 1) d (fun l =>
    let m := src32 s.g b l
    resWords true (maskOf ((activeLanes s.g).filter (fun u => decide (src32 s.g a u &&& m = src32 s.g a l &&& m)))).toNat))

/-- Combines two present nodes: value and flags (R126, R128). -/
def combine (op : RedOp) (ftz : Bool) (x y : Nat) : Nat × BitVec 5 :=
  let f := fF32
  match op with
  | .add32 => ((x + y) % 4294967296, 0)
  | .addF32 => let r := addR f .rne ftz (f.read (ftzIn ftz f x)) (f.read (ftzIn ftz f y)); (r.bits, r.flags)
  | .minS32 => (if sx 32 x ≤ sx 32 y then x else y, 0)
  | .minN32 => (if x ≤ y then x else y, 0)
  | .maxS32 => (if sx 32 y ≤ sx 32 x then x else y, 0)
  | .maxN32 => (if y ≤ x then x else y, 0)
  | .minF32 => let r := minMaxR f false (ftzIn ftz f x) (ftzIn ftz f y); (r.bits, r.flags)
  | .maxF32 => let r := minMaxR f true (ftzIn ftz f x) (ftzIn ftz f y); (r.bits, r.flags)
  | .and32 => (Nat.land x y, 0)
  | .or32 => (Nat.lor x y, 0)
  | .xor32 => (Nat.xor x y, 0)
  | .add64 => ((x + y) % 18446744073709551616, 0)
def redFloat : RedOp → Bool
  | .addF32 => true | .minF32 => true | .maxF32 => true | _ => false
def identity : RedOp → Nat
  | .minS32 => 0x7FFFFFFF | .minN32 => 0xFFFFFFFF | .maxS32 => 0x80000000 | .minF32 => 0x7F800000 | .maxF32 => 0xFF800000
  | .and32 => 0xFFFFFFFF | _ => 0
/-- Pairs neighbours of a tree level (R122). -/
def treeLevel (op : RedOp) (ftz : Bool) : List (Option Nat) → List (Option Nat) × BitVec 5
  | x :: y :: t =>
    let r := treeLevel op ftz t
    match x, y with
    | some u, some v => let c := combine op ftz u v; (some c.1 :: r.1, c.2 ||| r.2)
    | some u, none => (some u :: r.1, r.2)
    | none, v => (v :: r.1, r.2)
  | l => (l, 0)
/-- The value at the root of the 64-leaf tree and the flags of its nodes (R122). -/
def treeOf (op : RedOp) (ftz : Bool) : Nat → List (Option Nat) → Option Nat × BitVec 5
  | 0, l => (l.headD none, 0)
  | n + 1, l => let r := treeLevel op ftz l; let u := treeOf op ftz n r.1; (u.1, r.2 ||| u.2)
/-- A lane's tree over a set of lanes, whose operands read under FTZ (R78, R128, log entry 49); a NaN that reaches a destination is canonical, and a signalling leaf raises
invalid wherever it goes (R128). -/
def treeValue (h : Group) (op : RedOp) (a : Src) (set : List Nat) : Nat × BitVec 5 :=
  let ftz := h.ctx.kernel.ftz
  let val (i : Nat) : Nat := let x := srcNat h (decide (op = .add64)) a i; if redFloat op then ftzIn ftz fF32 x else x
  let leaf (i : Nat) : Option Nat := if set.contains i then some (val i) else none
  let r := treeOf op ftz 6 ((List.range 64).map leaf)
  let sn : BitVec 5 := if redFloat op ∧ set.any (fun i => (fF32.read (srcNat h false a i)).isSnan) then fInvalid else 0
  let v := r.1.getD (identity op)
  (if redFloat op ∧ (fF32.read v).isNan then fF32.cnan else v, r.2 ||| sn)
def redOp (d : Dst) (a : Src) (op : RedOp) (set : Nat → Nat → Bool) (s : State) : Out :=
  let w := decide (op = .add64)
  .next (alu s (1 + litsOf a) (srcRegs a (nRegs w)) d (fun l =>
    let r := treeValue s.g op a ((activeLanes s.g).filter (set l))
    (resWords w r.1, r.2)))
def execRed (d : Dst) (a : Src) (op : RedOp) (s : State) : Out := redOp d a op (fun _ _ => true) s
def execScan (d : Dst) (a : Src) (op : RedOp) (s : State) : Out := redOp d a op (fun i j => decide (j ≤ i)) s
def execXscan (d : Dst) (a : Src) (op : RedOp) (s : State) : Out := redOp d a op (fun i j => decide (j < i)) s

/-- The block of a lane: its active lanes (R129). -/
def blockLanes (h : Group) (b lane : Nat) : List Nat := (activeLanes h).filter (fun l => decide (l / b = lane / b))
/-- CVTB (R129, R130): encoding takes the active lanes of a block together; decoding traps on E = 255, after POISON of any lane, and a slot
that is not BFPm traps before either (R131 gives no order); E = 255 in one lane comes before a flag that another raises. The flags of an
encoding belong to the block (R129): its FP_EXCEPTION names every active lane of a block that raised an enabled flag (log entry 49). -/
def execCvtb (d : Dst) (a : Src) (k : Nat) (fromSlot : Bool) (s : State) : Out :=
  let h := s.g
  let sl := slotAt h k
  let ftz := h.ctx.kernel.ftz
  if sl.kind ≠ 1 then .next (illegalOperand s)
  else if fromSlot then
    let bad := (activeLanes h).filter (fun l => decide ((src32 h a l).toNat / 256 % 256 = 255))
    if bad ≠ [] ∧ poisonLanes h (srcRegs a 1) (activeLanes h) = [] then .next (takeTrap s { code := 2, detail := 6, lanes := maskOf bad })
    else .next (alu s (1 + litsOf a) (srcRegs a 1) d (fun l =>
      let x := (src32 h a l).toNat
      let r := bfpWord ftz sl.m (x / 256 % 256) x
      ([BitVec.ofNat 32 r.1], r.2)))
  else
    .next (alu s (1 + litsOf a) (srcRegs a 1) d (fun l =>
      let bl := blockLanes h sl.block l
      let b := encodeBlock sl.m sl.sat (bl.map (fun u =>
        let x := (src32 h a u).toNat
        (fF32.read (ftzIn ftz fF32 x), RMode.ofCode sl.round (drawInstr h x u))))
      let mu := b.mus.getD (indexOfLane bl l) 0
      ([BitVec.ofNat 32 (b.e * 256 + wrapN 8 (sx sl.m mu))], b.flags)) (fun g => if sl.round = 4 then bumpSeq g else g))
where
  indexOfLane (bl : List Nat) (l : Nat) : Nat := bl.findIdx (fun y => decide (y = l))

end Sys2Proof.Machine
end

