-- ==== Sys2Proof/Machine/Dispatch.lean ====
section
/-!
DEFINITION. Machine/Dispatch.lean: one arm for each constructor of Instr, one call of its meaning.
-/
namespace Sys2Proof.Machine

/-- The meaning of an instruction or of an event on a state. -/
def exec (i : Instr) (s : State) : Host.Outcome State Fault Refusal :=
  match i with
  | .add a b c d e => Sys2Proof.Machine.execAdd a b c d e s
  | .sub a b c d e => Sys2Proof.Machine.execSub a b c d e s
  | .mul a b c d e => Sys2Proof.Machine.execMul a b c d e s
  | .mulh a b c d => Sys2Proof.Machine.execMulh a b c d s
  | .mad a b c d => Sys2Proof.Machine.execMad a b c d s
  | .min a b c d => Sys2Proof.Machine.execMin a b c d s
  | .max a b c d => Sys2Proof.Machine.execMax a b c d s
  | .neg a b c => Sys2Proof.Machine.execNeg a b c s
  | .abs a b c => Sys2Proof.Machine.execAbs a b c s
  | .and a b c d => Sys2Proof.Machine.execAnd a b c d s
  | .or a b c d => Sys2Proof.Machine.execOr a b c d s
  | .xor a b c d => Sys2Proof.Machine.execXor a b c d s
  | .andn a b c d => Sys2Proof.Machine.execAndn a b c d s
  | .orn a b c d => Sys2Proof.Machine.execOrn a b c d s
  | .xnor a b c d => Sys2Proof.Machine.execXnor a b c d s
  | .shl a b c d => Sys2Proof.Machine.execShl a b c d s
  | .shrN a b c d => Sys2Proof.Machine.execShrN a b c d s
  | .shrS a b c d => Sys2Proof.Machine.execShrS a b c d s
  | .rol a b c d => Sys2Proof.Machine.execRol a b c d s
  | .popc a b c => Sys2Proof.Machine.execPopc a b c s
  | .clz a b c => Sys2Proof.Machine.execClz a b c s
  | .ctz a b c => Sys2Proof.Machine.execCtz a b c s
  | .brev a b c => Sys2Proof.Machine.execBrev a b c s
  | .bfx a b c d => Sys2Proof.Machine.execBfx a b c d s
  | .bfi a b c => Sys2Proof.Machine.execBfi a b c s
  | .cmpeq32 a b c d => Sys2Proof.Machine.execCmpeq32 a b c d s
  | .cmpne32 a b c d => Sys2Proof.Machine.execCmpne32 a b c d s
  | .cmplt32 a b c d => Sys2Proof.Machine.execCmplt32 a b c d s
  | .cmple32 a b c d => Sys2Proof.Machine.execCmple32 a b c d s
  | .cmpgt32 a b c d => Sys2Proof.Machine.execCmpgt32 a b c d s
  | .cmpge32 a b c d => Sys2Proof.Machine.execCmpge32 a b c d s
  | .cmpeq64 a b c d => Sys2Proof.Machine.execCmpeq64 a b c d s
  | .cmpne64 a b c d => Sys2Proof.Machine.execCmpne64 a b c d s
  | .cmplt64 a b c d => Sys2Proof.Machine.execCmplt64 a b c d s
  | .cmple64 a b c d => Sys2Proof.Machine.execCmple64 a b c d s
  | .cmpgt64 a b c d => Sys2Proof.Machine.execCmpgt64 a b c d s
  | .cmpge64 a b c d => Sys2Proof.Machine.execCmpge64 a b c d s
  | .sel a b c d => Sys2Proof.Machine.execSel a b c d s
  | .mov a b c => Sys2Proof.Machine.execMov a b c s
  | .lea a b c d => Sys2Proof.Machine.execLea a b c d s
  | .movs a b => Sys2Proof.Machine.execMovs a b s
  | .rng a b c => Sys2Proof.Machine.execRng a b c s
  | .addImm32 a b c => Sys2Proof.Machine.execAddImm32 a b c s
  | .addImm64 a b c => Sys2Proof.Machine.execAddImm64 a b c s
  | .andImm a b c => Sys2Proof.Machine.execAndImm a b c s
  | .orImm a b c => Sys2Proof.Machine.execOrImm a b c s
  | .xorImm a b c => Sys2Proof.Machine.execXorImm a b c s
  | .shlImm a b c => Sys2Proof.Machine.execShlImm a b c s
  | .shrNImm a b c => Sys2Proof.Machine.execShrNImm a b c s
  | .shrSImm a b c => Sys2Proof.Machine.execShrSImm a b c s
  | .mulImm a b c => Sys2Proof.Machine.execMulImm a b c s
  | .movImm a b => Sys2Proof.Machine.execMovImm a b s
  | .addF a b c d e => Sys2Proof.Machine.execAddF a b c d e s
  | .subF a b c d e => Sys2Proof.Machine.execSubF a b c d e s
  | .mulF a b c d e => Sys2Proof.Machine.execMulF a b c d e s
  | .fma a b c d e => Sys2Proof.Machine.execFma a b c d e s
  | .minF a b c d => Sys2Proof.Machine.execMinF a b c d s
  | .maxF a b c d => Sys2Proof.Machine.execMaxF a b c d s
  | .cmpeqF a b c d => Sys2Proof.Machine.execCmpeqF a b c d s
  | .cmpneF a b c d => Sys2Proof.Machine.execCmpneF a b c d s
  | .cmpltF a b c d => Sys2Proof.Machine.execCmpltF a b c d s
  | .cmpleF a b c d => Sys2Proof.Machine.execCmpleF a b c d s
  | .cmpgtF a b c d => Sys2Proof.Machine.execCmpgtF a b c d s
  | .cmpgeF a b c d => Sys2Proof.Machine.execCmpgeF a b c d s
  | .cmpun a b c d => Sys2Proof.Machine.execCmpun a b c d s
  | .cmpor a b c d => Sys2Proof.Machine.execCmpor a b c d s
  | .negF a b c => Sys2Proof.Machine.execNegF a b c s
  | .absF a b c => Sys2Proof.Machine.execAbsF a b c s
  | .rnd a b c d => Sys2Proof.Machine.execRnd a b c d s
  | .rcp a b c => Sys2Proof.Machine.execRcp a b c s
  | .rsq a b c => Sys2Proof.Machine.execRsq a b c s
  | .sqrt a b c => Sys2Proof.Machine.execSqrt a b c s
  | .exp2 a b c => Sys2Proof.Machine.execExp2 a b c s
  | .log2 a b c => Sys2Proof.Machine.execLog2 a b c s
  | .sin a b c => Sys2Proof.Machine.execSin a b c s
  | .cos a b c => Sys2Proof.Machine.execCos a b c s
  | .tanh a b c => Sys2Proof.Machine.execTanh a b c s
  | .cvt a b c d e f => Sys2Proof.Machine.execCvt a b c d e f s
  | .cvts a b c d => Sys2Proof.Machine.execCvts a b c d s
  | .packlo a b c => Sys2Proof.Machine.execPacklo a b c s
  | .packhi a b c => Sys2Proof.Machine.execPackhi a b c s
  | .shfl a b c d => Sys2Proof.Machine.execShfl a b c d s
  | .shflup a b c d => Sys2Proof.Machine.execShflup a b c d s
  | .shfldn a b c d => Sys2Proof.Machine.execShfldn a b c d s
  | .shflx a b c d => Sys2Proof.Machine.execShflx a b c d s
  | .vany a b => Sys2Proof.Machine.execVany a b s
  | .vall a b => Sys2Proof.Machine.execVall a b s
  | .vbal a b => Sys2Proof.Machine.execVbal a b s
  | .vmatch a b c => Sys2Proof.Machine.execVmatch a b c s
  | .red a b c => Sys2Proof.Machine.execRed a b c s
  | .scan a b c => Sys2Proof.Machine.execScan a b c s
  | .xscan a b c => Sys2Proof.Machine.execXscan a b c s
  | .cvtb a b c d => Sys2Proof.Machine.execCvtb a b c d s
  | .ld a b c d e f => Sys2Proof.Machine.execLd a b c d e f s
  | .ldSigned a b c d e f => Sys2Proof.Machine.execLdSigned a b c d e f s
  | .st a b c d e f => Sys2Proof.Machine.execSt a b c d e f s
  | .ldm a b c d => Sys2Proof.Machine.execLdm a b c d s
  | .stm a b c d => Sys2Proof.Machine.execStm a b c d s
  | .ldf a b c d e => Sys2Proof.Machine.execLdf a b c d e s
  | .ldfe a b c d e => Sys2Proof.Machine.execLdfe a b c d e s
  | .stef a b c d e => Sys2Proof.Machine.execStef a b c d e s
  | .setf a b => Sys2Proof.Machine.execSetf a b s
  | .sete a b => Sys2Proof.Machine.execSete a b s
  | .trd a b c => Sys2Proof.Machine.execTrd a b c s
  | .atadd a b c d e f => Sys2Proof.Machine.execAtadd a b c d e f s
  | .atminS a b c d e f => Sys2Proof.Machine.execAtminS a b c d e f s
  | .atminN a b c d e f => Sys2Proof.Machine.execAtminN a b c d e f s
  | .atmaxS a b c d e f => Sys2Proof.Machine.execAtmaxS a b c d e f s
  | .atmaxN a b c d e f => Sys2Proof.Machine.execAtmaxN a b c d e f s
  | .atand a b c d e f => Sys2Proof.Machine.execAtand a b c d e f s
  | .ator a b c d e f => Sys2Proof.Machine.execAtor a b c d e f s
  | .atxor a b c d e f => Sys2Proof.Machine.execAtxor a b c d e f s
  | .atxch a b c d e f => Sys2Proof.Machine.execAtxch a b c d e f s
  | .atcas a b c d e f => Sys2Proof.Machine.execAtcas a b c d e f s
  | .atfadd a b c d e => Sys2Proof.Machine.execAtfadd a b c d e s
  | .faddCp a b c d e => Sys2Proof.Machine.execFaddCp a b c d e s
  | .fence a b => Sys2Proof.Machine.execFence a b s
  | .mma a b c d => Sys2Proof.Machine.execMma a b c d s
  | .mmap a b c d => Sys2Proof.Machine.execMmap a b c d s
  | .mconv a b c d => Sys2Proof.Machine.execMconv a b c d s
  | .mrd a b c => Sys2Proof.Machine.execMrd a b c s
  | .mwr a b c => Sys2Proof.Machine.execMwr a b c s
  | .mzero a => Sys2Proof.Machine.execMzero a s
  | .mst a b c => Sys2Proof.Machine.execMst a b c s
  | .mtake a => Sys2Proof.Machine.execMtake a s
  | .mfree a => Sys2Proof.Machine.execMfree a s
  | .cpy a b => Sys2Proof.Machine.execCpy a b s
  | .cpyn a b c d => Sys2Proof.Machine.execCpyn a b c d s
  | .cpyr a b => Sys2Proof.Machine.execCpyr a b s
  | .publish a => Sys2Proof.Machine.execPublish a s
  | .cpyq a b => Sys2Proof.Machine.execCpyq a b s
  | .prim a b => Sys2Proof.Machine.execPrim a b s
  | .fins a b => Sys2Proof.Machine.execFins a b s
  | .fpeek a b c => Sys2Proof.Machine.execFpeek a b c s
  | .fres a b c d => Sys2Proof.Machine.execFres a b c d s
  | .fclr a b => Sys2Proof.Machine.execFclr a b s
  | .encTile a => Sys2Proof.Machine.execEncTile a s
  | .trvbox a b c => Sys2Proof.Machine.execTrvbox a b c s
  | .trvtri a b c => Sys2Proof.Machine.execTrvtri a b c s
  | .trvpsh a => Sys2Proof.Machine.execTrvpsh a s
  | .trvpop a => Sys2Proof.Machine.execTrvpop a s
  | .trvinstEnter a => Sys2Proof.Machine.execTrvinstEnter a s
  | .trvinstLeave => Sys2Proof.Machine.execTrvinstLeave s
  | .trvrd a b => Sys2Proof.Machine.execTrvrd a b s
  | .bra a => Sys2Proof.Machine.execBra a s
  | .brt a b => Sys2Proof.Machine.execBrt a b s
  | .brf a b => Sys2Proof.Machine.execBrf a b s
  | .join a => Sys2Proof.Machine.execJoin a s
  | .dbrt a b => Sys2Proof.Machine.execDbrt a b s
  | .dbrf a b => Sys2Proof.Machine.execDbrf a b s
  | .call a => Sys2Proof.Machine.execCall a s
  | .ret => Sys2Proof.Machine.execRet s
  | .exit => Sys2Proof.Machine.execExit s
  | .rett => Sys2Proof.Machine.execRett s
  | .brkpt => Sys2Proof.Machine.execBrkpt s
  | .barGrp => Sys2Proof.Machine.execBarGrp s
  | .barTeam a => Sys2Proof.Machine.execBarTeam a s
  | .barArv a => Sys2Proof.Machine.execBarArv a s
  | .barWait a => Sys2Proof.Machine.execBarWait a s
  | .semacq a b c => Sys2Proof.Machine.execSemacq a b c s
  | .semrel a b => Sys2Proof.Machine.execSemrel a b s
  | .dbar a => Sys2Proof.Machine.execDbar a s
  | .dbara a => Sys2Proof.Machine.execDbara a s
  | .dbarw a => Sys2Proof.Machine.execDbarw a s
  | .sbar a => Sys2Proof.Machine.execSbar a s
  | .enq a b c => Sys2Proof.Machine.execEnq a b c s
  | .regroup a b c => Sys2Proof.Machine.execRegroup a b c s
  | .clauseFetch a => Sys2Proof.Machine.execClauseFetch a s
  | .waitMaskSatisfied a => Sys2Proof.Machine.execWaitMaskSatisfied a s
  | .storeQueueDrain a => Sys2Proof.Machine.execStoreQueueDrain a s
  | .loadDataReturn a => Sys2Proof.Machine.execLoadDataReturn a s
  | .tagWaitSatisfied a => Sys2Proof.Machine.execTagWaitSatisfied a s
  | .tagTimeout a => Sys2Proof.Machine.execTagTimeout a s
  | .issueStallEnd a => Sys2Proof.Machine.execIssueStallEnd a s
  | .tileBind a => Sys2Proof.Machine.execTileBind a s
  | .matrixStep a b => Sys2Proof.Machine.execMatrixStep a b s
  | .mstPerform a => Sys2Proof.Machine.execMstPerform a s
  | .mzeroPerform a => Sys2Proof.Machine.execMzeroPerform a s
  | .engineOff a b => Sys2Proof.Machine.execEngineOff a b s
  | .copyUnit a => Sys2Proof.Machine.execCopyUnit a s
  | .turn a => Sys2Proof.Machine.execTurn a s
  | .primitiveRasterise a => Sys2Proof.Machine.execPrimitiveRasterise a s
  | .fragmentInsert a => Sys2Proof.Machine.execFragmentInsert a s
  | .tileAccept a => Sys2Proof.Machine.execTileAccept a s
  | .frameEncode a b c => Sys2Proof.Machine.execFrameEncode a b c s
  | .traversalResult a => Sys2Proof.Machine.execTraversalResult a s
  | .regroupTimeout a b c => Sys2Proof.Machine.execRegroupTimeout a b c s
  | .queueFetch a b => Sys2Proof.Machine.execQueueFetch a b s
  | .queueTorn a b => Sys2Proof.Machine.execQueueTorn a b s
  | .launchRelease a => Sys2Proof.Machine.execLaunchRelease a s
  | .teamPlace a => Sys2Proof.Machine.execTeamPlace a s
  | .groupStop a => Sys2Proof.Machine.execGroupStop a s
  | .bobbinSave a => Sys2Proof.Machine.execBobbinSave a s
  | .teamResume a => Sys2Proof.Machine.execTeamResume a s
  | .launchComplete a => Sys2Proof.Machine.execLaunchComplete a s
  | .watchdog a => Sys2Proof.Machine.execWatchdog a s
  | .hang a b => Sys2Proof.Machine.execHang a b s
  | .functionLevelReset a => Sys2Proof.Machine.execFunctionLevelReset a s
  | .pageWalk a b => Sys2Proof.Machine.execPageWalk a b s
  | .patrolRead a b => Sys2Proof.Machine.execPatrolRead a b s
  | .channelStep a => Sys2Proof.Machine.execChannelStep a s
  | .channelRetrainDone a => Sys2Proof.Machine.execChannelRetrainDone a s
  | .thermal a => Sys2Proof.Machine.execThermal a s
  | .clockStepUp a => Sys2Proof.Machine.execClockStepUp a s
  | .thermalTrip a => Sys2Proof.Machine.execThermalTrip a s
  | .powerUp => Sys2Proof.Machine.execPowerUp s
  | .powerRemoval => Sys2Proof.Machine.execPowerRemoval s
  | .linkDown a => Sys2Proof.Machine.execLinkDown a s
  | .linkRetry a b => Sys2Proof.Machine.execLinkRetry a b s
  | .ptpEventMessage a b => Sys2Proof.Machine.execPtpEventMessage a b s
  | .hostBarAccess a b c => Sys2Proof.Machine.execHostBarAccess a b c s
  | .registerWrite a b c => Sys2Proof.Machine.execRegisterWrite a b c s
  | .fuse a => Sys2Proof.Machine.execFuse a s
  | .split a => Sys2Proof.Machine.execSplit a s
  | .move a => Sys2Proof.Machine.execMove a s
  | .ways a => Sys2Proof.Machine.execWays a s
  | .keys a => Sys2Proof.Machine.execKeys a s
  | .leaseLender a => Sys2Proof.Machine.execLeaseLender a s
  | .leaseBorrower a => Sys2Proof.Machine.execLeaseBorrower a s
  | .reclaim a => Sys2Proof.Machine.execReclaim a s
  | .leaseReturn a => Sys2Proof.Machine.execLeaseReturn a s
  | .leaseNoticeExpiry a => Sys2Proof.Machine.execLeaseNoticeExpiry a s
  | .leaseQuota a => Sys2Proof.Machine.execLeaseQuota a s
  | .window a => Sys2Proof.Machine.execWindow a s
  | .admitEntry a => Sys2Proof.Machine.execAdmitEntry a s
  | .root a => Sys2Proof.Machine.execRoot a s
  | .invalRange a => Sys2Proof.Machine.execInvalRange a s
  | .invalSpace a => Sys2Proof.Machine.execInvalSpace a s
  | .keyload a => Sys2Proof.Machine.execKeyload a s
  | .keyErase a => Sys2Proof.Machine.execKeyErase a s
  | .queueCreate a => Sys2Proof.Machine.execQueueCreate a s
  | .queueOpen a => Sys2Proof.Machine.execQueueOpen a s
  | .queueClose a => Sys2Proof.Machine.execQueueClose a s
  | .queueRestart a => Sys2Proof.Machine.execQueueRestart a s
  | .objectCreate a => Sys2Proof.Machine.execObjectCreate a s
  | .objectDestroy a => Sys2Proof.Machine.execObjectDestroy a s
  | .objectRead a => Sys2Proof.Machine.execObjectRead a s
  | .ageing a => Sys2Proof.Machine.execAgeing a s
  | .pool a => Sys2Proof.Machine.execPool a s
  | .replsetRegister a => Sys2Proof.Machine.execReplsetRegister a s
  | .replsetRelease a => Sys2Proof.Machine.execReplsetRelease a s
  | .meter a => Sys2Proof.Machine.execMeter a s
  | .capture a => Sys2Proof.Machine.execCapture a s
  | .restore a => Sys2Proof.Machine.execRestore a s
  | .ratomic a => Sys2Proof.Machine.execRatomic a s
  | .attest a => Sys2Proof.Machine.execAttest a s
  | .cert a => Sys2Proof.Machine.execCert a s
  | .remoteCopyWrite a b c d e => Sys2Proof.Machine.execRemoteCopyWrite a b c d e s
  | .cpyrAckTimeout a => Sys2Proof.Machine.execCpyrAckTimeout a s
  | .remoteAtomicMessage a b c d e f h => Sys2Proof.Machine.execRemoteAtomicMessage a b c d e f h s
  | .startBarrierArrival a b c => Sys2Proof.Machine.execStartBarrierArrival a b c s
  | .replicaTimeout a b c => Sys2Proof.Machine.execReplicaTimeout a b c s
  | .coreDrain a => Sys2Proof.Machine.execCoreDrain a s
  | .remoteAcknowledgement a b => Sys2Proof.Machine.execRemoteAcknowledgement a b s
  | .hostWrite a b => Sys2Proof.Machine.execHostWrite a b s

end Sys2Proof.Machine
end

