-- ==== Sys2Proof/WellFormed.lean ====
section
/-!
DEFINITION. WellFormed.lean: the instructions that some word encodes in a kernel of 120 registers (R36 to R39, R53 to R67).
-/
namespace Sys2Proof

/-- A written field of n registers: aligned to n, below v120 (R38, R39). -/
def Dst.wf (n : Nat) : Dst → Bool
  | .reg k => decide (k % n = 0 ∧ k + n ≤ 120)
  | .zero => true
/-- A range of n registers with no alignment (R208). -/
def Dst.wfRange (n : Nat) : Dst → Bool
  | .reg k => decide (k + n ≤ 120)
  | .zero => true
/-- A source of n registers (R36); a 64-bit literal only in a 64-bit source. -/
def Src.wf (n : Nat) : Src → Bool
  | .reg k => decide (k % n = 0 ∧ k + n ≤ 120)
  | .lit64 _ => decide (n = 2)
  | _ => true
def Src.lit : Src → Bool
  | .lit32 _ => true
  | .lit64 _ => true
  | _ => false
/-- An instruction carries at most one literal (R37). -/
def oneLit (a b : Src) : Bool := !(a.lit && b.lit)
def wN (w : Bool) : Nat := if w then 2 else 1
def tyN : IntTy → Nat
  | .s32 => 1 | .n32 => 1 | .s64 => 2 | .n64 => 2
def cvtN : CvtTy → Nat
  | .s64 => 2 | .n64 => 2 | _ => 1
def redN : RedOp → Nat
  | .add64 => 2 | _ => 1
def selN : Sel → Nat
  | .active => 2 | .time => 2 | .cycle => 2 | .krec => 2 | .lrec => 2 | .args => 2 | .skey => 2 | .slot _ => 2
  | .deadline => 2 | _ => 1
def szN : Sz → Nat
  | .b1 => 1 | .b2 => 1 | .b4 => 1 | .b8 => 2 | .b16 => 4 | .b32 => 8
/-- An address operand (R200). -/
def addrOk (a : Src) (e : Space) : Bool := a.wf (if e = .g then 2 else 1)
/-- A store's source (R201). -/
def stWf (t : Src) (z : Sz) : Bool :=
  match z with
  | .b16 | .b32 => (match t with | .reg k => decide (k % szN z = 0 ∧ k + szN z ≤ 120) | .zero => true | _ => false)
  | _ => t.wf (szN z)
/-- LDM's address register lies outside its destination range (R208). -/
def ldmApart (d : Dst) (a : Src) (n : Nat) (e : Space) : Bool :=
  match d, a with
  | .reg k, .reg j => !decide (j < k + n ∧ k < j + (if e = .g then 2 else 1))
  | _, _ => true

/-- Some word encodes the instruction; events have no word and are always well formed. -/
def Instr.wf : Instr → Bool
  | .add d a b ty _ => d.wf (tyN ty) && a.wf (tyN ty) && b.wf (tyN ty) && oneLit a b
  | .sub d a b ty _ => d.wf (tyN ty) && a.wf (tyN ty) && b.wf (tyN ty) && oneLit a b
  | .mul d a b ty _ => d.wf (tyN ty) && a.wf (tyN ty) && b.wf (tyN ty) && oneLit a b
  | .mulh d a b ty => d.wf (tyN ty) && a.wf (tyN ty) && b.wf (tyN ty) && oneLit a b
  | .mad d a b ty => d.wf (tyN ty) && a.wf (tyN ty) && b.wf (tyN ty) && oneLit a b
  | .min d a b ty => d.wf (tyN ty) && a.wf (tyN ty) && b.wf (tyN ty) && oneLit a b
  | .max d a b ty => d.wf (tyN ty) && a.wf (tyN ty) && b.wf (tyN ty) && oneLit a b
  | .neg d a w => d.wf (wN w) && a.wf (wN w)
  | .abs d a w => d.wf (wN w) && a.wf (wN w)
  | .and d a b w => d.wf (wN w) && a.wf (wN w) && b.wf (wN w) && oneLit a b
  | .or d a b w => d.wf (wN w) && a.wf (wN w) && b.wf (wN w) && oneLit a b
  | .xor d a b w => d.wf (wN w) && a.wf (wN w) && b.wf (wN w) && oneLit a b
  | .andn d a b w => d.wf (wN w) && a.wf (wN w) && b.wf (wN w) && oneLit a b
  | .orn d a b w => d.wf (wN w) && a.wf (wN w) && b.wf (wN w) && oneLit a b
  | .xnor d a b w => d.wf (wN w) && a.wf (wN w) && b.wf (wN w) && oneLit a b
  | .shl d a b w => d.wf (wN w) && a.wf (wN w) && b.wf 1 && oneLit a b
  | .shrN d a b w => d.wf (wN w) && a.wf (wN w) && b.wf 1 && oneLit a b
  | .shrS d a b w => d.wf (wN w) && a.wf (wN w) && b.wf 1 && oneLit a b
  | .rol d a b w => d.wf (wN w) && a.wf (wN w) && b.wf 1 && oneLit a b
  | .popc d a w => d.wf 1 && a.wf (wN w)
  | .clz d a w => d.wf 1 && a.wf (wN w)
  | .ctz d a w => d.wf 1 && a.wf (wN w)
  | .brev d a w => d.wf (wN w) && a.wf (wN w)
  | .bfx d a b _ => d.wf 1 && a.wf 1 && b.wf 1 && oneLit a b
  | .bfi d a b => d.wf 1 && a.wf 1 && b.wf 1 && oneLit a b
  | .cmpeq32 d a b _ => d.wf 1 && a.wf 1 && b.wf 1 && oneLit a b
  | .cmpne32 d a b _ => d.wf 1 && a.wf 1 && b.wf 1 && oneLit a b
  | .cmplt32 d a b _ => d.wf 1 && a.wf 1 && b.wf 1 && oneLit a b
  | .cmple32 d a b _ => d.wf 1 && a.wf 1 && b.wf 1 && oneLit a b
  | .cmpgt32 d a b _ => d.wf 1 && a.wf 1 && b.wf 1 && oneLit a b
  | .cmpge32 d a b _ => d.wf 1 && a.wf 1 && b.wf 1 && oneLit a b
  | .cmpeq64 d a b _ => d.wf 1 && a.wf 2 && b.wf 2 && oneLit a b
  | .cmpne64 d a b _ => d.wf 1 && a.wf 2 && b.wf 2 && oneLit a b
  | .cmplt64 d a b _ => d.wf 1 && a.wf 2 && b.wf 2 && oneLit a b
  | .cmple64 d a b _ => d.wf 1 && a.wf 2 && b.wf 2 && oneLit a b
  | .cmpgt64 d a b _ => d.wf 1 && a.wf 2 && b.wf 2 && oneLit a b
  | .cmpge64 d a b _ => d.wf 1 && a.wf 2 && b.wf 2 && oneLit a b
  | .sel d a b w => d.wf (wN w) && a.wf (wN w) && b.wf (wN w) && oneLit a b
  | .mov d a w => d.wf (wN w) && a.wf (wN w)
  | .lea d a b k => d.wf 2 && a.wf 2 && b.wf 1 && oneLit a b && decide (k < 5)
  | .movs d x => d.wf (selN x) && (match x with | .slot k => decide (k < 8) | _ => true)
  | .rng d a b => d.wf 4 && a.wf 2 && b.wf 4
  | .addImm32 d a _ => d.wf 1 && a.wf 1
  | .addImm64 d a _ => d.wf 2 && a.wf 2
  | .andImm d a _ => d.wf 1 && a.wf 1
  | .orImm d a _ => d.wf 1 && a.wf 1
  | .xorImm d a _ => d.wf 1 && a.wf 1
  | .shlImm d a m => d.wf 1 && a.wf 1 && decide (m.toNat < 32)
  | .shrNImm d a m => d.wf 1 && a.wf 1 && decide (m.toNat < 32)
  | .shrSImm d a m => d.wf 1 && a.wf 1 && decide (m.toNat < 32)
  | .mulImm d a _ => d.wf 1 && a.wf 1
  | .movImm d _ => d.wf 1
  | .addF d a b _ _ => d.wf 1 && a.wf 1 && b.wf 1 && oneLit a b
  | .subF d a b _ _ => d.wf 1 && a.wf 1 && b.wf 1 && oneLit a b
  | .mulF d a b _ _ => d.wf 1 && a.wf 1 && b.wf 1 && oneLit a b
  | .fma d a b _ _ => d.wf 1 && a.wf 1 && b.wf 1 && oneLit a b
  | .minF d a b _ => d.wf 1 && a.wf 1 && b.wf 1 && oneLit a b
  | .maxF d a b _ => d.wf 1 && a.wf 1 && b.wf 1 && oneLit a b
  | .cmpeqF d a b _ => d.wf 1 && a.wf 1 && b.wf 1 && oneLit a b
  | .cmpneF d a b _ => d.wf 1 && a.wf 1 && b.wf 1 && oneLit a b
  | .cmpltF d a b _ => d.wf 1 && a.wf 1 && b.wf 1 && oneLit a b
  | .cmpleF d a b _ => d.wf 1 && a.wf 1 && b.wf 1 && oneLit a b
  | .cmpgtF d a b _ => d.wf 1 && a.wf 1 && b.wf 1 && oneLit a b
  | .cmpgeF d a b _ => d.wf 1 && a.wf 1 && b.wf 1 && oneLit a b
  | .cmpun d a b _ => d.wf 1 && a.wf 1 && b.wf 1 && oneLit a b
  | .cmpor d a b _ => d.wf 1 && a.wf 1 && b.wf 1 && oneLit a b
  | .negF d a _ => d.wf 1 && a.wf 1
  | .absF d a _ => d.wf 1 && a.wf 1
  | .rnd d a _ _ => d.wf 1 && a.wf 1
  | .rcp d a _ => d.wf 1 && a.wf 1
  | .rsq d a _ => d.wf 1 && a.wf 1
  | .sqrt d a _ => d.wf 1 && a.wf 1
  | .exp2 d a _ => d.wf 1 && a.wf 1
  | .log2 d a _ => d.wf 1 && a.wf 1
  | .sin d a _ => d.wf 1 && a.wf 1
  | .cos d a _ => d.wf 1 && a.wf 1
  | .tanh d a _ => d.wf 1 && a.wf 1
  | .cvt d a t u _ _ => d.wf (cvtN t) && a.wf (cvtN u) && decide (t ≠ u)
  | .cvts d a k _ => d.wf 1 && a.wf 1 && decide (k < 8)
  | .packlo d a b => d.wf 1 && a.wf 1 && b.wf 1 && oneLit a b
  | .packhi d a b => d.wf 1 && a.wf 1 && b.wf 1 && oneLit a b
  | .shfl d a b w => d.wf (wN w) && a.wf (wN w) && b.wf 1 && oneLit a b
  | .shflup d a b w => d.wf (wN w) && a.wf (wN w) && b.wf 1 && oneLit a b
  | .shfldn d a b w => d.wf (wN w) && a.wf (wN w) && b.wf 1 && oneLit a b
  | .shflx d a b w => d.wf (wN w) && a.wf (wN w) && b.wf 1 && oneLit a b
  | .vany d a => d.wf 1 && a.wf 1
  | .vall d a => d.wf 1 && a.wf 1
  | .vbal d a => d.wf 2 && a.wf 1
  | .vmatch d a b => d.wf 2 && a.wf 1 && b.wf 1 && oneLit a b
  | .red d a op => d.wf (redN op) && a.wf (redN op)
  | .scan d a op => d.wf (redN op) && a.wf (redN op)
  | .xscan d a op => d.wf (redN op) && a.wf (redN op)
  | .cvtb d a k _ => d.wf 1 && a.wf 1 && decide (k < 8)
  | .ld t a z o _ e => t.wf (szN z) && addrOk a e && decide (o ≠ .rel)
  | .ldSigned t a _ o _ e => t.wf 1 && addrOk a e && decide (o ≠ .rel)
  | .st t a z o _ e => stWf t z && addrOk a e && oneLit t a && decide (o ≠ .acq)
  | .ldm d a n e => d.wfRange n && addrOk a e && decide (1 ≤ n ∧ n ≤ 32) && ldmApart d a n e
  | .stm d a n e => d.wfRange n && addrOk a e && decide (1 ≤ n ∧ n ≤ 32)
  | .ldf t a o _ e => t.wf 1 && addrOk a e && decide (o ≠ .rel) && (decide (e = .s) || decide (e = .rg))
  | .ldfe t a _ _ e => t.wf 1 && addrOk a e && (decide (e = .s) || decide (e = .rg))
  | .stef t a o _ e => t.wf 1 && addrOk a e && oneLit t a && decide (o ≠ .acq) && (decide (e = .s) || decide (e = .rg))
  | .setf a _ => a.wf 1
  | .sete a _ => a.wf 1
  | .trd d a _ => d.wf 1 && a.wf 1
  | .atadd t a w _ _ e => t.wf (wN w) && addrOk a e && decide (e ≠ .p)
  | .atminS t a w _ _ e => t.wf (wN w) && addrOk a e && decide (e ≠ .p)
  | .atminN t a w _ _ e => t.wf (wN w) && addrOk a e && decide (e ≠ .p)
  | .atmaxS t a w _ _ e => t.wf (wN w) && addrOk a e && decide (e ≠ .p)
  | .atmaxN t a w _ _ e => t.wf (wN w) && addrOk a e && decide (e ≠ .p)
  | .atand t a w _ _ e => t.wf (wN w) && addrOk a e && decide (e ≠ .p)
  | .ator t a w _ _ e => t.wf (wN w) && addrOk a e && decide (e ≠ .p)
  | .atxor t a w _ _ e => t.wf (wN w) && addrOk a e && decide (e ≠ .p)
  | .atxch t a w _ _ e => t.wf (wN w) && addrOk a e && decide (e ≠ .p)
  | .atcas t a w _ _ e => t.wf (2 * wN w) && addrOk a e && decide (e ≠ .p)
  | .atfadd t a _ _ e => t.wf 1 && addrOk a e && decide (e ≠ .p)
  | .faddCp t a _ _ e => t.wf 2 && addrOk a e && decide (e ≠ .p)
  | .fence o _ => decide (o ≠ .rlx)
  | .mma t d a b => decide (t < 16) && d.wf 1 && a.wf 2 && b.wf 2 && oneLit a b
  | .mmap t d a b => decide (t < 16) && d.wf 1 && a.wf 2 && b.wf 2 && oneLit a b
  | .mconv t d a b => decide (t < 16) && d.wf 1 && a.wf 2 && b.wf 2 && oneLit a b
  | .mrd t d a => decide (t < 16) && d.wf 1 && a.wf 1
  | .mwr t d a => decide (t < 16) && d.wf 1 && a.wf 1
  | .mzero t => decide (t < 16)
  | .mst t d a => decide (t < 16) && d.wf 1 && a.wf 2
  | .mtake t => decide (t < 16)
  | .mfree t => decide (t < 16)
  | .cpy d a => d.wf 1 && a.wf 2
  | .cpyn d a k _ => d.wf 1 && a.wf 2 && decide (k < 8)
  | .cpyr d a => d.wf 1 && a.wf 2
  | .publish a => a.wf 2
  | .cpyq d a => d.wf 1 && a.wf 1
  | .prim d a => d.wf 2 && a.wf 2
  | .fins d a => d.wf 4 && a.wf 2
  | .fpeek d a b => d.wf 4 && a.wf 2 && b.wf 1 && oneLit a b
  | .fres d a b _ => d.wf 2 && a.wf 2 && b.wf 1 && oneLit a b
  | .fclr a b => a.wf 2 && b.wf 1 && oneLit a b
  | .encTile a => a.wf 2
  | .trvbox d a b => d.wf 2 && a.wf 8 && b.wf 2
  | .trvtri d a b => d.wf 4 && a.wf 8 && b.wf 2
  | .trvpsh a => a.wf 2
  | .trvpop d => d.wf 2
  | .trvinstEnter a => a.wf 1
  | .trvinstLeave => true
  | .trvrd d a => d.wf 2 && a.wf 1
  | .bra _ => true
  | .brt c _ => decide (c < 16)
  | .brf c _ => decide (c < 16)
  | .join _ => true
  | .dbrt c _ => decide (c < 16)
  | .dbrf c _ => decide (c < 16)
  | .call _ => true
  | .ret => true
  | .exit => true
  | .rett => true
  | .brkpt => true
  | .barGrp => true
  | .barTeam n => decide (n < 16)
  | .barArv n => decide (n < 16)
  | .barWait n => decide (n < 16)
  | .semacq d a b => d.wf 1 && a.wf 1 && b.wf 1 && oneLit a b
  | .semrel a b => a.wf 1 && b.wf 1 && oneLit a b
  | .dbar a => a.wf 1
  | .dbara a => a.wf 1
  | .dbarw a => a.wf 1
  | .sbar a => a.wf 1
  | .enq d a b => d.wf 1 && a.wf 2 && b.wf 1 && oneLit a b
  | .regroup k site n => k.wf 1 && decide (site < 128) && decide (1 ≤ n ∧ n ≤ 15)
  | .clauseFetch _ => true
  | .waitMaskSatisfied _ => true
  | .storeQueueDrain _ => true
  | .loadDataReturn _ => true
  | .tagWaitSatisfied _ => true
  | .tagTimeout _ => true
  | .issueStallEnd _ => true
  | .tileBind _ => true
  | .matrixStep _ _ => true
  | .mstPerform _ => true
  | .mzeroPerform _ => true
  | .engineOff r e => decide (r < 48 ∧ e < 2)
  | .copyUnit _ => true
  | .turn _ => true
  | .primitiveRasterise _ => true
  | .fragmentInsert _ => true
  | .tileAccept _ => true
  | .frameEncode _ _ _ => true
  | .traversalResult _ => true
  | .regroupTimeout _ _ _ => true
  | .queueFetch f q => decide (f < 17 ∧ q < 256)
  | .queueTorn f q => decide (f < 17 ∧ q < 256)
  | .launchRelease _ => true
  | .teamPlace f => decide (f < 17)
  | .groupStop _ => true
  | .bobbinSave _ => true
  | .teamResume _ => true
  | .launchComplete _ => true
  | .watchdog _ => true
  | .hang p u => decide (p < 16 ∧ u < 320)
  | .functionLevelReset f => decide (f < 17)
  | .pageWalk (f, p) v => decide (f < 17 ∧ v < 2 ^ 51 ∧ p < 16)
  | .patrolRead _ _ => true
  | .channelStep c => decide (c < 48)
  | .channelRetrainDone c => decide (c < 48)
  | .thermal d => decide (d < 2)
  | .clockStepUp d => decide (d < 2)
  | .thermalTrip d => decide (d < 2)
  | .powerUp => true
  | .powerRemoval => true
  | .linkDown k => decide (k < 2)
  | .linkRetry _ n => decide (n < 10)
  | .ptpEventMessage (f, _) _ => decide (f < 17)
  | .hostBarAccess f v a => decide (f < 17 ∧ v + (match a with | .read n => n | .write b => b.length) ≤ 2 ^ 36)
  | .registerWrite f _ _ => decide (f < 17)
  | .fuse f => decide (f < 17)
  | .split f => decide (f < 17)
  | .move f => decide (f < 17)
  | .ways f => decide (f < 17)
  | .keys f => decide (f < 17)
  | .leaseLender f => decide (f < 17)
  | .leaseBorrower f => decide (f < 17)
  | .reclaim f => decide (f < 17)
  | .leaseReturn f => decide (f < 17)
  | .leaseNoticeExpiry _ => true
  | .leaseQuota _ => true
  | .window f => decide (f < 17)
  | .admitEntry f => decide (f < 17)
  | .root f => decide (f < 17)
  | .invalRange f => decide (f < 17)
  | .invalSpace f => decide (f < 17)
  | .keyload f => decide (f < 17)
  | .keyErase f => decide (f < 17)
  | .queueCreate f => decide (f < 17)
  | .queueOpen f => decide (f < 17)
  | .queueClose f => decide (f < 17)
  | .queueRestart f => decide (f < 17)
  | .objectCreate f => decide (f < 17)
  | .objectDestroy f => decide (f < 17)
  | .objectRead f => decide (f < 17)
  | .ageing f => decide (f < 17)
  | .pool f => decide (f < 17)
  | .replsetRegister f => decide (f < 17)
  | .replsetRelease f => decide (f < 17)
  | .meter f => decide (f < 17)
  | .capture f => decide (f < 17)
  | .restore f => decide (f < 17)
  | .ratomic f => decide (f < 17)
  | .attest f => decide (f < 17)
  | .cert f => decide (f < 17)
  | .remoteCopyWrite p g f v b => decide (p < 131072 ∧ g < 17 ∧ f < 17 ∧ v + b.length ≤ 2 ^ 51)
  | .cpyrAckTimeout _ => true
  | .remoteAtomicMessage p f v _ _ _ _ => decide (p < 131072 ∧ f < 17 ∧ v < 2 ^ 51)
  | .startBarrierArrival f g (p, q) => decide (f < 17 ∧ g < 2 ^ 32 ∧ p < 131072 ∧ q < 17)
  | .replicaTimeout f g p => decide (f < 17 ∧ g < 2 ^ 32 ∧ p < 131072)
  | .coreDrain _ => true
  | .remoteAcknowledgement _ _ => true
  | .hostWrite o b => decide (o + b.length ≤ 2 ^ 51)

end Sys2Proof
end

