-- ==== Sys2Proof/Machine/Turns.lean ====
section
/-!
DEFINITION. Machine/Turns.lean: what moves next. The agenda of State orders the turns of every agent; when it is empty the group that
issues goes on, else another group, else the first event that changes something, else time passes (log entries 2 and 3).
-/
namespace Sys2Proof.Machine

-- time (R16, R391, R406)

/-- A time base after n units of 10 ns, at its slewed rate. -/
def passTime (n : Nat) (b : TimeBase) : TimeBase :=
  if b.set then
    let t := 10 * n * (1000000 + satI b.rate (-200) 200).toNat + b.frac
    { b with value := (b.value + t / 1000000) % 18446744073709551616, frac := t % 1000000 }
  else b
/-- Cycles of a core's clock in n units of 10 ns. -/
def cyclesIn (s : State) (core n : Nat) : Nat := n * (s.dies.getD (dieOfCore core) {}).clock
/-- A resident group's counts (R212, R417); a hollow slot has none. -/
def countGroup (s : State) (n : Nat) (h : Group) : Group :=
  if residentGroup h ∧ ¬ h.hollow then { h with idle := h.idle + cyclesIn s h.core n, tagWait := h.tagWait.map (· + cyclesIn s h.core n) } else h
/-- What has become due for Aqmal arrives in its queue (R392). -/
def arriveEvents (s : State) : State := (leaseEvents s).foldl joinQueue s
/-- n units of 10 ns later: times, clocks and counts. -/
def passed (s : State) (n : Nat) : State :=
  { s with now := s.now + 10 * n, bases := s.bases.map (fun e => (e.1, passTime n e.2)), dies := s.dies.map (fun d => { d with cycles := d.cycles + n * d.clock }),
           g := countGroup s n s.g, others := s.others.map (countGroup s n), fns := s.fns.map (fun f => passTorn (fnCycles s f n) f) }
/-- Time passes: windows that it makes due start (R283), units are watched (R418), and what is due for Aqmal arrives. -/
def tick (s : State) (n : Nat) : State := arriveEvents (watchUnits (startOverdueAll (passed s n)))
/-- Nothing can move: 10 ns pass, and stalled instructions issue again (R148). -/
def idleStep (s : State) : State :=
  let t := tick s 1
  let wake (h : Group) : Group := { h with stalled := false }
  { t with g := wake t.g, others := t.others.map wake }

-- turns that are no event of the table

/-- The group that issues becomes this one. -/
def makeCurrent (s : State) (id : Nat) : State :=
  if s.g.id = id ∧ s.g.phase ≠ .none then s
  else match findFirst (fun h => decide (h.id = id)) s.others with
    | none => s
    | some h => { s with g := h, others := (if s.g.phase = .none then [] else [s.g]) ++ s.others.filter (fun x => decide (x.id ≠ id)) }
/-- A record of a unit of a core's slice: where is the unit's index there, or the SPA of a sector (R403). -/
def coreRecord (s : State) (core unit idx : Nat) : State :=
  sliceRecord s (sliceOfCore core) { cause := 2, cls := 1, unit := unit, slice := none, where_ := idx, detail := Config.syndrome s.now % 65536, ix := core % 24 }
/-- Uncorrectable errors of registers, words and tile elements (R400). -/
def poisonGroup (s : State) (gid : Nat) (unit : Nat) (f : Group → Group) : State :=
  match getGroup s gid with
  | none => s
  | some h => if residentGroup h then coreRecord (setGroup s (f h)) h.core unit (h.core % 24) else s
def poisonSram (w : Nat) (m : Sram) : Sram := { m with poison := smSet false m.poison w true }
def poisonReg (key : Nat) (h : Group) : Group := if key < 64 * h.ctx.kernel.regs then { h with regPoison := smSet false h.regPoison key true } else h
/-- The core that holds a word of a region's memory (R164). -/
def coreOfWord (region w : Nat) : Nat := 8 * region + 4 * w / 256 % 8
/-- A copy whose queue entry or state is corrupt fails alone (R401). -/
def corruptCopy (s : State) (id : Nat) : State :=
  match findFirst (fun c => decide (c.id = id)) s.copies with
  | none => s
  | some c => failCopy (errorRecord s c.fn { cause := 2, cls := 1, unit := 8, slice := some (c.eng / 2), where_ := c.eng % 2, ix := c.eng % 2, detail := Config.syndrome s.now % 65536 }) c ⟨6, 0⟩ 0 false
/-- Units of the package that slices share, whose records name no slice (R21, R403): the links, the fabric ports, the scheduler cores and the sensors. -/
def packageUnit (u : Nat) : Bool := u == 14 || u == 15 || u == 16 || u == 17 || u == 19
/-- A structure corrects an error in place (R399): of a slice's unit, the record goes to its owner, of a shared unit to the physical function (R402). An
instruction-cache word is fetched again (R397), and a channel counts a sector's error (R404). -/
def correctedError (s : State) (p unit i place : Nat) : State :=
  if packageUnit unit then errorRecord s 0 { cause := 1, cls := 0, unit := unit, slice := none, where_ := i, detail := Config.syndrome s.now % 65536, ix := i }
  else if 16 ≤ p ∨ unit = 12 then s
  else if unit = 5 then (if place < gddrBytes then correctedSector s (place / 32) else s)
  else
    let t := if unit = 3 then { s with icache := s.icache.filter (fun e => !(decide (e.1 = 24 * p + i ∧ e.2.1 / 4 = place / 4))) } else s
    sliceRecord t p { cause := 1, cls := 0, unit := unit, slice := none, where_ := if unit = 2 ∨ unit = 3 ∨ unit = 4 then place else i, detail := Config.syndrome s.now % 65536, ix := i }
/-- A record of the synchronisation engine that holds an object, for the object's owner (R402, R403). -/
def objectRecord (s : State) (fn num cause cls : Nat) : State :=
  let i := Config.objectEngine num % 2
  errorRecord s fn { cause := cause, cls := cls, unit := 12, slice := none, where_ := i, detail := Config.syndrome s.now % 65536, ix := i }
def hasObject (s : State) (fn num : Nat) : Bool := s.objs.any (fun o => decide (o.fn = fn ∧ o.num = num))
/-- The record of an uncorrectable error in a word on chip: of the copy engine or the array whose two paths mismatched twice in it, by its slice and its index there
(R398, R403), else of the structure that holds it. -/
def madeRecord (s : State) (maker : Option (Nat × Nat × Nat)) (held : State) : State :=
  match maker with
  | some (u, p, i) => if (u = 6 ∨ u = 8) ∧ p < 16 then
      sliceRecord s p { cause := 2, cls := 1, unit := u, slice := none, where_ := i, ix := i, detail := Config.syndrome s.now % 65536 } else held
  | none => held
/-- An uncorrectable error in a sector of the chip scratchpad, found by the L2 of the slice that brings its way (R167, R400). -/
def poisonChip (s : State) (fn sec : Nat) (maker : Option (Nat × Nat × Nat)) : State :=
  let f := getFn s fn
  if chipExtent f ≤ 32 * sec then s
  else
    let t := setFn s fn { f with chipPoison := smSet false f.chipPoison sec true }
    madeRecord t maker (errorRecord t fn
      { cause := 2, cls := 1, unit := 4, slice := some (sliceOfWay (f.spadWays.getD (32 * sec / 4194304) 0)), where_ := 32 * sec, detail := Config.syndrome s.now % 65536 })
/-- An uncorrectable error in a word of a team's region memory or of its scratchpad on a core (R400). -/
def poisonWord (s : State) (team : Nat) (core : Option Nat) (w : Nat) (maker : Option (Nat × Nat × Nat)) : State :=
  match getTeam s team with
  | none => s
  | some t =>
    let c := core.getD (coreOfWord t.region w)
    let u := updTeam s team (fun t => match core with
      | none => { t with rg := poisonSram w t.rg }
      | some c => setScratch t c (poisonSram w (teamScratch t c)))
    madeRecord u maker (coreRecord u c 1 (c % 24))
/-- The queue entry of one waiter of a semaphore is corrupt: its SEMACQ alone fails (R401). -/
def corruptWaiter (s : State) (fn num g : Nat) : State :=
  match findFirst (fun o => decide (o.fn = fn ∧ o.num = num)) s.objs with
  | none => s
  | some o =>
    if o.waiters.any (fun e => decide (e.1 = g)) then
      let t := withGroup (objectRecord s fn num 2 1) g (fun u => match u.g.waiting with
        | .semaphore _ _ _ => failWaiter u
        | _ => withdrawWaiter u g)
      grantWaiters fn num o.waiters.length t
    else s
/-- The group stands at an atomic or at a list operation whose read another slice does not answer: it takes POISON there, an atomic for its first lane that is left
(R221, R262, R353). -/
def poisonedAccess (s : State) : State :=
  match groupMove s s.g with
  | some (.exec i) => (match atomicForm i with
    | some f => (match pendingAddrs s.g f.a f.sp with
      | e :: _ => takeTrap s { code := 6, addr := e.2, lanes := 1#64 <<< e.1 }
      | [] => s)
    | none => if listAccess i then trapCode s 6 0 else s)
  | _ => s
/-- The requester of slice p whose read was dropped receives poisoned data: a register in a lane, a fetch or an access of a group, which traps, or a copy, a tester request,
a matrix command, an insert or a tile, which fails (R28, R153, R221, R237, R261, R270, R339, R353). -/
def poisonedRead (s : State) (p : Nat) (r : StrayRead) : State :=
  let on (g : Nat) (k : State → State) : State := withGroup s g (fun t => if residentGroup t.g ∧ sliceOfCore t.g.core = p then k t else t)
  match r with
  | .fetch g => on g (fun t => if groupMove t t.g = some (.exec (.clauseFetch t.g.id)) ∧ ¬ atJoin t.g then takeTrap t { code := 6, addr := t.g.pos } else t)
  | .access g => on g poisonedAccess
  | .insert id => (match findFirst (fun r => decide (r.id = id) && !r.parked && insertFree s r && decide ((getFn s r.fn).slices[tgStage r.target]? = some p)) s.inserts with
    | some r => if parkedBefore s r then s else failInsert s r (⟨6, 0⟩, r.targetVA)
    | none => s)
  | .tile id => (match findFirst (fun o => decide (o.id = id ∧ (getFn s o.fn).slices[smLane o.stream]? = some p)) s.handoffs with
    | some o => acceptTile s o (.error (⟨6, 0⟩, fieldAt o.tile 0 8))
    | none => s)
  | .reg g key => (match getGroup s g with
    | some h => if residentGroup h ∧ sliceOfCore h.core = p then setGroup s (poisonReg key h) else s
    | none => s)
  | .copy id => (match findFirst (fun c => decide (c.id = id ∧ c.eng / 2 = p ∧ c.kind ≠ .publish)) s.copies with
    | some c => failCopy s c ⟨6, 0⟩ 0 false
    | none => s)
  | .tester id => { s with trvs := updIf (fun r => decide (r.id = id ∧ sliceOfRegion r.region = p)) (fun r => { r with fault := some (6, 0) }) s.trvs }
  | .command id => (match findFirst (fun c => decide (c.id = id ∧ sliceOfRegion c.region = p)) s.cmds with
    | some c => failCmd s c ⟨6, 0⟩ 0
    | none => s)
/-- The selvedge of a slice passes a request of another: both stand in one function's table, or it goes to a lent array, for the lease of the requester's function that
the array serves (R352). -/
def selvedgePasses (s : State) (p target : Nat) (lent : Bool) : Bool :=
  match fnOfSlice s p with
  | none => false
  | some f => decide (fnOfSlice s target = some f) ||
      (lent && s.leases.any (fun l => decide (l.host / 3 = p ∧ l.key / 6 = target ∧ lsBfn l.rcd = f) && decide (leaseAt s l.host = some l)))
/-- A request of a faulty slice that may not pass is dropped, with a record of the selvedge of the slice that it was for (R352, R353, R393). What passes does what any such
request of the slice's units does, which have their own turns. -/
def strayRequest (s : State) (p target : Nat) (carve lent : Bool) (read : Option StrayRead) : State :=
  if 16 ≤ p ∨ 16 ≤ target ∨ (¬ carve ∧ selvedgePasses s p target lent) then s
  else sliceRecord ((read.map (poisonedRead s p)).getD s) target { cause := if carve then 10 else 9, cls := 1, unit := 18, slice := none, where_ := 0 }
/-- The load at which the current group stands: some of its lanes read now. With ahead, the load that stands so many loads after it, for lanes that have read for every load
before it, where none of those writes a register that it names, or one is still to be written (R179, R185, R205; log entry 24). -/
def readAhead : Nat → Bool → BitVec 64 → State → State
  | k, byp, lanes, s => match instrAt s.g with
    | .error _ => s
    | .ok i => match loadForm i with
      | none => s
      | some f => match k with
        | 0 => earlyLoad byp f.a f.n f.o f.sc f.sp lanes s
        | k + 1 =>
          let next := { s.g with off := s.g.off + 1 + litsOf f.a }
          if next.off < next.clause.length ∧ ¬ registerWait s next ∧ ¬ (dstRegs f.t (wordsFor f.n)).any (touched next).contains then
            let u := readAhead k (byp || bypasses f.o f.sc) (lanes &&& earlyLanes s.g) { s with g := next }
            { u with g := { u.g with off := s.g.off } }
          else s
/-- The current group, which can issue its load. -/
def readLanes (ahead : Nat) (lanes : BitVec 64) (s : State) : State := if canIssue s s.g then readAhead ahead false lanes s else s
/-- The instruction that ran on a group has completed: it has neither trapped nor waits. -/
def completed (s t : State) : Bool := decide (t.g.id = s.g.id ∧ t.g.phase ≠ .none ∧ t.g.hnd = s.g.hnd) && !t.g.stalled
/-- The first n lanes left of the atomic at which the current group stands, and can issue, perform. The group stays at the atomic, which completes before a stop, with those
lanes in M (R217, R221); a lane that fails leaves all to the atomic itself. -/
def atomicPart (n : Nat) (s : State) : State :=
  match groupMove s s.g with
  | some (.exec i) =>
    let todo := pendingLanes s.g
    let part := maskOf (todo.take n)
    if (atomicForm i).isNone ∨ n = 0 ∨ todo.length ≤ n then s
    else
      let t := outState s (exec i { s with g := { s.g with active := part } })
      if completed s t then { t with g := { t.g with active := s.g.active, pos := s.g.pos, off := s.g.off, clause := s.g.clause, phase := s.g.phase, m := s.g.m ||| part, waiting := .fence } }
      else s
  | _ => s
/-- The write of a group's bobbin meets an uncorrectable error: its team is torn down (R334). -/
def badSave (s : State) (gid : Nat) : State :=
  match getGroup s gid with
  | none => s
  | some h => match findRun (getFn s h.ctx.fn).pool (getFn s h.ctx.fn).bobbins (bobbinBytes s h).length with
    | none => s
    | some a => if saveReady s h then endTeam (sectorRecord s (a / 32) 2 2 4) h.team 4 6 else s
def applyTurn (t : Turn) (s : State) : State :=
  match t with
  | .event _ => s
  | .run _ => s
  | .issue g => makeCurrent s g
  | .answer pkg => heardFrom s pkg
  | .badSave g => badSave s g
  | .tick n => tick s n
  | .evict core sec => (match l1Find s core sec with | none => s | some x => evictSec s x)
  | .poisonSector sec u p i => if 32 * sec < gddrBytes then poisonSector s sec u p i else s
  | .poisonL1 core sec => (match l1Find s core sec with
      | none => s
      | some x => coreRecord { s with l1 := l1Put s.l1 (poisonSec x) } core 2 (32 * sec))
  | .poisonChip fn sec b => poisonChip s fn sec b
  | .poisonReg g key => poisonGroup s g 0 (poisonReg key)
  | .poisonWord team core w b => poisonWord s team core w b
  | .corruptWaiter fn num g => corruptWaiter s fn num g
  | .treeReport id => treeReport s id
  | .badRequest fn => badRequest fn s
  | .atomicLanes g n => withGroup s g (atomicPart n)
  | .poisonTile g m e => (match getGroup s g with
      | none => s
      | some h => if residentGroup h ∧ holdsTile h m then
          coreRecord (setGroup s (updTile h m (fun t => { t with poison := smSet false t.poison (e % 16384) true }))) h.core 7 (arrKey (regionOf h.core) (m / 8) % 6) else s)
  | .corruptObj fn num =>
      if hasObject s fn num then objectRecord { s with objs := updIf (fun o => decide (o.fn = fn ∧ o.num = num)) (fun o => { o with corrupt := true }) s.objs } fn num 2 1 else s
  | .corruptCopy id => corruptCopy s id
  | .controlError p u i => controlError s p u i
  | .corrected p u i place => correctedError s p u i place
  | .correctedObj fn num => if hasObject s fn num then objectRecord s fn num 1 0 else s
  | .delivered _ _ _ => s
  | .readLanes g k lanes => withGroup s g (readLanes k lanes)
  | .stray p q c n r => strayRequest s p q c n r

-- events that are enabled

def isEvent (e : Instr) : Bool := (encode e).isEmpty && e.wf
/-- An event of the table, as what it makes of a state: the meaning that exec's arm calls. -/
abbrev Event := State → Out
/-- The event leaves another state. -/
def changes (s : State) (e : Event) : Bool := decide (outState s (e s) ≠ s)
def cmdEvent (c : Cmd) : Event := match c.kind with
  | .mzero => execMzeroPerform c.id
  | .mst => execMstPerform c.id
  | _ => execMatrixStep c.id (false, false)
/-- The event that serves a function's outstanding request (R394). -/
def requestEvent (s : State) (fn : Nat) : List Event :=
  let f := getFn s fn
  if ¬ outstanding f then []
  else if unlisted f then [fun t => .next (badRequest fn t)]
  else match reqOp f, reqSub f with
    | 0x01, _ => [execFuse fn] | 0x02, _ => [execSplit fn] | 0x03, _ => [execMove fn] | 0x04, _ => [execWays fn] | 0x05, _ => [execKeys fn]
    | 0x06, 0 => [execLeaseLender fn] | 0x06, _ => [execLeaseBorrower fn] | 0x07, _ => [execReclaim fn] | 0x08, _ => [execLeaseReturn fn]
    | 0x10, 0 => [execWindow fn] | 0x10, _ => [execAdmitEntry fn] | 0x11, _ => [execRoot fn] | 0x12, 0 => [execInvalRange fn] | 0x12, _ => [execInvalSpace fn]
    | 0x13, 0 => [execKeyload fn] | 0x13, _ => [execKeyErase fn]
    | 0x14, 0 => [execQueueCreate fn] | 0x14, 1 => [execQueueOpen fn] | 0x14, 2 => [execQueueClose fn] | 0x14, _ => [execQueueRestart fn]
    | 0x15, 0 => [execObjectCreate fn] | 0x15, 1 => [execObjectDestroy fn] | 0x15, _ => [execObjectRead fn]
    | 0x16, 0 => [execAgeing fn] | 0x16, 1 => [execPool fn] | 0x16, 2 => [execReplsetRegister fn] | 0x16, _ => [execReplsetRelease fn]
    | 0x17, _ => [execMeter fn] | 0x18, _ => [execCapture fn] | 0x19, _ => [execRestore fn] | 0x1A, _ => [execRatomic fn] | 0x20, _ => [execAttest fn] | 0x21, _ => [execCert fn]
    | _, _ => []
/-- Events of one group that stands where it cannot issue. -/
def groupEvents (h : Group) : List Event :=
  if h.phase = .none then []
  else [execTagWaitSatisfied h.id, execTileBind h.id, execLoadDataReturn h.id, execStoreQueueDrain h.id, execGroupStop h.id, execBobbinSave h.id, execTagTimeout h.id, execWatchdog h.id]
def fnEvents (s : State) (fn : Nat) : List Event :=
  requestEvent s fn ++ [execTeamPlace fn] ++ (((getFn s fn).queues.map (fun q => [execQueueTorn fn q.1, execQueueFetch fn q.1])).flatten)
/-- A core's L1 that holds more lines than fit evicts one (R12, R168). -/
def overfull (s : State) : List Event :=
  ((((allGroups s).filter residentGroup).map (·.core)).eraseDups.filter (l1Over s)).map (fun c => fun t => Host.Outcome.next (l1EvictLine t c))
/-- What handles an event of Aqmal's queue: its own event of the table, but for records and reports. -/
def queuedEvent : AqEvent → Event
  | .notice id => execLeaseNoticeExpiry id
  | .quota id => execLeaseQuota id
  | .reset fn => execFunctionLevelReset fn
  | .hang p u => execHang p u
  | .control p u i => fun s => .next (controlError s p u i)
  | _ => fun s => .next (serveEvents s)
/-- The events that the state holds, in the order in which the first enabled one is taken. -/
def candidates (s : State) : List Event :=
  overfull s ++ ((allFns s).map (fnEvents s)).flatten ++ s.packets.map (fun k => execLaunchRelease k.id) ++
  s.trvs.map (fun r => execTraversalResult r.id) ++ s.handoffs.map (fun o => execTileAccept o.id) ++ s.inserts.map (fun r => execFragmentInsert r.id) ++ s.cmds.map cmdEvent ++
  s.copies.map (fun c => if c.kind = .publish then execTurn c.id else execCopyUnit c.id) ++ s.frames.map (fun f => execFrameEncode f.fn f.stream f.frame) ++
  s.passes.map (fun p => execPrimitiveRasterise p.id) ++ ((allGroups s).map groupEvents).flatten ++ s.teams.map (fun t => execTeamResume t.id) ++
  s.windows.map (fun w => execRegroupTimeout w.core w.launch w.site) ++ s.launches.map (fun l => execLaunchComplete l.id) ++ s.trees.map (fun t => fun u => .next (treeReport u t.id)) ++
  (s.leases.map (fun l => [execLeaseQuota l.id, execLeaseNoticeExpiry l.id])).flatten ++
  s.mailq.map queuedEvent ++ s.copies.map (fun c => execCpyrAckTimeout c.id) ++ [execCpyrAckTimeout 0] ++ (s.repsets.map (fun r => r.members.map (fun m => execReplicaTimeout r.fn r.gen m.1))).flatten ++ s.arrays.map (fun a => execEngineOff (a.1 / 2) (a.1 % 2)) ++
  (s.chans.map (fun c => [execChannelStep c.1, execChannelRetrainDone c.1])).flatten ++
  s.watch.map (fun e => execHang (e.1 / 1024) (e.1 % 1024))

-- the move of a step with an empty agenda

/-- A group's own move, the group being the current one. -/
def doMove (m : Move) (s : State) : Out :=
  match m with
  | .exec i => exec i s
  | .trap n => .next (takeTrap s (decodeTrap n))
/-- The first other group that can move. -/
def otherMover (s : State) : Option Group := findFirst (fun h => (groupMove s h).isSome) s.others
def quietMove (s : State) : Out :=
  match findFirst (changes s) (candidates s) with
  | some e => e s
  | none => .next (idleStep s)
/-- The turn that keeps the choice fair (log entry 2): time passes, the current group goes to the end of the line, and the last event that
changes something is taken. It comes when eight clauses have been fetched and the current group stands between clauses. -/
def fairTurn (s : State) : Out :=
  let r := match s.g.phase, s.others with
    | .none, _ => s
    | _, [] => s
    | _, h :: t => { s with g := h, others := t ++ [s.g] }
  let t := idleStep { r with quantum := 0 }
  match findFirst (changes t) (candidates t).reverse with
  | some e => e t
  | none => .next t
def fairTurnDue (s : State) : Bool := decide (8 ≤ s.quantum) && decide (s.g.phase = .fetch)
def nextMove (s : State) : Out :=
  if s.thermalTrip then exec .powerRemoval s
  else match s.boot with
    | .rom => exec .powerUp s
    | .running => match retraining s with
      | some k => exec (.channelRetrainDone k) s
      | none => if fairTurnDue s then fairTurn s else (match groupMove s s.g with
        | some m => doMove m s
        | none => match otherMover s with
          | some h => let t := makeCurrent s h.id; (match groupMove t t.g with | some m => doMove m t | none => .next t)
          | none => quietMove s)
    | _ => .next (idleStep s)
/-- A group makes its next move, as the group that issues. -/
def runGroup (g : Nat) (s : State) : Out :=
  let t := makeCurrent s g
  if t.g.id ≠ g then .next t
  else match groupMove t t.g with
    | some m => doMove m t
    | none => .next t
/-- A mark of poison, set or clear, in the place that a hop's sector comes from: memory, or a function's chip scratchpad. -/
def markHop (hop : Hop) (b : Bool) (s : State) : State :=
  match hop with
  | .sector sec | .fetch _ sec _ | .reply _ sec _ => { s with poison := smSet false s.poison sec b }
  | .chip _ fn sec false _ => setFn s fn { getFn s fn with chipPoison := smSet false (getFn s fn).chipPoison sec b }
  | _ => s
def hopMarked (hop : Hop) (s : State) : Bool :=
  match hop with
  | .sector sec | .fetch _ sec _ | .reply _ sec _ => smGet false s.poison sec
  | .chip _ fn sec false _ => smGet false (getFn s fn).chipPoison sec
  | _ => false
/-- The hop's datum goes to its reader alone, and this group's move can be that reader: a sector of host memory, or a beat to the group's core, where a beat for the
instruction cache needs a group that fetches. -/
def readerOnly (s : State) (hop : Hop) (g : Nat) : Bool :=
  let on (core : Nat) (fetches : Bool) : Bool := match getGroup s g with
    | some h => residentGroup h && decide (h.core = core) && (!fetches || decide (h.phase = .fetch))
    | none => false
  match hop with
  | .sector sec => isHostSec sec
  | .fetch core _ _ => on core true
  | .reply core _ _ => on core false
  | .chip core fn sec store _ => !store && decide (32 * sec < chipExtent (getFn s fn)) && on core false
  | _ => false
/-- The reader of a sector, which a hop delivers poisoned after the ninth failing arrival (R398): its next access finds the sector so, and the place it came from
keeps what it held. -/
def deliverPoisoned (hop : Hop) (reader : State → Out) (s : State) : Out :=
  match reader (markHop hop true (outState s (execLinkRetry hop 9 s))) with
  | .next u => .next (if hopMarked hop s then u else markHop hop false u)
  | other => other
/-- The lanes left of an atomic whose word lies in the sector that a hop carries. -/
def replyLanes (s : State) (hop : Hop) (f : AtomicForm) : List Nat :=
  ((pendingAddrs s.g f.a f.sp).filter (fun e => match hop with
    | .reply _ sec _ => decide (f.sp = .g) && (match translate s s.g.ctx.fn e.2 .rw with | .ok q => decide (q.spa / 32 = sec) | .error _ => false)
    | .chip _ fn sec _ _ => decide (f.sp = .c ∧ fn = s.g.ctx.fn ∧ e.2 / 32 = sec)
    | _ => false)).map (·.1)
/-- The atomic of the current group whose reply a hop carries. -/
def repliedAtomic (hop : Hop) (s : State) : Option (Instr × AtomicForm) :=
  match groupMove s s.g with
  | some (.exec i) => (atomicForm i).bind (fun f => if replyLanes s hop f = [] then none else some (i, f))
  | _ => none
/-- An atomic whose reply arrives poisoned has been performed; the registers that receive the old value are poisoned in those lanes (R398, R400; log entry 68). -/
def poisonedReply (hop : Hop) (i : Instr) (f : AtomicForm) (s : State) : State :=
  let t := outState s (exec i s)
  if completed s t then { t with g := { t.g with regPoison := (replyLanes s hop f).foldl (fun m l => f.regs.foldl (fun m r => smSet false m (regKey r l) true) m) t.g.regPoison } }
  else t
/-- What a group's next move makes of a sector that reaches it poisoned. -/
def groupReceives (hop : Hop) (g : Nat) (s : State) : Out :=
  match repliedAtomic hop (makeCurrent s g) with
  | some (i, f) => .next (poisonedReply hop i f (makeCurrent (outState s (execLinkRetry hop 9 s)) g))
  | none => deliverPoisoned hop (runGroup g) s
/-- The turn may go on while a channel retrains: it accesses no memory (R404). -/
def duringTraining (t : Turn) : Bool :=
  match t with
  | .tick _ => true
  | .event (.channelRetrainDone _) => true
  | _ => false
/-- What a turn does. -/
def runTurn (t : Turn) (s : State) : Out :=
  match t with
  | .run g => runGroup g s
  | .event e => if isEvent e then exec e s else .next s
  | .delivered hop g e => if readerOnly s hop g then (match e with
      | some i => deliverPoisoned hop (fun u => if isEvent i then exec i u else .next u) s
      | none => groupReceives hop g s) else .next s
  | other => .next (applyTurn other s)
/-- Takes the turn at the head of the agenda. While a channel retrains, what may access it waits: the end of the retraining comes first (R404). -/
def takeTurn (t : Turn) (s : State) : Out :=
  match retraining s with
  | none => runTurn t s
  | some k => if duringTraining t then runTurn t s else .next { s with agenda := .event (.channelRetrainDone k) :: t :: s.agenda }

-- placing one instruction where step finds it

/-- The header of a clause of n words and k instructions in a class. -/
def headerWord (k cls n : Nat) : Word := BitVec.ofNat 32 (11 * 2 ^ 28 + k * 2 ^ 24 + cls * 2 ^ 21 + n * 2 ^ 9)
/-- A clause around one word, and the word's offset: a JOIN goes before a divergent branch, and such a branch after a JOIN (R296). -/
def clauseAround (w : Word) (lits : List Word) : List Word × Nat :=
  let x := w.toNat
  let cls := (DCtx.wide x).cls
  if isJoinWord x then ([headerWord 2 cls 2, w, BitVec.ofNat 32 0xE0000000], 1)
  else if isDbrWord x then ([headerWord 2 cls 2, BitVec.ofNat 32 0xDE000000, w], 2)
  else let l := lits.take (litWords x); ([headerWord 1 cls (1 + l.length), w] ++ l, 1)
/-- A group to run it when no group stands in the issuing slot. -/
def hostGroup (s : State) : Group :=
  if s.g.phase = .none then { id := s.nextId, active := fullMask 16, phases := List.replicate 16 0 } else s.g

end Sys2Proof.Machine
end

