-- ==== Sys2Proof/Machine/Step.lean ====
section
/-!
DEFINITION. Machine/Step.lean: one step of the machine, and how a word is placed where the next step finds it.
-/
namespace Sys2Proof.Machine

/-- One step: the turn at the head of the agenda, else what moves by itself. -/
def step (s : State) : Host.Outcome State Fault Refusal :=
  match s.agenda with
  | t :: l => takeTurn t { s with agenda := l }
  | [] => nextMove s

/-- s with an instruction of the table as the next one of its issuing group: its word and literal words of zeros stand in the fetched
clause at the group's position. -/
def State.withFetchWord (s : State) (_nbits w : Nat) : State :=
  let lits : List Word := [BitVec.ofNat 32 (w / 4294967296), BitVec.ofNat 32 (w / 18446744073709551616)]
  let c := clauseAround (BitVec.ofNat 32 w) lits
  let h := hostGroup s
  { s with
    agenda := []
    boot := .running
    thermalTrip := false
    chans := trained s.chans
    nextId := s.nextId + 1
    g := { h with phase := .issue, hollow := false, stalled := false, tagWait := none, preempt := false, waiting := .no, loads := [], clause := c.1, off := c.2,
                  ctx := { h.ctx with kernel := { h.ctx.kernel with regroup := true } } } }

end Sys2Proof.Machine
end

