-- ==== Sys2Proof/Safety.lean ====
section
/-!
DEFINITION. Safety.lean: the terms of the claims: a sound state, a safe step, and, for the register instructions, tables
of what the spec says each computes, written apart from the meanings.
-/
namespace Sys2Proof

open Sys2Proof.Machine

/-- The physical memory lies in its canonical form: rising addresses, no byte that an unlisted address reads as. -/
def MemoryCanonical (s : State) : Prop := Memory.wf s.mem = true
/-- The step answers a next state: it neither faults nor refuses. -/
def SafeStep (s : State) : Prop := ∃ t, step s = .next t

-- the four formats of a word (R31)

def wordT (op d a b : BitVec 7) (fn : BitVec 4) : Word := op ++ d ++ a ++ b ++ fn
def wordI (op d a : BitVec 7) (imm : BitVec 11) : Word := op ++ d ++ a ++ imm
def wordM (op t a : BitVec 7) (sz : BitVec 3) (ord : BitVec 2) (scp sp : BitVec 3) : Word := op ++ t ++ a ++ sz ++ ord ++ scp ++ sp
def wordC (op : BitVec 7) (cond : BitVec 4) (off : BitVec 21) : Word := op ++ cond ++ off
/-- A word decodes, with no literal, in a clause of its own class. -/
def decodesTo (w : Word) (i : Instr) : Prop := decodeWord (DCtx.wide w.toNat) w.toNat [] = .ok i
/-- A word is refused by a check of R40, by number: in a clause of its own class, or in one of another class or at another place. -/
def refusedBy (w : Word) (n : Nat) : Prop := decodeWord (DCtx.wide w.toNat) w.toNat [] = .error n
def refusedIn (f : DCtx → DCtx) (w : Word) (n : Nat) : Prop := decodeWord (f (DCtx.wide w.toNat)) w.toNat [] = .error n

-- register instructions: what a lane computes (R94 to R96)

/-- What an ALU or XLANE instruction is, by the spec: its destination, the registers it reads, its words with literals,
what a lane's destination becomes and the flags it raises; drawn: a stochastic rounding took its draws (R84, R116);
cleared: the sticky flags are 0 afterwards (R119); able: the operand checks of R116 and R129 pass. -/
structure RegOp where
  d : Dst
  reads : List Nat
  words : Nat
  res : State → Nat → List Word
  raised : State → Nat → BitVec 5 := fun _ _ => 0
  drawn : State → Bool := fun _ => false
  cleared : Bool := false
  able : State → Prop := fun _ => True

/-- Register r of lane l after a destination was written in the active lanes; ZERO discards (R38). -/
def wrote (h : Group) (d : Dst) (res : Nat → List Word) (r l : Nat) : Word :=
  match d with
  | .zero => gReg h r l
  | .reg k => if l ∈ activeLanes h ∧ k ≤ r ∧ r < k + (res l).length then (res l).getD (r - k) 0 else gReg h r l
/-- Poison of register r of lane l afterwards: a written register holds none (R400). -/
def wrotePoison (h : Group) (d : Dst) (res : Nat → List Word) (r l : Nat) : Bool :=
  match d with
  | .zero => smGet false h.regPoison (regKey r l)
  | .reg k => if l ∈ activeLanes h ∧ k ≤ r ∧ r < k + (res l).length then false else smGet false h.regPoison (regKey r l)

/-- The group has moved past an instruction of n words, with the registers, poison, flags and draw count given, and
nothing else of the package has changed: not another register, not a byte of memory. -/
structure WritesOnly (s t : State) (e : RegOp) : Prop where
  frame : t = { s with g := advance { s.g with regs := t.g.regs, regPoison := t.g.regPoison, flags := t.g.flags, srseq := t.g.srseq } e.words }
  regs : ∀ r l, l < 64 → gReg t.g r l = wrote s.g e.d (e.res s) r l
  poison : ∀ r l, l < 64 → smGet false t.g.regPoison (regKey r l) = wrotePoison s.g e.d (e.res s) r l
  flags : ∀ b, t.g.flags.getLsbD b = (!e.cleared && (s.g.flags.getLsbD b || (activeLanes s.g).any (fun l => (e.raised s l).getLsbD b)))
  srseq : t.g.srseq = if e.drawn s then s.g.srseq + 1 else s.g.srseq
  memory : ∀ key a, memByte t key a = memByte s key a

/-- No active lane's source register holds an uncorrectable error. -/
def RegOp.clean (e : RegOp) (s : State) : Prop := ∀ l ∈ activeLanes s.g, ∀ r ∈ e.reads, smGet false s.g.regPoison (regKey r l) = false
/-- No active lane raises a flag that FPTRAP enables (R80). -/
def RegOp.untrapped (e : RegOp) (s : State) : Prop := ∀ l ∈ activeLanes s.g, e.raised s l &&& s.g.ctx.kernel.fptrap = 0
/-- The instruction completes with its result, in every state in which it neither reads an error nor traps. -/
def RegOp.Completes (i : Instr) (e : RegOp) : Prop :=
  ∀ s : State, e.able s → e.clean s → e.untrapped s → ∃ t, exec i s = .next t ∧ WritesOnly s t e

-- operands of a table

def pair (x : DWord) : List Word := [x.lo, x.hi]
def two (d : Dst) (a b : Src) (n k : Nat) (res : Group → Nat → List Word) : RegOp :=
  { d := d, reads := srcRegs a n ++ srcRegs b k, words := 1 + litsOf a + litsOf b, res := fun s l => res s.g l }
def one (d : Dst) (a : Src) (n : Nat) (res : Group → Nat → List Word) : RegOp :=
  { d := d, reads := srcRegs a n, words := 1 + litsOf a, res := fun s l => res s.g l }
/-- An operation that reads its destination as well (R95). -/
def three (d : Dst) (a b : Src) (n k j : Nat) (res : Group → Nat → List Word) : RegOp :=
  { two d a b n k res with reads := srcRegs a n ++ srcRegs b k ++ dstRegs d j }
/-- One formula for two words of 32 bits, another for two of 64. -/
def onWidth (w : Bool) (d : Dst) (a b : Src) (f : Word → Word → Word) (g : DWord → DWord → DWord) : RegOp :=
  if w then two d a b 2 2 (fun h l => pair (g (src64 h false a l) (src64 h false b l)))
  else two d a b 1 1 (fun h l => [f (src32 h a l) (src32 h b l)])
def onWidth1 (w : Bool) (d : Dst) (a : Src) (sgn : Bool) (f : Word → Word) (g : DWord → DWord) : RegOp :=
  if w then one d a 2 (fun h l => pair (g (src64 h sgn a l))) else one d a 1 (fun h l => [f (src32 h a l)])
/-- A shift: the amount is a 32-bit source taken modulo the width (R101). -/
def onShift (w sgn : Bool) (d : Dst) (a b : Src) (f : Word → Nat → Word) (g : DWord → Nat → DWord) : RegOp :=
  if w then two d a b 2 1 (fun h l => pair (g (src64 h sgn a l) ((src32 h b l).toNat % 64)))
  else two d a b 1 1 (fun h l => [f (src32 h a l) ((src32 h b l).toNat % 32)])
def immediate (d : Dst) (a : Src) (f : Word → Word) : RegOp := one d a 1 (fun h l => [f (src32 h a l)])

-- 05 R98, R99: integer arithmetic

def leastOf : IntTy → Int
  | .s32 => -2147483648 | .n32 => 0 | .s64 => -9223372036854775808 | .n64 => 0
def greatestOf : IntTy → Int
  | .s32 => 2147483647 | .n32 => 4294967295 | .s64 => 9223372036854775807 | .n64 => 18446744073709551615
/-- An exact value as a result of a type: clamped to the type under .sat, else its low bits. -/
def intWords (ty : IntTy) (sat : Bool) (x : Int) : List Word :=
  let y := if sat then max (leastOf ty) (min x (greatestOf ty)) else x
  match ty with
  | .s32 => [BitVec.ofInt 32 y] | .n32 => [BitVec.ofInt 32 y] | .s64 => pair (BitVec.ofInt 64 y) | .n64 => pair (BitVec.ofInt 64 y)
def regsOfTy : IntTy → Nat
  | .s32 => 1 | .n32 => 1 | .s64 => 2 | .n64 => 2
def intTwo (d : Dst) (a b : Src) (ty : IntTy) (sat : Bool) (f : Int → Int → Int) : RegOp :=
  two d a b (regsOfTy ty) (regsOfTy ty) (fun h l => intWords ty sat (f (srcInt h ty a l) (srcInt h ty b l)))
/-- The upper half of the product of the two sources extended to twice their width. -/
def upperProduct (ty : IntTy) (h : Group) (a b : Src) (l : Nat) : List Word :=
  match ty with
  | .s32 => [DWord.hi ((src32 h a l).signExtend 64 * (src32 h b l).signExtend 64)]
  | .n32 => [DWord.hi ((src32 h a l).setWidth 64 * (src32 h b l).setWidth 64)]
  | .s64 => pair (((src64 h true a l).signExtend 128 * (src64 h true b l).signExtend 128).extractLsb' 64 64)
  | .n64 => pair (((src64 h false a l).setWidth 128 * (src64 h false b l).setWidth 128).extractLsb' 64 64)
def intSpec : Instr → Option RegOp
  | .add d a b ty sat => some (intTwo d a b ty sat (· + ·))
  | .sub d a b ty sat => some (intTwo d a b ty sat (· - ·))
  | .mul d a b ty sat => some (intTwo d a b ty sat (· * ·))
  | .mulh d a b ty => some (two d a b (regsOfTy ty) (regsOfTy ty) (fun h l => upperProduct ty h a b l))
  | .mad d a b ty => some (three d a b (regsOfTy ty) (regsOfTy ty) (regsOfTy ty) (fun h l =>
      intWords ty false (srcInt h ty a l * srcInt h ty b l + (match ty with
        | .s32 => (dst32 h d l).toInt | .n32 => (dst32 h d l).toNat | .s64 => (dst64 h d l).toInt | .n64 => (dst64 h d l).toNat))))
  | .min d a b ty => some (intTwo d a b ty false min)
  | .max d a b ty => some (intTwo d a b ty false max)
  | .neg d a w => some (onWidth1 w d a true (fun x => -x) (fun x => -x))
  | .abs d a w => some (onWidth1 w d a true (fun x => if x.msb then -x else x) (fun x => if x.msb then -x else x))
  | .addImm32 d a m => some (immediate d a (fun x => x + m.signExtend 32))
  | .addImm64 d a m => some (one d a 2 (fun h l => pair (src64 h false a l + m.signExtend 64)))
  | .mulImm d a m => some (immediate d a (fun x => x * m.signExtend 32))
  | _ => none

-- 05 R100: bitwise operations

def bitSpec : Instr → Option RegOp
  | .and d a b w => some (onWidth w d a b (· &&& ·) (· &&& ·))
  | .or d a b w => some (onWidth w d a b (· ||| ·) (· ||| ·))
  | .xor d a b w => some (onWidth w d a b (· ^^^ ·) (· ^^^ ·))
  | .andn d a b w => some (onWidth w d a b (fun x y => x &&& ~~~ y) (fun x y => x &&& ~~~ y))
  | .orn d a b w => some (onWidth w d a b (fun x y => x ||| ~~~ y) (fun x y => x ||| ~~~ y))
  | .xnor d a b w => some (onWidth w d a b (fun x y => ~~~ (x ^^^ y)) (fun x y => ~~~ (x ^^^ y)))
  | .andImm d a m => some (immediate d a (fun x => x &&& m.signExtend 32))
  | .orImm d a m => some (immediate d a (fun x => x ||| m.signExtend 32))
  | .xorImm d a m => some (immediate d a (fun x => x ^^^ m.signExtend 32))
  | _ => none

-- 05 R101 to R103: shifts, counts and bit fields

/-- The bits set, the zeros above the highest set bit, the zeros below the lowest. -/
def setBits {n : Nat} (x : BitVec n) : Nat := (List.range n).countP (fun i => x.getLsbD i)
def leadingZeros {n : Nat} (x : BitVec n) : Nat := ((List.range n).takeWhile (fun i => !x.getMsbD i)).length
def trailingZeros {n : Nat} (x : BitVec n) : Nat := ((List.range n).takeWhile (fun i => !x.getLsbD i)).length
def countOf (w : Bool) (d : Dst) (a : Src) (f : {n : Nat} → BitVec n → Nat) : RegOp :=
  if w then one d a 2 (fun h l => [BitVec.ofNat 32 (f (src64 h false a l))]) else one d a 1 (fun h l => [BitVec.ofNat 32 (f (src32 h a l))])
/-- The field that b names: offset b[4:0] and length b[13:8], the length no more than reaches bit 31 (R103). -/
def fieldStart (b : Word) : Nat := (b.extractLsb' 0 5).toNat
def fieldSize (b : Word) : Nat := min (b.extractLsb' 8 6).toNat (32 - fieldStart b)
/-- Bit i of a bit field extract: the field's bits, then zeros or copies of the field's top bit. -/
def extracted (signed : Bool) (x b : Word) (i : Nat) : Bool :=
  let n := fieldSize b
  if i < n then x.getLsbD (fieldStart b + i) else signed && decide (0 < n) && x.getLsbD (fieldStart b + (n - 1))
def inserted (old x b : Word) (i : Nat) : Bool :=
  if fieldStart b ≤ i ∧ i < fieldStart b + fieldSize b then x.getLsbD (i - fieldStart b) else old.getLsbD i
def wordOfBits (f : Nat → Bool) : Word := BitVec.ofBoolListLE ((List.range 32).map f)
def shiftSpec : Instr → Option RegOp
  | .shl d a b w => some (onShift w false d a b (fun x k => x <<< k) (fun x k => x <<< k))
  | .shrN d a b w => some (onShift w false d a b (fun x k => x >>> k) (fun x k => x >>> k))
  | .shrS d a b w => some (onShift w true d a b (fun x k => x.sshiftRight k) (fun x k => x.sshiftRight k))
  | .rol d a b w => some (onShift w false d a b (fun x k => x.rotateLeft k) (fun x k => x.rotateLeft k))
  | .popc d a w => some (countOf w d a setBits)
  | .clz d a w => some (countOf w d a leadingZeros)
  | .ctz d a w => some (countOf w d a trailingZeros)
  | .brev d a w => some (onWidth1 w d a false BitVec.reverse BitVec.reverse)
  | .bfx d a b signed => some (two d a b 1 1 (fun h l => [wordOfBits (extracted signed (src32 h a l) (src32 h b l))]))
  | .bfi d a b => some (three d a b 1 1 1 (fun h l => [wordOfBits (inserted (dst32 h d l) (src32 h a l) (src32 h b l))]))
  | .shlImm d a m => some (immediate d a (fun x => x <<< (m.toNat % 32)))
  | .shrNImm d a m => some (immediate d a (fun x => x >>> (m.toNat % 32)))
  | .shrSImm d a m => some (immediate d a (fun x => x.sshiftRight (m.toNat % 32)))
  | _ => none

-- 05 R104: compares

def compare32 (d : Dst) (a b : Src) (u : Bool) (s : Word → Word → Bool) (n : Word → Word → Bool) : RegOp :=
  two d a b 1 1 (fun h l => [if (if u then n else s) (src32 h a l) (src32 h b l) then 1 else 0])
/-- Signed compares extend a 32-bit literal with its sign, unsigned ones with zeros (R36). -/
def compare64 (d : Dst) (a b : Src) (u : Bool) (s : DWord → DWord → Bool) (n : DWord → DWord → Bool) : RegOp :=
  two d a b 2 2 (fun h l => [if (if u then n else s) (src64 h (!u) a l) (src64 h (!u) b l) then 1 else 0])
def compareSpec : Instr → Option RegOp
  | .cmpeq32 d a b u => some (compare32 d a b u (· == ·) (· == ·))
  | .cmpne32 d a b u => some (compare32 d a b u (· != ·) (· != ·))
  | .cmplt32 d a b u => some (compare32 d a b u BitVec.slt BitVec.ult)
  | .cmple32 d a b u => some (compare32 d a b u BitVec.sle BitVec.ule)
  | .cmpgt32 d a b u => some (compare32 d a b u (fun x y => BitVec.slt y x) (fun x y => BitVec.ult y x))
  | .cmpge32 d a b u => some (compare32 d a b u (fun x y => BitVec.sle y x) (fun x y => BitVec.ule y x))
  | .cmpeq64 d a b u => some (compare64 d a b u (· == ·) (· == ·))
  | .cmpne64 d a b u => some (compare64 d a b u (· != ·) (· != ·))
  | .cmplt64 d a b u => some (compare64 d a b u BitVec.slt BitVec.ult)
  | .cmple64 d a b u => some (compare64 d a b u BitVec.sle BitVec.ule)
  | .cmpgt64 d a b u => some (compare64 d a b u (fun x y => BitVec.slt y x) (fun x y => BitVec.ult y x))
  | .cmpge64 d a b u => some (compare64 d a b u (fun x y => BitVec.sle y x) (fun x y => BitVec.ule y x))
  | _ => none

-- 05 R105 to R107, R120: selects, moves, addresses, special state and random numbers

def half (x : Word) (i : Nat) : BitVec 16 := x.extractLsb' (16 * i) 16
def movsOp (d : Dst) (x : Sel) : RegOp where
  d := d
  reads := []
  words := 1
  cleared := decide (x = .flagsclr)
  res := fun s l => if selWide x then pair (BitVec.ofNat 64 (selValue s x l)) else [BitVec.ofNat 32 (selValue s x l)]
def rngOp (d : Dst) (a : Src) (b : Dst) : RegOp where
  d := d
  reads := srcRegs a 2 ++ dstRegs b 4
  words := 1 + litsOf a
  res := fun s l => (philox (src64 s.g false a l) ((dstWords s.g b 4 l).map BitVec.toNat)).map (BitVec.ofNat 32)
def moveSpec : Instr → Option RegOp
  | .sel d a b w => some (if w then three d a b 2 2 1 (fun h l => pair (if (dst32 h d l).getLsbD 0 then src64 h false a l else src64 h false b l))
      else three d a b 1 1 1 (fun h l => [if (dst32 h d l).getLsbD 0 then src32 h a l else src32 h b l]))
  | .mov d a w => some (onWidth1 w d a false (fun x => x) (fun x => x))
  | .lea d a b k => some (two d a b 2 1 (fun h l => pair (src64 h false a l + (src32 h b l).signExtend 64 <<< k)))
  | .movImm d m => some { d := d, reads := [], words := 1, res := fun _ _ => [m.signExtend 32] }
  | .packlo d a b => some (two d a b 1 1 (fun h l => [half (src32 h b l) 0 ++ half (src32 h a l) 0]))
  | .packhi d a b => some (two d a b 1 1 (fun h l => [half (src32 h b l) 1 ++ half (src32 h a l) 1]))
  | .movs d x => some (movsOp d x)
  | .rng d a b => some (rngOp d a b)
  | _ => none

-- 05 R108 to R116: floating point, element by element

/-- Flush of denormal operands applies to binary32 (R78). -/
def flushes (h : Group) (ty : FloatTy) : Bool := h.ctx.kernel.ftz && decide (ty = .f32)
/-- The value of an operand's element. -/
def elemVal (h : Group) (ty : FloatTy) (x : Nat) : FVal := (fmtOf ty).read (ftzIn (flushes h ty) (fmtOf ty) x)
/-- The elements of a result, and the flags they raise together. -/
def floatTwo (d : Dst) (a b : Src) (ty : FloatTy) (f : Group → Nat → Nat → Rounded) : RegOp :=
  let out (h : Group) (l : Nat) : List Rounded := List.zipWith (f h) (elemsOf ty (src32 h a l)) (elemsOf ty (src32 h b l))
  { two d a b 1 1 (fun h l => [packElems ((out h l).map (·.bits))]) with raised := fun s l => orFlags ((out s.g l).map (·.flags)) }
def floatOne (d : Dst) (a : Src) (ty : FloatTy) (f : Group → Nat → Rounded) : RegOp :=
  let out (h : Group) (l : Nat) : List Rounded := (elemsOf ty (src32 h a l)).map (f h)
  { one d a 1 (fun h l => [packElems ((out h l).map (·.bits))]) with raised := fun s l => orFlags ((out s.g l).map (·.flags)) }
def fmaOf (ty : FloatTy) (r : Rnd) (h : Group) (d : Dst) (a b : Src) (l : Nat) : List Rounded :=
  List.zipWith (fun p w => fmaR (fmtOf ty) (RMode.of r) (flushes h ty) (elemVal h ty p.1) (elemVal h ty p.2) (elemVal h ty w))
    (List.zip (elemsOf ty (src32 h a l)) (elemsOf ty (src32 h b l))) (elemsOf ty (dst32 h d l))
def floatSpec : Instr → Option RegOp
  | .addF d a b ty r => some (floatTwo d a b ty (fun h x y => addR (fmtOf ty) (RMode.of r) (flushes h ty) (elemVal h ty x) (elemVal h ty y)))
  | .subF d a b ty r => some (floatTwo d a b ty (fun h x y => addR (fmtOf ty) (RMode.of r) (flushes h ty) (elemVal h ty x) (negV (elemVal h ty y))))
  | .mulF d a b ty r => some (floatTwo d a b ty (fun h x y => mulR (fmtOf ty) (RMode.of r) (flushes h ty) (elemVal h ty x) (elemVal h ty y)))
  | .fma d a b ty r => some { three d a b 1 1 1 (fun h l => [packElems ((fmaOf ty r h d a b l).map (·.bits))]) with
      raised := fun s l => orFlags ((fmaOf ty r s.g d a b l).map (·.flags)) }
  | .minF d a b ty => some (floatTwo d a b ty (fun h x y => minMaxR (fmtOf ty) false (ftzIn (flushes h ty) (fmtOf ty) x) (ftzIn (flushes h ty) (fmtOf ty) y)))
  | .maxF d a b ty => some (floatTwo d a b ty (fun h x y => minMaxR (fmtOf ty) true (ftzIn (flushes h ty) (fmtOf ty) x) (ftzIn (flushes h ty) (fmtOf ty) y)))
  | .negF d a ty => some (one d a 1 (fun h l => [src32 h a l ^^^ (if ty = .f32 then 0x80000000#32 else 0x80008000#32)]))
  | .absF d a ty => some (one d a 1 (fun h l => [src32 h a l &&& (if ty = .f32 then 0x7FFFFFFF#32 else 0x7FFF7FFF#32)]))
  | .rnd d a ty r => some (floatOne d a ty (fun h x => rndR (fmtOf ty) (RMode.of r) (ftzIn (flushes h ty) (fmtOf ty) x)))
  | _ => none

/-- A predicate on two floats: 1 or 0 in every element. A quiet one is invalid for a signalling NaN alone (R110). -/
def floatCompare (d : Dst) (a b : Src) (hf quiet : Bool) (f : Option Ordering → Bool) : RegOp :=
  let ty : FloatTy := if hf then .f16 else .f32
  floatTwo d a b ty (fun h x y =>
    let u := elemVal h ty x
    let v := elemVal h ty y
    { bits := if f (cmpV u v) then 1 else 0,
      flags := if (if quiet then u.isSnan || v.isSnan else u.isNan || v.isNan) then fInvalid else 0 })
def floatCompareSpec : Instr → Option RegOp
  | .cmpeqF d a b w => some (floatCompare d a b w true (fun o => o == some .eq))
  | .cmpneF d a b w => some (floatCompare d a b w true (fun o => !(o == some .eq)))
  | .cmpltF d a b w => some (floatCompare d a b w false (fun o => o == some .lt))
  | .cmpleF d a b w => some (floatCompare d a b w false (fun o => o == some .lt || o == some .eq))
  | .cmpgtF d a b w => some (floatCompare d a b w false (fun o => o == some .gt))
  | .cmpgeF d a b w => some (floatCompare d a b w false (fun o => o == some .gt || o == some .eq))
  | .cmpun d a b w => some (floatCompare d a b w true (fun o => o == none))
  | .cmpor d a b w => some (floatCompare d a b w true (fun o => o != none))
  | _ => none

-- rounding (04 R70 to R78)

/-- The rational number that an exact fraction stands for. -/
def Machine.Q.val (q : Q) : ℚ := (q.num : ℚ) / (q.den : ℚ)
/-- The formats of R70. -/
def formats : List Fmt := [fF32, fF16, fBF16, fE4M3, fE5M2]
/-- The largest finite value of a format (R70). -/
def Machine.Fmt.top (f : Fmt) : ℚ := if f.noInf then 448 else (2 - 2 ^ (-(f.fb : ℤ))) * 2 ^ (f.bias : ℤ)
/-- n is z rounded to an integer by a mode of R74: the nearest, of two as near the even one; towards zero; upwards; downwards. -/
def RoundsInt : Rnd → ℚ → ℤ → Prop
  | .rne, z, n => 2 * |z - n| ≤ 1 ∧ (2 * |z - n| = 1 → n % 2 = 0)
  | .rtz, z, n => (0 ≤ z → (n : ℚ) ≤ z ∧ z < n + 1) ∧ (z < 0 → z ≤ n ∧ (n : ℚ) < z + 1)
  | .rup, z, n => z ≤ n ∧ (n : ℚ) < z + 1
  | .rdn, z, n => (n : ℚ) ≤ z ∧ z < n + 1
/-- The bits of a result hold v, with the sign of x. -/
def Delivers (f : Fmt) (r : Rounded) (x v : ℚ) : Prop := ∃ p, f.read r.bits = .fin (decide (x < 0)) p ∧ p.val = v
/-- What one rounding of a non-zero x delivers. y is x on the grid of its binade, the exponent range unbounded (R74). Above the largest finite value the mode, SAT and the format
decide (R75); in the normal range it is y; below, zero of the sign under FTZ (R78), else x on the grid of the denormals (R77). -/
def RoundsTo (f : Fmt) (md : Rnd) (sat ftz : Bool) (x : ℚ) (r : Rounded) : Prop :=
  ∃ e n : ℤ, (2 : ℚ) ^ e ≤ |x| ∧ |x| < (2 : ℚ) ^ (e + 1) ∧ RoundsInt md (x * (2 : ℚ) ^ ((f.fb : ℤ) - e)) n ∧
    let y : ℚ := n * (2 : ℚ) ^ (e - f.fb)
    let least : ℚ := (2 : ℚ) ^ (1 - (f.bias : ℤ))
    (f.top < |y| → r.flags = fOverflow ||| fInexact ∧
      if sat = true ∨ md = .rtz ∨ (md = .rup ∧ x < 0) ∨ (md = .rdn ∧ 0 < x) then Delivers f r x (if x < 0 then -f.top else f.top)
      else if f.noInf then r.bits = f.cnan else f.read r.bits = .inf (decide (x < 0))) ∧
    (|y| ≤ f.top → least ≤ |y| → Delivers f r x y ∧ r.flags = if y = x then 0 else fInexact) ∧
    (|y| < least → (ftz = true → Delivers f r x 0 ∧ r.flags = fUnderflow ||| fInexact) ∧
      (ftz = false → ∃ k : ℤ, RoundsInt md (x * (2 : ℚ) ^ ((f.fb : ℤ) + f.bias - 1)) k ∧
        let v : ℚ := k * (2 : ℚ) ^ (1 - (f.bias : ℤ) - f.fb)
        Delivers f r x v ∧ r.flags = if v = x then 0 else fUnderflow ||| fInexact))
/-- The node at a level and place of the tree of R122: what both children combine to, or the one that is present. -/
def treeNode (op : RedOp) (ftz : Bool) (leaf : Nat → Option Nat) : Nat → Nat → Option Nat
  | 0, i => leaf i
  | k + 1, i => match treeNode op ftz leaf k (2 * i), treeNode op ftz leaf k (2 * i + 1) with
    | some x, some y => some (combine op ftz x y).1
    | some x, none => some x
    | none, v => v

/-- A special function on binary32, or on both binary16 halves of a word (R113). -/
def special (d : Dst) (a : Src) (hf : Bool) (f : Fmt → Bool → Nat → Rounded) : RegOp :=
  if hf then { one d a 1 (fun h l => [BitVec.ofNat 32 ((f fF16 false (half (src32 h a l) 0).toNat).bits + 65536 * (f fF16 false (half (src32 h a l) 1).toNat).bits)]) with
      raised := fun s l => (f fF16 false (half (src32 s.g a l) 0).toNat).flags ||| (f fF16 false (half (src32 s.g a l) 1).toNat).flags }
  else floatOne d a .f32 (fun h x => f fF32 h.ctx.kernel.ftz (ftzIn h.ctx.kernel.ftz fF32 x))
def specialSpec : Instr → Option RegOp
  | .rcp d a w => some (special d a w rcpR)
  | .rsq d a w => some (special d a w rsqR)
  | .sqrt d a w => some (special d a w sqrtR)
  | .exp2 d a w => some (special d a w exp2R)
  | .log2 d a w => some (special d a w log2R)
  | .sin d a w => some (special d a w sinR)
  | .cos d a w => some (special d a w cosR)
  | .tanh d a w => some (special d a w tanhR)
  | _ => none

/-- A source of CVT as raw bits, by its type's width (R60). -/
def cvtBits (h : Group) (src : CvtTy) (a : Src) (l : Nat) : Nat :=
  if cvtWide src then (src64 h (decide (src = .s64)) a l).toNat else (src32 h a l).toNat
/-- The value of a block element under its exponent byte, in binary32 (R86, R129, R130); -2^128, which binary32 does not hold, is a free value
(log entry 49). -/
def blockValue (h : Group) (sl : Slot) (x : Word) : Rounded :=
  let q := bfpVal sl.m (x.extractLsb' 8 8).toNat x.toNat
  if x.extractLsb' 8 8 = 254#8 ∧ sx sl.m x.toNat = -((2 ^ (sl.m - 1) : Nat) : Int) then ⟨Config.bfpLeast.toNat, 0⟩
  else convF fF32 .rne false h.ctx.kernel.ftz (.fin (decide (q.num < 0)) q)
/-- The encoding of the active lanes of a lane's block (R87, R129). -/
def blockOf (h : Group) (k : Nat) (a : Src) (l : Nat) : Block :=
  let sl := slotAt h k
  encodeBlock sl.m sl.sat ((blockLanes h sl.block l).map (fun u =>
    (fF32.read (ftzIn h.ctx.kernel.ftz fF32 (src32 h a u).toNat), RMode.ofCode sl.round (drawInstr h (src32 h a u).toNat u))))
def cvtsOf (h : Group) (k : Nat) (fromSlot : Bool) (a : Src) (l : Nat) : Rounded :=
  match slotFmt (slotAt h k) with
  | none => ⟨0, 0⟩
  | some f => if fromSlot then convF fF32 .rne false h.ctx.kernel.ftz (f.read ((src32 h a l).toNat % 2 ^ f.bitsN))
    else convF f (RMode.ofCode (slotAt h k).round (drawInstr h (src32 h a l).toNat l)) (slotAt h k).sat false
      (fF32.read (ftzIn h.ctx.kernel.ftz fF32 (src32 h a l).toNat))
def cvtOp (d : Dst) (a : Src) (dst src : CvtTy) (r : Rnd) (sat : Bool) : RegOp :=
  let q (h : Group) (l : Nat) : Nat × BitVec 5 := cvtOne dst src (RMode.of r) sat h.ctx.kernel.ftz (cvtBits h src a l)
  { one d a (if cvtWide src then 2 else 1) (fun h l => if cvtWide dst then pair (BitVec.ofNat 64 (q h l).1) else [BitVec.ofNat 32 (q h l).1]) with
    raised := fun s l => (q s.g l).2 }
/-- The sequence number of the slot's draws moves on when it encodes stochastically (R84). -/
def draws (k : Nat) (fromSlot : Bool) (s : State) : Bool := !fromSlot && decide ((slotAt s.g k).round = 4)
def cvtsOp (d : Dst) (a : Src) (k : Nat) (fromSlot : Bool) : RegOp :=
  { one d a 1 (fun h l => [BitVec.ofNat 32 (cvtsOf h k fromSlot a l).bits]) with
    raised := fun s l => (cvtsOf s.g k fromSlot a l).flags
    drawn := draws k fromSlot
    able := fun s => slotFmt (slotAt s.g k) ≠ none }
/-- The exponent and the sign-extended mantissa byte of a lane's element of its block (R129). -/
def blockWord (h : Group) (k : Nat) (a : Src) (l : Nat) : Word :=
  let b := blockOf h k a l
  let mu := b.mus.getD ((blockLanes h (slotAt h k).block l).findIdx (fun u => decide (u = l))) 0
  BitVec.ofNat 32 (256 * b.e + ((BitVec.ofNat (slotAt h k).m mu).signExtend 8).toNat)
def cvtbOp (d : Dst) (a : Src) (k : Nat) (fromSlot : Bool) : RegOp :=
  { one d a 1 (fun h l => [if fromSlot then BitVec.ofNat 32 (blockValue h (slotAt h k) (src32 h a l)).bits else blockWord h k a l]) with
    raised := fun s l => if fromSlot then (blockValue s.g (slotAt s.g k) (src32 s.g a l)).flags else (blockOf s.g k a l).flags
    drawn := draws k fromSlot
    able := fun s => (slotAt s.g k).kind = 1 ∧ (fromSlot = true → ∀ l ∈ activeLanes s.g, (src32 s.g a l).extractLsb' 8 8 ≠ 255#8) }
def convertSpec : Instr → Option RegOp
  | .cvt d a dst src r sat => some (cvtOp d a dst src r sat)
  | .cvts d a k f => some (cvtsOp d a k f)
  | .cvtb d a k f => some (cvtbOp d a k f)
  | _ => none

-- 06: shuffles, votes, reductions and scans

/-- A shuffle: the value of the lane named, or the lane's own where that one is not active (R123). -/
def shuffled (d : Dst) (a b : Src) (w : Bool) (from_ : Nat → Nat → Int) : RegOp :=
  let pick (h : Group) (l : Nat) : Nat :=
    let j := from_ l ((src32 h b l).extractLsb' 0 6).toNat
    if 0 ≤ j ∧ j.toNat ∈ activeLanes h then j.toNat else l
  if w then two d a b 2 1 (fun h l => pair (src64 h false a (pick h l))) else two d a b 1 1 (fun h l => [src32 h a (pick h l)])
def shuffleSpec : Instr → Option RegOp
  | .shfl d a b w => some (shuffled d a b w (fun _ k => k))
  | .shflup d a b w => some (shuffled d a b w (fun i k => (i : Int) - k))
  | .shfldn d a b w => some (shuffled d a b w (fun i k => (i : Int) + k))
  | .shflx d a b w => some (shuffled d a b w (fun i k => ((BitVec.ofNat 6 i ^^^ BitVec.ofNat 6 k).toNat : Int)))
  | _ => none
/-- The mask with a bit for each active lane of which a fact holds. -/
def maskWhere (h : Group) (f : Nat → Bool) : DWord := BitVec.ofBoolListLE ((List.range 64).map (fun i => decide (i ∈ activeLanes h) && f i))
def voteSpec : Instr → Option RegOp
  | .vany d a => some (one d a 1 (fun h _ => [if (activeLanes h).any (fun u => (src32 h a u).getLsbD 0) then 1 else 0]))
  | .vall d a => some (one d a 1 (fun h _ => [if (activeLanes h).all (fun u => (src32 h a u).getLsbD 0) then 1 else 0]))
  | .vbal d a => some (one d a 1 (fun h _ => pair (maskWhere h (fun u => (src32 h a u).getLsbD 0))))
  | .vmatch d a b => some (two d a b 1 1 (fun h l => pair (maskWhere h (fun u => (src32 h a u ^^^ src32 h a l) &&& src32 h b l == 0))))
  | _ => none
/-- A reduction or scan: the tree of R122 over the lanes of a set, in every lane. -/
def treeOp (d : Dst) (a : Src) (op : RedOp) (set : Nat → Nat → Bool) : RegOp :=
  let v (h : Group) (l : Nat) : Nat × BitVec 5 := treeValue h op a ((activeLanes h).filter (set l))
  { one d a (if op = .add64 then 2 else 1) (fun h l => if op = .add64 then pair (BitVec.ofNat 64 (v h l).1) else [BitVec.ofNat 32 (v h l).1]) with
    raised := fun s l => (v s.g l).2 }
def treeSpec : Instr → Option RegOp
  | .red d a op => some (treeOp d a op (fun _ _ => true))
  | .scan d a op => some (treeOp d a op (fun i j => decide (j ≤ i)))
  | .xscan d a op => some (treeOp d a op (fun i j => decide (j < i)))
  | _ => none

/-- Every register instruction of the ALU and XLANE classes with what it computes. -/
def regSpec (i : Instr) : Option RegOp :=
  (intSpec i).orElse fun _ => (bitSpec i).orElse fun _ => (shiftSpec i).orElse fun _ => (compareSpec i).orElse fun _ => (moveSpec i).orElse fun _ =>
    (floatSpec i).orElse fun _ => (floatCompareSpec i).orElse fun _ => (specialSpec i).orElse fun _ => (convertSpec i).orElse fun _ =>
    (shuffleSpec i).orElse fun _ => (voteSpec i).orElse fun _ => treeSpec i

-- memory instructions (10)

/-- No register of a list holds an uncorrectable error in the lanes given. -/
def readsClean (s : State) (rs ls : List Nat) : Prop := ∀ l ∈ ls, ∀ r ∈ rs, smGet false s.g.regPoison (regKey r l) = false
/-- Nothing that the scoreboard orders before the accesses is un-retired, and none that held them has failed (R156, R409). -/
def unheld (s : State) (ivs : List Iv) : Prop :=
  holders s s.g.id s.nextId ivs = [] ∧ ∀ ops slots, s.g.waiting = .held ops slots → ∀ e ∈ s.g.owed, e.1 ∉ slots
/-- Every address check of R160 passes in every lane: alignment to al, the extent of the space, translation. -/
def accessOk (s : State) (sp : Space) (n al : Nat) (p : Perm) (l : List (Nat × Nat)) : Prop :=
  ∀ e ∈ l, e.2 % al = 0 ∧ (sp = .g → e.2 < 2251799813685248) ∧ (sp ≠ .g → e.2 + n ≤ extent s sp) ∧ ∃ ps, partsOf s sp e.1 e.2 n p = .ok ps
/-- The first of some checks that applies, each with the trap and cause that it gives. -/
def firstCheck (l : List (Bool × XErr)) : Option XErr := (l.find? (·.1)).map (·.2)
/-- The checks of R376 on a pointer entry, in the order of its table; one at level 0 (bottom) is itself wrong. The root is checked as a pointer too (R374). -/
def pointerChecks (f : Fn) (bottom : Bool) (e : Nat) : List (Bool × XErr) :=
  [(!bitOf e 0, ⟨4, 1⟩), (decide (bits e 63 52 ≠ 0), ⟨4, 2⟩), (bottom, ⟨4, 3⟩), (!inWindow f (entSpa e) 32768, ⟨5, 5⟩), (!hasKey f (entKey e), ⟨5, 6⟩)]
/-- The bytes that a leaf at a level maps: a page of R370, or the two faces of a DF page. -/
def leafBytes (level e : Nat) : Nat := if bitOf e 55 then 65536 else 2 ^ (15 + 12 * level)
/-- The checks of R376 on a leaf at a level, in the order of its table. -/
def leafChecks (f : Fn) (level e : Nat) : List (Bool × XErr) :=
  [(!bitOf e 0, ⟨4, 1⟩), (decide (bits e 63 57 ≠ 0), ⟨4, 2⟩), (decide (entSpa e % leafBytes level e ≠ 0) || (bitOf e 55 && decide (level ≠ 0)), ⟨4, 3⟩),
   (!inWindow f (entSpa e) (leafBytes level e), ⟨5, 5⟩), (!hasKey f (entKey e), ⟨5, 6⟩)]
/-- The permission bits of a leaf that an access requires (R371). -/
def permBits (p : Perm) : List Nat :=
  match p with
  | .r => [52]
  | .w => [53]
  | .rw => [52, 53]
  | .x => [54]
/-- An access with ord sc finds no load before it outstanding (R223), and one that releases at sys scope no unacknowledged remote write of the
group (R182). -/
def orderable (s : State) (o : MOrd) (sc : Scope) : Prop :=
  (o = .sc → s.g.loads = []) ∧ (o = .rel ∨ o = .sc → sc = .sys → ∀ c ∈ s.copies, c.group = some s.g.id → c.awaiting = false)
/-- The active lanes outside M, and those of them with the addresses they present (R211, R221). -/
def lanesLeft (h : Group) : List Nat := (activeLanes h).filter (fun l => !h.m.getLsbD l)
def addrsLeft (h : Group) (a : Src) (sp : Space) : List (Nat × Nat) := (lanesLeft h).map (fun l => (l, laneAddr h a sp l))
/-- Word i of bytes, little-endian. -/
def wordAt (bs : List Byte) (i : Nat) : Word := bs.getD (4 * i + 3) 0 ++ bs.getD (4 * i + 2) 0 ++ bs.getD (4 * i + 1) 0 ++ bs.getD (4 * i) 0

/-- A load by its fields: bytes a lane, and the words its registers receive. -/
structure LoadOp where
  t : Dst
  a : Src
  n : Nat
  o : MOrd
  sc : Scope
  sp : Space
  words : List Byte → List Word
def loadSpec : Instr → Option LoadOp
  | .ld t a sz o sc sp => some ⟨t, a, 2 ^ encSz sz, o, sc, sp, fun bs => (List.range ((2 ^ encSz sz + 3) / 4)).map (wordAt bs)⟩
  | .ldSigned t a hf o sc sp => some ⟨t, a, if hf then 2 else 1, o, sc, sp,
      fun bs => [if hf then (bs.getD 1 0 ++ bs.getD 0 0 : BitVec 16).signExtend 32 else (bs.getD 0 0).signExtend 32]⟩
  | _ => none
/-- What a performed load will write: register key and word of each lane, none for ZERO. -/
def loadWrites (d : Dst) (ls : List Nat) (ws : Nat → List Word) : List (Nat × Word) :=
  match d with
  | .zero => []
  | .reg r => ls.flatMap (fun l => (ws l).zipIdx.map (fun p => (regKey (r + p.2) l, p.1)))
/-- The latest word that a list of register writes gives a key. -/
def lastWrite (l : List (Nat × Word)) (key : Nat) : Option Word := (l.reverse.find? (fun e => e.1 == key)).map (·.2)
/-- A word of on-chip memory that a load or a tagged access may read or write: the issuing group's SRAM of one space changes, and nothing else of a team. -/
def SramOnly (s t : State) (rg : Bool) : Prop :=
  (∀ k, k ≠ s.g.team → getTeam t k = getTeam s k) ∧ sramOf t s.g (!rg) = sramOf s s.g (!rg) ∧
    ∀ x, getTeam s s.g.team = some x → ∃ y, getTeam t s.g.team = some y ∧ y = { x with rg := y.rg, scratch := y.scratch } ∧ ∀ c, c ≠ s.g.core → teamScratch y c = teamScratch x c
/-- What a lane of the current group reads with no store of the group in its queue: n bytes at the address that it presents (R200, R204). On chip, what stands there. In space g, the
bytes of the page (R371), which the core's own L1 holds or memory under the page's key does; in space p the same at the thread's own address, above 16 bytes in two parts (R161). -/
def ReadsAt (s : State) (byp : Bool) (sp : Space) (n lane addr : Nat) (got : Option (List Byte)) : Prop :=
  let at_ (key a i : Nat) : Byte := memByte s key (a + i)
  (∀ rg, sp = (if rg then .rg else .s) → sramPoisoned (sramOf s s.g rg) addr n = false → got = some ((List.range n).map (fun i => smGet 0 (sramOf s s.g rg).bytes (addr + i)))) ∧
  (sp = .c → chipPoisoned (getFn s s.g.ctx.fn) addr n = false → got = some ((List.range n).map (fun i => smGet 0 (getFn s s.g.ctx.fn).chip (addr + i)))) ∧
  (∀ va q, (sp = .g ∧ va = addr) ∨ (sp = .p ∧ n ≤ 16 ∧ va = threadAddr s.g lane addr) → translate s s.g.ctx.fn va .r = .ok q →
    ((∀ x ∈ s.l1, x.core ≠ s.g.core) → memPoisoned s q.spa n = false → got = some ((List.range n).map (at_ q.key q.spa))) ∧
    (∀ x, l1Find s s.g.core (q.spa / 32) = some x → x.key = q.key → x.poison = false → q.spa % 32 + n ≤ 32 → (∀ i, i < n → x.dirty.getD (q.spa % 32 + i) false = true) ∨ (x.valid = true ∧ byp = false) →
      got = some ((List.range n).map (fun i => x.data.getD (q.spa % 32 + i) 0)))) ∧
  (∀ q r, sp = .p → n = 32 → translate s s.g.ctx.fn (threadAddr s.g lane addr) .r = .ok q → translate s s.g.ctx.fn (threadAddr s.g lane (addr + 16)) .r = .ok r →
    (∀ x ∈ s.l1, x.core ≠ s.g.core) → memPoisoned s q.spa 16 = false → memPoisoned s r.spa 16 = false →
    got = some ((List.range 16).map (at_ q.key q.spa) ++ (List.range 16).map (at_ r.key r.spa)))
/-- What a tagged access finds once its order is kept and the group's stores before it are settled (R176, R177, R211). -/
def tagState (s : State) (op : TagOp) (a : Src) (o : MOrd) (sc : Scope) (sp : Space) : State := settleWords (before s o sc) op sp (laneAddrs s.g a sp)
/-- A tagged access that has performed no lane meets no trap: registers and words without error, nothing that holds it, its addresses good. -/
def TagReady (s : State) (op : TagOp) (a : Src) (o : MOrd) (sc : Scope) (rg : Bool) (sp : Space) : Prop :=
  sp = (if rg then .rg else .s) ∧ s.g.m = 0 ∧ (getTeam s s.g.team).isSome = true ∧ readsClean s (srcRegs a 1) (activeLanes s.g) ∧
    unheld s (accessIvs sp 4 (decide (op = .stef)) (laneAddrs s.g a sp)) ∧ accessOk s sp 4 4 .r (laneAddrs s.g a sp) ∧ orderable s o sc ∧
    ∀ l ∈ activeLanes s.g, sramPoisoned (sramOf (tagState s op a o sc sp) s.g rg) (laneAddr s.g a sp l) 4 = false
/-- Byte j of a store's source in a lane (R201). -/
def storeByte (h : Group) (t : Src) (l j : Nat) : Byte :=
  match t with
  | .reg r => (gReg h (r + j / 4) l).extractLsb' (8 * (j % 4)) 8
  | other => (src64 h false other l).extractLsb' (8 * j) 8
/-- The single-copy-atomic units of an access: 8 bytes each, or the whole of a smaller one (R187); the last one of 32 bytes is marked as such (R206). -/
def atomicUnits (q : Part) : List Part :=
  if q.n ≤ 8 then [q] else (List.range (q.n / 8)).map (fun i => { q with addr := q.addr + 8 * i, va := q.va + 8 * i, n := 8, whole := decide (q.n = 32 ∧ i = 3) })
/-- The store-queue entries of one lane's bytes over the units of its access. -/
def storeEntries (lane : Nat) (bs : List Byte) : List Part → List StEntry
  | [] => []
  | q :: ps => { lane := lane, sp := q.sp, addr := q.addr, va := q.va, key := q.key, df := q.df, data := bs.take q.n, all := false, whole := q.whole } :: storeEntries lane (bs.drop q.n) ps
/-- Every L1 sector holds 32 bytes. -/
def l1Whole (s : State) : Prop := ∀ x ∈ s.l1, x.data.length = 32 ∧ x.dirty.length = 32
/-- The L1 sectors that a store of the core would touch hold no other core's dirty byte, no other key's data and no error. -/
def l1Quiet (s : State) (core key a n : Nat) : Prop :=
  ∀ x ∈ s.l1, a / 32 ≤ x.sec → x.sec ≤ (a + n - 1) / 32 → (x.core = core → x.key = key ∧ x.poison = false) ∧ (x.core ≠ core → isDirty x = false)

/-- An atomic by its fields: the registers it reads, its bytes, whether host memory takes it (R219), the new bytes from the
old value, and the words it returns (R216). -/
structure AtomicOp where
  t : Dst
  reads : Nat
  a : Src
  n : Nat
  host : Bool
  o : MOrd
  sc : Scope
  sp : Space
  new : Group → Nat → DWord → List Byte
  back : DWord → List Word
def bytesOfWord (w : Word) : List Byte := (List.range 4).map (fun j => w.extractLsb' (8 * j) 8)
def bytesOfDWord (x : DWord) : List Byte := (List.range 8).map (fun j => x.extractLsb' (8 * j) 8)
def atomicOf (t : Dst) (a : Src) (w host : Bool) (o : MOrd) (sc : Scope) (sp : Space) (f : Word → Word → Word) (g : DWord → DWord → DWord) : AtomicOp where
  t := t
  reads := if w then 2 else 1
  a := a
  n := if w then 8 else 4
  host := host
  o := o
  sc := sc
  sp := sp
  new := fun h l y => if w then bytesOfDWord (g y (dst64 h t l)) else bytesOfWord (f y.lo (dst32 h t l))
  back := fun y => if w then pair y else [y.lo]
/-- The float sum of the atomics, and the compensated pair of R218. -/
def atomicSum (y x : Word) : Word := BitVec.ofNat 32 (addF32 y.toNat x.toNat)
def compensated (y : DWord) (x : Word) : List Byte :=
  bytesOfWord (atomicSum y.lo x) ++ bytesOfWord (atomicSum y.hi (BitVec.ofNat 32 (sumError y.lo.toNat x.toNat)))
def casOp (t : Dst) (a : Src) (w : Bool) (o : MOrd) (sc : Scope) (sp : Space) : AtomicOp :=
  let v (h : Group) (l i : Nat) : Word := match t with | .reg r => gReg h (r + i) l | .zero => 0
  { atomicOf t a w true o sc sp (fun y _ => y) (fun y _ => y) with
    reads := if w then 4 else 2
    new := fun h l y => if w then bytesOfDWord (if y = v h l 1 ++ v h l 0 then v h l 3 ++ v h l 2 else y) else bytesOfWord (if y.lo = v h l 0 then v h l 1 else y.lo) }
def atomicSpec : Instr → Option AtomicOp
  | .atadd t a w o sc sp => some (atomicOf t a w true o sc sp (· + ·) (· + ·))
  | .atminS t a w o sc sp => some (atomicOf t a w false o sc sp (fun y x => if x.slt y then x else y) (fun y x => if x.slt y then x else y))
  | .atminN t a w o sc sp => some (atomicOf t a w false o sc sp (fun y x => if x.ult y then x else y) (fun y x => if x.ult y then x else y))
  | .atmaxS t a w o sc sp => some (atomicOf t a w false o sc sp (fun y x => if y.slt x then x else y) (fun y x => if y.slt x then x else y))
  | .atmaxN t a w o sc sp => some (atomicOf t a w false o sc sp (fun y x => if y.ult x then x else y) (fun y x => if y.ult x then x else y))
  | .atand t a w o sc sp => some (atomicOf t a w false o sc sp (· &&& ·) (· &&& ·))
  | .ator t a w o sc sp => some (atomicOf t a w false o sc sp (· ||| ·) (· ||| ·))
  | .atxor t a w o sc sp => some (atomicOf t a w false o sc sp (· ^^^ ·) (· ^^^ ·))
  | .atxch t a w o sc sp => some (atomicOf t a w true o sc sp (fun _ x => x) (fun _ x => x))
  | .atcas t a w o sc sp => some (casOp t a w o sc sp)
  | .atfadd t a o sc sp => some (atomicOf t a false false o sc sp atomicSum (fun y _ => y))
  | .faddCp t a o sc sp => some { atomicOf t a true false o sc sp (fun y _ => y) (fun y _ => y) with reads := 1, new := fun h l y => compensated y (dst32 h t l) }
  | _ => none
/-- The lanes perform one after another, lowest first: each reads the place, writes the new value and returns the old; a lane
in M has performed already (R217, R221). Its page is no host page where host memory does not take the operation (R219). -/
def AtomicOp.performs (e : AtomicOp) : List (Nat × Nat) → State → State → Prop
  | [], s, u => u = s
  | l :: ls, s, u =>
    if s.g.m.getLsbD l.1 then e.performs ls s u
    else ∃ y v, y < 2 ^ (8 * e.n) ∧ (e.sp = .g → e.host = false → hostPage s l.2 = false) ∧
      atomicPlace s e.sp l.2 e.n (fun z => e.new s.g l.1 (BitVec.ofNat 64 z)) = .ok (y, v) ∧
      e.performs ls { v with g := { writeDst v.g e.t l.1 (e.back (BitVec.ofNat 64 y)) with m := v.g.m ||| (1#64 <<< l.1) } } u

-- control, barriers and objects (13, 14)

/-- The target of a branch: four times the signed offset from the clause's header, modulo 2^64 (R34). -/
def targetOf (h : Group) (off : BitVec 21) : Nat := (BitVec.ofNat 64 h.pos + off.signExtend 64 <<< 2).toNat
/-- The trap of a deferred entry that does not give its join again (R296): DIVERGENCE with detail 2 where the clause at its target fails the checks of R23 or its branch has no JOIN, else the
fault of the read. -/
def joinFault (v : State) (target : Nat) : Option TrapInfo :=
  match readClause (icacheDrop v v.g.core) target with
  | .error (x, a) => some (if x.code = 1 then { code := 18, detail := 2 } else { code := x.code, detail := x.cause, addr := a })
  | .ok (_, c) => if (clauseJoin target c).isNone then some { code := 18, detail := 2 } else none
/-- Exactly one object of a function has the number of o, and it is o. -/
def HasObj (s : State) (o : Obj) : Prop := s.objs.filter (fun x => decide (x.fn = o.fn ∧ x.num = o.num)) = [o]
/-- Every slot of a team but one has arrived at a barrier in this phase, has ended or is hollow (R302). -/
def othersArrived (t : Team) (b : Bar) (me : Nat) : Prop :=
  ∀ i < t.size, i = me ∨ b.arrived.getLsbD i = true ∨ t.ended.getLsbD i = true ∨ t.hollow.getLsbD i = true

-- matrix commands (07)

/-- A matrix command by its fields: what the lowest active lane supplies, and the operand checks of R148. -/
structure CmdOp where
  kind : CmdKind
  tile : Nat
  reads : List Nat
  ctl : State → Word
  a : State → DWord
  b : State → DWord
  shape : State → List Byte
  words : Nat
  able : State → Prop
/-- The command that joins the queue of its array. -/
def CmdOp.cmd (e : CmdOp) (s : State) : Cmd where
  id := s.nextId
  group := s.g.id
  launch := s.g.ctx.launch
  region := regionOf s.g.core
  kind := e.kind
  word := s.g.clause.getD s.g.off 0
  tile := e.tile
  ctl := e.ctl s
  a := e.a s
  b := e.b s
  shape := e.shape s
  steps := 0
  started := false
  attempts := 0
  array := chooseArray s e.kind e.tile
  serial := false
  pos := s.g.pos
  off := s.g.off
  arrived := s.nextId
/-- Every interval of a command lies within its space (R138). -/
def CmdOp.inBounds (e : CmdOp) (s : State) : Prop := ∀ i ∈ cmdIvs s.g.ctx.lrec.slots (e.cmd s), ivBound s i = true
def boundSlot (s : State) (k : Nat) : Prop := (slotIn s.g.ctx.lrec.slots k).kind ≠ 0
/-- Bits 63:60 of an operand descriptor are 0 (R136). -/
def descFits (x : DWord) : Prop := x.extractLsb' 60 4 = 0#4
def productCmd (kind : CmdKind) (m : Nat) (d : Dst) (a b : Src) : CmdOp where
  kind := kind
  tile := m
  reads := dstRegs d 1 ++ srcRegs a 2 ++ srcRegs b 2
  ctl := fun s => dst32 s.g d (firstLane s.g)
  a := fun s => src64 s.g false a (firstLane s.g)
  b := fun s => src64 s.g false b (firstLane s.g)
  shape := fun _ => []
  words := 1 + litsOf a + litsOf b
  able := fun s => let w := dst32 s.g d (firstLane s.g)
    holdsTile s.g m = true ∧ (kind = .mmap → m < 8 ∧ holdsTile s.g (m + 8) = true) ∧ ctlBad s.g.ctx.lrec.slots (if kind = .mmap then 256 else 128) w = false ∧
      boundSlot s (ctSa w) ∧ boundSlot s (ctSb w) ∧ descFits (src64 s.g false a (firstLane s.g)) ∧ descFits (src64 s.g false b (firstLane s.g))
/-- Where the shape record of an MCONV lies (R147). -/
def shapePlace (s : State) (a : Src) : Bool × Nat :=
  let x := src64 s.g false a (firstLane s.g)
  (x.getLsbD 25, (x.extractLsb' 0 25).toNat + (if x.getLsbD 26 then 33554432 else 0))
def shapeBytes (s : State) (a : Src) : List Byte :=
  if (shapePlace s a).1 then chipRead (getFn s s.g.ctx.fn) (shapePlace s a).2 32 else sramRead (sramOf s s.g true) (shapePlace s a).2 32
def convCmd (m : Nat) (d : Dst) (a b : Src) : CmdOp where
  kind := .mconv
  tile := m
  reads := dstRegs d 1 ++ srcRegs a 2 ++ srcRegs b 2
  ctl := fun s => dst32 s.g d (firstLane s.g)
  a := fun s => src64 s.g false a (firstLane s.g)
  b := fun s => src64 s.g false b (firstLane s.g)
  shape := fun s => shapeBytes s a
  words := 1 + litsOf a + litsOf b
  able := fun s => let w := dst32 s.g d (firstLane s.g)
    let p := shapePlace s a
    holdsTile s.g m = true ∧ ctlBad s.g.ctx.lrec.slots 128 w = false ∧ boundSlot s (ctSa w) ∧ boundSlot s (ctSb w) ∧
      descFits (src64 s.g false b (firstLane s.g)) ∧ (src64 s.g false a (firstLane s.g)).extractLsb' 27 37 = 0#37 ∧ p.2 % 32 = 0 ∧ p.2 + 32 ≤ extent s (if p.1 then .c else .rg) ∧
      s.g.stq = [] ∧ unheld s [{ chip := p.1, lo := p.2, hi := p.2 + 32, write := false }] ∧
      (if p.1 then chipPoisoned (getFn s s.g.ctx.fn) p.2 32 = false else sramPoisoned (sramOf s s.g true) p.2 32 = false) ∧ shapeBad s.g.ctx.lrec.slots w (shapeBytes s a) = false
def storeCmd (m : Nat) (d : Dst) (a : Src) : CmdOp where
  kind := .mst
  tile := m
  reads := dstRegs d 1 ++ srcRegs a 2
  ctl := fun s => dst32 s.g d (firstLane s.g)
  a := fun s => src64 s.g false a (firstLane s.g)
  b := fun _ => 0
  shape := fun _ => []
  words := 1 + litsOf a
  able := fun s => let w := dst32 s.g d (firstLane s.g)
    let k := slotIn s.g.ctx.lrec.slots (stSlot w)
    holdsTile s.g m = true ∧ w.extractLsb' 15 8 = 0#8 ∧ w.extractLsb' 27 5 = 0#5 ∧ ctM w ≤ 128 ∧
      (stCvt w = true → k.kind ≠ 0 ∧ k.round ≠ 4 ∧ (k.kind = 1 → ctN w % k.block = 0)) ∧ descFits (src64 s.g false a (firstLane s.g))
def zeroCmd (m : Nat) : CmdOp where
  kind := .mzero
  tile := m
  reads := []
  ctl := fun _ => 0
  a := fun _ => 0
  b := fun _ => 0
  shape := fun _ => []
  words := 1
  able := fun s => holdsTile s.g m = true
def cmdSpec : Instr → Option CmdOp
  | .mma m d a b => some (productCmd .mma m d a b)
  | .mmap m d a b => some (productCmd .mmap m d a b)
  | .mconv m d a b => some (convCmd m d a b)
  | .mst m d a => some (storeCmd m d a)
  | .mzero m => some (zeroCmd m)
  | _ => none
/-- The lowest-numbered value that a list of writes leaves at a place, the latest winning. -/
def lastAt (l : List Nat) (place : Nat → Nat) (value : Nat → Word) (k : Nat) : Option Word := (l.reverse.find? (fun i => place i == k)).map value
/-- One row of a tile written out by MST, converted or not (R150). -/
def mstRow (h : Group) (c : Cmd) (t : Tile) (s : State) (i : Nat) : State :=
  let d := descOf c.a
  let row := (List.range (ctN c.ctl)).map (fun j => smGet 0 t.elems (elemKey i j))
  let k := slotIn h.ctx.lrec.slots (stSlot c.ctl)
  if stCvt c.ctl then
    let u := putOnChip s h d.chip (d.base + i * d.pitch) (convertRow k row).1
    if k.kind = 1 then putOnChip u h d.chip (d.ebase + i * epitch k d.pitch) (convertRow k row).2 else u
  else putOnChip s h d.chip (d.base + i * d.pitch) (bytesOfWords row)

-- copies (11)

/-- A copy command by its fields: the slot it names and whether it compacts (R227). -/
structure CopyOp where
  kind : CopyKind
  d : Dst
  a : Src
  slot : Group → Slot
  compact : Bool
def copySpec : Instr → Option CopyOp
  | .cpy d a => some ⟨.cpy, d, a, fun _ => {}, false⟩
  | .cpyn d a k c => some ⟨.cpyn, d, a, fun h => slotAt h k, c⟩
  | .cpyr d a => some ⟨.cpyr, d, a, fun _ => {}, false⟩
  | _ => none
/-- The command that joins the queue of engine eng, with entry i of the copy status ring and record r. -/
def queuedCopy (s : State) (kind : CopyKind) (eng i : Nat) (r : List Byte) (desc : DWord) (k : Slot) (compact : Bool) (skey : DWord) : Copy where
  id := s.nextId
  fn := s.g.ctx.fn
  kind := kind
  group := some s.g.id
  launch := s.g.ctx.launch
  core := s.g.core
  team := some s.g.team
  entry := i
  rcd := r
  desc := desc
  slot := k
  compact := compact
  skey := skey
  eng := eng
  done := 0
  started := false
  awaiting := false
  sent := 0
  pos := s.g.pos
  off := s.g.off

-- fragments and traversal (12, 17)

/-- The insert that lane l of a FINS queues, under number k (R256). -/
def queuedInsert (s : State) (d : Dst) (va : Nat) (t : List Byte) (k l : Nat) : Insert where
  id := k
  group := s.g.id
  launch := s.g.ctx.launch
  fn := s.g.ctx.fn
  pass := s.g.ctx.pass
  lane := l
  seq := ((fragOf s.g l).getD {}).seq
  fins := s.nextId
  px := ((fragOf s.g l).getD {}).x
  py := ((fragOf s.g l).getD {}).y
  node := dstWords s.g d 4 l
  targetVA := va
  target := t
  parked := false
  code := 0
  cause := 0
  pos := s.g.pos
  off := s.g.off
/-- The lists that the lanes of an FCLR or of an FRES with clear name are read and emptied in turn, each as the lanes before left it (R265). -/
def clearedInTurn (h : Group) (b : Src) (t : List Byte) : List Nat → State → State → List (Nat × LList) → Prop
  | [], s, u, rs => u = s ∧ rs = []
  | l :: ls, s, u, rs => ∃ r v rest, readList s h.ctx.fn t (pixX (src32 h b l)) (pixY (src32 h b l)) = .ok r ∧
      stageWrites h.ctx.fn (clearWrites t (pixX (src32 h b l)) (pixY (src32 h b l)) r) s = .ok v ∧ clearedInTurn h b t ls v u rest ∧ rs = (l, r) :: rest
/-- What the read of a record of n bytes found: its bytes, or the code and the cause of its failure (R338, R339). -/
def testFound (s : State) (va n : Nat) : List Byte × Option (Nat × Nat) :=
  match agentRead s s.g.ctx.fn va n with
  | .ok b => (b, none)
  | .error (x, _) => ([], some (x.code, x.cause))
/-- The tester request of lane l, under number k (R337), with the record that it has read. -/
def queuedTest (s : State) (tri : Bool) (d a : Dst) (b : Src) (k l : Nat) : TrvReq where
  id := k
  group := s.g.id
  launch := s.g.ctx.launch
  region := regionOf s.g.core
  tri := tri
  lane := l
  d := d
  ray := dstWords s.g a 8 l
  addr := (src64 s.g false b l).toNat
  first := s.nextId
  pos := s.g.pos
  off := s.g.off
  bytes := (testFound s (src64 s.g false b l).toNat (if tri then 36 else 96)).1
  fault := (testFound s (src64 s.g false b l).toNat (if tri then 36 else 96)).2
/-- A traversal-stack instruction: what it reads, its destination, its words, the operand check and what one thread's stack does (R346, R348). -/
structure StackOp where
  reads : List Nat
  d : Dst
  words : Nat
  able : Group → Nat → Prop
  step : State → Nat → Except (XErr × Nat) StackStep
def stackSpec : Instr → Option StackOp
  | .trvpsh a => some ⟨srcRegs a 2, .zero, 1 + litsOf a, fun _ _ => True, fun t l => pushEntry t l (1#2 ++ (src64 t.g false a l).extractLsb' 0 62)⟩
  | .trvpop d => some ⟨[], d, 1, fun _ _ => True, popEntry⟩
  | .trvinstEnter a => some ⟨srcRegs a 1, .zero, 1 + litsOf a, fun h l => (src32 h a l).toNat < 16777216, fun t l => pushEntry t l (2#2 ++ 0#30 ++ src32 t.g a l)⟩
  | .trvinstLeave => some ⟨[], .zero, 1, fun _ _ => True, leaveInst⟩
  | .trvrd d a => some ⟨srcRegs a 1, d, 1 + litsOf a, fun h l => (src32 h a l).toNat < 2, fun t l => readStack t l ((src32 t.g a l).getLsbD 0)⟩
  | _ => none

-- requests (21)

/-- A request is posted, its sender may make it, and no args byte that it does not name is set (R394, R395). -/
def Asked (s : State) (fn op sub : Nat) (names : Bool) (used : List (Nat × Nat)) : Prop :=
  requestReady s fn op sub = true ∧ (physicalOnly op = true → fn = 0) ∧ (names = true → fn = 0 ∨ arg (getFn s fn) 16 1 = fn) ∧ restZero (getFn s fn) used = true

end Sys2Proof
end

