-- ==== Sys2Proof/Certificates/Slice0/Obligations.lean ====
section
/-!
DEFINITION. Obligations.lean: the statements for the provers, each a rule of the spec or a property of the whole machine.
-/

open Sys2Proof Sys2Proof.Machine

-- encodings (02, 03)

/-- Every well-formed instruction that has a word comes back from its encoding, operands and literals included. -/
def Obligations.EncodeThenDecode : Prop :=
  ∀ (i : Instr) (w : Word) (ls : List Word), i.wf = true → encode i = w :: ls → decodeWord (DCtx.wide w.toNat) w.toNat ls = .ok i

/-- A word that decodes is the encoding of its instruction, its literal words the next ones, and the instruction is well formed. -/
def Obligations.DecodeThenEncode : Prop :=
  ∀ (w : Word) (ls : List Word) (i : Instr), decodeWord (DCtx.wide w.toNat) w.toNat ls = .ok i →
    litWords w.toNat ≤ ls.length → encode i = w :: ls.take (litWords w.toNat) ∧ i.wf = true

/-- One word or more of each class, op and fields as R31 and 03 place them, and the checks of R40 in their order: each of checks 2 to 6 by a word that fails it and later ones, check 1 by
an opcode and by an fn code that are unassigned, in a clause of another class. Check 2 has a word of another class, a control transfer that does not stand last, and a REGROUP of a kernel without the flag. -/
def Obligations.DecodesKnownWords : Prop :=
  (decodesTo (wordT 0x08 2 4 6 13) (.xnor (.reg 2) (.reg 4) (.reg 6) true) ∧
    decodesTo (wordI 0x14 1 2 0x7FF) (.addImm32 (.reg 1) (.reg 2) (-1)) ∧
    decodesTo (wordT 0x23 3 4 5 6) (.fma (.reg 3) (.reg 4) (.reg 5) .f16 .rup) ∧
    decodesTo (wordT 0x31 0x78 7 0x79 3) (.vmatch .zero (.reg 7) .lane) ∧
    decodesTo (wordM 0x41 6 8 3 1 4 0) (.atadd (.reg 6) (.reg 8) true .acq .sys .g) ∧
    decodesTo (wordT 0x51 9 10 12 3) (.mmap 3 (.reg 9) (.reg 10) (.reg 12)) ∧
    decodesTo (wordT 0x6A 0 0 0 1) .trvinstLeave ∧
    decodesTo (wordC 0x6D 5 0x1FFFFF) (.brt 5 (-1)) ∧
    decodesTo (wordI 0x78 4 0 (127 * 16 + 15)) (.regroup (.reg 4) 127 15)) ∧
  (refusedIn (fun c => { c with cls := 5 }) (wordT 0x1E 0x7F 0x7F 0x7D 15) 1 ∧ refusedIn (fun c => { c with cls := 5 }) (wordT 0x31 0x7F 0x7F 0x7D 15) 1 ∧
    refusedIn (fun c => { c with cls := 2 }) (wordT 0x07 0x7F 0x7D 1 0) 2 ∧ refusedIn (fun c => { c with last := false }) (wordC 0x6C 1 0) 2 ∧
    refusedIn (fun c => { c with regroup := false }) (wordI 0x78 121 0 0) 2 ∧
    refusedBy (wordT 0x07 0x7F 0x7D 1 0) 3 ∧ refusedBy (wordT 0x07 0x7F 0x7D 0 0) 4 ∧ refusedBy (wordT 0x00 1 0x7F 2 0) 4 ∧
    refusedBy (wordI 0x19 121 2 32) 5 ∧ refusedBy (wordT 0x00 3 4 6 2) 5 ∧ refusedBy (wordI 0x19 1 2 32) 6)

-- the step (02 R26 to R29)

/-- With no turn pending, no channel retraining and the group ready, a step runs the instruction that the word at its position decodes to, or takes the trap of the check that fails (R28, R40,
R68); a turn at the head of the agenda is taken instead: an event runs as exec gives it, on the state without that turn. The agenda is the model's (log 2). While a channel retrains, its end
comes first (R404; that all else waits for it is log 18). The code of a check 6 that a JOIN out of place or a DBRT or DBRF without its JOIN fails is the model's choice (log 14), as is
where a group resumes whose clause has changed (log 74). -/
def Obligations.StepRunsDecoded : Prop :=
  (∀ s : State, s.agenda = [] → s.thermalTrip = false → s.boot = .running → retraining s = none → canIssue s s.g = true →
      (∀ i, instrAt s.g = .ok i → step s = exec i s) ∧
      (∀ n, instrAt s.g = .error n → step s = .next (takeTrap s { code := if n = 5 then 2 else 1, detail := n }))) ∧
  (∀ (s : State) (e : Instr) (l : List Turn), s.agenda = .event e :: l → isEvent e = true → retraining s = none → step s = exec e { s with agenda := l }) ∧
  (∀ (s : State) (k : Nat), s.agenda = [] → s.thermalTrip = false → s.boot = .running → retraining s = some k → step s = exec (.channelRetrainDone k) s)

/-- Past an instruction of n words a group stands at the next word of its clause, or before the header after it (R26), with P and
M clear (R225), and keeps every register, flag, lane, stack and count of draws. -/
def Obligations.AdvanceMovesOn : Prop :=
  ∀ (h : Group) (n : Nat),
    (h.off + n < h.clause.length → (advance h n).pos = h.pos ∧ (advance h n).off = h.off + n ∧ (advance h n).phase = h.phase) ∧
    (h.clause.length ≤ h.off + n → (advance h n).pos = h.pos + 4 * h.clause.length ∧ (advance h n).off = 0 ∧ (advance h n).phase = .fetch) ∧
    (advance h n).p = 0 ∧ (advance h n).m = 0 ∧ (advance h n).regs = h.regs ∧ (advance h n).regPoison = h.regPoison ∧
    (advance h n).flags = h.flags ∧ (advance h n).srseq = h.srseq ∧ (advance h n).active = h.active ∧ (advance h n).rc = h.rc ∧
    (advance h n).stq = h.stq ∧ (advance h n).loads = h.loads ∧ (advance h n).hnd = h.hnd ∧ (advance h n).trec = h.trec

/-- An event of a group acts on the group it names as it acts on the issuing group, wherever the group stands. That an event names its group by an argument is the model's choice (log 1). -/
def Obligations.GroupEventsActOnTheirGroup : Prop :=
  ∀ (s : State) (g : Nat), ∀ e ∈ [Instr.clauseFetch g, .waitMaskSatisfied g, .storeQueueDrain g, .loadDataReturn g, .tagWaitSatisfied g, .tagTimeout g,
      .issueStallEnd g, .tileBind g, .groupStop g],
    exec e s = .next (withGroup s g (fun t => outState t (exec e t)))

-- invariants and memory (08, 19)

/-- Every step from a state whose memory is in canonical form leaves it so. -/
def Obligations.StepKeepsMemoryCanonical : Prop :=
  ∀ s t : State, MemoryCanonical s → step s = .next t → MemoryCanonical t
/-- Memory is canonical after reset. -/
def Obligations.ResetMemoryCanonical : Prop := MemoryCanonical State.reset

/-- A write is read back under its key, and every other byte under that key reads as before (R377). -/
def Obligations.MemoryReadsBack : Prop :=
  ∀ (s : State) (key a : Nat) (bs : List Byte) (b : Nat),
    memByte (memWrite s key a bs) key b = if a ≤ b ∧ b < a + bs.length then bs.getD (b - a) 0 else memByte s key b

-- 05: the register instructions

/-- ADD, SUB, MUL, MULH, MAD, MIN, MAX, NEG, ABS and the immediate ADD and MUL complete with their exact results, wrapped or clamped, and the twelve integer
compares with 0 or 1; they change nothing else (R97 to R99, R104). -/
def Obligations.IntegerInstructionsComplete : Prop :=
  ∀ i e, intSpec i = some e ∨ compareSpec i = some e → e.Completes i

/-- AND, OR, XOR, ANDN, ORN, XNOR and their immediates, the shifts, rotations, counts, reversals and bit fields complete and change nothing else (R100 to R103). -/
def Obligations.BitInstructionsComplete : Prop :=
  ∀ i e, bitSpec i = some e ∨ shiftSpec i = some e → e.Completes i

/-- SEL, MOV, LEA, the immediate MOV, PACK, MOVS and RNG. -/
def Obligations.MovesComplete : Prop := ∀ i e, moveSpec i = some e → e.Completes i
/-- The floating-point arithmetic, sign, rounding and compare instructions complete, element by element, with the flags they raise (R108 to R112). What their results are: the value that
bits hold in each format (R70, R71) and under FTZ (R78); of a sum, a difference, a product and a fused product and sum of numbers, the exact result rounded once, with the sign that an exact
zero takes (R74, R75, R77, R78); of NaNs and infinities, the canonical NaN or an infinity, and invalid (R71, R72, R79); RND gives an integer (R112). -/
def Obligations.FloatInstructionsComplete : Prop :=
  (∀ i e, floatSpec i = some e ∨ floatCompareSpec i = some e → e.Completes i) ∧
  (∀ f ∈ formats, ∀ x, x < 2 ^ f.bitsN →
    let m : Nat := x % 2 ^ f.fb
    let e : Nat := x / 2 ^ f.fb % 2 ^ f.eb
    let neg : Bool := decide (2 ^ (f.eb + f.fb) ≤ x)
    (e < f.emax ∨ (f.noInf = true ∧ m + 1 ≠ 2 ^ f.fb) → ∃ p, f.read x = .fin neg p ∧ 0 < p.den ∧
      p.val = (if neg then -1 else 1) * (if e = 0 then (m : ℚ) * (2 : ℚ) ^ (1 - (f.bias : ℤ) - f.fb) else ((2 ^ f.fb + m : ℕ) : ℚ) * (2 : ℚ) ^ ((e : ℤ) - f.bias - f.fb))) ∧
    (e = f.emax → f.noInf = false → f.read x = if m = 0 then .inf neg else .nan (decide (m < 2 ^ (f.fb - 1)))) ∧ (e = f.emax → f.noInf = true → m + 1 = 2 ^ f.fb → f.read x = .nan false) ∧
    ftzIn false f x = x ∧ ftzIn true f x = if e = 0 ∧ neg = true then 2 ^ (f.eb + f.fb) else if e = 0 then 0 else x) ∧
  ([fF32.cnan, fF16.cnan, fBF16.cnan, fE4M3.cnan, fE5M2.cnan] = [0x7FC00000, 0x7E00, 0x7FC0, 0x7F, 0x7E]) ∧
  (∀ f ∈ formats, ∀ (r : Rnd) (z m n k : Bool) (x y w : Q), 0 < x.den → 0 < y.den → 0 < w.den →
    (x.val + y.val ≠ 0 → RoundsTo f r false z (x.val + y.val) (addR f (RMode.of r) z (.fin m x) (.fin n y))) ∧
    (x.val + y.val = 0 → addR f (RMode.of r) z (.fin m x) (.fin n y) = ⟨f.signBit (if m = n ∧ x.val = 0 then m else decide (r = .rdn)), 0⟩) ∧
    (negV (.fin n y) = .fin (!n) y.neg ∧ y.neg.val = -y.val) ∧
    (x.val * y.val ≠ 0 → RoundsTo f r false z (x.val * y.val) (mulR f (RMode.of r) z (.fin m x) (.fin n y))) ∧
    (x.val * y.val = 0 → mulR f (RMode.of r) z (.fin m x) (.fin n y) = ⟨f.signBit (m != n), 0⟩) ∧
    (x.val * y.val + w.val ≠ 0 → RoundsTo f r false z (x.val * y.val + w.val) (fmaR f (RMode.of r) z (.fin m x) (.fin n y) (.fin k w))) ∧
    (x.val * y.val + w.val = 0 → fmaR f (RMode.of r) z (.fin m x) (.fin n y) (.fin k w) = ⟨f.signBit (if (m != n) = k ∧ w.val = 0 then k else decide (r = .rdn)), 0⟩)) ∧
  (∀ (f : Fmt) (r : Rnd) (z m n : Bool) (q : Q) (a b c : FVal),
    let quiet (l : List FVal) : Rounded := ⟨f.cnan, if l.any FVal.isSnan then fInvalid else 0⟩
    let invalid : Rounded := ⟨f.cnan, fInvalid⟩
    let inf (neg : Bool) : Rounded := ⟨f.infBits neg, 0⟩
    (a.isNan = true ∨ b.isNan = true → addR f (RMode.of r) z a b = quiet [a, b] ∧ mulR f (RMode.of r) z a b = quiet [a, b]) ∧
    (addR f (RMode.of r) z (.inf m) (.inf n) = (if m = n then inf m else invalid) ∧ addR f (RMode.of r) z (.inf m) (.fin n q) = inf m ∧ addR f (RMode.of r) z (.fin n q) (.inf m) = inf m) ∧
    (mulR f (RMode.of r) z (.inf m) (.inf n) = inf (m != n) ∧ mulR f (RMode.of r) z (.inf m) (.fin n q) = (if q.num = 0 then invalid else inf (m != n)) ∧
      mulR f (RMode.of r) z (.fin n q) (.inf m) = (if q.num = 0 then invalid else inf (n != m))) ∧
    let none_ : Prop := (a.isInf = true ∧ b.isZero = true) ∨ (a.isZero = true ∧ b.isInf = true)
    let nan : Prop := a.isNan = true ∨ b.isNan = true ∨ c.isNan = true
    (none_ → fmaR f (RMode.of r) z a b c = invalid) ∧ (¬ none_ → nan → fmaR f (RMode.of r) z a b c = quiet [a, b, c]) ∧
    (¬ none_ → ¬ nan → a.isInf = true ∨ b.isInf = true → fmaR f (RMode.of r) z a b c = if c = .inf (!(a.neg != b.neg)) then invalid else inf (a.neg != b.neg)) ∧
    (a.isNan = false → a.isInf = false → b.isNan = false → b.isInf = false → c = .inf n → fmaR f (RMode.of r) z a b c = inf n)) ∧
  (∀ f ∈ [fF32, fF16, fBF16], ∀ (r : Rnd) (neg : Bool) (x : Nat) (q : Q), f.read x = .fin neg q → q.num ≠ 0 →
    ∃ (n : ℤ) (p : Q), RoundsInt r q.val n ∧ f.read (rndR f (RMode.of r) x).bits = .fin neg p ∧ p.val = n ∧ (rndR f (RMode.of r) x).flags = 0)

/-- The eight special functions, CVT, CVTS and CVTB complete (R113 to R116, R129). What conversions give: a number in a float format is rounded once, saturating where asked (R74, R75, R77, R78, R82), a NaN and
an infinity as R71 and R75 say; an integer from a float is rounded by the mode, and clamped or wrapped with invalid outside its range (R82). RCP rounds the exact quotient to nearest even (R113, R114). The model's choices among their values are the transcendental results, those of log 13, how a tiny value is rounded stochastically into a slot by CVTS and
CVTB (log 22), and the result and flags of a block element with E = 254 and the least mantissa, a free value with no flag (log 49). -/
def Obligations.SpecialsAndConversionsComplete : Prop :=
  (∀ i e, specialSpec i = some e ∨ convertSpec i = some e → e.Completes i) ∧
  (∀ f ∈ formats, ∀ (r : Rnd) (sat z neg sn : Bool) (q : Q), 0 < q.den →
    (q.val ≠ 0 → RoundsTo f r sat z q.val (convF f (RMode.of r) sat z (.fin neg q))) ∧ (q.val = 0 → convF f (RMode.of r) sat z (.fin neg q) = ⟨f.signBit neg, 0⟩) ∧
    convF f (RMode.of r) sat z (.nan sn) = ⟨f.cnan, if sn then fInvalid else 0⟩ ∧
    convF f (RMode.of r) sat z (.inf neg) = if f = fE4M3 then (if sat then ⟨f.signBit neg + f.maxBits, 0⟩ else ⟨f.cnan, fInvalid⟩) else ⟨f.infBits neg, 0⟩) ∧
  (∀ n ∈ [8, 16, 32, 64], ∀ (sg sat neg sn : Bool) (r : Rnd) (q : Q), 0 < q.den →
    let lo : ℤ := if sg then -2 ^ (n - 1) else 0
    let hi : ℤ := if sg then 2 ^ (n - 1) - 1 else 2 ^ n - 1
    let word (k : ℤ) : Nat := (k % 2 ^ n).toNat
    (∃ k : ℤ, RoundsInt r q.val k ∧ convI n sg (RMode.of r) sat (.fin neg q) =
      if lo ≤ k ∧ k ≤ hi then ⟨word k, if (k : ℚ) = q.val then 0 else fInexact⟩ else ⟨word (if sat then (if k < lo then lo else hi) else k), fInvalid⟩) ∧
    convI n sg (RMode.of r) sat (.nan sn) = ⟨0, fInvalid⟩ ∧ convI n sg (RMode.of r) sat (.inf neg) = ⟨if sat then word (if neg then lo else hi) else 0, fInvalid⟩) ∧
  (∀ (dst src : CvtTy) (r : Rnd) (sat z : Bool) (x : Nat),
    (∀ f g, cvtKind src = .flt f → cvtKind dst = .flt g → let y := convF g (RMode.of r) sat (z && decide (dst = .f32)) (f.read (ftzIn (z && decide (src = .f32)) f (x % 2 ^ f.bitsN)))
      cvtOne dst src (RMode.of r) sat z x = (y.bits, y.flags)) ∧
    (∀ f n sg, cvtKind src = .flt f → cvtKind dst = .int n sg → let y := convI n sg (RMode.of r) sat (f.read (ftzIn (z && decide (src = .f32)) f (x % 2 ^ f.bitsN)))
      (cvtOne dst src (RMode.of r) sat z x).2 = y.flags ∧ (cvtOne dst src (RMode.of r) sat z x).1 % 2 ^ n = y.bits)) ∧
  (∀ f ∈ [fF32, fF16], ∀ (z neg : Bool) (x : Nat) (q : Q), f.read x = .fin neg q →
    (q.num ≠ 0 → RoundsTo f .rne false z (1 / q.val) (rcpR f z x)) ∧ (q.num = 0 → rcpR f z x = ⟨f.infBits neg, fDivZero⟩))

/-- The four shuffles, the four votes, RED, SCAN and XSCAN complete (R122 to R128). The value of a tree is that of the node at its root, whose leaves are the lanes of the set, each node combining its two
children where both are present (R122, R126), and a NaN that comes out is the canonical one; a flag is raised where a node raises it, and invalid where a leaf is a signalling NaN (R128). A float sum at a node is
rounded once to nearest even (R74, R126), its operands and its result under FTZ (R78). That a float leaf reads under FTZ also where it passes through unchanged is the model's reading (log 49). -/
def Obligations.CrossLaneComplete : Prop :=
  (∀ i e, shuffleSpec i = some e ∨ voteSpec i = some e ∨ treeSpec i = some e → e.Completes i) ∧
  (∀ (h : Group) (op : RedOp) (a : Src) (set : List Nat),
    let z := h.ctx.kernel.ftz
    let flt : Bool := decide (op = .addF32 ∨ op = .minF32 ∨ op = .maxF32)
    let leaf (i : Nat) : Option Nat := if i < 64 ∧ i ∈ set then some (if op = .add64 then (src64 h false a i).toNat else if flt then ftzIn z fF32 (src32 h a i).toNat else (src32 h a i).toNat) else none
    let root : Nat := (treeNode op z leaf 6 0).getD (identity op)
    (treeValue h op a set).1 = (if flt = true ∧ (fF32.read root).isNan = true then 0x7FC00000 else root) ∧
    ∀ b, b < 5 → ((treeValue h op a set).2.getLsbD b = true ↔
      (∃ k i x y, k < 6 ∧ i < 2 ^ (5 - k) ∧ treeNode op z leaf k (2 * i) = some x ∧ treeNode op z leaf k (2 * i + 1) = some y ∧ (combine op z x y).2.getLsbD b = true) ∨
      (b = 0 ∧ flt = true ∧ ∃ i ∈ set, (fF32.read (src32 h a i).toNat).isSnan = true))) ∧
  (∀ (z m n : Bool) (x y : Nat) (p q : Q), fF32.read (ftzIn z fF32 x) = .fin m p → fF32.read (ftzIn z fF32 y) = .fin n q →
    let c : Rounded := ⟨(combine .addF32 z x y).1, (combine .addF32 z x y).2⟩
    (p.val + q.val ≠ 0 → RoundsTo fF32 .rne false z (p.val + q.val) c) ∧ (p.val + q.val = 0 → c = ⟨fF32.signBit (m && n && decide (p.val = 0)), 0⟩))

/-- What every register instruction does in its other case: POISON names the lanes that read an error (R96, R400), and with the
operands clean an enabled flag traps FP, no destination written (R80, R94); while a tester request of the
group is to write the trap's pair, it waits with no flag raised, the model's reading of R339 (log 77). -/
def Obligations.RegisterInstructionsTrap : Prop :=
  ∀ i e, regSpec i = some e → ∀ s : State, e.able s →
    (∀ l ∈ activeLanes s.g, ∀ r ∈ e.reads, smGet false s.g.regPoison (regKey r l) = true →
      exec i s = .next (takeTrap s { code := 6, lanes := maskOf (poisonLanes s.g e.reads (activeLanes s.g)) })) ∧
    (e.clean s → ¬ e.untrapped s →
      (trapWaits s = true → exec i s = .next { s with g := { s.g with stalled := true } }) ∧
      (trapWaits s = false → ∃ fl, (∀ b, fl.getLsbD b = (activeLanes s.g).any (fun l => (e.raised s l).getLsbD b)) ∧
        exec i s = .next (takeTrap { s with g := { s.g with flags := s.g.flags ||| fl } }
          { code := 15, detail := fl.toNat, lanes := maskOf ((activeLanes s.g).filter (fun l => e.raised s l &&& s.g.ctx.kernel.fptrap ≠ 0)) })))

/-- What each operand code gives a source of 32 and of 64 bits (R36): LANE, GRPIX and TEAMIX are extended with zeros. And what ZERO gives a field that is read and written (R38). -/
def Obligations.SourceOperands : Prop :=
  ∀ (h : Group) (l r : Nat) (w : Word) (x : DWord) (sgn : Bool),
    (src32 h (.reg r) l = gReg h r l ∧ src64 h sgn (.reg r) l = gReg h (r + 1) l ++ gReg h r l) ∧
    (src32 h .zero l = 0 ∧ src64 h sgn .zero l = 0 ∧ dst32 h .zero l = 0 ∧ dst64 h .zero l = 0) ∧
    (src32 h .lane l = BitVec.ofNat 32 l ∧ src64 h sgn .lane l = BitVec.ofNat 64 l) ∧
    (src32 h .grpix l = BitVec.ofNat 32 h.grpix ∧ src32 h .teamix l = BitVec.ofNat 32 h.teamix) ∧
    (h.grpix < 4294967296 → src64 h sgn .grpix l = (src32 h .grpix l).setWidth 64) ∧ (h.teamix < 4294967296 → src64 h sgn .teamix l = (src32 h .teamix l).setWidth 64) ∧
    (src32 h (.lit32 w) l = w ∧ src64 h true (.lit32 w) l = w.signExtend 64 ∧ src64 h false (.lit32 w) l = w.setWidth 64 ∧ src64 h sgn (.lit64 x) l = x)

-- 10: memory instructions

/-- LD and its signed forms complete, at every ord, scope and space: the bytes each lane reads stand in a pending load of the group, a
signed byte or halfword extended, an unsigned one with zeros; no register, flag or byte of memory changes but by the ordering that ord asks for. A lane reads the bytes that stand at its address in its space
(R161, R200, R204, R371), those of its own queued store first (R176); one that has read before the other lanes keeps what it read (the model's reading of R185, log 24). -/
def Obligations.LoadsComplete : Prop :=
  (∀ (s : State) (byp : Bool) (sp : Space) (n l addr : Nat), s.g.early = [] →
    (s.g.stq = [] → ReadsAt s byp sp n l addr (loadLane s byp sp n l addr)) ∧
    (∀ q e, s.g.stq = q ++ [e] → e.lane = l → e.sp = sp → e.data.length = n → (sp = .s ∨ sp = .rg ∨ sp = .c) ∧ e.addr = addr ∨ sp = .g ∧ e.df = false ∧ (∃ p, translate s s.g.ctx.fn addr .r = .ok p ∧ p.spa = e.addr) →
      loadLane s byp sp n l addr = some e.data)) ∧
  (∀ i e, loadSpec i = some e → ∀ bs : List Byte, bs.length = e.n →
    (∀ t a o sc sp, i = .ldSigned t a false o sc sp → e.words bs = [BitVec.ofInt 32 (if leNat bs < 128 then leNat bs else (leNat bs : ℤ) - 256)]) ∧
    (∀ t a o sc sp, i = .ldSigned t a true o sc sp → e.words bs = [BitVec.ofInt 32 (if leNat bs < 32768 then leNat bs else (leNat bs : ℤ) - 65536)]) ∧
    (∀ t a sz o sc sp, i = .ld t a sz o sc sp → (e.words bs).length = (e.n + 3) / 4 ∧ ∀ j, j < (e.n + 3) / 4 → ∀ k, k < 4 → ((e.words bs).getD j 0).extractLsb' (8 * k) 8 = bs.getD (4 * j + k) 0)) ∧
  ∀ i e, loadSpec i = some e → ∀ (s : State) (bytes : Nat → List Byte), readsClean s (srcRegs e.a (addrWords e.sp)) (activeLanes s.g) →
    unheld s (accessIvs e.sp e.n false (laneAddrs s.g e.a e.sp)) → (∀ v ∈ [s, before s e.o e.sc], accessOk v e.sp e.n e.n .r (laneAddrs s.g e.a e.sp)) → orderable s e.o e.sc →
    (∀ l ∈ activeLanes s.g, loadLane (before s e.o e.sc) (bypasses e.o e.sc) e.sp e.n l (laneAddr s.g e.a e.sp l) = some (bytes l)) →
    ∃ u, exec i s = .next u ∧
      u.g = advance { (before s e.o e.sc).g with loads := s.g.loads ++
        [{ writes := loadWrites e.t (activeLanes s.g) (fun l => e.words (bytes l)), holds := dstRegs e.t ((e.n + 3) / 4) }] } (1 + litsOf e.a) ∧
      u = { before s e.o e.sc with g := u.g, l1 := u.l1 } ∧ (∀ r l, gReg u.g r l = gReg s.g r l) ∧ u.g.flags = s.g.flags ∧
      (∀ key b, memByte u key b = memByte (before s e.o e.sc) key b) ∧ (e.o = .rlx ∨ e.o = .acq → ∀ key b, memByte u key b = memByte s key b)

/-- LOAD_DATA_RETURN gives the oldest load's words to their registers, and changes no other register, flag or byte of memory (R204); where the instruction at the group's
position waited for these registers alone, a wait has completed (R417).
STORE_QUEUE_DRAIN takes the oldest store out of the queue (R168, R177): a scratchpad or region word, or the chip scratchpad as far as it reaches, then
holds its bytes and every other byte as before; a store to memory is read back through the core's L1, and every other byte under its key as before. -/
def Obligations.MemoryEventsComplete : Prop :=
  (∀ (s : State) (x : Load) (rest : List Load), s.g.loads = x :: rest →
      ∃ t, exec (.loadDataReturn s.g.id) s = .next t ∧ t = { s with g := { s.g with loads := rest, regs := t.g.regs, regPoison := t.g.regPoison, idle := t.g.idle } } ∧
        t.g.idle = (if s.g.phase = .issue ∧ registerWait s s.g = true ∧ registerWait s { s.g with loads := rest } = false then 0 else s.g.idle) ∧
        (∀ r l, gReg t.g r l = (lastWrite x.writes (regKey r l)).getD (gReg s.g r l)) ∧ (∀ key b, memByte t key b = memByte s key b)) ∧
  (∀ (s : State) (e : StEntry) (rest : List StEntry), s.g.stq = e :: rest →
      ∃ t, exec (.storeQueueDrain s.g.id) s = .next t ∧ t.g = { s.g with stq := rest } ∧
        (∀ rg : Bool, e.sp = (if rg then .rg else .s) → (getTeam s s.g.team).isSome →
          ∀ a, smGet 0 (sramOf t t.g rg).bytes a = if e.addr ≤ a ∧ a < e.addr + e.data.length then e.data.getD (a - e.addr) 0 else smGet 0 (sramOf s s.g rg).bytes a) ∧
        (e.sp = .c → s.g.ctx.fn < s.fns.length → e.addr + e.data.length ≤ chipExtent (getFn s s.g.ctx.fn) →
          ∀ a, smGet 0 (getFn t s.g.ctx.fn).chip a = if e.addr ≤ a ∧ a < e.addr + e.data.length then e.data.getD (a - e.addr) 0 else smGet 0 (getFn s s.g.ctx.fn).chip a) ∧
        (e.sp = .s ∨ e.sp = .rg ∨ e.sp = .c → ∀ key b, memByte t key b = memByte s key b) ∧
        (e.sp = .g ∨ e.sp = .p → e.df = false → l1Whole s → l1Quiet s s.g.core e.key e.addr e.data.length →
          ∀ a, l1Byte t s.g.core e.key a false = if e.addr ≤ a ∧ a < e.addr + e.data.length then some (e.data.getD (a - e.addr) 0) else l1Byte s s.g.core e.key a false))

/-- ST completes at every ord, scope and space: each active lane's bytes join the store queue in units of 8 bytes or fewer (R187), at the address the lane
presents, and ord sc then drains it. No register, flag or byte of memory changes with ord rlx. -/
def Obligations.StoresComplete : Prop :=
  ∀ (s : State) (t a : Src) (sz : Sz) (o : MOrd) (sc : Scope) (sp : Space) (n : Nat), n = 2 ^ encSz sz →
    readsClean s (srcRegs t ((n + 3) / 4) ++ srcRegs a (addrWords sp)) (activeLanes s.g) →
    unheld s (accessIvs sp n true (laneAddrs s.g a sp)) → (∀ v ∈ [s, before s o sc], accessOk v sp n n .w (laneAddrs s.g a sp)) → orderable s o sc →
    ∃ q v, q = (activeLanes s.g).flatMap (fun l => storeEntries l ((List.range n).map (storeByte s.g t l)) ((partsD (before s o sc) sp l (laneAddr s.g a sp l) n .w).flatMap atomicUnits)) ∧
      v = { before s o sc with g := { (before s o sc).g with stq := (before s o sc).g.stq ++ q } } ∧
      exec (.st t a sz o sc sp) s = .next { after v o sc with g := advance (after v o sc).g (1 + litsOf a + litsOf t) } ∧
      (o = .rlx → after v o sc = { s with g := { s.g with stq := s.g.stq ++ q } } ∧ ∀ key b, memByte (after v o sc) key b = memByte s key b)

/-- LDM and STM complete when nothing stops them between their units (R208, R209): from register P on, LDM's registers hold the words at
their addresses and STM's words join the store queue, unit by unit, lane by lane. The word at an address is the four bytes that stand there in its space (R161, R200, R371). -/
def Obligations.TransfersComplete : Prop :=
  (∀ (s : State) (sp : Space) (l addr : Nat), s.g.stq = [] → ReadsAt s false sp 4 l addr (loadParts s l false (partsD s sp l addr 4 .r))) ∧
  ∀ (s : State) (d : Dst) (a : Src) (count k0 : Nat) (sp : Space), 1 ≤ count → count ≤ 32 → s.g.p = 8 * k0 → s.g.preempt = false → s.agenda = [] →
    (readsClean s (srcRegs a (addrWords sp)) (activeLanes s.g) → unheld s (accessIvs sp (4 * count) false (laneAddrs s.g a sp)) →
      (∀ u, k0 ≤ u → 8 * u < count → unitCheck s true sp (8 * u) (min 8 (count - 8 * u)) (laneAddrs s.g a sp) = none) →
      ∃ t, exec (.ldm d a count sp) s = .next t ∧
        t = { s with g := advance { s.g with regs := t.g.regs, regPoison := t.g.regPoison } (1 + litsOf a), l1 := t.l1 } ∧
        (∀ r l, l < 64 → gReg t.g r l = match d with
          | .zero => gReg s.g r l
          | .reg k => if l ∈ activeLanes s.g ∧ k + 8 * k0 ≤ r ∧ r < k + count then
              BitVec.ofNat 32 (leNat ((loadParts s l false (partsD s sp l (laneAddr s.g a sp l + 4 * (r - k)) 4 .r)).getD [])) else gReg s.g r l) ∧
        (∀ key b, memByte t key b = memByte s key b)) ∧
    (readsClean s (srcRegs a (addrWords sp) ++ dstRegs d count) (activeLanes s.g) → unheld s (accessIvs sp (4 * count) true (laneAddrs s.g a sp)) →
      (∀ u, k0 ≤ u → 8 * u < count → unitCheck s false sp (8 * u) (min 8 (count - 8 * u)) (laneAddrs s.g a sp) = none) →
      ∃ t, exec (.stm d a count sp) s = .next t ∧
        t = { s with g := advance { s.g with stq := s.g.stq ++ (List.range ((count + 7) / 8 - k0)).flatMap (fun v => (activeLanes s.g).flatMap (fun l =>
          (List.range (min 8 (count - 8 * (k0 + v)))).flatMap (fun j => storeEntries l (bytesOfWord (match d with | .zero => 0 | .reg k => gReg s.g (k + 8 * (k0 + v) + j) l))
            (partsD s sp l (laneAddr s.g a sp l + 4 * (8 * (k0 + v) + j)) 4 .w)))) } (1 + litsOf a) } ∧
        (∀ key b, memByte t key b = memByte s key b))

/-- LDF, LDFE and STEF complete when every active lane's word meets its condition, LDFE and STEF when no two lanes name one word (R211): LDF and LDFE return the words,
LDFE empties them, STEF stores and fills them. A lane whose word does not meet the condition makes the group wait at the instruction, that lane outside M.
SETF and SETE set the tags of the words that the active lanes name, TRD reads them, each after the group's queued stores where one of those is to such a word; no other word changes (R213).
These three, and the tagged accesses, act on the state that those stores leave: that they drain so is the model's reading of R176 and R191 (log 31). That SETF, SETE and TRD complete also behind an un-retired command or copy of their own
group is the model's choice (log 60). -/
def Obligations.TagOperationsComplete : Prop :=
  (∀ (s s' : State) (op : TagOp) (a : Src) (o : MOrd) (sc : Scope) (rg : Bool) (sp : Space), TagReady s op a o sc rg sp → s' = tagState s op a o sc sp →
      let word (l : Nat) : Word := BitVec.ofNat 32 (leNat (sramRead (sramOf s' s.g rg) (laneAddr s.g a sp l) 4))
      let full (t : State) (k : Nat) : Bool := tagFull (sramOf t s.g rg) (4 * k)
      let named (k : Nat) : Prop := ∃ l ∈ activeLanes s.g, laneAddr s.g a sp l / 4 = k
      ((op ≠ .ldf → ∀ l ∈ activeLanes s.g, ∀ j ∈ activeLanes s.g, laneAddr s.g a sp l / 4 = laneAddr s.g a sp j / 4 → l = j) →
        (∀ l ∈ activeLanes s.g, full s' (laneAddr s.g a sp l / 4) = decide (op ≠ .stef)) →
        (op = .ldf → ∀ d, ∃ v, exec (.ldf d a o sc sp) s = .next { after v o sc with g := advance (after v o sc).g (1 + litsOf a) } ∧
          v = { s' with g := { s'.g with regs := v.g.regs, regPoison := v.g.regPoison, m := v.g.m } } ∧ ∀ r l, l < 64 → gReg v.g r l = wrote s.g d (fun l => [word l]) r l) ∧
        (op = .ldfe → ∀ d, ∃ v, exec (.ldfe d a o sc sp) s = .next { after v o sc with g := advance (after v o sc).g (1 + litsOf a) } ∧
          v = { s' with g := { s'.g with regs := v.g.regs, regPoison := v.g.regPoison, m := v.g.m }, teams := v.teams } ∧ SramOnly s' v rg ∧
          (∀ r l, l < 64 → gReg v.g r l = wrote s.g d (fun l => [word l]) r l) ∧ (sramOf v s.g rg).bytes = (sramOf s' s.g rg).bytes ∧
          ∀ k, (named k → full v k = false) ∧ (¬ named k → full v k = full s' k)) ∧
        (op = .stef → ∀ x, readsClean s (srcRegs x 1) (activeLanes s.g) → ∃ v, exec (.stef x a o sc sp) s = .next { after v o sc with g := advance (after v o sc).g (1 + litsOf a + litsOf x) } ∧
          v = { s' with g := { s'.g with m := v.g.m }, teams := v.teams } ∧ SramOnly s' v rg ∧ (∀ k, (named k → full v k = true) ∧ (¬ named k → full v k = full s' k)) ∧
          (∀ l ∈ activeLanes s.g, sramRead (sramOf v s.g rg) (laneAddr s.g a sp l) 4 = bytesOfWord (src32 s.g x l)) ∧
          ∀ b, ¬ named (b / 4) → smGet 0 (sramOf v s.g rg).bytes b = smGet 0 (sramOf s' s.g rg).bytes b)) ∧
      (∀ i l d x, i = .ldf d a o sc sp ∧ op = .ldf ∨ i = .ldfe d a o sc sp ∧ op = .ldfe ∨ i = .stef x a o sc sp ∧ op = .stef ∧ readsClean s (srcRegs x 1) (activeLanes s.g) →
        l ∈ activeLanes s.g → l < 64 → full s' (laneAddr s.g a sp l / 4) = decide (op = .stef) →
        ∃ v, exec i s = .next v ∧ v.g.tagWait.isSome ∧ v.g.pos = s.g.pos ∧ v.g.off = s.g.off ∧ v.g.phase = s.g.phase ∧ v.g.m.getLsbD l = false)) ∧
  (∀ (s : State) (a : Src) (rg : Bool) (sp : Space), sp = (if rg then .rg else .s) → readsClean s (srcRegs a 1) (activeLanes s.g) → (getTeam s s.g.team).isSome →
      (∀ full : Bool, accessOk s sp 4 4 .w (laneAddrs s.g a sp) →
        let u := if storeTo s sp (laneAddrs s.g a sp) then drainStq s else s
        ∃ t, exec (if full then .setf a rg else .sete a rg) s = .next t ∧ t = { u with g := advance u.g (1 + litsOf a), teams := t.teams } ∧ SramOnly u t rg ∧
          (sramOf t s.g rg).bytes = (sramOf u s.g rg).bytes ∧ (sramOf t s.g rg).poison = (sramOf u s.g rg).poison ∧
          ∀ k, tagFull (sramOf t s.g rg) (4 * k) = if ∃ l ∈ activeLanes s.g, laneAddr s.g a sp l / 4 = k then full else tagFull (sramOf u s.g rg) (4 * k)) ∧
      (∀ d, accessOk s sp 4 4 .r (laneAddrs s.g a sp) →
        let u := if storeTo s sp (laneAddrs s.g a sp) then drainStq s else s
        ∃ t, exec (.trd d a rg) s = .next t ∧ t = { u with g := advance { u.g with regs := t.g.regs, regPoison := t.g.regPoison } (1 + litsOf a) } ∧
          ∀ r l, l < 64 → gReg t.g r l = wrote s.g d (fun l => [if tagFull (sramOf u s.g rg) (laneAddr s.g a sp l) then 1 else 0]) r l))

/-- The twelve atomics complete: lane after lane reads, combines, writes and returns the old value, between what ord asks for before and after (R215 to R222).
An atomic's place in a scratchpad or region memory: the old value is what the bytes read, the bytes are the new ones, and every other byte and every tag
stands; an error in it stops the lane. In the chip scratchpad it is the partition's bytes at that address, and in space g those of the page, under its key, after the dirty bytes that a core holds of the sector
have been recalled (R220); no other byte under that key changes, and an error there stops the lane (R221). Lanes in M have performed and are left out (R221). -/
def Obligations.AtomicsComplete : Prop :=
  (∀ i e, atomicSpec i = some e → ∀ s u : State, readsClean s (srcRegs e.a (addrWords e.sp) ++ dstRegs e.t e.reads) (lanesLeft s.g) →
      unheld s (accessIvs e.sp e.n true (addrsLeft s.g e.a e.sp)) → orderable s e.o e.sc →
      (∀ v ∈ [s, drainStq (before s e.o e.sc)], accessOk v e.sp e.n e.n .rw (addrsLeft s.g e.a e.sp) ∧
        (e.sp = .g → e.host = false → ∀ l ∈ lanesLeft s.g, hostPage v (laneAddr s.g e.a .g l) = false)) →
      e.performs (addrsLeft s.g e.a e.sp) (drainStq (before s e.o e.sc)) u →
      exec i s = .next { after u e.o e.sc with g := advance (after u e.o e.sc).g (1 + litsOf e.a) }) ∧
  (∀ (s : State) (a n : Nat) (f : Nat → List Byte) (rg : Bool), (getTeam s s.g.team).isSome → (∀ y, (f y).length = n) →
      (sramPoisoned (sramOf s s.g rg) a n = true → atomicPlace s (if rg then .rg else .s) a n f = .error (⟨6, 0⟩, s)) ∧
      (sramPoisoned (sramOf s s.g rg) a n = false → ∃ v, atomicPlace s (if rg then .rg else .s) a n f = .ok (leNat (sramRead (sramOf s s.g rg) a n), v) ∧
        v = { s with teams := v.teams } ∧ (sramOf v v.g rg).full = (sramOf s s.g rg).full ∧
        ∀ b, smGet 0 (sramOf v v.g rg).bytes b = if a ≤ b ∧ b < a + n then (f (leNat (sramRead (sramOf s s.g rg) a n))).getD (b - a) 0 else smGet 0 (sramOf s s.g rg).bytes b)) ∧
  (∀ (s : State) (a n : Nat) (f : Nat → List Byte) (p : Fn) (y : Nat), p = getFn s s.g.ctx.fn → s.g.ctx.fn < s.fns.length → (∀ y, (f y).length = n) → y = leNat ((List.range n).map (fun i => smGet 0 p.chip (a + i))) →
      (chipPoisoned p a n = true → atomicPlace s .c a n f = .error (⟨6, 0⟩, s)) ∧
      (chipPoisoned p a n = false → ∃ v, atomicPlace s .c a n f = .ok (y, v) ∧ v = { s with fns := v.fns } ∧ (∀ k, k ≠ s.g.ctx.fn → getFn v k = getFn s k) ∧
        ∀ b, smGet 0 (getFn v s.g.ctx.fn).chip b = if a ≤ b ∧ b < a + n then (f y).getD (b - a) 0 else smGet 0 p.chip b)) ∧
  (∀ (s : State) (a n : Nat) (f : Nat → List Byte) (q : Phys), translate s s.g.ctx.fn a .rw = .ok q → (∀ y, (f y).length = n) → 1 ≤ n → q.spa % 32 + n ≤ 32 →
      let dirty := s.l1.filter (fun x => decide (x.sec = q.spa / 32) && isDirty x)
      (dirty = [] → memPoisoned s q.spa n = true → atomicPlace s .g a n f = .error (⟨6, 0⟩, s)) ∧
      (∀ old : Nat → Byte, (dirty = [] ∧ (∀ b, old b = memByte s q.key b)) ∨ (∃ x, dirty = [x] ∧ x.key = q.key ∧ x.poison = false ∧
          ∀ b, old b = if b / 32 = q.spa / 32 ∧ x.dirty.getD (b % 32) false = true then x.data.getD (b % 32) 0 else memByte s q.key b) →
        memPoisoned s q.spa n = false → ∃ v, atomicPlace s .g a n f = .ok (leNat ((List.range n).map (fun i => old (q.spa + i))), v) ∧
          v = { s with mem := v.mem, memKey := v.memKey, poison := v.poison, l1 := v.l1 } ∧ (∀ x ∈ v.l1, x.sec = q.spa / 32 → isDirty x = false) ∧
          ∀ b, memByte v q.key b = if q.spa ≤ b ∧ b < q.spa + n then (f (leNat ((List.range n).map (fun i => old (q.spa + i))))).getD (b - q.spa) 0 else old b))

/-- FENCE completes once it may (R223): a release empties the group's store queue and leaves no dirty byte of its core that the scope covers: each stands in memory, under its
sector's key, and the sector's other bytes are as the drained stores left them (R168, R182); an
acquire leaves no clean copy; one that is sc does both, and empties the queue at every scope; it changes no register. With loads outstanding, one with acquire waits, and with a remote write of the group unacknowledged, one that
releases at sys scope does (R182). -/
def Obligations.FenceCompletes : Prop :=
  ∀ (s : State) (o : MOrd) (sc : Scope),
    let unanswered : Prop := sc = .sys ∧ ∃ c ∈ s.copies, c.group = some s.g.id ∧ c.awaiting = true
    (o = .rel ∨ s.g.loads = [] → o = .acq ∨ ¬ unanswered → ∃ t, exec (.fence o sc) s = .next t ∧ t.g = advance { s.g with stq := t.g.stq } 1 ∧
      (o = .rel → sc ≠ .grp → t.g.stq = []) ∧ (o = .sc → t.g.stq = []) ∧
      (o = .rel → scopeWide sc = true → ∀ x ∈ t.l1, x.core = s.g.core → covered sc x.sec = true → isDirty x = false) ∧
      (o = .rel ∨ o = .sc → scopeWide sc = true → ∀ x ∈ (drainStq s).l1, x.core = s.g.core → covered sc x.sec = true → (∀ y ∈ (drainStq s).l1, y.core = x.core → y.sec = x.sec → y = x) →
        ∀ i, i < 32 → memByte t x.key (32 * x.sec + i) = if x.dirty.getD i false then x.data.getD i 0 else memByte (drainStq s) x.key (32 * x.sec + i)) ∧
      (o = .acq → scopeWide sc = true → ∀ x ∈ t.l1, x.core = s.g.core → covered sc x.sec = true → isDirty x = true ∧ x.valid = false) ∧
      (o = .sc → scopeWide sc = true → ∀ x ∈ t.l1, x.core = s.g.core → covered sc x.sec = false)) ∧
    ((o ≠ .rel ∧ s.g.loads ≠ []) ∨ (o ≠ .acq ∧ unanswered) → exec (.fence o sc) s = .next { s with g := { s.g with waiting := .fence, stalled := true } })

/-- An access whose address fails a check of R160 traps, and names the lowest such lane's address: alignment first, then the 51 bits of a global
address, then the extent of its space, then its page; LD and ST take that trap. The detail of the second is the model's free value (log 14). A walk answers by the table of R376: an error in the
entry read, else the first check of the entry that applies, in the table's order, the root's being checked first; every node that it reads and every page that it gives lies in one window of the
function, under a key of its blocks (R372, R374), and an access that nothing cached translates finds that page, or PROTECTION with cause 4 where a permission of R371 lacks. -/
def Obligations.AddressChecksTrap : Prop :=
  (∀ (s : State) (fn va : Nat) (f : Fn), f = getFn s fn →
    ((∀ x, firstCheck (pointerChecks f false f.root) = some x → walk s fn va = .error x) ∧
      (firstCheck (pointerChecks f false f.root) = none → walk s fn va = walkFrom s f va 3 f.root)) ∧
    (∀ (ptr n a e : Nat), n < 3 → a = entSpa ptr + 8 * (va / 2 ^ (15 + 12 * n) % 4096) → e = leNat (memRead s (entKey ptr) a 8) →
      let checks := if bitOf e 1 then leafChecks f n e else pointerChecks f (n == 0) e
      (memPoisoned s a 8 = true → walkFrom s f va (n + 1) ptr = .error ⟨6, 7⟩) ∧
      (memPoisoned s a 8 = false → (∀ x, firstCheck checks = some x → walkFrom s f va (n + 1) ptr = .error x) ∧
        (firstCheck checks = none → walkFrom s f va (n + 1) ptr = if bitOf e 1 then .ok (e, n, a, entKey ptr) else walkFrom s f va n e))) ∧
    (∀ leaf lv a k, walk s fn va = .ok (leaf, lv, a, k) → lv < 3 ∧ leaf = leNat (memRead s k a 8) ∧
      (∃ w ∈ f.windows, w.1 ≤ entSpa leaf ∧ entSpa leaf + leafBytes lv leaf ≤ w.1 + w.2) ∧ f.keyBlocks.getLsbD (entKey leaf / 64) = true ∧
      (∃ w ∈ f.windows, w.1 ≤ a ∧ a + 8 ≤ w.1 + w.2) ∧ f.keyBlocks.getLsbD (k / 64) = true) ∧
    (∀ (p : Perm), va < 2251799813685248 → tlbFind s fn va = none →
      (∀ x, walk s fn va = .error x → translate s fn va p = .error x) ∧
      (∀ leaf lv r, walk s fn va = .ok (leaf, lv, r) →
        ((∃ b ∈ permBits p, bitOf leaf b = false) → translate s fn va p = .error ⟨5, 4⟩) ∧
        ((∀ b ∈ permBits p, bitOf leaf b = true) → ∃ q, translate s fn va p = .ok q ∧ q.leaf = leaf ∧ q.key = (if hostBase ≤ q.spa then 0 else entKey leaf) ∧
          q.spa = entSpa leaf + (if bitOf leaf 55 = true ∧ bitOf leaf 56 = true then 32768 else 0) + va % 2 ^ (15 + 12 * lv))))) ∧
  ∀ (s : State) (sp : Space) (n al : Nat) (p : Perm) (l : List (Nat × Nat)) (e : Nat × Nat) (rest : List (Nat × Nat)),
    (l.filter (fun x => x.2 % al ≠ 0) = e :: rest → accessCheck s sp n al p l = some { code := 3, addr := e.2, lanes := maskOf ((e :: rest).map (·.1)) }) ∧
    ((∀ x ∈ l, x.2 % al = 0) → sp = .g → l.filter (fun x => 2251799813685248 ≤ x.2) = e :: rest →
      accessCheck s sp n al p l = some { code := 4, detail := Config.addressCause, addr := e.2, lanes := maskOf ((e :: rest).map (·.1)) }) ∧
    ((∀ x ∈ l, x.2 % al = 0) → sp ≠ .g → l.filter (fun x => extent s sp < x.2 + n) = e :: rest →
      accessCheck s sp n al p l = some { code := 7, addr := e.2, lanes := maskOf ((e :: rest).map (·.1)) }) ∧
    (∀ x, (∀ y ∈ l, y.2 % al = 0 ∧ y.2 < 2251799813685248) → sp = .g → l.filter (fun y => !(translate s s.g.ctx.fn y.2 p).toBool) = e :: rest → translate s s.g.ctx.fn e.2 p = .error x →
      accessCheck s sp n al p l = some { code := x.code, detail := x.cause, addr := e.2, lanes := maskOf ((e :: rest).map (·.1)) }) ∧
    (∀ t a sz o sc x, readsClean s (srcRegs a (addrWords sp)) (activeLanes s.g) → unheld s (accessIvs sp (2 ^ encSz sz) false (laneAddrs s.g a sp)) →
      accessCheck s sp (2 ^ encSz sz) (2 ^ encSz sz) .r (laneAddrs s.g a sp) = some x → exec (.ld t a sz o sc sp) s = .next (takeTrap s x)) ∧
    (∀ t a sz o sc x, readsClean s (srcRegs t ((2 ^ encSz sz + 3) / 4) ++ srcRegs a (addrWords sp)) (activeLanes s.g) →
      unheld s (accessIvs sp (2 ^ encSz sz) true (laneAddrs s.g a sp)) →
      accessCheck s sp (2 ^ encSz sz) (2 ^ encSz sz) .w (laneAddrs s.g a sp) = some x → exec (.st t a sz o sc sp) s = .next (takeTrap s x))

-- 14: control

/-- BRA goes to its target, BRT and BRF there or past their clause by bit 0 of their register in the lowest active lane (R34, R294); a target that is no address faults where its clause is
fetched. CALL pushes the lanes and the return position, RET pops them (R298), spilling and filling as R279 and R280 say: CALL with the stack on chip full writes it out first, and traps when no block
is left or the write fails; RET that takes the last entry on chip reads a block back, RET that exposes a deferred entry recovers its join, and RET that leaves no lane goes to the current join or ends
the slot. RET on an empty stack or above a deferred entry traps. The detail of the fault is the model's free value (log 14). A group that has come to its current join arrives (R296): under a deferred entry the lanes that
went the other way go on behind the branch, the entry then holding the join, or with none of them live the group comes to the join again; under any other entry the stack loses it and its live lanes go on at the
join. Where a deferred entry that comes to the top does not give a join, a return, or an arrival with live lanes, takes DIVERGENCE with detail 2, or the fault of the read (R296, R297); that its trap waits for a tester request that writes the saved pair, with the effect of the
return or the arrival undone, is the model's reading (log 77). -/
def Obligations.BranchesComplete : Prop :=
  (∀ (s : State) (off : BitVec 21), (s.g.pos < 2251799813685248 → 0 ≤ (s.g.pos : Int) + 4 * off.toInt → (targetOf s.g off : Int) = s.g.pos + 4 * off.toInt) ∧
      exec (.bra off) s = .next { s with g := transfer s.g (targetOf s.g off) } ∧
      ∀ (c : Nat) (want : Bool), readsClean s [c] [firstLane s.g] →
        exec (if want then .brt c off else .brf c off) s = .next { s with g := transfer s.g (if (gReg s.g c (firstLane s.g)).getLsbD 0 = want then targetOf s.g off else afterBody s.g) }) ∧
  (∀ (s : State) (off : BitVec 21),
      (s.g.rc.length < 32 → exec (.call off) s = .next { s with g := transfer { s.g with rc := { mask := s.g.active, target := afterBody s.g, deferred := false } :: s.g.rc } (targetOf s.g off) }) ∧
      (32 ≤ s.g.rc.length → s.g.ctx.kernel.divblocks ≤ s.g.rcblocks → exec (.call off) s = .next (takeTrap s { code := 18 })) ∧
      (∀ t, 32 ≤ s.g.rc.length → s.g.rcblocks < s.g.ctx.kernel.divblocks →
        (spillWrite s 0 true (spillBase s.g + 512 * s.g.rcblocks) (s.g.rc.reverse.map rcBytes).flatten = (t, none) →
          exec (.call off) s = .next { t with g := transfer { t.g with rc := [{ mask := s.g.active, target := afterBody s.g, deferred := false }], rcblocks := t.g.rcblocks + 1 } (targetOf s.g off) }) ∧
        (∀ x a, spillWrite s 0 true (spillBase s.g + 512 * s.g.rcblocks) (s.g.rc.reverse.map rcBytes).flatten = (t, some (x, a)) →
          exec (.call off) s = .next (takeTrap t { code := x.code, detail := x.cause, addr := a }))) ∧
      (∀ e rest, s.g.rc = e :: rest → e.deferred = false →
        let live := e.mask &&& liveMask s.g
        let v (rc : List RcEntry) (n : Nat) : State := { s with g := transfer { s.g with rc := rc, rcblocks := n, active := live } e.target }
        let popped (rc : List RcEntry) (n : Nat) : Prop := (rc = rest ∧ n = s.g.rcblocks ∧ (rest = [] → n = 0)) ∨
          (rest = [] ∧ s.g.rcblocks = n + 1 ∧ ∃ b, spillRead s (firstLane s.g) (spillBase s.g + 512 * n) 512 = .ok b ∧ rc = ((List.range 32).map (fun i => rcOf ((b.drop (16 * i)).take 16))).reverse)
        (∀ rc n, popped rc n →
          ((∀ x ∈ rc.head?, x.deferred = false) → live ≠ 0 → exec .ret s = .next (v rc n)) ∧
          (live = 0 → (∀ x ∈ rc.head?, x.deferred = false → exec .ret s = .next { v rc n with g := transfer (v rc n).g x.target }) ∧ (rc = [] → exec .ret s = .next (slotEnds (v [] n)))) ∧
          (∀ x t c j nx, rc.head? = some x → x.deferred = true → readClause (icacheDrop (v rc n) s.g.core) x.target = .ok (t, c) → clauseJoin x.target c = some (j, nx) →
            let w : State := { t with g := { t.g with joinAt := j, joinNext := nx } }
            exec .ret s = .next (if live = 0 then { w with g := transfer w.g j } else w)) ∧
          (∀ x y, rc.head? = some x → x.deferred = true → live ≠ 0 → joinFault (v rc n) x.target = some y →
            exec .ret s = .next (if trapWaits (v rc n) = true then { s with g := { s.g with stalled := true } } else takeTrap (v rc n) y))) ∧
        (∀ n x a, rest = [] → s.g.rcblocks = n + 1 → spillRead s (firstLane s.g) (spillBase s.g + 512 * n) 512 = .error (x, a) →
          exec .ret s = .next (takeTrap s { code := x.code, detail := x.cause, addr := a }))) ∧
      (s.g.rc = [] ∨ (∃ e rest, s.g.rc = e :: rest ∧ e.deferred = true) → exec .ret s = .next (takeTrap s { code := 18, detail := 1 }))) ∧
  (∀ s : State, s.g.phase = .fetch → s.g.hollow = false → atJoin s.g = false → 2251799813685248 ≤ s.g.pos →
      exec (.clauseFetch s.g.id) s = .next (takeTrap s { code := 4, detail := Config.addressCause, addr := s.g.pos })) ∧
  (∀ (s : State) (e : RcEntry) (rest : List RcEntry), s.g.phase = .fetch → s.g.hollow = false → atJoin s.g = true → s.g.rc = e :: rest →
      let live := e.mask &&& liveMask s.g
      let left := live &&& ~~~ s.g.active
      let under : List RcEntry := { e with target := s.g.joinAt, deferred := false } :: rest
      (e.deferred = true → exec (.clauseFetch s.g.id) s = .next { s with g := if left = 0 then transfer { s.g with rc := under } s.g.joinAt else transfer { s.g with rc := under, active := left } s.g.joinNext }) ∧
      (e.deferred = false → ∀ rc n, (rc = rest ∧ n = s.g.rcblocks ∧ (rest = [] → n = 0)) ∨
          (rest = [] ∧ s.g.rcblocks = n + 1 ∧ ∃ b, spillRead s (firstLane s.g) (spillBase s.g + 512 * n) 512 = .ok b ∧ rc = ((List.range 32).map (fun i => rcOf ((b.drop (16 * i)).take 16))).reverse) →
        let v : State := { s with g := transfer { s.g with rc := rc, rcblocks := n, active := live } e.target }
        rcDepth v.g + 1 = rcDepth s.g ∧
        ((∀ x ∈ rc.head?, x.deferred = false) → live ≠ 0 → exec (.clauseFetch s.g.id) s = .next v) ∧
        (live = 0 → (∀ x ∈ rc.head?, x.deferred = false → exec (.clauseFetch s.g.id) s = .next { v with g := transfer v.g x.target }) ∧ (rc = [] → exec (.clauseFetch s.g.id) s = .next (slotEnds v))) ∧
        (∀ x t c j nx, rc.head? = some x → x.deferred = true → readClause (icacheDrop v s.g.core) x.target = .ok (t, c) → clauseJoin x.target c = some (j, nx) →
          let w : State := { t with g := { t.g with joinAt := j, joinNext := nx } }
          exec (.clauseFetch s.g.id) s = .next (if live = 0 then { w with g := transfer w.g j } else w)) ∧
        (∀ x y, rc.head? = some x → x.deferred = true → s.g.active ≠ 0 → live ≠ 0 → joinFault v x.target = some y →
          exec (.clauseFetch s.g.id) s = .next (if trapWaits v = true then { s with g := { s.g with stalled := true } } else takeTrap v y))))

/-- BRA always transfers; BRT transfers when bit 0 of its register in the lowest active lane is 1, BRF when it is 0, with every active lane, else the group goes on past the body (R294). JOIN has no effect of its own. DBRT and DBRF send every lane one way when all agree; else the lanes that take the branch go to its target and a
deferred entry with every active lane and the clause's position is pushed (R295): on chip while the stack there has room, else behind the block that it spills; with no block left, or where the
spill fails, the branch traps (R279, R280). -/
def Obligations.DivergenceCompletes : Prop :=
  ∀ (s : State) (off : BitVec 21) (c : Nat) (want : Bool), exec (.join off) s = .next { s with g := advance s.g 1 } ∧
    exec (.bra off) s = .next { s with g := transfer s.g (targetOf s.g off) } ∧
    (readsClean s [c] [firstLane s.g] →
      exec (if want then .brt c off else .brf c off) s = .next { s with g := transfer s.g (if (gReg s.g c (firstLane s.g)).getLsbD 0 = want then targetOf s.g off else afterBody s.g) }) ∧
    (readsClean s [c] (activeLanes s.g) →
      let i : Instr := if want then .dbrt c off else .dbrf c off
      let takes (l : Nat) : Prop := (gReg s.g c l).getLsbD 0 = want
      ((∀ l ∈ activeLanes s.g, ¬ takes l) → exec i s = .next { s with g := transfer s.g (afterBody s.g) }) ∧
      (activeLanes s.g ≠ [] → s.g.active &&& ~~~ fullMask (width s.g) = 0 → (∀ l ∈ activeLanes s.g, takes l) → exec i s = .next { s with g := transfer s.g (targetOf s.g off) }) ∧
      (∀ t j u, t = maskOf ((activeLanes s.g).filter (fun l => decide (takes l))) → t ≠ 0 → s.g.active &&& ~~~ t ≠ 0 → j = targetOf s.g (BitVec.ofNat 21 (s.g.clause.getD (s.g.off - 1) 0).toNat) →
        let e : RcEntry := { mask := s.g.active, target := s.g.pos, deferred := true }
        (s.g.rc.length < 32 → exec i s = .next { s with g := transfer { s.g with rc := e :: s.g.rc, active := t, joinAt := j, joinNext := afterBody s.g } (targetOf s.g off) }) ∧
        (32 ≤ s.g.rc.length → s.g.ctx.kernel.divblocks ≤ s.g.rcblocks → exec i s = .next (takeTrap s { code := 18 })) ∧
        (32 ≤ s.g.rc.length → s.g.rcblocks < s.g.ctx.kernel.divblocks →
          (spillWrite s 0 true (spillBase s.g + 512 * s.g.rcblocks) (s.g.rc.reverse.map rcBytes).flatten = (u, none) →
            exec i s = .next { u with g := transfer { u.g with rc := [e], rcblocks := u.g.rcblocks + 1, active := t, joinAt := j, joinNext := afterBody s.g } (targetOf s.g off) }) ∧
          (∀ x a, spillWrite s 0 true (spillBase s.g + 512 * s.g.rcblocks) (s.g.rc.reverse.map rcBytes).flatten = (u, some (x, a)) →
            exec i s = .next (takeTrap u { code := x.code, detail := x.cause, addr := a })))))

/-- EXIT waits for the group's stores, commands, copies, requests and hand-offs, and then takes an owed trap (R299, R409; that it waits first is the model's reading, log 27). With nothing to
wait for, the active lanes exit: under a stack the group goes to its current join; else its slot ends and its team's barriers see it (R273, R297). -/
def Obligations.ExitCompletes : Prop :=
  ∀ s : State, (exitWaits s = true → exec .exit s = .next { s with g := { s.g with stalled := true } }) ∧
    (exitWaits s = false → (∀ e, owedServed s.g slotsAll = some e → exec .exit s = .next (takeOwed s e)) ∧
      (s.g.owed = [] → s.inserts = [] → s.g.ctx.frag = false →
        (∀ e rest, s.g.rc = e :: rest → exec .exit s = .next { s with g := transfer { s.g with exited := s.g.exited ||| s.g.active, active := 0 } (if e.deferred then s.g.joinAt else e.target) }) ∧
        (s.g.rc = [] → s.windows = [] → s.g.ctx.repl = false → (∀ x ∈ s.launches, x.nextTeam < x.ctx.lrec.teams) →
          ∃ t, exec .exit s = .next t ∧ t = { s with g := {}, teams := t.teams } ∧ ∀ x ∈ t.teams, x.id = s.g.team → s.g.ginteam < 16 → x.ended.getLsbD s.g.ginteam = true)))

/-- BRKPT raises BREAKPOINT, and the return position in its record is the header after its clause (R310). RETT restores what R413 lists from the record, in the handler only, once the group's
stores have drained and its loads have returned (the model's reading, log 28); M and P come back to the instruction that was trapped alone, any other begins afresh (R210, R211, R225; the reading is log 30).
While a tester request of the group is to write the saved pair it waits (log 77), a record of another stack depth is DIVERGENCE with detail 1, and a return offset at which no instruction of its clause begins is
ILLEGAL_OPERAND with detail 6 (R413). A deferred entry on top gives the current join again (R296). -/
def Obligations.TrapReturnCompletes : Prop :=
  (∀ s : State, exec .brkpt s = .next (takeTrap s { code := 16, ret := some (afterBody s.g, 0) }) ∧
      (afterBody s.g < 2251799813685248 → let r := readRecord (trapRecord s.g { code := 16, ret := some (afterBody s.g, 0) })
        r.rpos = afterBody s.g ∧ r.roff = 0)) ∧
  ∀ s : State, (s.g.hnd = false → exec .rett s = .next (takeTrap s { code := 2, detail := 6 })) ∧
    (s.g.hnd = true → pairInFlight s = true → exec .rett s = .next { s with g := { s.g with stalled := true } }) ∧
    (∀ v b r, s.g.hnd = true → pairInFlight s = false → v = { drainStq s with g := returnLoads (drainStq s).g } → coreRead v s.g.trec (128 + 8 * width s.g) = .ok b → r = readRecord b →
      r.depth ≠ rcDepth s.g → exec .rett s = .next (takeTrap v { code := 18, detail := 1 })) ∧
    (∀ v b r u c l, s.g.hnd = true → pairInFlight s = false → v = { drainStq s with g := returnLoads (drainStq s).g } → coreRead v s.g.trec (128 + 8 * width s.g) = .ok b →
      r = readRecord b → r.depth = rcDepth s.g → r.roff ≠ 0 → readClause v r.rpos = .ok (u, c) → clauseStarts c = some l → r.roff ∉ l → exec .rett s = .next (takeTrap v { code := 2, detail := 6 })) ∧
    (∀ v b r, s.g.hnd = true → pairInFlight s = false → v = { drainStq s with g := returnLoads (drainStq s).g } → (∀ x ∈ s.inserts, x.group ≠ s.g.id) → coreRead v s.g.trec (128 + 8 * width s.g) = .ok b →
      r = readRecord b → r.depth = rcDepth s.g → (r.roff = 0 ∨ ∃ u c l, readClause v r.rpos = .ok (u, c) ∧ clauseStarts c = some l ∧ r.roff ∈ l) →
      ∃ t, ((∀ e ∈ s.g.rc.head?, e.deferred = false) → exec .rett s = .next t) ∧
        (∀ e u c j nx, s.g.rc.head? = some e → e.deferred = true → readClause (icacheDrop t s.g.core) e.target = .ok (u, c) → clauseJoin e.target c = some (j, nx) →
          exec .rett s = .next { u with g := { u.g with joinAt := j, joinNext := nx } }) ∧
        t = { v with g := t.g } ∧ t.g.pos = r.rpos ∧ t.g.off = r.roff ∧ t.g.phase = .fetch ∧ t.g.active = r.active &&& liveMask s.g ∧ t.g.hnd = false ∧
        (∀ k l, l < 64 → gReg t.g k l = if l < width s.g ∧ s.g.ctx.kernel.regs - 2 ≤ k ∧ k < s.g.ctx.kernel.regs - 2 + 2 then
          BitVec.ofNat 32 (fieldAt b (128 + 8 * l + 4 * (k - (s.g.ctx.kernel.regs - 2))) 4) else gReg v.g k l) ∧
        t.g.m = (if s.g.trpos = (r.rpos, r.roff) then r.m else 0) ∧ t.g.p = (if s.g.trpos = (r.rpos, r.roff) then r.p else 0) ∧ t.g.loads = [] ∧ t.g.stq = [] ∧ t.g.rc = s.g.rc ∧ t.g.flags = s.g.flags ∧ t.g.exited = s.g.exited ∧ t.g.ctx = s.g.ctx)

/-- BAR.GRP completes when every live lane is active, and lets each lane read the others' queued stores (R300); else BARRIER_MISUSE 3.
BAR.TEAM and BAR.ARV release and arrive; the last arrival completes the phase (R302), and BAR.TEAM waits for that. BAR.WAIT completes when the phase
arrived in has completed. An arrival while one stands is BARRIER_MISUSE 1, a wait without one 2 (R303). -/
def Obligations.BarriersComplete : Prop :=
  (∀ s : State, (liveMask s.g &&& ~~~ s.g.active = 0 → exec .barGrp s = .next { s with g := advance { s.g with stq := s.g.stq.map (fun e => { e with all := true }) } 1 }) ∧
      (liveMask s.g &&& ~~~ s.g.active ≠ 0 → exec .barGrp s = .next (takeTrap s { code := 9, detail := 3 }))) ∧
  (∀ (s : State) (x : Team) (id : Nat), getTeam s s.g.team = some x → id < x.bars.length → id < 16 → s.g.ginteam < x.size → x.size ≤ 16 →
      let b := x.bars.getD id {}
      let mine : BitVec 16 := 1#16 <<< s.g.ginteam
      (s.g.arv.getLsbD id = false → s.g.waiting = .no →
        (othersArrived x b s.g.ginteam →
          (∃ t, exec (.barTeam id) s = .next t ∧ t.g = advance { s.g with stq := [] } 1 ∧ barAt t id = { phase := b.phase + 1, arrived := 0 }) ∧
          (∃ t, exec (.barArv id) s = .next t ∧ t.g = advance { s.g with stq := [], arv := s.g.arv ||| (1#16 <<< id), phases := t.g.phases } 1 ∧ t.g.phases.getD id 0 = b.phase ∧
            barAt t id = { phase := b.phase + 1, arrived := 0 })) ∧
        (¬ othersArrived x b s.g.ginteam →
          (∃ t, exec (.barTeam id) s = .next t ∧ t.g = { s.g with stq := [], arv := s.g.arv ||| (1#16 <<< id), phases := t.g.phases, waiting := .barTeam id b.phase, stalled := true, idle := 0 } ∧ t.g.phases.getD id 0 = b.phase ∧ barAt t id = { b with arrived := b.arrived ||| mine }) ∧
          (∃ t, exec (.barArv id) s = .next t ∧ t.g = advance { s.g with stq := [], arv := s.g.arv ||| (1#16 <<< id), phases := t.g.phases } 1 ∧ t.g.phases.getD id 0 = b.phase ∧
            barAt t id = { b with arrived := b.arrived ||| mine }))) ∧
      (∀ n, s.g.waiting = .barTeam id n → ∃ t, exec (.barTeam id) s = .next t ∧ t.g = if n < b.phase then advance { s.g with arv := s.g.arv &&& ~~~ (1#16 <<< id) } 1 else { s.g with stalled := true }) ∧
      (s.g.arv.getLsbD id = true →
        (∃ t, exec (.barWait id) s = .next t ∧
          t.g = if s.g.phases.getD id 0 < b.phase then advance { s.g with arv := s.g.arv &&& ~~~ (1#16 <<< id) } 1 else { s.g with stalled := true }) ∧
        exec (.barArv id) s = .next (takeTrap s { code := 9, detail := 1 })) ∧
      (s.g.arv.getLsbD id = false → exec (.barWait id) s = .next (takeTrap s { code := 9, detail := 2 })))

/-- SEMACQ takes its count when nobody waits before it and the value suffices, and returns the old value; else it joins the line. SEMREL adds its count, clamped, and does not wait; the head
waiter that this serves takes its count, gets the old value and goes on. So does a waiting SEMACQ that issues again at the head of the line with enough there (R305). A waiter that a
pre-emption request has reached is withdrawn, and is in no case here (R328). -/
def Obligations.SemaphoresComplete : Prop :=
  ∀ (s : State) (d : Dst) (a b : Src) (o : Obj) (k : Nat), readsClean s (srcRegs a 1 ++ srcRegs b 1) [firstLane s.g] → HasObj s o → o.fn = s.g.ctx.fn → o.barrier = false →
    o.corrupt = false → o.num < 16777216 → syncArg s.g a = o.num → syncArg s.g b = k → k ≠ 0 →
    (s.g.waiting = .no → s.g.preempt = false → o.waiters = [] → k ≤ o.value →
      ∃ t, exec (.semacq d a b) s = .next t ∧ HasObj t { o with value := o.value - k } ∧
        t.g = advance { s.g with regs := t.g.regs, regPoison := t.g.regPoison } (1 + litsOf a + litsOf b) ∧
        (∀ r l, l < 64 → gReg t.g r l = wrote s.g d (fun _ => [BitVec.ofNat 32 o.value]) r l) ∧ ∀ key p, memByte t key p = memByte s key p) ∧
    (s.g.waiting = .no → s.g.preempt = false → (∀ w ∈ o.waiters.head?, preempted s w.1 = false ∧ o.value < w.2) → (o.waiters = [] → o.value < k) →
      exec (.semacq d a b) s = .next { setObj s { o with waiters := o.waiters ++ [(s.g.id, k)] } with
        g := { s.g with waiting := .semaphore o.num d (1 + litsOf a + litsOf b), stalled := true, idle := 0 } }) ∧
    (∀ v, v = min (o.value + k) 4294967295 →
      ((∀ w ∈ o.waiters.head?, preempted s w.1 = false ∧ v < w.2) →
        ∃ t, exec (.semrel a b) s = .next t ∧ HasObj t { o with value := v } ∧ t.g = advance { s.g with stq := [] } (1 + litsOf a + litsOf b)) ∧
      (∀ h j ws m e n, o.waiters = (h.id, j) :: ws → h ∈ s.others → getGroup s h.id = some h → (∀ x ∈ s.others, x.id ≠ s.g.id) → h.phase = .issue → h.waiting = .semaphore m e n → h.preempt = false →
        j ≤ v → (∀ w ∈ ws.head?, preempted s w.1 = false ∧ v - j < w.2) →
        ∃ t x, exec (.semrel a b) s = .next t ∧ HasObj t { o with value := v - j, waiters := ws } ∧ t.g = advance { s.g with stq := [] } (1 + litsOf a + litsOf b) ∧ getGroup t h.id = some x ∧
          x = advance { h with regs := x.regs, regPoison := x.regPoison } n ∧ ∀ r l, l < 64 → gReg x r l = wrote h e (fun _ => [BitVec.ofNat 32 v]) r l)) ∧
    (∀ j ws e n, s.g.waiting = .semaphore o.num e n → s.g.preempt = false → o.waiters = (s.g.id, j) :: ws → j ≤ o.value → (∀ w ∈ ws.head?, preempted s w.1 = false ∧ o.value - j < w.2) →
      ∃ t, exec (.semacq d a b) s = .next t ∧ HasObj t { o with value := o.value - j, waiters := ws } ∧ t.g = advance { s.g with regs := t.g.regs, regPoison := t.g.regPoison } n ∧
        (∀ r l, l < 64 → gReg t.g r l = wrote s.g e (fun _ => [BitVec.ofNat 32 o.value]) r l) ∧ ∀ key p, memByte t key p = memByte s key p)

/-- DBAR, DBARA and DBARW: an arrival counts, the last of the phase's count completes it (R306); a wait completes with its phase.
SBAR counts one arrival of each local group; it goes on when the barrier has completed and waits otherwise (R307). The last local arrival makes the replica's share: at the lowest package of the set the
last share completes the barrier and tells the others, elsewhere it goes there (R390). Its release waits for the group's remote writes (R182). -/
def Obligations.SharedBarriersComplete : Prop :=
  (∀ (s : State) (a : Src) (o : Obj), readsClean s (srcRegs a 1) [firstLane s.g] → HasObj s o → o.fn = s.g.ctx.fn → o.barrier = true → o.corrupt = false →
      o.num < 16777216 → syncArg s.g a = o.num → s.g.waiting = .no →
      let next : Obj := if o.count ≤ o.arrived + 1 then { o with value := o.value + 1, arrived := 0 } else { o with arrived := o.arrived + 1 }
      (s.g.darv = none →
        (∃ t, exec (.dbar a) s = .next t ∧ HasObj t next ∧
          t.g = if o.count ≤ o.arrived + 1 then advance { s.g with stq := [] } (1 + litsOf a) else { s.g with stq := [], darv := some (o.num, o.value), waiting := .dbar o.num o.value, stalled := true, idle := 0 }) ∧
        (∃ t, exec (.dbara a) s = .next t ∧ HasObj t next ∧ t.g = advance { s.g with stq := [], darv := some (o.num, o.value) } (1 + litsOf a)) ∧
        exec (.dbarw a) s = .next (takeTrap s { code := 9, detail := 5 })) ∧
      (∀ n, s.g.darv = some (o.num, n) →
        (∃ t, exec (.dbarw a) s = .next t ∧ t.g = if n < o.value then advance { s.g with darv := none } (1 + litsOf a) else { s.g with stalled := true }) ∧
        exec (.dbara a) s = .next (takeTrap s { code := 9, detail := 4 }))) ∧
  (∀ (s : State) (a : Src) (r : RepSet), readsClean s (srcRegs a 1) [firstLane s.g] → s.g.waiting = .no → s.g.sarv = none →
      (s.g.ctx.repl = true → syncArg s.g a = s.g.ctx.gen → releaseReady s .sys = false → exec (.sbar a) s = .next { s with g := { s.g with stalled := true } }) ∧
      (s.g.ctx.repl = true → syncArg s.g a = s.g.ctx.gen → releaseReady s .sys = true → repOf s s.g.ctx.fn s.g.ctx.gen = some r →
        (r.completed = true → ∃ t, exec (.sbar a) s = .next t ∧ t.g = advance { s.g with stq := [], sarv := none } (1 + litsOf a)) ∧
        (r.completed = false → r.local_ + 1 < s.g.ctx.lrec.teams * s.g.ctx.kernel.team →
          ∃ t, exec (.sbar a) s = .next t ∧ t.g = { s.g with stq := [], sarv := some s.g.ctx.gen, waiting := .sbar s.g.ctx.gen, stalled := true, idle := 0 } ∧
            repOf t s.g.ctx.fn s.g.ctx.gen = some { r with local_ := r.local_ + 1 }) ∧
        (∀ me, me = (Config.packageNumber, s.g.ctx.fn) → r.completed = false → r.local_ + 1 = s.g.ctx.lrec.teams * s.g.ctx.kernel.team →
          ∃ t x, exec (.sbar a) s = .next t ∧ repOf t s.g.ctx.fn s.g.ctx.gen = some x ∧ x.local_ = r.local_ + 1 ∧ me ∈ x.arrived ∧
            (lowestPackage r = Config.packageNumber → (∀ m ∈ r.members, m = me ∨ m ∈ r.arrived) → x.completed = true ∧ t.g = advance { s.g with stq := [], sarv := none } (1 + litsOf a) ∧
              t.fabric = (r.members.filter (fun m => decide (m.1 ≠ Config.packageNumber))).map (fun m => FabricMsg.complete m.1 m.2 r.gen) ++ s.fabric) ∧
            (lowestPackage r ≠ Config.packageNumber ∨ (∃ m ∈ r.members, m ≠ me ∧ m ∉ r.arrived) → x.completed = false ∧
              t.g = { s.g with stq := [], sarv := some s.g.ctx.gen, waiting := .sbar s.g.ctx.gen, stalled := true, idle := 0 }) ∧
            (lowestPackage r ≠ Config.packageNumber → me ∉ r.arrived → t.fabric = .arrival (lowestOf r).1 (lowestOf r).2 s.g.ctx.fn r.gen :: s.fabric))) ∧
      (s.g.ctx.repl = false ∨ syncArg s.g a ≠ s.g.ctx.gen → exec (.sbar a) s = .next (takeTrap s { code := 9, detail := 6 })))

/-- The six misuses of R303, each a precise BARRIER_MISUSE with its detail; where the trap is delivered no object, barrier or open arrival has changed. -/
def Obligations.BarrierMisuses : Prop :=
  ∀ (s : State) (id : Nat) (a : Src) (o : Obj),
    let misused (i : Instr) (n : Nat) : Prop := exec i s = .next (takeTrap s { code := 9, detail := n })
    (s.g.arv.getLsbD id = true → misused (.barArv id) 1 ∧ ((∀ i n, s.g.waiting ≠ .barTeam i n) → misused (.barTeam id) 1)) ∧
    (s.g.arv.getLsbD id = false → misused (.barWait id) 2) ∧
    (liveMask s.g &&& ~~~ s.g.active ≠ 0 → misused .barGrp 3) ∧
    (readsClean s (srcRegs a 1) [firstLane s.g] →
      (HasObj s o → o.fn = s.g.ctx.fn → o.barrier = true → o.corrupt = false → o.num < 16777216 → syncArg s.g a = o.num →
        (s.g.darv.isSome = true → misused (.dbara a) 4 ∧ ((∀ i n, s.g.waiting ≠ .dbar i n) → misused (.dbar a) 4)) ∧
        ((∀ n, s.g.darv ≠ some (o.num, n)) → misused (.dbarw a) 5)) ∧
      ((∀ n, s.g.waiting ≠ .sbar n) → s.g.ctx.repl = false ∨ syncArg s.g a ≠ s.g.ctx.gen → misused (.sbar a) 6)) ∧
    ∀ n t, t = takeTrap s { code := 9, detail := n } → s.g.hnd = false → t.g.hnd = true → t.objs = s.objs ∧ t.repsets = s.repsets ∧ t.g.arv = s.g.arv ∧ t.g.darv = s.g.darv ∧
      t.g.sarv = s.g.sarv ∧ ∀ k, barAt t k = barAt s k

/-- ENQ posts a card whose CRC holds and writes the status in every active lane (R308): 2 for a stopped queue, 1 for a full one, 3 where the spawn tree's counter stands at
2^32 - 1, with nothing posted; else 0, the card standing in the slot of the write index with its lap number (R314) and the write index moved on. Before that it releases at
dev scope what has drained into the core's L1 (R198). The order of those checks and the lap that ENQ writes into the card are the model's reading (log 25). -/
def Obligations.EnqCompletes : Prop :=
  ∀ (s s0 : State) (d : Dst) (a b : Src) (q : Queue) (qn tree wr : Nat) (card wb : List Byte), readsClean s (srcRegs a 2 ++ srcRegs b 1) [firstLane s.g] →
    s0 = cleanL1 s (fun x => decide (x.core = s.g.core) && covered .dev x.sec) → syncArg s.g b = qn → qn < 256 → q = queueOf (getFn s0 s.g.ctx.fn) qn →
    q.opened = true → q.dev = true → (src64 s.g false a (firstLane s.g)).toNat % 64 = 0 → coreRead s0 (src64 s.g false a (firstLane s.g)).toNat 64 = .ok card → crcOk card = true →
    tree = ((getLaunch s0 s.g.ctx.launch).map (·.tree)).getD 0 →
    let full : Prop := queueSlots q ≤ (wr + 4294967296 - q.rd) % 4294967296
    let most : Prop := ((treeOf_ s0 tree).map (·.count)).getD 0 = 4294967295
    let answers (u : State) (st : Nat) : Prop := ∃ t, exec (.enq d a b) s = .next t ∧ t = { u with g := advance { s.g with regs := t.g.regs, regPoison := t.g.regPoison } (1 + litsOf a + litsOf b) } ∧
      ∀ r l, l < 64 → gReg t.g r l = wrote s.g d (fun _ => [BitVec.ofNat 32 st]) r l
    (q.stop = true → answers s0 2) ∧
    (q.stop = false → agentRead s0 s.g.ctx.fn q.wix 4 = .ok wb → wr = leNat wb →
      (full → answers s0 1) ∧ (¬ full → most → answers s0 3) ∧
      (∀ v w, ¬ full → ¬ most → agentWrite s0 s.g.ctx.fn (slotVA q wr) (natLe 2 (wr / queueSlots q % 65536) ++ card.drop 2) = .ok v →
        agentWrite v s.g.ctx.fn q.wix (natLe 4 ((wr + 1) % 4294967296)) = .ok w →
        answers (joinTree (setQueue w s.g.ctx.fn qn { q with posts := q.posts ++ [(wr, tree)] }) tree) 0))

/-- REGROUP by a group that is alone on its core: its threads stand in lanes 0, 1, … in the order of key, then origin group, then origin lane (R285), with their origin tags
and the N registers kept and every other register zero; the key register receives each thread's group of origin (R286). The stores of its core that team scope covers stand
in memory, and nothing else of it changes. No pre-emption request has reached the group, which is of a grid and no fragment group (R243, R289).
The deal of R285: of the keys present the least counts, the smaller key on equal ones, are mixed until the runs fit the slots. A window that starts deals its threads so over all its slots, whose
indices and tiles stay (R286); a slot with no run is hollow, issues nothing, and a phase of a barrier completes without it (R288). A group alone that has an open arrival, a command or copy, or an entry on its
stack takes REGROUP_STATE with a bit for each (R284). That a lane left vacant reads 0 in every register, those below N among them, with an empty traversal stack, is the model's choice (log 61). -/
def Obligations.RegroupCompletes : Prop :=
  (∀ (l : List Mover) (w slots : Nat), 1 ≤ w → slots ≤ 64 → l.length ≤ w * slots → (∀ m ∈ l, m.key < 256) →
    let of (k : Nat) : List Mover := l.filter (fun m => decide (m.key = k))
    let rest (kept : List Nat) : List Mover := l.filter (fun m => !kept.contains m.key)
    let runs (x : List Mover) : List (List Mover) := (List.range (ceilDiv x.length w)).map (fun i => (x.drop (w * i)).take w)
    let need (kept : List Nat) : Nat := (kept.map (fun k => ceilDiv (of k).length w)).sum + ceilDiv (rest kept).length w
    ∃ (order : List Nat) (n : Nat), (∀ k, k ∈ order ↔ ∃ m ∈ l, m.key = k) ∧ order.Pairwise (fun a b => (of a).length < (of b).length ∨ ((of a).length = (of b).length ∧ a < b)) ∧
      (∀ j, j < n → slots < need (order.drop j)) ∧ need (order.drop n) ≤ slots ∧
      dealChunks l w slots = ((List.range 256).filter (fun k => (order.drop n).contains k)).flatMap (fun k => runs (of k)) ++ runs (rest (order.drop n))) ∧
  (∀ (s : State) (w : Window) (parts : List Group) (d : Dst) (width_ next n at_ : Nat), s.windows = [w] → w.opened + 4096 ≤ coreCycles s w.core → ((allGroups s).map (·.id)).Nodup → 1 ≤ width_ → width_ ≤ 64 →
    parts.Pairwise (fun h k => h.grpix < k.grpix) → (∃ h ∈ parts, h.hollow = false) →
    (∀ h, h ∈ parts ↔ h ∈ allGroups s ∧ h.ctx.launch = w.launch ∧ h.core = w.core ∧ h.phase ≠ .none ∧ h.phase ≠ .saved ∧ h.ctx.frag = false ∧ h.preempt = false ∧
      (h.id ∈ w.arrivals ∨ (h.hollow = true ∧ h.phase ≠ .placed))) →
    (∀ h ∈ parts, regroupFault s h = 0 ∧ width h = width_) →
    (∀ h ∈ parts, h.hollow = false → regroupOf h = (d, n) ∧ afterBody h = next ∧ h.pos + 4 * h.off = at_ ∧ readsClean { s with g := h } (List.range n ++ dstRegs d 1) (activeLanes h)) →
    let mover (e : Group × Nat) : Mover :=
      { og := e.1.origGrp.getD e.2 e.1.grpix, ol := e.1.origLane.getD e.2 e.2, key := (dst32 e.1 d e.2).toNat % 256, regs := (List.range n).map (fun r => gReg e.1 r e.2), poison := false, stack := stackOf e.1 e.2 }
    ∃ (t : State) (p : List (Group × Nat)), exec (.regroupTimeout w.core w.launch w.site) s = .next t ∧ t.windows = [] ∧
      p.Perm ((parts.filter (fun h => !h.hollow)).flatMap (fun h => (activeLanes h).map (fun l => (h, l)))) ∧
      (p.map mover).Pairwise (fun a b => a.key < b.key ∨ (a.key = b.key ∧ (a.og < b.og ∨ (a.og = b.og ∧ a.ol ≤ b.ol)))) ∧
      ∀ j h, parts[j]? = some h → ∃ u, getGroup t h.id = some u ∧ u.ctx = h.ctx ∧ u.core = h.core ∧ u.team = h.team ∧ u.grpix = h.grpix ∧ u.ginteam = h.ginteam ∧ u.tiles = h.tiles ∧ u.rc = [] ∧
        u.flags = orFlags (parts.map (·.flags)) ∧ u.srseq = BitVec.ofNat 32 ((parts.map (fun x => x.srseq.toNat)).foldl max 0 + 1) ∧
        let chunk := (dealChunks (p.map mover) width_ parts.length).getD j []
        u.hollow = decide (chunk = []) ∧ (chunk = [] → u.phase = .stopped) ∧ (chunk ≠ [] → u.phase = .fetch ∧ u.pos = next ∧ u.off = 0) ∧ u.active = fullMask chunk.length ∧
        u.origGrp = chunk.map (·.og) ∧ u.origLane = chunk.map (·.ol) ∧
        (∀ i, i < 64 → stackOf u i = (match chunk[i]? with | none => {} | some m => m.stack) ∧
          ∀ r, gReg u r i = match chunk[i]? with | none => 0 | some m => if d = .reg r then BitVec.ofNat 32 m.og else m.regs.getD r 0) ∧
        ((∀ x ∈ parts, x.team = h.team → x.ginteam = h.ginteam → x = h) → h.ginteam < 16 → ∀ m ∈ t.teams, m.id = h.team → m.launch = w.launch → m.hollow.getLsbD h.ginteam = decide (chunk = []))) ∧
  (∀ (s : State) (h : Group) (m : Team) (id k : Nat), (h.hollow = true → h.phase ≠ .waitMask → groupMove s h = none) ∧
    (id < m.bars.length → k < 16 → (∀ i, i < m.size → i = k ∨ (m.bars.getD id {}).arrived.getLsbD i = true ∨ m.ended.getLsbD i = true ∨ m.hollow.getLsbD i = true) →
      (arriveBar m id k).bars.getD id {} = { phase := (m.bars.getD id {}).phase + 1, arrived := 0 })) ∧
  (∀ (s : State) (d : Dst) (site n8 : Nat), instrAt s.g = .ok (.regroup d site n8) → s.g.phase = .issue → s.g.hollow = false → s.g.stq = [] → s.g.owed = [] → s.trvs = [] →
    s.handoffs = [] → s.cmds = [] → s.copies = [] → s.windows = [] → s.g.arv = 0 → s.g.rc = [] → s.g.rcblocks = 0 → s.g.regPoison = [] →
    (∀ h ∈ s.others, h.core ≠ s.g.core ∧ h.id ≠ s.g.id) → activeLanes s.g ≠ [] → s.g.preempt = false → s.g.ctx.frag = false →
    let key (l : Nat) : Nat := (dst32 s.g d l).toNat % 256
    let grp (l : Nat) : Nat := s.g.origGrp.getD l s.g.grpix
    let lane (l : Nat) : Nat := s.g.origLane.getD l l
    ∃ (t : State) (p : List Nat), exec (.regroup d site n8) s = .next t ∧ p.Perm (activeLanes s.g) ∧
      p.Pairwise (fun l j => key l < key j ∨ (key l = key j ∧ (grp l < grp j ∨ (grp l = grp j ∧ lane l ≤ lane j)))) ∧
      t.g.active = fullMask p.length ∧ t.g.origGrp = p.map grp ∧ t.g.origLane = p.map lane ∧ t.g.pos = afterBody s.g ∧ t.g.phase = .fetch ∧
      t.g.srseq = BitVec.ofNat 32 (s.g.srseq.toNat + 1) ∧ t.g.flags = s.g.flags ∧ (∀ key b, memByte t key b = memByte (cleanL1 s (fun x => decide (x.core = s.g.core) && covered .team x.sec)) key b) ∧
      (∀ j, j < p.length → ∀ r, gReg t.g r j = if d = .reg r then BitVec.ofNat 32 (grp (p.getD j 0))
        else if r < 8 * n8 then gReg s.g r (p.getD j 0) else 0)) ∧
  ∀ (s : State) (d : Dst) (site n8 n : Nat), instrAt s.g = .ok (.regroup d site n8) → s.g.phase = .issue → s.g.hollow = false → s.g.stq = [] → s.g.owed = [] → s.trvs = [] → s.handoffs = [] → s.windows = [] →
    (∀ h ∈ s.others, h.core ≠ s.g.core ∧ h.id ≠ s.g.id) → s.g.preempt = false → s.g.ctx.frag = false →
    n = (if s.g.arv ≠ 0 then 1 else 0) + (if (∃ c ∈ s.cmds, c.group = s.g.id) ∨ (∃ c ∈ s.copies, c.group = some s.g.id) then 2 else 0) + (if s.g.rc ≠ [] ∨ s.g.rcblocks ≠ 0 then 4 else 0) → n ≠ 0 →
    exec (.regroup d site n8) s = .next (takeTrap { s with g := { s.g with idle := 0 } } { code := 10, detail := n })

-- 23: traps

/-- Taking a precise trap: the record stands in the group's trap area, the register pair n-2, n-1 of the active lanes holds its address, and the group goes to the
handler with HND set, keeping its lanes, stack, flags and other registers (R410, R412). With no handler, or inside it, the launch ends, and so it does where the record cannot be written,
with the code of the trap that was to be taken (R414). While a tester request of the group
is to write that pair, the trap waits, the model's reading of R339 (log 77). -/
def Obligations.TrapEntry : Prop :=
  ∀ (s : State) (x : TrapInfo), x.fpos = none → x.act = none → ¬ (x.code = 6 ∧ x.detail = 7) →
    (∀ v y a, s.g.ctx.kernel.handler ≠ 0 → s.g.hnd = false → pairInFlight s = false → v = { drainStq s with g := returnLoads (drainStq s).g } →
      coreWrite v (trapArea v.g) (trapRecord v.g x) = .error (y, a) →
      takeTrap s x = endLaunch (walkRecord v s.g.ctx.fn y a (some (s.g.core / 24))) s.g.ctx.launch 4 x.code) ∧
    (s.g.ctx.kernel.handler = 0 ∨ s.g.hnd = true → takeTrap s x = endLaunch s s.g.ctx.launch 4 x.code) ∧
    (s.g.ctx.kernel.handler ≠ 0 → s.g.hnd = false → pairInFlight s = true → takeTrap s x = { s with g := { s.g with stalled := true } }) ∧
    (∀ v u, s.g.ctx.kernel.handler ≠ 0 → s.g.hnd = false → pairInFlight s = false → v = { drainStq s with g := returnLoads (drainStq s).g } →
      coreWrite v (trapArea v.g) (trapRecord v.g x) = .ok u →
      ∃ t, takeTrap s x = t ∧ t = { u with g := t.g } ∧ t.g.pos = s.g.ctx.kernel.handler ∧ t.g.off = 0 ∧ t.g.phase = .fetch ∧ t.g.hnd = true ∧ t.g.trec = trapArea s.g ∧
        t.g.p = 0 ∧ t.g.m = 0 ∧ t.g.active = s.g.active ∧ t.g.rc = s.g.rc ∧ t.g.flags = s.g.flags ∧ t.g.srseq = s.g.srseq ∧ t.g.owed = s.g.owed ∧ t.g.tiles = s.g.tiles ∧ t.g.stq = [] ∧
        ∀ k l, l < 64 → gReg t.g k l = wrote v.g (.reg (s.g.ctx.kernel.regs - 2)) (fun _ => [BitVec.ofNat 32 (trapArea s.g), BitVec.ofNat 32 (trapArea s.g / 4294967296)]) k l)

/-- The fields of a trap record (R411), those of an owed trap among them, and what RETT reads of it (R413).
An owed slot keeps its first failure and counts the others, and empties when its trap is taken (R409). That every point takes the slot whose operation was issued first is the model's reading (log 29):
R409 says so of exit. -/
def Obligations.TrapRecordsAndOwedTraps : Prop :=
  (∀ (h : Group) (x : TrapInfo), x.ret = none → x.act = none → h.pos < 2251799813685248 → h.off < 64 → h.p < 32 → rcDepth h < 65536 → x.code < 256 → x.unit < 256 → x.more < 65536 →
      x.addr < 18446744073709551616 → x.detail < 18446744073709551616 → x.done < 18446744073709551616 → (∀ q ∈ x.fpos, q.1 < 2251799813685248 ∧ q.2 < 64) →
      let b := trapRecord h x
      b.length = 128 + 8 * width h ∧ fieldAt b 9 1 = x.code ∧ fieldAt b 10 1 = x.unit ∧ fieldAt b 11 1 = (if x.lost then 1 else 0) + (if x.remote then 2 else 0) ∧
        fieldAt b 16 8 = x.addr ∧ fieldAt b 24 8 = x.detail ∧ fieldAt b 48 8 = x.lanes.toNat ∧ fieldAt b 56 8 = x.done ∧
        fieldAt b 64 8 = (x.fpos.getD (h.pos, h.off)).1 ∧ fieldAt b 72 1 = (x.fpos.getD (h.pos, h.off)).2 ∧ fieldAt b 74 2 = x.more ∧
        (∀ l, l < width h → l < 64 → x.lanes.getLsbD l = true → (∀ j, j < l → x.lanes.getLsbD j = false) → fieldAt b 13 1 = l) ∧
        (readRecord b).rpos = h.pos ∧ (readRecord b).roff = h.off ∧ (readRecord b).p = h.p ∧ (readRecord b).m = h.m ∧ (readRecord b).depth = rcDepth h ∧ (readRecord b).active = h.active ∧
        ∀ l, l < width h → ∀ i, i < 2 → fieldAt b (128 + 8 * l + 4 * i) 4 = (gReg h (h.ctx.kernel.regs - 2 + i) l).toNat ∨ h.ctx.kernel.regs < 2) ∧
  (∀ (h : Group) (k : Nat) (o : Owed) (ks : List Nat),
      (owedAt h k = none → owedAt (fillOwed h k o) k = some o) ∧
      (∀ x, owedAt h k = some x → owedAt (fillOwed h k o) k = some { x with more := min (x.more + 1) 65535 }) ∧
      (∀ j, j ≠ k → owedAt (fillOwed h k o) j = owedAt h j) ∧
      (∀ e, owedServed h ks = some e → e ∈ h.owed ∧ e.1 ∈ ks ∧ ∀ x ∈ h.owed, x.1 ∈ ks → e.2.seq ≤ x.2.seq) ∧
      (owedServed h ks = none → ∀ x ∈ h.owed, x.1 ∉ ks)) ∧
  (∀ (s : State) (k : Nat) (o : Owed), trapWaits s = false → s.g.pos < 2251799813685248 → s.g.off < 64 → o.pos < 2251799813685248 → o.off < 64 → o.code < 256 → o.unit < 256 → o.more < 65536 →
      o.addr < 18446744073709551616 → o.detail < 18446744073709551616 → o.done < 18446744073709551616 →
      ∃ u x, takeOwed s (k, o) = takeTrap u x ∧ u = { s with g := { s.g with owed := u.g.owed } } ∧ owedAt u.g k = none ∧ (∀ j, j ≠ k → owedAt u.g j = owedAt s.g j) ∧
        let b := trapRecord u.g x
        fieldAt b 0 8 = s.g.pos ∧ fieldAt b 8 1 = s.g.off ∧ fieldAt b 9 1 = o.code ∧ fieldAt b 10 1 = o.unit ∧ fieldAt b 11 1 = (if o.remote then 2 else 0) ∧ fieldAt b 16 8 = o.addr ∧
          fieldAt b 24 8 = o.detail ∧ fieldAt b 48 8 = o.lanes.toNat ∧ fieldAt b 56 8 = o.done ∧ fieldAt b 64 8 = o.pos ∧ fieldAt b 72 1 = o.off ∧ fieldAt b 74 2 = o.more)

/-- The end of a launch (R416): nothing of it is left running, its status and trap stand in it, and every other launch keeps its groups, teams, commands, copies, tester requests, inserts, hand-offs,
passes, windows and reservations, and its record. That its PUBLISH commands go with its copies is the model's reading (log 36). -/
def Obligations.LaunchEnds : Prop :=
  ∀ (s : State) (l code trap : Nat),
    let t := endLaunch s l code trap
    (∀ h ∈ allGroups t, h.phase ≠ .none → h.ctx.launch ≠ l) ∧ (∀ h ∈ s.others, h.ctx.launch ≠ l → h ∈ t.others) ∧ (s.g.ctx.launch ≠ l → t.g = s.g) ∧
      (∀ x ∈ t.teams, x.launch ≠ l) ∧ (∀ c ∈ t.cmds, c.launch ≠ l) ∧ (∀ c ∈ t.copies, c.launch ≠ l) ∧ (∀ c ∈ t.trvs, c.launch ≠ l) ∧ (∀ c ∈ t.inserts, c.launch ≠ l) ∧
      (∀ c ∈ t.handoffs, c.launch ≠ l) ∧ (∀ c ∈ t.passes, c.launch ≠ l) ∧ (∀ w ∈ t.windows, w.launch ≠ l) ∧ (∀ e ∈ t.reserved, e.2.1 ≠ l) ∧
      (∀ x ∈ t.launches, x.id = l → x.stopped = true ∧ x.code = code ∧ x.trap = trap) ∧ (∀ x ∈ s.launches, x.id ≠ l → x ∈ t.launches) ∧
      (∀ x ∈ s.teams, x.launch ≠ l → (∀ h ∈ allGroups s, h.ctx.launch = l → h.phase ≠ .none → h.team ≠ x.id) → x ∈ t.teams) ∧
      t.cmds = s.cmds.filter (fun c => decide (c.launch ≠ l)) ∧ t.copies = s.copies.filter (fun c => decide (c.launch ≠ l)) ∧ t.trvs = s.trvs.filter (fun c => decide (c.launch ≠ l)) ∧
      t.inserts = s.inserts.filter (fun c => decide (c.launch ≠ l)) ∧ t.handoffs = s.handoffs.filter (fun c => decide (c.launch ≠ l)) ∧ t.passes = s.passes.filter (fun c => decide (c.launch ≠ l)) ∧
      t.windows = s.windows.filter (fun w => decide (w.launch ≠ l)) ∧ t.reserved = s.reserved.filter (fun e => decide (e.2.1 ≠ l))

-- 07: the matrix engines

/-- MTAKE gives the group a tile of zeros once one is free, and TILE_BIND ends the wait of a stalled one; a held tile stays (R151). MFREE gives a tile up, MRD and MWR read and
write one element a lane (R149); each of the three waits for the group's commands on the tile, and takes the trap that its slot owes (R153). That the slot of an MMAP stands for both of
its tiles is the model's reading (log 35), as is that of two slots that owe a trap the one whose operation was issued first is taken (log 29), and that MRD and MWR take it before POISON of a register that they
read (log 70). -/
def Obligations.TilesComplete : Prop :=
  ∀ (s : State) (m : Nat),
    let pair : Option Owed := if 8 ≤ m then (owedAt s.g (m - 8)).filter (·.pair) else none
    (holdsTile s.g m = true → exec (.mtake m) s = .next { s with g := advance s.g 1 }) ∧
    (holdsTile s.g m = false → tileFree s m = true → ∃ t, exec (.mtake m) s = .next t ∧ t = { s with g := advance { s.g with tiles := t.g.tiles } 1 } ∧
      tileOf t.g m = some { m := m, elems := [], poison := [] } ∧ ∀ j, j ≠ m → tileOf t.g j = tileOf s.g j) ∧
    (holdsTile s.g m = false → tileFree s m = false → exec (.mtake m) s = .next { s with g := { s.g with stalled := true } }) ∧
    (holdsTile s.g m = false → tileFree s m = true → s.g.phase = .issue → s.g.stalled = true → s.g.preempt = false → instrAt s.g = .ok (.mtake m) →
      ∃ t, exec (.tileBind s.g.id) s = .next t ∧ t = { s with g := advance { s.g with tiles := t.g.tiles } 1 } ∧ tileOf t.g m = some { m := m, elems := [], poison := [] } ∧
        ∀ j, j ≠ m → tileOf t.g j = tileOf s.g j) ∧
    (tileBusy s s.g.id m = false → owedAt s.g m = none → pair = none →
      (∃ t, exec (.mfree m) s = .next t ∧ t = { s with g := advance { s.g with tiles := t.g.tiles } 1 } ∧ tileOf t.g m = none ∧ ∀ j, j ≠ m → tileOf t.g j = tileOf s.g j) ∧
      (∀ (d : Dst) (a : Src) (x : Tile), tileOf s.g m = some x → readsClean s (srcRegs a 1) (activeLanes s.g) → (∀ l ∈ activeLanes s.g, smGet false x.poison (selKey (src32 s.g a l)) = false) →
        ∃ t, exec (.mrd m d a) s = .next t ∧ t = { s with g := advance { s.g with regs := t.g.regs, regPoison := t.g.regPoison } (1 + litsOf a) } ∧
          ∀ r l, l < 64 → gReg t.g r l = wrote s.g d (fun l => [smGet 0 x.elems (selKey (src32 s.g a l))]) r l) ∧
      (∀ (d : Dst) (a : Src) (x : Tile), tileOf s.g m = some x → readsClean s (dstRegs d 1 ++ srcRegs a 1) (activeLanes s.g) →
        ∃ t y, exec (.mwr m d a) s = .next t ∧ t = { s with g := advance { s.g with tiles := t.g.tiles } (1 + litsOf a) } ∧ tileOf t.g m = some y ∧
          (∀ k, smGet 0 y.elems k = (lastAt (activeLanes s.g) (fun l => selKey (src32 s.g a l)) (fun l => dst32 s.g d l) k).getD (smGet 0 x.elems k)) ∧
          ∀ j, j ≠ m → tileOf t.g j = tileOf s.g j)) ∧
    (∀ i d a, i = .mfree m ∨ (holdsTile s.g m = true ∧ (i = .mrd m d a ∨ i = .mwr m d a)) →
      (tileBusy s s.g.id m = true → exec i s = .next { s with g := { s.g with stalled := true } }) ∧
      (∀ o, tileBusy s s.g.id m = false → owedAt s.g m = some o → (∀ x ∈ pair, o.seq ≤ x.seq) → exec i s = .next (takeOwed s (m, o))) ∧
      (∀ x, tileBusy s s.g.id m = false → pair = some x → (∀ o ∈ owedAt s.g m, x.seq < o.seq) → exec i s = .next (takeOwed s (m - 8, x))))

/-- MMA, MMAP, MCONV, MST and MZERO join the queue of an array when their checks pass (R145 to R150); while a slot of one of their tiles owes a trap, the slot of an MMAP
standing for both of its tiles (the model's reading, log 35), they are discarded (R153), and they stall while the region's scoreboard or the queue is full (R148). -/
def Obligations.MatrixCommandsComplete : Prop :=
  ∀ i e, cmdSpec i = some e → ∀ s : State, readsClean s e.reads [firstLane s.g] → e.able s → e.inBounds s → noArray s = false →
    let ivs := cmdIvs s.g.ctx.lrec.slots (e.cmd s)
    let full : Prop := boardRoom s ivs.length = false ∨ queueFull s (e.cmd s).region (e.cmd s).array (decide (e.kind = .mmap)) = true
    let owes (k : Nat) : Prop := owedAt s.g k ≠ none ∨ (8 ≤ k ∧ ∃ o, owedAt s.g (k - 8) = some o ∧ o.pair = true)
    let lost : Prop := owes e.tile ∨ (e.kind = .mmap ∧ owes (e.tile + 8))
    (lost → exec i s = .next { s with g := advance s.g e.words }) ∧
    (¬ lost → full → exec i s = .next { s with g := { s.g with stalled := true } }) ∧
    (¬ lost → ¬ full → ((e.cmd s).array = 2 → ∀ l, leaseAt s (e.cmd s).region = some l → leaseState l ≠ 3) →
      exec i s = .next { settleStores s ivs with cmds := s.cmds ++ [e.cmd s], nextId := s.nextId + 1, g := advance (settleStores s ivs).g e.words })

/-- A step adds to each element its step value, rounded once, and to no other element (R140, R141). -/
def Obligations.StepAccumulates : Prop :=
  ∀ (x : Tile) (a b : List (List FVal)) (i j : Nat), b.length ≤ 128 → j < 128 →
    smGet 0 (accRows x a b).elems (elemKey i j) =
      if i < a.length ∧ j < b.length then accumulate (smGet 0 x.elems (elemKey i j)) (stepP (a.getD i []) (b.getD j [])) else smGet 0 x.elems (elemKey i j)

/-- The events of the engines, of a command that has started in an array of its region: a step of a product, its failure, and a residue mismatch in it, which is retried twice and then
takes out of service the array where it occurred (R145, R146, R153, R154). The two halves of an MMAP step at once, each on its engine, while both arrays serve, and one after the other where one array
serves alone (R155); what reads first where several rows fail is the model's choice (log 57). Each step on a lent array, a retry included, adds its cycles and the operand bytes it reads to the
meters of the lease (R365). MST writes its rows in order (R150); MZERO zeroes its tile (R149); an
array with eight corrected mismatches within 2^30 cycles goes out of service (R405). -/
def Obligations.MatrixEventsComplete : Prop :=
  (∀ (s : State) (c : Cmd) (h : Group) (arr : Nat), findFirst (fun x => decide (x.id = c.id)) s.cmds = some c → getGroup s c.group = some h → servedBy s c = some arr → cmdReady s c = true →
    (c.kind = .mma ∨ c.kind = .mmap ∨ c.kind = .mconv → c.started = true → c.array ≠ 2 →
      let per := stepsPer h.ctx.lrec.slots c
      let c1 := { c with serial := c.serial || decide (twoHalves c = true ∧ bothServe s c.region = false) }
      let s0 := setCmd (setGroup s h) c1
      let halves := halvesOf s0 c1 per
      (twoHalves c = false → c.steps < per → halves = [(false, arr)]) ∧
      (twoHalves c = true → bothServe s c.region = true → c.steps < per → c.steps2 < per → halves = [(false, arrKey c.region 0), (true, arrKey c.region 1)]) ∧
      (twoHalves c = true → bothServe s c.region = false → (c.steps < per → halves = [(false, arr)]) ∧ (per ≤ c.steps → c.steps2 < per → halves = [(true, arr)])) ∧
      (∀ x a e1 e2, stepTiles s0 h c1 halves = .error (x, a) → exec (.matrixStep c.id (e1, e2)) s = .next (failCmd s0 c1 x a)) ∧
      (∀ v, stepTiles s0 h c1 halves = .ok v →
        (∀ t d, t = halves.foldl (fun t e => residueRecord t e.2 (halfTries c1 e.1)) (setGroup s0 v) → d = halves.foldl (fun d e => halfDone d e.1) c1 →
          exec (.matrixStep c.id (false, false)) s = .next (if per ≤ d.steps ∧ (twoHalves d = true → per ≤ d.steps2) then retire t d else setCmd t d)) ∧
        (∀ k high eng, k < 2 → halves[k]? = some (high, eng) →
          (halfTries c1 high < 2 → exec (.matrixStep c.id (decide (k = 0), decide (k = 1))) s = .next (setCmd s0 (halfAgain c1 high))) ∧
          (halfTries c1 high = 2 → exec (.matrixStep c.id (decide (k = 0), decide (k = 1))) s = .next (arrayOut (failCmd s0 c1 ⟨13, 0⟩ 0) eng))))) ∧
    (c.kind = .mma ∨ c.kind = .mconv → c.started = true → c.array = 2 → ∀ (l : Lease) (v : Group), leaseAt s c.region = some l → (∀ x ∈ s.leases, x.id = l.id → x = l) → l.rcd.length = 64 →
      let ka := slotIn h.ctx.lrec.slots (ctSa c.ctl)
      let kb := slotIn h.ctx.lrec.slots (ctSb c.ctl)
      let len := stepLen ka kb
      let exps (k : Slot) : Nat := if k.kind = 1 then (len + k.block - 1) / k.block else 0
      let rows := ((List.range (min (ctM c.ctl) 128)).filter (fun i => decide (c.kind = .mma) || (convAt c.shape i (len * c.steps)).isSome)).length
      let s0 := setCmd (setGroup s h) c
      c.steps < stepsPer h.ctx.lrec.slots c → stepTiles s0 h c [(false, arr)] = .ok v →
      ∃ r s1, r.length = 64 ∧ fieldAt r 32 8 = (fieldAt l.rcd 32 8 + 2 * max (slotBits ka) (slotBits kb) * (len / 16)) % 18446744073709551616 ∧
        fieldAt r 40 8 = (fieldAt l.rcd 40 8 + (rows * (rowBytes ka len + exps ka) + ctN c.ctl * (rowBytes kb len + exps kb))) % 18446744073709551616 ∧
        (∀ i, i < 32 ∨ 48 ≤ i → r.getD i 0 = l.rcd.getD i 0) ∧ s1 = { s0 with leases := s0.leases.map (fun x => if x.id = l.id then { x with rcd := r } else x) } ∧
        (let t := residueRecord (setGroup s1 v) arr (halfTries c false)
          let d := halfDone c false
          exec (.matrixStep c.id (false, false)) s = .next (if stepsPer h.ctx.lrec.slots c ≤ d.steps then retire t d else setCmd t d)) ∧
        (halfTries c false < 2 → exec (.matrixStep c.id (true, false)) s = .next (setCmd s1 (halfAgain c false))) ∧
        (halfTries c false = 2 → exec (.matrixStep c.id (true, false)) s = .next (arrayOut (failCmd s1 c ⟨13, 0⟩ 0) arr))) ∧
    (∀ x, c.kind = .mst → tileOf h c.tile = some x → (∀ i j, smGet false x.poison (elemKey i j) = false) → (∀ v ∈ cmdIvs h.ctx.lrec.slots c, v.chip = true → v.hi ≤ chipExtent (getFn s h.ctx.fn)) →
      exec (.mstPerform c.id) s = .next (retire ((List.range (ctM c.ctl)).foldl (mstRow h c x) (setCmd s { c with started := true })) c)) ∧
    (c.kind = .mzero → exec (.mzeroPerform c.id) s = .next (retire (setGroup s (updTile h c.tile (fun x => { x with elems := [], poison := [] }))) c))) ∧
  (∀ (s : State) (region eng r : Nat) (l : List Nat), (arrAt s (arrKey region eng)).out = false → (arrAt s (arrKey region eng)).residues = r :: l → 7 ≤ l.length → r - l.getD 6 0 < 1073741824 →
    (∀ c ∈ s.cmds, c.started = false) → ∃ t, exec (.engineOff region eng) s = .next t ∧ t = arrayOut s (arrKey region eng) ∧ (arrAt t (arrKey region eng)).out = true)

-- 11: copies

/-- CPY, CPYN and CPYR, their record checked, join the queue of an engine with a fresh handle, generation over entry, in every active lane (R226 to R230, R235);
which free entry is the model's free value (log 16). PUBLISH joins
one with its buffer (R239); CPYQ reads the status of each lane's handle (R235). -/
def Obligations.CopiesComplete : Prop :=
  (∀ i e, copySpec i = some e → ∀ (s s1 : State) (va eng k : Nat) (r : List Byte), readsClean s (srcRegs e.a 2) [firstLane s.g] → va = (src64 s.g false e.a (firstLane s.g)).toNat → s1 = release s .dev →
    va % 64 = 0 → va < 2251799813685248 → coreRead s1 va 64 = .ok r → copyBad e.kind (e.slot s.g) e.compact r = false → copyMisaligned e.kind e.compact r = false →
    (∀ v ∈ copyRecIvs e.kind (e.slot s.g) r, ivBound s1 v = true) →
    ((copyRecIvs e.kind (e.slot s.g) r).any (·.chip) = true → (s.copies.filter (fun c => decide (c.group = some s.g.id) && (copyIvs c).any (·.chip))).length < 32) → pickEngine s1 s.g.ctx.fn = some eng → freeEntry (getFn s1 s.g.ctx.fn) = some k →
    shareFull s1 (regionOf s.g.core) (queuedCopy s e.kind eng k r 0 (e.slot s.g) e.compact s.g.ctx.lrec.skey) = false → boardRoom s1 (copyRecIvs e.kind (e.slot s.g) r).length = true →
    ∃ t gen, exec i s = .next t ∧ t = { s1 with copies := t.copies, nextId := s.nextId + 1, fns := t.fns, g := t.g } ∧ (∀ f, f ≠ s.g.ctx.fn → getFn t f = getFn s f) ∧ gen = ((smGet {} (getFn s1 s.g.ctx.fn).ring k).gen + 1) % 1048576 ∧
      t.copies = s.copies ++ [queuedCopy s e.kind eng k r 0 (e.slot s.g) e.compact s.g.ctx.lrec.skey] ∧
      (s.g.ctx.fn < s.fns.length → smGet {} (getFn t s.g.ctx.fn).ring k = { gen := gen, state := 0, code := 0 }) ∧
      t.g = advance { s.g with stq := [], regs := t.g.regs, regPoison := t.g.regPoison } (1 + litsOf e.a) ∧
      ∀ j l, l < 64 → gReg t.g j l = wrote s.g e.d (fun _ => [BitVec.ofNat 32 (gen * 4096 + k)]) j l) ∧
  (∀ (s : State) (a : Src) (eng : Nat), readsClean s (srcRegs a 2) [firstLane s.g] → (src64 s.g false a (firstLane s.g)).toNat % 32768 = 0 → pickEngine (release s .dev) s.g.ctx.fn = some eng →
    exec (.publish a) s = .next { release s .dev with copies := s.copies ++ [queuedCopy s .publish eng 0 [] (src64 s.g false a (firstLane s.g)) {} false 0], nextId := s.nextId + 1, g := advance (release s .dev).g (1 + litsOf a) }) ∧
  (∀ (s : State) (d : Dst) (a : Src), readsClean s (srcRegs a 1) (activeLanes s.g) →
    ∃ t, exec (.cpyq d a) s = .next t ∧ t = { s with g := t.g, l1 := t.l1 } ∧ t.g = advance { s.g with regs := t.g.regs, regPoison := t.g.regPoison } (1 + litsOf a) ∧
      ∀ r l, l < 64 → gReg t.g r l = wrote s.g d (fun l => [BitVec.ofNat 32 (let e := smGet {} (getFn s s.g.ctx.fn).ring ((src32 s.g a l).toNat % 4096)
        if e.gen ≠ (src32 s.g a l).toNat / 4096 then 6 else e.state + 256 * e.code)]) r l)

/-- The events of copies: a unit whose source reads lands, and the last one retires the copy with state 2 (R231, R235); the unit of a CPYR goes out and waits, and an answer, or
100 ms without one, ends the wait (R241, R387); the answer to its last unit retires it, and its handle reads state 2 (R235, R241); a unit for this package from a listed pair is written and answered, from another refused with reason 1 (R387); a turn of a buffer of
one page, with no L1 sector held, flips bit 56 of its leaf, changes no other byte and drops its cached translations (R194, R239). -/
def Obligations.CopyEventsComplete : Prop :=
  (∀ (s : State) (c : Copy) (bs : List Byte), findFirst (fun x => decide (x.id = c.id)) s.copies = some c → copyReady s c = true → c.kind ≠ .publish →
    let v := setEntry (setCopy s { c with started := true }) { c with started := true } 1 0
    let n := (unitAt c).n
    unitBytes v { c with started := true } (unitAt c) = .ok bs →
    (∀ u, c.kind ≠ .cpyr → writeUnit v { c with started := true } (unitAt c) bs = .ok u →
      exec (.copyUnit c.id) s = .next (if c.done + n = copyTotal c then retireCopy (setEntry u { c with started := true, done := c.done + n } 2 0) { c with started := true, done := c.done + n }
        else setCopy u { c with started := true, done := c.done + n })) ∧
    (c.kind = .cpyr → ∃ t pkg fn, exec (.copyUnit c.id) s = .next t ∧ t.fabric = .write c.id c.fn pkg fn (unitAt c).addr bs :: s.fabric ∧ pkg = bits (cpTarget c.rcd) 16 0 ∧ fn = bits (cpTarget c.rcd) 21 17 ∧
      t.copies = (setCopy v { c with started := true, awaiting := true, sent := s.now }).copies ∧ t.mem = s.mem)) ∧
  (∀ (s : State) (c : Copy) (v : DWord), c.id ≠ 0 → waitingUnit s c.id = some c →
    (c.done + (unitAt c).n < copyTotal c → exec (.remoteAcknowledgement c.id (.ok v)) s = .next (setCopy (heardFrom s (bits (cpTarget c.rcd) 16 0)) { c with done := c.done + (unitAt c).n, awaiting := false })) ∧
    (c.done + (unitAt c).n = copyTotal c → ∃ t, exec (.remoteAcknowledgement c.id (.ok v)) s = .next t ∧ (∀ x, x ∈ t.copies ↔ x ∈ s.copies ∧ x.id ≠ c.id) ∧ t.mem = s.mem ∧
      (c.group.isSome = true → c.fn < s.fns.length → smGet {} (getFn t c.fn).ring c.entry = { smGet {} (getFn s c.fn).ring c.entry with state := 2, code := 0 })) ∧
    (∀ n, exec (.remoteAcknowledgement c.id (.refused n)) s = .next (failCopy (heardFrom s (bits (cpTarget c.rcd) 16 0)) c ⟨5, n⟩ (unitAt c).addr true)) ∧
    exec (.cpyrAckTimeout c.id) s = .next (if c.sent + 100000000 ≤ s.now then failCopy s c ⟨5, 4⟩ (unitAt c).addr true else s)) ∧
  (∀ (s t : State) (pkg sf fn va : Nat) (bs : List Byte), running s = true → (getFn s fn).slices ≠ [] →
    (admitted s fn pkg sf = true → agentWrite (heardFrom s pkg) fn va bs true = .ok t → exec (.remoteCopyWrite pkg sf fn va bs) s = .next { t with fabric := .reply pkg (.ok 0) :: t.fabric }) ∧
    (admitted s fn pkg sf = false → exec (.remoteCopyWrite pkg sf fn va bs) s = .next { heardFrom s pkg with fabric := .reply pkg (.refused 1) :: s.fabric })) ∧
  (∀ (s : State) (c : Copy) (leaf at_ key : Nat), findFirst (fun x => decide (x.id = c.id)) s.copies = some c → c.kind = .publish → turnReady s c = true → pubPages c = 1 →
    (∃ lv, walk s c.fn (pubBase c) = .ok (leaf, lv, at_, key)) → bitOf leaf 55 = true → s.l1 = [] →
    ∃ t, exec (.turn c.id) s = .next t ∧ t.copies = s.copies.filter (fun x => decide (x.id ≠ c.id)) ∧ (∀ x ∈ t.tlb, x ∈ s.tlb ∧ ¬ (x.fn = c.fn ∧ x.base ≤ pubBase c ∧ pubBase c < x.base + x.size)) ∧
      (∀ b, memByte t key b = if at_ ≤ b ∧ b < at_ + 8 then (memByte s key b) ^^^ (if b = at_ + 7 then 1#8 else 0) else memByte s key b))

-- 12: graphics

/-- PRIM adds a record for each active lane, in lane order, to the launch's pass, and copies it into the primitive buffer (R243); which place of the buffer it takes is the model's choice (log 33). FINS queues one insert a lane (R256). FPEEK returns a node, FRES the
composition, of each lane's list (R263, R264); FRES with clear and FCLR also empty it, the lowest lane first, each later one finding the lists as the lanes before it left them (R265). ENC.TILE queues a hand-off (R270). -/
def Obligations.GraphicsCommandsComplete : Prop :=
  (∀ (s s1 : State) (d : Dst) (a : Src) (va : Nat) (pr lr kr : List Byte) (recs : List (List Byte)), readsClean s (dstRegs d 2) [firstLane s.g] → readsClean s (srcRegs a 2) (activeLanes s.g) →
    va = (dst64 s.g d (firstLane s.g)).toNat → s1 = release s .dev → va % 64 = 0 → (∀ p ∈ boundPass s1 s.g.ctx.launch, p.va = va) → readPass s1 s.g.ctx.fn va = .ok (pr, lr, kr) →
    passRecordsOk pr lr kr (getFn s1 s.g.ctx.fn).slices.length = true → 128 * (activeLanes s.g).length ≤ paSize pr → readPrims s1 s.g.ctx.fn (laneAddrs s.g a .g) = .ok recs →
    ∀ p, p = (boundPass s1 s.g.ctx.launch).getD (newPass s1 va pr lr kr) → (∀ q ∈ s.passes, q.slice = p.slice → q.id = p.id) → 128 * (p.prims.length + (activeLanes s.g).length) ≤ paSize p.rcd →
    ∃ t q base new, exec (.prim d a) s = .next t ∧ t.g = advance { s.g with stq := [] } (1 + litsOf a) ∧ boundPass t s.g.ctx.launch = some q ∧ base = (p.prims.map (fun x => x.seq + 1)).foldl max 0 ∧
      new = (List.range (activeLanes s.g).length).map (fun i => ({ grpix := s.g.grpix, seq := base + i, place := (freePlaces p (activeLanes s.g).length).getD i 0, rcd := recs.getD i [] } : Prim)) ∧
      q = { p with prims := p.prims ++ new } ∧
      t = { fillBuffer s.g.ctx.fn p.slice (fieldAt p.rcd 8 8 % 2251799813685248) new s1 with passes := t.passes, launches := t.launches, nextId := t.nextId, g := t.g }) ∧
  (∀ (s : State) (d : Dst) (a : Src) (va : Nat) (t : List Byte), owedAt s.g 18 = none → readsClean s (srcRegs a 2) [firstLane s.g] → readsClean s (dstRegs d 4) (activeLanes s.g) →
    readTarget s a = .ok (va, t) → (∀ l ∈ activeLanes s.g, ∃ f, fragOf s.g l = some f ∧ f.x < tgW t ∧ f.y < tgH t) → (∀ r ∈ s.inserts, r.group ≠ s.g.id) →
    exec (.fins d a) s = .next { s with inserts := s.inserts ++ (activeLanes s.g).zipIdx.map (fun e => queuedInsert s d va t (s.nextId + e.2) e.1), nextId := s.nextId + (activeLanes s.g).length, g := advance s.g (1 + litsOf a) }) ∧
  (∀ (s : State) (d : Dst) (a b : Src) (va : Nat) (t : List Byte) (ls : Nat → LList), owedAt s.g 18 = none → readsClean s (srcRegs a 2) [firstLane s.g] → readsClean s (srcRegs b 1) (activeLanes s.g) →
    readTarget s a = .ok (va, t) → (∀ l ∈ activeLanes s.g, pixX (src32 s.g b l) < tgW t ∧ pixY (src32 s.g b l) < tgH t) →
    ((∀ l ∈ activeLanes s.g, readList s s.g.ctx.fn t (pixX (src32 s.g b l)) (pixY (src32 s.g b l)) = .ok (ls l)) →
    (∃ u, exec (.fpeek d a b) s = .next u ∧ u = { s with g := advance { s.g with regs := u.g.regs, regPoison := u.g.regPoison } (1 + litsOf a + litsOf b) } ∧
      ∀ r l, l < 64 → gReg u.g r l = wrote s.g d (fun l => peekWords (src32 s.g b l) (ls l)) r l) ∧
    (∃ u, exec (.fres d a b false) s = .next u ∧ u = { s with g := advance { s.g with regs := u.g.regs, regPoison := u.g.regPoison } (1 + litsOf a + litsOf b) } ∧
      ∀ r l, l < 64 → gReg u.g r l = wrote s.g d (fun l => resolveWords (ls l).nodes) r l)) ∧
    (∀ v rs, clearedInTurn s.g b t (activeLanes s.g) s v rs →
      exec (.fclr a b) s = .next { v with g := advance v.g (1 + litsOf a + litsOf b) } ∧
      exec (.fres d a b true) s = .next { v with g := advance (rs.foldl (fun h r => writeDst h d r.1 (resolveWords r.2.nodes)) v.g) (1 + litsOf a + litsOf b) })) ∧
  (∀ (s s1 : State) (a : Src) (t r : List Byte), owedAt s.g 19 = none → readsClean s (srcRegs a 2) [firstLane s.g] → s1 = release s .dev → (src64 s.g false a (firstLane s.g)).toNat % 64 = 0 →
    coreRead s1 (src64 s.g false a (firstLane s.g)).toNat 64 = .ok t → tileRecOk t = true → coreRead s1 (tlStream t) 64 = .ok r → streamOk r (getFn s1 s.g.ctx.fn).slices.length = true →
    64 * tlTx t < smW r → 64 * tlTy t < smH r →
    ∃ u o, exec (.encTile a) s = .next u ∧ u = { s1 with handoffs := s.handoffs ++ [o], nextId := s.nextId + 1, g := advance s1.g (1 + litsOf a) } ∧
      o.id = s.nextId ∧ o.group = s.g.id ∧ o.launch = s.g.ctx.launch ∧ o.fn = s.g.ctx.fn ∧ o.deadline = s.g.ctx.deadline ∧ o.tile = t ∧ o.stream = r)

/-- A primitive's fragments are packed in order and none is lost (R244, R248). An insert whose turn it is performs its writes and retires (R257, R258): the newcomer stands behind
every node whose depth is at or before its own, and a merge takes the first pair of the least separation, by the target's rule, its result in the slot of the front existing node (R258, R259), of a
channel that is exactly zero its sign apart (log 33). The encoder lane accepts a
tile (R270), and encodes the first frame that is whole (R271): it writes what the ring takes of its bitstream, which is a free value (log 8), and wr, goes on when the ring has room again, and writes done after the
last byte; a failed write ends it with ERROR and no bytes. That the ring keeps one byte free, that rd and wr count modulo its size, and which read of the stream's record counts is the model's reading (log 38). -/
def Obligations.GraphicsEventsComplete : Prop :=
  (∀ (s : State) (p : Pass) (q : Prim), passOf s p.id = some p → nextPrim s p = some q →
    ∃ t x, exec (.primitiveRasterise p.id) s = .next t ∧ t = { s with passes := t.passes } ∧ passOf t p.id = some x ∧ x.prims = p.prims.filter (fun y => decide (y ≠ q)) ∧ x.nextSeq = p.nextSeq + 1 ∧
      (x.ready.map (·.2)).flatten ++ x.opened = (p.ready.map (·.2)).flatten ++ p.opened ++ fragmentsOf p.rcd q.rcd p.nextSeq) ∧
  (∀ (s u : State) (r : Insert) (ws : List (Nat × List Byte)), findFirst (fun x => decide (x.id = r.id)) s.inserts = some r → r.parked = false → insertFree s r = true →
    (∀ x ∈ s.inserts, x.parked = false) → insertWrites s r.fn r.target r.px r.py r.node = .ok ws → stageWrites r.fn ws s = .ok u →
    exec (.fragmentInsert r.id) s = .next { u with inserts := u.inserts.filter (fun x => decide (x.id ≠ r.id)) }) ∧
  (∀ (n : LNode) (l : List LNode),
      let atOrBefore (m : LNode) : Prop := cmpV (fF32.read m.depth.toNat) (fF32.read n.depth.toNat) = some .lt ∨ cmpV (fF32.read m.depth.toNat) (fF32.read n.depth.toNat) = some .eq
      ∃ a b, placeNode n l = a ++ n :: b ∧ l = a ++ b ∧ (∀ m ∈ b, ¬ atOrBefore m) ∧ ∀ m, a.getLast? = some m → atOrBefore m) ∧
  (∀ (rule i : Nat) (l : List LNode) (f k : LNode), l[i]? = some f → l[i + 1]? = some k →
      (∀ j a b, l[j]? = some a → l[j + 1]? = some b → sepLt (sepOf a.depth b.depth) (sepOf f.depth k.depth) = false ∧ (j < i → sepLt (sepOf f.depth k.depth) (sepOf a.depth b.depth) = true)) →
      let put (m : LNode) : LNode := if f.idx ≠ 65535 ∧ k.idx ≠ 65535 ∧ m.idx = 65535 then { m with idx := k.idx } else m
      ∃ n, mergeList rule l = (l.take i).map put ++ n :: (l.drop (i + 2)).map put ∧ n.idx = (if f.idx = 65535 then k.idx else f.idx) ∧ n.flags = 1 ∧ n.depth = f.depth ∧
        n.cover = (if rule = 1 then f.cover else f.cover ||| k.cover) ∧
        n.color = mergeChan rule f k 0 + 65536 * mergeChan rule f k 1 + 4294967296 * mergeChan rule f k 2 + 281474976710656 * mergeChan rule f k 3) ∧
  (∀ (a b : Word) (m n : Bool) (x y : Q), fF32.read a.toNat = .fin m x → fF32.read b.toNat = .fin n y →
      sepOf a b = (0, if x.lt y = false ∧ y.lt x = false then ⟨0, 1⟩ else Q.sub y x)) ∧
  (∀ (rule c : Nat) (f k : LNode), c < 4 →
      let read (color j : Nat) : FVal := fF16.read (color / 2 ^ (16 * j) % 65536)
      (∀ u v w x y a q, read f.color c = .fin u x → read k.color c = .fin v y → read f.color 3 = .fin w a →
        q = (if rule = 0 then Q.add (Q.mul (Q.sub ⟨1, 1⟩ a) y) x else if rule = 1 then x else Q.add (Q.mul ⟨popN 8 f.cover, 8⟩ x) (Q.mul ⟨popN 8 k.cover, 8⟩ y)) →
        (q.isZero = false → mergeChan rule f k c = (roundQ fF16 .rne false false q).bits) ∧ (q.isZero = true → mergeChan rule f k c = 0 ∨ mergeChan rule f k c = 0x8000)) ∧
      ((read f.color c).isNan = true ∨ (rule ≠ 1 ∧ (read k.color c).isNan = true) ∨ (rule = 0 ∧ (read f.color 3).isNan = true) → mergeChan rule f k c = 0x7E00)) ∧
  (∀ (s : State) (o : HandOff) (px : List Byte), findFirst (fun x => decide (x.id = o.id)) s.handoffs = some o → tilePixels s o = .ok px → startedUpTo s o.fn (tlStream o.tile) ≤ tlFrame o.tile →
    ∃ t, exec (.tileAccept o.id) s = .next t ∧ t = { s with handoffs := s.handoffs.filter (fun x => decide (x.id ≠ o.id)), frames := t.frames } ∧
      ∃ f ∈ t.frames, f.fn = o.fn ∧ f.stream = tlStream o.tile ∧ f.frame = tlFrame o.tile ∧ (tlTy o.tile * tilesAcross o.stream + tlTx o.tile, tileSamples (tileW o.stream o.tile) (fieldAt o.tile 12 1) px) ∈ f.tiles) ∧
  (∀ (s : State) (f : Frame) (r : List Byte), findFirst (fun x => decide (x.fn = f.fn ∧ x.stream = f.stream ∧ x.frame = f.frame)) s.frames = some f → frameReady s f = true → frameFirst s f = true →
    agentRead s f.fn f.stream 64 = .ok r →
    let out : List Byte := match f.rest with
      | some l => l
      | none => Config.bitstream [fieldAt r 0 1, smW f.rcd, smH f.rcd, fieldAt r 8 4, f.frame, s.now] (f.tiles.map (·.2)).flatten
    let total : Nat := if f.rest = none then out.length else f.total
    let size := smSize r
    let wr := fieldAt r 32 4 % max size 1
    let n := min out.length (size - 1 - (wr + size - fieldAt r 28 4 % max size 1) % max size 1)
    let s1 := keepFrame s f (out.drop n) total
    let run := exec (.frameEncode f.fn f.stream f.frame) s
    let late (v : State) : Nat := if f.deadline < (baseOf v f.fn).value then 4611686018427387904 else 0
    (∃ x ∈ s1.frames, x.fn = f.fn ∧ x.stream = f.stream ∧ x.frame = f.frame ∧ x.rest = some (out.drop n) ∧ x.total = total) ∧ f.frame < startedUpTo s1 f.fn f.stream ∧
    (∀ v, (n = 0 ∧ v = s1) ∨ (0 < n ∧ ∃ u, ringBytes s1 f.fn (smRing r) size wr (out.take n) = (u, none) ∧ agentMerge u f.fn (f.stream + 32) (natLe 4 ((wr + n) % size)) = .ok v) →
      (n < out.length → run = .next v) ∧
      (∀ w, n = out.length → agentMerge (dropFrame v f) f.fn (f.stream + 40) (natLe 8 (f.frame % 4294967296 + 4294967296 * (total % 1073741824) + late v + (if f.error then 9223372036854775808 else 0))) = .ok w →
        run = .next (raiseVector w f.fn 4))) ∧
    (∀ u x a v w, 0 < n → ringBytes s1 f.fn (smRing r) size wr (out.take n) = (u, some (x, a)) → v = laneRecord u f x a →
      agentMerge (dropFrame v f) f.fn (f.stream + 40) (natLe 8 (f.frame % 4294967296 + late v + 9223372036854775808)) = .ok w → run = .next (raiseVector w f.fn 4)))

-- 17: traversal

/-- TRVBOX and TRVTRI queue one request a thread (R337), with the record that the tester reads (R338): that it reads it at issue is the model's choice (log 66). The result of the record
stands in its lane's registers when the request returns (R339, R342, R343); that of a read that failed is a miss, and the group owes the trap (R339), here where it owes none of this slot yet. -/
def Obligations.TraversalTestsComplete : Prop :=
  (∀ (s : State) (tri : Bool) (d a : Dst) (b : Src), owedAt s.g 17 = none → readsClean s (dstRegs a 8 ++ srcRegs b 2) (activeLanes s.g) →
    (∀ l ∈ activeLanes s.g, (src64 s.g false b l).toNat % (if tri then 64 else 128) = 0 ∧ (src64 s.g false b l).toNat < 2251799813685248) →
    (s.trvs.filter (fun r => decide (r.region = regionOf s.g.core))).length + (activeLanes s.g).length ≤ 256 →
    exec (if tri then .trvtri d a b else .trvbox d a b) s = .next { s with trvs := s.trvs ++ (activeLanes s.g).zipIdx.map (fun e => queuedTest s tri d a b (s.nextId + e.2) e.1), nextId := s.nextId + (activeLanes s.g).length, g := advance s.g (1 + litsOf b) }) ∧
  (∀ (s : State) (r : TrvReq) (bs : List Byte), findFirst (fun x => decide (x.id = r.id)) s.trvs = some r → r.group = s.g.id → r.lane < 64 → r.fault = none → bs = r.bytes →
    ∃ t, exec (.traversalResult r.id) s = .next t ∧ t = { s with trvs := s.trvs.filter (fun x => decide (x.id ≠ r.id)), g := { s.g with regs := t.g.regs, regPoison := t.g.regPoison, idle := if s.g.phase = .issue ∧ registerWait s s.g = true ∧ registerWait t s.g = false then 0 else s.g.idle } } ∧
      ∀ k l, l < 64 → gReg t.g k l = match r.d with
        | .zero => gReg s.g k l
        | .reg c => let ws := if r.tri then triResult r.ray (wordsOf 9 bs) else boxResult r.ray (wordsOf 24 bs)
          if l = r.lane ∧ c ≤ k ∧ k < c + ws.length then ws.getD (k - c) 0 else gReg s.g k l) ∧
  (∀ (s : State) (r : TrvReq) (code cause : Nat), findFirst (fun x => decide (x.id = r.id)) s.trvs = some r → r.group = s.g.id → r.lane < 64 → r.fault = some (code, cause) → ¬ (code = 6 ∧ cause = 7) →
    owedAt s.g 17 = none →
    ∃ t o, exec (.traversalResult r.id) s = .next t ∧ t = { s with trvs := s.trvs.filter (fun x => decide (x.id ≠ r.id)), g := { s.g with regs := t.g.regs, regPoison := t.g.regPoison, owed := t.g.owed, idle := if s.g.phase = .issue ∧ registerWait s s.g = true ∧ registerWait t s.g = false then 0 else s.g.idle } } ∧
      owedAt t.g 17 = some o ∧ o.code = code ∧ o.detail = cause ∧ o.pos = r.pos ∧ o.off = r.off ∧ o.addr = r.addr ∧ o.lanes = 1#64 <<< r.lane ∧ (∀ j, j ≠ 17 → owedAt t.g j = owedAt s.g j) ∧
      ∀ k l, l < 64 → gReg t.g k l = match r.d with
        | .zero => gReg s.g k l
        | .reg c => let ws : List Word := if r.tri then [0x7F800000, 0, 0, 0] else [0, 0x7F800000]
          if l = r.lane ∧ c ≤ k ∧ k < c + ws.length then ws.getD (k - c) 0 else gReg s.g k l)

/-- The five stack instructions act on every active thread's stack, lowest lane first, and return its words (R346, R348); with TRAVTRAP a walk that ends by its depth raises TRAV_DEPTH after the
instruction (R347), which waits as a whole while a tester request is to write the pair that the trap saves, the model's reading of R339 (log 77).
What one thread's stack does (R344 to R346, R348): a push on chip, onto an ended walk, into the spill area and past it; a pop from the chip and from an empty stack; leaving an instance that
stands on chip; a read that does not stop the walk. That a pop of an empty stack writes the header, so that END EMPTY stands in memory, is the model's reading (log 37). -/
def Obligations.TraversalStackCompletes : Prop :=
  (∀ i e, stackSpec i = some e → ∀ (s u : State) (rs : List (Nat × StackStep)), owedAt s.g 17 = none → readsClean s e.reads (activeLanes s.g) → (∀ l ∈ activeLanes s.g, e.able s.g l) →
      eachStack e.step (activeLanes s.g) s [] = .ok (u, rs) →
      let v := { u with g := advance (rs.foldl (fun h r => writeDst (setStack h r.1 r.2.k) e.d r.1 r.2.words) u.g) e.words }
      ((∀ r ∈ rs, r.2.depth = false) ∨ s.g.ctx.kernel.travtrap = false → exec i s = .next v) ∧
      (s.g.ctx.kernel.travtrap = true → (∃ r ∈ rs, r.2.depth = true ∧ r.1 < 64) → trapWaits v = true → exec i s = .next { s with g := { s.g with stalled := true } }) ∧
      (s.g.ctx.kernel.travtrap = true → (∃ r ∈ rs, r.2.depth = true ∧ r.1 < 64) → trapWaits v = false →
        exec i s = .next (takeTrap v { code := 12, detail := (maskOf ((rs.filter (fun r => r.2.depth)).map (·.1))).toNat, lanes := maskOf ((rs.filter (fun r => r.2.depth)).map (·.1)) }))) ∧
  (∀ (s : State) (l : Nat) (x : DWord) (k : TStack), stackOf s.g l = k →
      (∀ e es, k.entries = e :: es → e.extractLsb' 62 2 = 0#2 → pushEntry s l x = .ok ⟨s, k, [], false⟩ ∧ popEntry s l = .ok ⟨s, k, [e.extractLsb' 0 32, e.extractLsb' 32 32], false⟩) ∧
      ((∀ e ∈ k.entries.head?, e.extractLsb' 62 2 ≠ 0#2) →
        (k.entries.length < 16 → pushEntry s l x = .ok ⟨s, { k with entries := x :: k.entries }, [], false⟩) ∧
        (∀ t u, 16 ≤ k.entries.length → k.blocks < stackCap s.g → areaWrite s l (stackArea s.g l + 64 + 64 * k.blocks) ((k.entries.drop 8).reverse.map (fun e => natLe 8 e.toNat)).flatten = .ok t →
          writeHeader t l { entries := x :: k.entries.take 8, blocks := k.blocks + 1, base := match topInst (k.entries.drop 8) with | some i => some i | none => k.base } = .ok u →
          pushEntry s l x = .ok ⟨u, { entries := x :: k.entries.take 8, blocks := k.blocks + 1, base := match topInst (k.entries.drop 8) with | some i => some i | none => k.base }, [], false⟩) ∧
        (∀ u, 16 ≤ k.entries.length → stackCap s.g ≤ k.blocks → writeHeader s l { entries := [2], blocks := 0, base := none } = .ok u → pushEntry s l x = .ok ⟨u, { entries := [2], blocks := 0, base := none }, [], true⟩) ∧
        (∀ e es, k.entries = e :: es → popEntry s l = .ok ⟨s, { k with entries := es }, [e.extractLsb' 0 32, e.extractLsb' 32 32], false⟩)) ∧
      (∀ u, k.entries = [] → k.blocks = 0 → writeHeader s l k = .ok u → popEntry s l = .ok ⟨u, k, [1, 0], false⟩) ∧
      (∀ u es, (topInst k.entries).isSome = true → es = (k.entries.dropWhile (fun e => decide (e.extractLsb' 62 2 ≠ 2#2))).drop 1 → writeHeader s l { k with entries := es } = .ok u →
        leaveInst s l = .ok ⟨u, { k with entries := es }, [], false⟩) ∧
      ∃ st inst, readStack s l false = .ok ⟨s, k, [BitVec.ofNat 32 (k.entries.length + 32 * k.blocks + 65536 * st), inst], false⟩ ∧ st = (if k.entries.head? = some 2 then 2 else if k.entries = [] ∧ k.blocks = 0 then 1 else 0))

-- 02, 10, 13, 15: how a group comes to issue

/-- CLAUSE_FETCH reads and checks the clause at the position, or arrives at the current join (R23, R28, R296). WAIT_MASK_SATISFIED lets the first instruction issue when every condition
of the mask holds, serves an owed trap first (R24, R25, R409), and leaves the group where it is under a pre-emption request (R328).
Waits and stops of a group: a tag wait tries its instruction again (R190, R211) and times out after 2^20 cycles (R212), but no longer once a pre-emption request has come (R328), with no address in
its trap's record, which is the model's choice (log 70); a stall ends; a group stops (R328), here one that is neither in a
window nor waits at a semaphore; a drain pre-empts one group, once the pool takes its bobbin (R322, R330); 2^31 cycles without progress end its launch (R417); 4,096 cycles after it opened
the one window of a grid on a core starts its re-pack (R283). -/
def Obligations.GroupEventsComplete : Prop :=
  (∀ s : State,
      (s.g.phase = .fetch → s.g.hollow = false → atJoin s.g = false →
        (∀ t c, readClause s s.g.pos = .ok (t, c) → exec (.clauseFetch s.g.id) s = .next { t with g := { t.g with clause := c, phase := .waitMask, since := if t.g.off = 0 then t.nextId else t.g.since, till := if t.g.off = 0 then none else t.g.till }, quantum := t.quantum + 1 } ∧ (clauseStarts c).isSome = true) ∧
        (∀ x a, readClause s s.g.pos = .error (x, a) → exec (.clauseFetch s.g.id) s = .next (takeTrap s { code := x.code, detail := x.cause, addr := a }))) ∧
      (s.g.phase = .fetch → s.g.hollow = false → atJoin s.g = true → exec (.clauseFetch s.g.id) s = .next (arriveJoin s)) ∧
      (s.g.phase = .waitMask → s.g.preempt = false → maskHolds s s.g = true →
        (owedServed s.g (maskSlots s.g) = none → exec (.waitMaskSatisfied s.g.id) s = .next { s with g := { s.g with phase := .issue, off := max s.g.off 1, till := none, idle := if maskWaited s.g then 0 else s.g.idle } }) ∧
        (∀ e, owedServed s.g (maskSlots s.g) = some e → exec (.waitMaskSatisfied s.g.id) s = .next (takeOwed s e))) ∧
      (s.g.phase = .waitMask → (s.g.preempt = true ∨ maskHolds s s.g = false) → exec (.waitMaskSatisfied s.g.id) s = .next s)) ∧
  (∀ s : State,
      (∀ i d x a o sc sp, i = .ldf d a o sc sp ∨ i = .ldfe d a o sc sp ∨ i = .stef x a o sc sp → s.g.phase = .issue → s.g.preempt = false → s.g.tagWait.isSome = true → instrAt s.g = .ok i →
        ∃ t, exec (.tagWaitSatisfied s.g.id) s = .next t ∧ exec i s = .next t) ∧
      (s.g.preempt = true → exec (.tagWaitSatisfied s.g.id) s = .next s ∧ exec (.tagTimeout s.g.id) s = .next s) ∧
      (∀ n, s.g.phase = .issue → s.g.preempt = false → s.g.tagWait = some n →
        exec (.tagTimeout s.g.id) s = .next (if 1048576 ≤ n then takeTrap s { code := 8, lanes := s.g.active &&& ~~~ s.g.m } else s)) ∧
      (s.g.phase = .issue → exec (.issueStallEnd s.g.id) s = .next { s with g := { s.g with stalled := false } }) ∧
      (stoppable s.g = true → s.windows = [] → (∀ o d n, s.g.waiting ≠ .semaphore o d n) → exec (.groupStop s.g.id) s = .next { s with g := { s.g with phase := .stopped, stalled := false, tagWait := none, early := [] } }) ∧
      (residentGroup s.g = true → s.g.preempt = false → s.g.phase ≠ .placed → s.g.hollow = false → poolTakes s s.g.ctx.fn [s.g] = true → exec (.coreDrain s.g.id) s = .next { s with g := { s.g with preempt := true, drainReq := true } }) ∧
      (residentGroup s.g = true → 2147483648 ≤ s.g.idle → exec (.watchdog s.g.id) s = .next (updLaunch (endLaunch s s.g.ctx.launch 4 17) s.g.ctx.launch (fun x => { x with detail := 1 }))) ∧
      (∀ w, s.windows.filter (fun x => decide (x.core = w.core ∧ x.launch = w.launch)) = [w] →
        exec (.regroupTimeout w.core w.launch w.site) s = .next (if w.opened + 4096 ≤ coreCycles s w.core then startRepack s w else s)))

/-- The front end: a whole packet of the queue whose turn it is is taken and rd moves on; a torn slot is noted, and stops its queue when it is still torn 4,096 cycles later (R313). A packet
that can be released, with none before it, becomes one launch, numbered in release order (R318). A launch whose work has ended completes; that of one with no node record and a tree that is gone
leaves its status word in memory (R324, R325). Which queue has its turn is the model's choice (log 51). Where the write of rix fails the queue stops (R313); that its packet has been taken and rd has moved on all the same, as the fetch clause says of
every case, is the model's reading (log 45). -/
def Obligations.FrontEndCompletes : Prop :=
  (∀ (s : State) (fn n : Nat) (q : Queue) (w p : List Byte), q = queueOf (getFn s fn) n → fn < s.fns.length → q.opened = true → q.stop = false → agentRead s fn (slotVA q q.rd) 64 = .ok p →
    (∀ s1, (getFn s fn).quiesced = false → nextQueue s fn = some n → s1 = setFn s fn { getFn s fn with served := n } → agentRead s1 fn (slotVA q q.rd) 64 = .ok p → agentRead s1 fn q.wix 4 = .ok w → (leNat w + 4294967296 - q.rd) % 4294967296 ≠ 0 → (leNat w + 4294967296 - q.rd) % 4294967296 ≤ queueSlots q →
      (packetWhole q q.rd p = true → ∃ t k, exec (.queueFetch fn n) s = .next t ∧ t.packets = s.packets ++ [k] ∧ k.fn = fn ∧ k.queue = some n ∧ k.ix = q.rd ∧ k.bytes = p ∧
        (queueOf (getFn t fn) n).rd = (q.rd + 1) % 4294967296) ∧
      (packetWhole q q.rd p = false → q.tornAt = none → exec (.queueFetch fn n) s = .next (setQueue s1 fn n { q with tornAt := some 0 }))) ∧
    (∀ c, q.tornAt = some c → 4096 ≤ c → packetWhole q q.rd p = false →
      ∃ t, exec (.queueTorn fn n) s = .next t ∧ (queueOf (getFn t fn) n).stop = true ∧ (queueOf (getFn t fn) n).torn = 1 ∧ t.packets = s.packets)) ∧
  (∀ (s : State) (k : Packet), findFirst (fun x => decide (x.id = k.id)) s.packets = some k → canRelease s k = true → (∀ x ∈ s.packets, x.fn = k.fn → canRelease s x = true → lexLt (releaseKey x) (releaseKey k) = false) →
    ∃ t l, exec (.launchRelease k.id) s = .next t ∧ t.packets = s.packets.filter (fun x => decide (x.id ≠ k.id)) ∧ t.launches = s.launches ++ [l] ∧ l.fn = k.fn ∧ l.kind = pkKind k.bytes ∧
      l.seq = (getFn s k.fn).releaseSeq + 1 ∧ l.released = (baseOf s k.fn).value ∧ l.deadline = pkDeadline k.bytes ∧ (k.fn < s.fns.length → (getFn t k.fn).releaseSeq = (getFn s k.fn).releaseSeq + 1)) ∧
  (∀ (s : State) (l : Launch), getLaunch s l.id = some l → launchDone s l = true →
    ∃ t, exec (.launchComplete l.id) s = .next t ∧ (∀ x ∈ t.launches, x.id ≠ l.id) ∧ (∀ x ∈ t.passes, x.launch ≠ l.id) ∧
      (∀ u, l.node = 0 → l.status ≠ 0 → vaOk l.status 8 = true → treeOf_ s l.tree = none → pkRepl l.packet = false →
        agentWrite s l.fn l.status (natLe 8 (l.code + 256 * l.trap + 65536 * l.offset + (if l.deadline < (baseOf s l.fn).value then 4294967296 else 0) +
          (if l.krec then 8589934592 else 0) + (if l.nrec then 34359738368 else 0))) = .ok u → t.mem = u.mem))

/-- TEAM_PLACE gives the first ready team that fits the cores of a region (R321): its groups stand at the kernel's entry with every lane active (R275). A saved group leaves its
bobbin's bytes in the pool (R329 to R332), and a placed one, alone of its team, fetches at its position again, with no translation kept (R334, R335, R373); the other words of a sector that a poisoned register shared come back poisoned. The model's choices here: the key under which the bobbin's bytes
stand (log 17), that a resume takes the group's record and not the bytes (log 47), and that saved commands wait for entries of the scoreboard (log 52). -/
def Obligations.PlacementCompletes : Prop :=
  (∀ (s s1 : State) (fn g : Nat) (r x : Ready) (l : List Ready) (la : Launch) (cores : List Nat), s1 = settleTeams s → (getFn s1 fn).quiesced = false → evictionDue s1 fn (regionsOf (getFn s1 fn)) = none →
    readyAll s1 fn = r :: l → firstFit s1 (regionsOf (getFn s1 fn)) (r :: l) = some (x, g, cores) → x.src = .fresh la → la.ctx.kernel.team = cores.length →
    ∃ t m, exec (.teamPlace fn) s = .next t ∧ t.teams = s1.teams ++ [m] ∧ m.launch = la.id ∧ m.teamix = la.nextTeam ∧ m.region = g ∧ m.size = cores.length ∧
      ∀ j, j < cores.length → ∃ h ∈ allGroups t, h.team = m.id ∧ h.ginteam = j ∧ h.core = cores.getD j 0 ∧ h.grpix = la.nextTeam * cores.length + j ∧ h.phase = .fetch ∧
        h.pos = la.ctx.kernel.entry ∧ h.off = 0 ∧ h.active = fullMask la.ctx.kernel.width ∧ h.regs = [] ∧ h.rc = []) ∧
  (∀ (s : State) (h : Group) (a : Nat), getGroup s h.id = some h → saveReady s h = true → findRun (getFn s h.ctx.fn).pool (getFn s h.ctx.fn).bobbins (bobbinBytes s h).length = some a → s.windows = [] →
    ∃ t, exec (.bobbinSave h.id) s = .next t ∧ getGroup t h.id = some { h with phase := .saved, bobbin := some a, preempt := false, clause := [] } ∧
      ∀ i, i < (bobbinBytes (cleanL1 s (fun x => decide (x.core = h.core))) h).length →
        memByte t aqmalKey (a + i) = (bobbinBytes (cleanL1 s (fun x => decide (x.core = h.core))) h).getD i 0) ∧
  (∀ (s : State) (team : Nat), (teamGroups s team).filter (fun h => decide (h.phase = .placed)) = [s.g] → bobbinBad s s.g = false → s.g.hollow = false → (∀ e ∈ s.g.rc.head?, e.deferred = false) →
    boardTakes s [s.g] = true → inService s (arrKey (regionOf s.g.core) 0) = true ∨ inService s (arrKey (regionOf s.g.core) 1) = true →
    ∃ t, exec (.teamResume team) s = .next t ∧ t.g = { s.g with phase := .fetch, bobbin := none, regPoison := sectorPoison s.g, drainReq := false, stalled := false, tagWait := none, idle := 0 } ∧ t.others = s.others ∧
      (∀ e ∈ t.tlb, e.fn ≠ s.g.ctx.fn) ∧ t.mem = s.mem ∧ ∀ c ∈ t.cmds, c.group = s.g.id → c.region = regionOf s.g.core ∧ c.array = c.tile / 8)

/-- A unit of a slice that had work pending and made no progress for 100 ms resets the slice: the launches that touch it end with code 4 and trap 17, detail 2, and its
instruction caches and L1s hold nothing (R408, R418, R420); a unit that does not hang resets nothing. A function-level reset leaves no packet, tree, edge,
object, translation, queue or loaded key value of the function, and no lease that it borrows active or under notice (R422). The model's choices here: that packets and edges go as well (log 41), what counts as a unit, its pending work and its
progress in `hangs` (log 56), and that a reset stands in Aqmal's queue behind events that share a slice, and waits for the locks of a request under way (log 55). A function-level reset comes only
where Aqmal runs and presents functions (R393). -/
def Obligations.ResetsComplete : Prop :=
  ∀ (s : State) (p unit fn : Nat),
    (∀ o, fnOfSlice s p = some o → hangs s o p unit = true → eventTurn s (.hang p unit) = true → ∃ t, exec (.hang p unit) s = .next t ∧
      (∀ l ∈ s.launches, l.stopped = false → touchesSlice s p l = true → ∀ x ∈ t.launches, x.id = l.id → x.stopped = true ∧ x.code = 4 ∧ x.trap = 17 ∧ x.detail = 2) ∧
      (∀ e ∈ t.icache, sliceOfCore e.1 ≠ p) ∧ (∀ x ∈ t.l1, sliceOfCore x.core ≠ p)) ∧
    (∀ o, fnOfSlice s p = some o → hangs s o p unit = true → eventTurn s (.hang p unit) = false → exec (.hang p unit) s = .next (joinQueue s (.hang p unit))) ∧
    ((∀ o, fnOfSlice s p = some o → hangs s o p unit = false) → .hang p unit ∉ s.mailq → exec (.hang p unit) s = .next s) ∧
    (s.boot ≠ .running → exec (.functionLevelReset fn) s = .next s) ∧
    (s.boot = .running → eventTurn s (.reset fn) = false → exec (.functionLevelReset fn) s = .next (joinQueue s (.reset fn))) ∧
    (s.boot = .running → eventTurn s (.reset fn) = true → ∃ t, exec (.functionLevelReset fn) s = .next t ∧ (∀ k ∈ t.packets, k.fn ≠ fn) ∧ (∀ k ∈ t.trees, k.fn ≠ fn) ∧ (∀ e ∈ t.edges, e.1 ≠ fn) ∧ (∀ o ∈ t.objs, o.fn ≠ fn) ∧
      (∀ e ∈ t.tlb, e.fn ≠ fn) ∧ (fn, 0) ∈ t.msix ∧ (fn < t.fns.length → (getFn t fn).queues = [] ∧ (getFn t fn).root = 0 ∧ (getFn t fn).chip = [] ∧ ∀ e ∈ t.keys, (getFn t fn).keyBlocks.getLsbD (e.1 / 64) = false) ∧
      ((∃ q ∈ (getFn s fn).slices, fnOfSlice s q = some fn) → (∀ x ∈ s.leases, x.rcd.length = 64) → ∀ x ∈ t.leases, x.granted = true → fieldAt x.rcd 2 1 % 32 = fn → 2 ≤ leaseState x))

-- 19 to 22: memory, clocks, power, links and the host

/-- PAGE_WALK fills the translation cache (R372, R373). PATROL_READ counts a corrected error in its channel's window, poisons a sector with an uncorrectable one (R399, R400), does nothing while the dies stay in the ROM (R393), and
stops where the package has no memory (R15). A channel steps its rate down past 4,096 corrected errors in a second, and trains (R404).
A die's clock falls 100 MHz a thermal event, to no less than 1.0 GHz, and rises one step a millisecond (R406). Power removal loses all but host memory (R20), the turns to come being the model's (log 2). The boot ROM locks the
carve-outs, copies the image (body, modulus, signature), and starts Aqmal only where the checks of R393 pass: the modulus has the fused digest and the signature verifies, else code 1;
the security version is not below the fuses', else code 2; the digests of the two copies agree, else code 3. The model's choices here: code 1 for a header that no image has (log 6), the
stop at an absent sector (log 7), the fused digest and security version, which are free values, and the byte orders of the modulus and the signature (log 9), the key under which firmware is stored (log 17), and the sizes of the carve-outs and which channel serves a sector (log 18). -/
def Obligations.MemoryAndPowerComplete : Prop :=
  ((∀ (s : State) (fn slice va leaf lv a k : Nat), va < 2251799813685248 → tlbFind s fn va = none → walk s fn va = .ok (leaf, lv, a, k) →
      exec (.pageWalk (fn, slice) va) s = .next { s with tlb := s.tlb ++ [{ fn := fn, base := va / pageSize lv * pageSize lv, size := pageSize lv, leaf := leaf }] }) ∧
    (∀ (s : State) (sec : Nat) (c : Check), (sec < 9663676416 → running s = false → exec (.patrolRead sec c) s = .next s) ∧ (sec < 9663676416 → running s = true → exec (.patrolRead sec .clean) s = .next s ∧
        (∃ t, exec (.patrolRead sec .corrected) s = .next t ∧ smGet {} t.chans (channelOf sec) = countCorrected s.now (smGet {} s.chans (channelOf sec)) ∧ t.poison = s.poison ∧ t.mem = s.mem) ∧
        (∃ t, exec (.patrolRead sec .uncorrectable) s = .next t ∧ smGet false t.poison sec = true ∧ (∀ k, k ≠ sec → smGet false t.poison k = smGet false s.poison k) ∧ t.mem = s.mem)) ∧
      (9663676416 ≤ sec → exec (.patrolRead sec c) s = .fault .spaAbsent)) ∧
    (∀ (s : State) (ch : Nat) (c : Chan), c = smGet {} s.chans ch →
      (running s = true → ch < 48 → c.due = true → 24 < c.rate →
        ∃ t, exec (.channelStep ch) s = .next t ∧ smGet {} t.chans ch = { c with rate := if c.rate = 40 then 32 else 24, due := false, training := true }) ∧
      ∃ t, exec (.channelRetrainDone ch) s = .next t ∧ smGet {} t.chans ch = { c with training := false } ∧ t = { s with chans := t.chans })) ∧
  ((∀ (s : State) (die : Nat) (d : Die), die < 2 → s.dies[die]? = some d →
      (10 < d.clock → ∃ t, exec (.thermal die) s = .next t ∧ t.dies[die]? = some { d with clock := d.clock - 1, changed := s.now }) ∧
      (d.clock ≤ 10 → exec (.thermal die) s = .next s) ∧
      (d.clock < 20 → d.changed + 1000000 ≤ s.now → ∃ t, exec (.clockStepUp die) s = .next t ∧ t.dies[die]? = some { d with clock := d.clock + 1, changed := s.now }) ∧
      exec (.thermalTrip die) s = .next { s with thermalTrip := true }) ∧
    (∀ s : State, exec .powerRemoval s = .next { State.reset with agenda := s.agenda, mem := s.mem.filter (fun c => decide (hostBase ≤ c.1)), boot := .off } ∧
      (s.boot = .rom ∨ s.boot = .off → ∃ t, exec .powerUp s = .next t ∧ t.carve = [carveReg 0, carveReg 1] ∧
        let n := fieldAt (memRead s aqmalKey s.bootWord.toNat 16) 12 4
        let copy (d : Nat) : List Byte := memRead t aqmalKey (carveRange t d).1 (n + 768)
        let body (d : Nat) : List Byte := (copy d).take n
        let modulus := bytesAt (copy 0) n 384
        let good : Prop := fieldAt (body 0) 0 4 = 0x4C4D5141 ∧ fieldAt (body 0) 12 4 % 64 = 0 ∧ fieldAt (body 0) 12 4 ≠ 0 ∧ sha256 modulus = Config.fusedKeyHash ∧
          pssOk modulus (bytesAt (copy 0) (n + 384) 384) (body 0) = true
        (¬ good → t.boot = .failed 1 ∧ t.bootWord = 1) ∧
        (good → fieldAt (body 0) 8 4 < Config.fusedMinSvn → t.boot = .failed 2 ∧ t.bootWord = 2) ∧
        (good → Config.fusedMinSvn ≤ fieldAt (body 0) 8 4 → sha256 (body 0) ≠ sha256 (body 1) → t.boot = .failed 3 ∧ t.bootWord = 3) ∧
        (good → Config.fusedMinSvn ≤ fieldAt (body 0) 8 4 → sha256 (body 0) = sha256 (body 1) →
          t.boot = .running ∧ t.measurement = sha256 (body 0) ∧ t.svn = fieldAt (body 0) 8 4))))

/-- A link loses a module (R381); a datum that fails nine times is delivered poisoned, and one that fails less often is not (R398): a sector of device memory in the L2, one on its way to a core
in that core's L1, where the bytes it has not stored read as poison, while a sector of host memory stays sound for other readers; the first PTP message of the path that a partition takes its
time from sets the bases of its slices, and a later one slews their rates by at most 200 ppm (R391), the path and the rate being free values (logs 53 and 18). The host reads and writes
through BAR 2 (R383), writes the mailbox's writable bytes (R394, R402), beyond seq, and host memory, where no L1 holds a sector (R199). -/
def Obligations.HostAndLinksComplete : Prop :=
  (∀ (s : State) (link : Nat), link < 2 → s.linksDown.length = 2 → s.linksDown.getD link 0 < linkModules link →
    ∃ t, exec (.linkDown link) s = .next t ∧ t.linksDown.getD link 0 = s.linksDown.getD link 0 + 1 ∧ t.linksDown.getD (1 - link) 0 = s.linksDown.getD (1 - link) 0) ∧
  (∀ (s : State) (sec n : Nat), (1 ≤ n → n < 9 → ∃ t, exec (.linkRetry (.sector sec) n) s = .next t ∧ t.poison = s.poison) ∧
    ∃ t, exec (.linkRetry (.sector sec) 9) s = .next t ∧ t.mem = s.mem ∧
      if isHostSec sec = true then t.poison = s.poison else smGet false t.poison sec = true ∧ ∀ k, k ≠ sec → smGet false t.poison k = smGet false s.poison k) ∧
  (∀ (s : State) (core sec key : Nat) (x : L1Sec), l1Find s core sec = some x → x.key = key → x.dirty = List.replicate 32 false →
    (∀ n, 1 ≤ n → n < 9 → ∃ t, exec (.linkRetry (.beat core sec key true) n) s = .next t ∧ t.l1 = s.l1) ∧
    (∃ t, exec (.linkRetry (.beat core sec key true) 9) s = .next t ∧ t.mem = s.mem ∧ t.poison = s.poison ∧ ∀ b, b < 32 → l1Byte t core key (32 * sec + b) false = none) ∧
    ∃ t, exec (.linkRetry (.beat core sec key false) 9) s = .next t ∧ t.mem = s.mem ∧ t.poison = s.poison ∧ ∀ b, b < 32 → l1Byte t core key (32 * sec + b) false = none) ∧
  (∀ (s : State) (fn : Nat) (fabric : Bool) (ns : DWord), running s = true →
    (fabric ≠ Config.fabricTime fn → exec (.ptpEventMessage (fn, fabric) ns) s = .next s) ∧
    (fabric = Config.fabricTime fn → (getFn s fn).slices.Nodup → ∃ t, exec (.ptpEventMessage (fn, fabric) ns) s = .next t ∧ t = { s with bases := t.bases } ∧
      ∀ p, let b := smGet {} s.bases p
        let c := smGet {} t.bases p
        (p ∉ (getFn s fn).slices → c = b) ∧ (p ∈ (getFn s fn).slices → b.set = false → c = { b with value := ns.toNat, set := true }) ∧
        (p ∈ (getFn s fn).slices → b.set = true → c = { b with rate := c.rate } ∧ -200 ≤ c.rate ∧ c.rate ≤ 200))) ∧
  (∀ (s t : State) (fn va n : Nat) (bs : List Byte), running s = true →
    (va + n ≤ 68719476736 → agentRead s fn va n = .ok bs → exec (.hostBarAccess fn va (.read n)) s = .next { s with hostData := some bs }) ∧
    (va + bs.length ≤ 68719476736 → agentWrite s fn va bs = .ok t → exec (.hostBarAccess fn va (.write bs)) s = .next t)) ∧
  (∀ (s : State) (fn off : Nat) (bs : List Byte), running s = true → fn < s.fns.length → 4 ≤ off → off + bs.length ≤ 65536 →
    ∃ t, exec (.registerWrite fn off bs) s = .next t ∧ t = { s with fns := t.fns } ∧
      ∀ a, smGet 0 (getFn t fn).bar0 a = if off ≤ a ∧ a < off + bs.length ∧ hostWritable a = true then bs.getD (a - off) 0 else smGet 0 (getFn s fn).bar0 a) ∧
  (∀ (s : State) (off : Nat) (bs : List Byte), off + bs.length ≤ 2251799813685248 → s.l1 = [] → ∃ t, exec (.hostWrite off bs) s = .next t ∧
    ∀ a, memByte t 0 a = if hostBase + off ≤ a ∧ a < hostBase + off + bs.length then bs.getD (a - (hostBase + off)) 0 else memByte s 0 a)

-- 18, 21: requests

/-- Completion (R394): resp, status, done equal to seq, and vector 0, where nothing but requests waits in Aqmal's queue (log 55); a RATOMIC that is unanswered goes with the request of the
physical function, and so does what a SPLIT, a MOVE or a CAPTURE under way had set aside (log 43).
A request that the physical function keeps, or that names another function, is refused with status 4 to a virtual one, and a set byte that it does not name is status 2 (R395). -/
def Obligations.RequestsAreAnswered : Prop :=
  (∀ (s : State) (fn st off : Nat) (bs : List Byte), fn < s.fns.length → st < 65536 → 256 ≤ off → (∀ e ∈ s.mailq, ∃ k, e = .request k) →
      let t := complete s fn st [(off, bs)]
      reqDone (getFn t fn) = reqSeq (getFn s fn) ∧ bar0Read (getFn t fn) 10 2 = st ∧ argBytes (getFn t fn) off bs.length = bs ∧ outstanding (getFn t fn) = false ∧ t.ratomic = (if fn = 0 then none else s.ratomic) ∧ (.request fn ∉ t.mailq) ∧
        t.msix = (fn, 0) :: s.msix ∧
        ∀ k, k ≠ fn → getFn t k = if fn = 0 ∧ k < s.fns.length then { getFn s k with leaving := [], quiesced := (getFn s k).captured } else getFn s k) ∧
  (∀ (fn op sub : Nat) (names : Bool) (used : Fn → List (Nat × Nat)) (k : Fn → State) (s : State), requestReady s fn op sub = true →
      (fn ≠ 0 → physicalOnly op = true ∨ names = true ∧ arg (getFn s fn) 16 1 ≠ fn → request fn op sub names used k s = .next (complete s fn 4 [])) ∧
      (fn = 0 ∨ (physicalOnly op = false ∧ (names = true → arg (getFn s fn) 16 1 = fn)) → restZero (getFn s fn) (used (getFn s fn)) = false → request fn op sub names used k s = .next (complete s fn 2 [])))

/-- Requests that change a partition complete with their resp. FUSE appends slices, with the ways and key blocks that no other function holds and the partition's time base (R355). SPLIT, its
slices drained, takes them with their cache ways and key ranges out of the table, the rest keeping their order, and scrubs their time bases (R356). MOVE, its slice drained, rewrites the one table
entry; the ways, the key range and the time base go along (R357). WAYS gives every way named to its new role and to no other function (R358), the L1s of a partition that loses one being cleaned
first. KEYS moves blocks and erases their values (R361). Every other function stays as it was, but for WAYS. The model's choices here: that SPLIT and FUSE leave a cache way on each die (logs 54, 58), and that stores which wait are performed before scratchpad ways leave
(log 50). -/
def Obligations.PartitionRequestsComplete : Prop :=
  ∀ (s : State) (t : Nat) (f : Fn), f = getFn s 0 → t = arg f 16 1 → t < s.fns.length → t < 17 →
    (Asked s 0 0x01 0 true [(16, 2), (24, min (arg f 17 1) 16)] → fuseStatus s t (arg f 17 1) (fuseList f) = 0 →
      ∃ u, exec (.fuse 0) s = .next (complete u 0 0 [(256, tableBytes (getFn u t))]) ∧ u = { s with fns := u.fns, bases := u.bases } ∧ (∀ k, k ≠ t → getFn u k = getFn s k) ∧
        (getFn u t).slices = (getFn s t).slices ++ fuseList f ∧ (getFn u t).cacheWays = (getFn s t).cacheWays ++ ((fuseList f).map defaultWays).flatten.filter (fun w => (fnOfWay s w).isNone) ∧
        (getFn u t).keyBlocks = (getFn s t).keyBlocks ||| ((fuseList f).foldl (fun m p => m ||| blocksOf s p) 0 &&& ~~~ heldBlocks s t) ∧
        ∀ p ∈ fuseList f, (getFn s t).slices ≠ [] → smGet {} u.bases p = baseOf s t) ∧
    (∀ l, Asked s 0 0x02 0 true [(16, 1), (24, 2)] → l = maskSlices (getFn s t) (arg f 24 2) → arg f 24 2 ≠ 0 → arg f 24 2 < 2 ^ (getFn s t).slices.length → cachesOk (withoutSlices (getFn s t) l) = true →
      splitBusy s t l = false → splitDrained s t l = true → (getFn s t).leaving = l →
      ∃ u, exec (.split 0) s = .next (complete u 0 0 [(256, tableBytes (getFn u t))]) ∧ (∀ k, k ≠ t → getFn u k = getFn s k) ∧
        (getFn u t).slices = (getFn s t).slices.filter (fun p => !l.contains p) ∧ (getFn u t).cacheWays = (getFn s t).cacheWays.filter (fun w => !l.contains (w / 4)) ∧
        (getFn u t).keyBlocks = (getFn s t).keyBlocks &&& ~~~ (l.foldl (fun m p => m ||| blocksOf s p) 0) ∧ (getFn u t).leaving = [] ∧ (∀ p ∈ l, smGet {} u.bases p = {}) ∧
        ∀ p, (getFn u t).slices.head? = some p → smGet {} u.bases p = baseOf s t) ∧
    (∀ p, Asked s 0 0x03 0 true [(16, 1), (24, 2)] → (getFn s t).slices[arg f 24 1]? = some p → arg f 25 1 < 16 → targetFree s t (arg f 24 1) p (arg f 25 1) = true → leaseOn s p = false →
      regionBusy s (fun r => decide (sliceOfRegion r = p)) = false → (getFn s t).leaving = [p] →
      ∃ u, exec (.move 0) s = .next (complete u 0 0 [(256, tableBytes (getFn u t))]) ∧ (∀ k, k ≠ t → getFn u k = getFn s k) ∧
        getFn u t = { getFn s t with slices := setAt (getFn s t).slices (arg f 24 1) (arg f 25 1), leaving := [], cacheWays := (getFn u t).cacheWays, spadWays := (getFn u t).spadWays } ∧
        (getFn u t).cacheWays = (getFn s t).cacheWays.map (fun w => if w / 4 = p then w + 4 * arg f 25 1 - 4 * p else w) ∧
        (getFn u t).spadWays = (getFn s t).spadWays.map (fun w => if w / 4 = p then w + 4 * arg f 25 1 - 4 * p else w) ∧
        u.ranges = setAt (setAt s.ranges (arg f 25 1) (s.ranges.getD p p)) p (s.ranges.getD (arg f 25 1) (arg f 25 1)) ∧ smGet {} u.bases (arg f 25 1) = smGet {} s.bases p) ∧
    (∀ l new g, Asked s 0 0x04 0 true [(16, 3), (20, 4)] → l = maskWays (arg f 17 1) (arg f 20 4) → arg f 17 1 < 2 → arg f 18 1 < 2 → onDie (getFn s t) (arg f 17 1) = true → l ≠ [] →
      (∀ w ∈ l, (fnOfWay s w).isSome = true) → new = (List.zip (List.range s.fns.length) s.fns).map (fun e => afterWays t (decide (arg f 18 1 = 1)) l e.1 e.2) → waysOk s new = true → g = new.getD t {} →
      exec (.ways 0) s = .next (complete (changeWays s t (decide (arg f 18 1 = 1)) l new) 0 0
        [(256, natLe 4 (waysDie g.cacheWays 0) ++ natLe 4 (waysDie g.cacheWays 1) ++ natLe 4 (waysDie g.spadWays 0) ++ natLe 4 (waysDie g.spadWays 1))]) ∧
      (∀ k, k < s.fns.length → (getFn (changeWays s t (decide (arg f 18 1 = 1)) l new) k).cacheWays = (new.getD k {}).cacheWays ∧
        (getFn (changeWays s t (decide (arg f 18 1 = 1)) l new) k).spadWays = (new.getD k {}).spadWays) ∧
      ∀ w ∈ l, w ∈ (if arg f 18 1 = 1 then g.spadWays else g.cacheWays) ∧ w ∉ (if arg f 18 1 = 1 then g.cacheWays else g.spadWays) ∧ ∀ k, k ≠ t → w ∉ waysOf (new.getD k {})) ∧
    (∀ r m, Asked s 0 0x05 0 true [(16, 2), (24, 16)] → r = arg f 17 1 → r < s.fns.length → r < 17 → t ≠ r → m = BitVec.ofNat 128 (arg f 24 16) → m &&& ~~~ (getFn s t).keyBlocks = 0 →
      ∃ u b, exec (.keys 0) s = .next (complete u 0 0 [(256, natLe 16 b)]) ∧ (getFn u t).keyBlocks = (getFn s t).keyBlocks &&& ~~~ m ∧ (getFn u r).keyBlocks = (getFn s r).keyBlocks ||| m ∧
        (∀ k, k ≠ t → k ≠ r → getFn u k = getFn s k) ∧ b = ((getFn s r).keyBlocks ||| m).toNat ∧ ∀ e ∈ u.keys, m.getLsbD (e.1 / 64) = false)

/-- Requests of a lease's parties complete with their resp (R394). The lender's offer stands under the array's index, not granted (R362); the borrower's acceptance grants it, and the array serves the
host region (R363); RECLAIM puts an active lease into notice, RETURN ends one, METER answers its record to either party (R365, R366). At the end of the notice the lease is revoked and no command
that has not started is left in the lent array; a quota that is reached ends an active lease or one under notice (R365, R366). That both stand in Aqmal's queue behind events that share a slice, and wait for the locks of a request under way, is the model's reading (log 55). -/
def Obligations.LeaseRequestsComplete : Prop :=
  ∀ (s : State) (fn : Nat) (f : Fn), f = getFn s fn →
    (∀ host key, Asked s fn 0x06 0 false [(24, 64)] → leaseRecOk (argBytes f 24 64) fn = true → leasePlace s fn (argBytes f 24 64) = some (host, key) → leaseTaken s host key = false →
      ∃ u l, exec (.leaseLender fn) s = .next (complete u fn 0 [(256, natLe 4 key)]) ∧ leaseOf u key = some l ∧ l.lender = fn ∧ l.rcd = argBytes f 24 64 ∧ l.granted = false ∧ l.key = key) ∧
    (∀ l, leaseOf s (arg f 24 4) = some l →
      (∀ host, Asked s fn 0x06 1 false [(24, 4)] → lsBfn l.rcd = fn → l.granted = false → leasePlace s l.lender l.rcd = some (host, l.key) → leaseTaken s host l.key = false →
        ∃ u, exec (.leaseBorrower fn) s = .next (complete (failIfDark u (l.key / 2)) fn 0 [(256, l.rcd)]) ∧ leaseOf u l.id = some { l with granted := true, host := host } ∧ (arrAt u l.key).lease = some l.id) ∧
      (Asked s fn 0x07 0 false [(24, 4)] → l.lender = fn → l.granted = true → leaseState l = 0 →
        ∃ u x, exec (.reclaim fn) s = .next (complete u fn 0 [(256, natLe 8 ((baseOf s fn).value + lsNotice l.rcd))]) ∧ leaseOf u l.id = some x ∧ x.noticeEnd = s.now + lsNotice l.rcd ∧ (48 < l.rcd.length → leaseState x = 1)) ∧
      (Asked s fn 0x08 0 false [(24, 4)] → lsBfn l.rcd = fn → l.granted = true → leaseState l < 2 →
        ∃ u x, exec (.leaseReturn fn) s = .next (complete u fn 0 []) ∧ leaseOf u l.id = some x ∧ (48 < l.rcd.length → leaseState x = 2)) ∧
      (Asked s fn 0x17 0 false [(24, 4)] → l.lender = fn ∨ lsBfn l.rcd = fn → exec (.meter fn) s = .next (complete s fn 0 [(256, l.rcd)])) ∧
      (l.granted = true → leaseState l = 1 → l.noticeEnd ≤ s.now → eventTurn s (.notice l.id) = true →
        ∃ t x, exec (.leaseNoticeExpiry l.id) s = .next t ∧ leaseOf t l.id = some x ∧ (48 < l.rcd.length → leaseState x = 3) ∧
          ∀ c ∈ t.cmds, c ∈ s.cmds ∧ (c.region = l.host → c.array = 2 → c.started = true)) ∧
      (l.granted = true → leaseState l < 2 → quotaSpent l = true → eventTurn s (.quota l.id) = true → ∃ t x, exec (.leaseQuota l.id) s = .next t ∧ leaseOf t l.id = some x ∧ (48 < l.rcd.length → leaseState x = 5)))

/-- Requests about a function's memory complete (R394; that an erased key has the value (0, 0) is the model's choice, log 39): WINDOW sets a window, or removes it for length 0, and leaves memory as it is (R368); ADMIT sets or clears an entry of the admission list
(R387); ROOT sets the root (R368); both INVAL forms leave no translation of their run (R379); KEYLOAD sets the value of a key that the function holds and its erase clears it, each leaving every other
key (R377). -/
def Obligations.MemoryRequestsComplete : Prop :=
  ∀ (s : State) (fn t : Nat) (f : Fn), f = getFn s fn → t = arg f 16 1 →
    (Asked s fn 0x10 0 true [(16, 2), (24, 16)] → t < s.fns.length → t < 17 → arg f 17 1 < 16 → arg f 24 8 % 32768 = 0 → arg f 32 8 % 32768 = 0 →
      (arg f 32 8 ≠ 0 → spaRange (arg f 24 8) (arg f 32 8) = true ∧ meetsCarve s (arg f 24 8) (arg f 32 8) = false) →
      ∃ u, exec (.window fn) s = .next (complete u fn 0 []) ∧ u = { s with fns := u.fns } ∧ (∀ k, k ≠ t → getFn u k = getFn s k) ∧
        ∀ j, j < 16 → (getFn u t).windows.getD j (0, 0) = if j = arg f 17 1 then (if arg f 32 8 = 0 then (0, 0) else (arg f 24 8, arg f 32 8)) else (getFn s t).windows.getD j (0, 0)) ∧
    (Asked s fn 0x10 1 true [(16, 1), (18, 6)] → t < s.fns.length → t < 17 → arg f 18 2 < 256 → bits (arg f 20 4) 30 22 = 0 → bits (arg f 20 4) 21 17 < 17 →
      ∃ u, exec (.admitEntry fn) s = .next (complete u fn 0 []) ∧ smGet (0, 0, false) (getFn u t).admission (arg f 18 2) =
        if bitOf (arg f 20 4) 31 then (bits (arg f 20 4) 16 0, bits (arg f 20 4) 21 17, true) else (0, 0, false)) ∧
    (Asked s fn 0x11 0 false [(24, 8)] → fn < s.fns.length → rootOk f (arg f 24 8) = true → ∃ u, exec (.root fn) s = .next (complete u fn 0 []) ∧ (getFn u fn).root = arg f 24 8) ∧
    (Asked s fn 0x12 0 true [(16, 1), (24, 16)] → t < 17 → arg f 24 8 % 32768 = 0 → arg f 32 8 % 32768 = 0 → arg f 24 8 + arg f 32 8 ≤ 2251799813685248 →
      ∃ u, exec (.invalRange fn) s = .next (complete u fn 0 []) ∧ ∀ e ∈ u.tlb, e.fn = t → ¬ (e.base < arg f 24 8 + arg f 32 8 ∧ arg f 24 8 < e.base + e.size)) ∧
    (Asked s fn 0x12 1 true [(16, 1)] → t < 17 → ∃ u, exec (.invalSpace fn) s = .next (complete u fn 0 []) ∧ ∀ e ∈ u.tlb, e.fn ≠ t) ∧
    (Asked s fn 0x13 0 false [(24, 2), (32, 32)] → arg f 24 2 < 8192 → hasKey f (arg f 24 2) = true →
      ∃ u, exec (.keyload fn) s = .next (complete u fn 0 []) ∧ ∀ k, smGet (0, 0) u.keys k = if k = arg f 24 2 then (arg f 32 16, arg f 48 16) else smGet (0, 0) s.keys k) ∧
    (Asked s fn 0x13 1 false [(24, 2)] → arg f 24 2 < 8192 → hasKey f (arg f 24 2) = true →
      ∃ u, exec (.keyErase fn) s = .next (complete u fn 0 []) ∧ ∀ k, smGet (0, 0) u.keys k = if k = arg f 24 2 then (0, 0) else smGet (0, 0) s.keys k)

/-- Requests about queues, objects, ageing, the pool and replica sets complete with their resp (R394). A queue is created closed with the descriptor given, and opened, closed and restarted (R312,
R313). An object is created under the lowest number not in use, which number being the model's choice (log 59), destroyed unless a group waits on it or holds an open arrival, which answers status 1, and read (R304). AGEING and POOL set their values
(R320, R330); a replica set is registered with its members, and released once every replica has completed, else status 1 (R390). -/
def Obligations.ObjectRequestsComplete : Prop :=
  ∀ (s : State) (fn n : Nat) (f : Fn) (q : Queue), f = getFn s fn → fn < s.fns.length → n = arg f 24 1 → q = queueOf f n →
    (Asked s fn 0x14 0 false [(24, 1), (32, 32)] → queueDescOk (argBytes f 32 32) = true → q.opened = false → ∃ u x, exec (.queueCreate fn) s = .next (complete u fn 0 [(256, descBytes x)]) ∧ queueOf (getFn u fn) n = x ∧
      x = { ring := arg f 32 8, lg := arg f 40 1, dev := bitOf (arg f 41 1) 0, wix := arg f 48 8, rix := arg f 56 8 }) ∧
    (4 ≤ q.lg →
      (Asked s fn 0x14 1 false [(24, 1)] → ∃ u, exec (.queueOpen fn) s = .next (complete u fn 0 [(256, descBytes (queueOf (getFn u fn) n))]) ∧ queueOf (getFn u fn) n = { q with opened := true }) ∧
      (Asked s fn 0x14 2 false [(24, 1)] → ∃ u, exec (.queueClose fn) s = .next (complete u fn 0 [(256, descBytes (queueOf (getFn u fn) n))]) ∧ queueOf (getFn u fn) n = { q with opened := false, tornAt := none }) ∧
      (Asked s fn 0x14 3 false [(24, 1)] → ∃ u, exec (.queueRestart fn) s = .next (complete u fn 0 [(256, descBytes (queueOf (getFn u fn) n))]) ∧ queueOf (getFn u fn) n = { q with stop := false, torn := 0, tornAt := none })) ∧
    (Asked s fn 0x15 0 false [(24, 1), (28, 4)] → n < 2 → (n = 1 → arg f 28 4 ≠ 0) → (objNums s fn).length < 16777216 →
      ∃ u o, exec (.objectCreate fn) s = .next (complete u fn 0 [(256, natLe 4 o.num)]) ∧ u.objs = s.objs ++ [o] ∧ o.fn = fn ∧ o.num ∉ objNums s fn ∧ (∀ k, k < o.num → k ∈ objNums s fn) ∧
        o.barrier = decide (n = 1) ∧ o.value = (if n = 1 then 0 else arg f 28 4) ∧ o.count = (if n = 1 then arg f 28 4 else 0) ∧ o.arrived = 0 ∧ o.waiters = []) ∧
    (∀ o, objFind s fn (arg f 24 4) = some o →
      (Asked s fn 0x15 1 false [(24, 4)] → objHeld s o = false → exec (.objectDestroy fn) s = .next (complete { s with objs := s.objs.filter (fun x => decide (¬ (x.fn = fn ∧ x.num = arg f 24 4))) } fn 0 [])) ∧
      (Asked s fn 0x15 1 false [(24, 4)] → objHeld s o = true → exec (.objectDestroy fn) s = .next (complete s fn 1 [])) ∧
      (Asked s fn 0x15 2 false [(24, 4)] → exec (.objectRead fn) s = .next (complete s fn 0 [(256, natLe 4 o.value ++ natLe 4 o.arrived)]))) ∧
    (Asked s fn 0x16 0 false [(24, 8)] → 1000000 ≤ arg f 24 8 → arg f 24 8 ≤ 1000000000 → ∃ u, exec (.ageing fn) s = .next (complete u fn 0 []) ∧ (getFn u fn).ageing = arg f 24 8) ∧
    (Asked s fn 0x16 1 false [(24, 16)] → arg f 24 8 % 32768 = 0 → arg f 32 8 % 32768 = 0 → inWindow f (arg f 24 8) (arg f 32 8) = true → f.bobbins = [] →
      ∃ u, exec (.pool fn) s = .next (complete u fn 0 []) ∧ (getFn u fn).pool = (arg f 24 8, arg f 32 8)) ∧
    (Asked s fn 0x16 2 false [(24, 5), (32, 3 * min (arg f 28 1) 64)] → 1 ≤ arg f 28 1 → arg f 28 1 ≤ 64 →
      (∀ i, i < arg f 28 1 → bits (repMember f i) 23 22 = 0 ∧ bits (repMember f i) 21 17 < 17) → repOf s fn (arg f 24 4) = none →
      ∃ u r, exec (.replsetRegister fn) s = .next (complete u fn 0 []) ∧ u = { s with repsets := s.repsets ++ [r] } ∧
        r = { fn := fn, gen := arg f 24 4, members := (List.range (arg f 28 1)).map (fun i => (bits (repMember f i) 16 0, bits (repMember f i) 21 17)), arrived := [], local_ := 0, completed := false,
              done := [], since := s.now }) ∧
    (∀ r, Asked s fn 0x16 3 false [(24, 4)] → repOf s fn (arg f 24 4) = some r →
      exec (.replsetRelease fn) s = .next (if replicasDone s r then complete { s with repsets := s.repsets.filter (fun x => decide (¬ (x.fn = fn ∧ x.gen = r.gen))) } fn 0 [] else complete s fn 1 []) ∧
      ((∀ m ∈ r.members, m ∈ r.done) → replicasDone s r = true))

/-- Requests about the package: ATTEST answers a report and its signature, CERT the certificate (R394, R396); RATOMIC goes out on the fabric, and completes with its answer or, 100 ms after, with reason 4
(R388); CAPTURE of a drained function answers the length of the image it wrote, or status 2 where that has no room, which is the model's reading (log 42), as is that the function then goes on unless
an earlier CAPTURE quiesced it (log 43); RESTORE loads an image that passes its checks, and answers status 2 where none can be read
(R423, R425). The identity key, the salt, the certificate and the layout of an image are free values (logs 9, 10). Messages from other packages: a remote atomic from a listed package performs at the home L2
bank and is answered with the old value (R388), here in memory that no L1 holds; a replica that has not answered for 100 ms counts as ended, at the barrier and for its set's
release, and an arrival counts at the lowest package and completes the
barrier elsewhere (R390). -/
def Obligations.PackageRequestsComplete : Prop :=
  (∀ (s : State) (fn : Nat), Asked s fn 0x20 0 false [(24, 32)] →
    exec (.attest fn) s = .next (complete s fn 0 [(256, reportBody s fn (argBytes (getFn s fn) 24 32) ++ identitySignature (reportBody s fn (argBytes (getFn s fn) 24 32)))])) ∧
  (∀ (s : State) (fn : Nat), Asked s fn 0x21 0 false [] → exec (.cert fn) s = .next (complete s fn 0 [(256, natLe 2 (Config.certificate.take 2048).length), (264, Config.certificate.take 2048)])) ∧
  (∀ (s : State) (f : Fn), f = getFn s 0 → Asked s 0 0x1A 0 false ([(16, 6), (24, 16)] ++ (if arg f 20 1 = 0x4A then [(40, 8)] else [])) → bits (arg f 16 4) 31 22 = 0 → bits (arg f 16 4) 21 17 < 17 →
    remoteOpOk (arg f 24 8) (arg f 20 1) (arg f 21 1) = true → arg f 24 8 < 2251799813685248 → s.ratomic = none →
    ∃ x c, exec (.ratomic 0) s = .next { s with ratomic := some s.now, fabric := .atomic (bits (arg f 16 4) 16 0) (bits (arg f 16 4) 21 17) (arg f 24 8) (arg f 20 1) (arg f 21 1) x c :: s.fabric } ∧
      x.toNat = arg f 32 8 ∧ c.toNat = arg f 40 8) ∧
  (∀ (s : State) (n : Nat) (v : DWord), s.ratomic = some n →
    exec (.remoteAcknowledgement 0 (.ok v)) s = .next (complete { heardFrom s (bits (arg (getFn s 0) 16 4) 16 0) with ratomic := none } 0 0 [(256, natLe 8 v.toNat), (264, [0])]) ∧
    exec (.cpyrAckTimeout 0) s = .next (if n + 100000000 ≤ s.now then complete { s with ratomic := none } 0 4 [(256, natLe 8 0), (264, natLe 1 4)] else s)) ∧
  (∀ (s : State) (pkg fn va op size : Nat) (x c : DWord) (q : Phys), running s = true → admitted s fn pkg 0 = true → (getFn s fn).slices ≠ [] → translate s fn va .rw = .ok q → remoteOpOk va op size = true →
    q.spa < hostBase → s.l1 = [] → memPoisoned s q.spa size = false →
    let y := leNat (memRead s q.key q.spa size)
    ∃ t, exec (.remoteAtomicMessage pkg fn va op size x c) s = .next t ∧ t.fabric = .reply pkg (.ok (BitVec.ofNat 64 y)) :: s.fabric ∧
      ∀ b, memByte t q.key b = if q.spa ≤ b ∧ b < q.spa + size then
        (natLe size (remoteNew op (8 * size) y (x.toNat % 2 ^ (8 * size)) (c.toNat % 2 ^ (8 * size)))).getD (b - q.spa) 0 else memByte s q.key b) ∧
  (∀ (s : State) (fn gen pkg sf : Nat) (r : RepSet), repOf s fn gen = some r → r.members.filter (fun m => decide (m.1 = pkg)) = [(pkg, sf)] → pkg ≠ Config.packageNumber →
    exec (.replicaTimeout fn gen pkg) s = .next (if lastHeard s r pkg + 100000000 ≤ s.now then packageArrived { s with repsets := s.repsets.map (fun x =>
      if x.gen = r.gen ∧ x.members = r.members then { x with done := if x.done.contains (pkg, sf) then x.done else (pkg, sf) :: x.done } else x) } r (pkg, sf) else s) ∧
    exec (.startBarrierArrival fn gen (pkg, sf)) s = .next (if pkg = lowestPackage r then setRep (heardFrom s pkg) { r with completed := true } else packageArrived (heardFrom s pkg) r (pkg, sf))) ∧
  (∀ (s : State) (f : Fn) (t : Nat), f = getFn s 0 → t = arg f 16 1 → t < 17 →
    (∀ u n, Asked s 0 0x18 0 true [(16, 1), (24, 16)] → fnBusy s t = false → (getFn s t).quiesced = true → fnDrained s t = true →
      (writeImage s t (arg f 24 8) (arg f 32 8) = .ok (u, n) → exec (.capture 0) s = .next (complete u 0 0 [(256, natLe 8 n)])) ∧
      (writeImage s t (arg f 24 8) (arg f 32 8) = .error u → exec (.capture 0) s = .next (complete (setFn u t { getFn u t with quiesced := (getFn u t).captured }) 0 2 []))) ∧
    (∀ h b v, Asked s 0 0x19 0 true [(16, 1), (24, 16)] → readImage s t (arg f 24 8) (arg f 32 8) = .ok (h, b) → restoreOk s t h b = true →
      placeBobbins t ((allGroups (loadSnapshot s t (snapshotFor s h b))).filter (fun g => decide (g.ctx.fn = t ∧ g.phase = .saved))) (loadSnapshot s t (snapshotFor s h b)) = some v →
      exec (.restore 0) s = .next (complete v 0 0 [])) ∧
    (∀ u, Asked s 0 0x19 0 true [(16, 1), (24, 16)] → readImage s t (arg f 24 8) (arg f 32 8) = .error u → exec (.restore 0) s = .next (complete u 0 2 [])))
end

