-- ==== Sys2Proof/Laws/Maps.lean ====
section
/-!
SUPPORT. Laws/Maps.lean: reads after writes, and the canonical form, of association lists (Machine/Bits.lean).
-/
namespace Sys2Proof.Machine

variable {α : Type}

-- reads after writes: these hold of every list, canonical or not

theorem smGet_del_same (d : α) (m : SMap α) (k : Nat) : smGet d (smDel m k) k = d := by
  induction m with
  | nil => rfl
  | cons e t ih => obtain ⟨j, x⟩ := e; by_cases h : j = k <;> simp [smDel, smGet, h, ih]
theorem smGet_del_other (d : α) (m : SMap α) {k j : Nat} (h : j ≠ k) : smGet d (smDel m k) j = smGet d m j := by
  induction m with
  | nil => rfl
  | cons e t ih =>
    obtain ⟨i, x⟩ := e
    by_cases hi : i = k
    · have : i ≠ j := fun q => h (q ▸ hi)
      simp [smDel, smGet, hi, ih, Ne.symm h]
    · by_cases hj : i = j <;> simp [smDel, smGet, hi, hj, ih, h]
theorem smGet_ins_same (d : α) (m : SMap α) (k : Nat) (v : α) (h : ∀ e ∈ m, e.1 ≠ k) : smGet d (smIns m k v) k = v := by
  induction m with
  | nil => simp [smIns, smGet]
  | cons e t ih =>
    obtain ⟨j, x⟩ := e
    have hj : j ≠ k := h (j, x) (by simp)
    by_cases hk : k < j
    · simp [smIns, smGet, hk]
    · simp only [smIns, hk, if_false, smGet, hj]; exact ih (fun e he => h e (by simp [he]))
theorem smGet_ins_other (d : α) (m : SMap α) {k j : Nat} (v : α) (h : j ≠ k) : smGet d (smIns m k v) j = smGet d m j := by
  induction m with
  | nil => simp [smIns, smGet, Ne.symm h]
  | cons e t ih =>
    obtain ⟨i, x⟩ := e
    by_cases hk : k < i
    · simp [smIns, smGet, hk, Ne.symm h]
    · simp only [smIns, hk, if_false, smGet, ih]
theorem smDel_fresh (m : SMap α) (k : Nat) : ∀ e ∈ smDel m k, e.1 ≠ k := by
  induction m with
  | nil => simp [smDel]
  | cons e t ih =>
    obtain ⟨j, x⟩ := e
    by_cases h : j = k
    · simpa [smDel, h] using ih
    · intro q hq; simp [smDel, h] at hq; rcases hq with rfl | hq
      · exact h
      · exact ih q hq

variable [DecidableEq α]

@[simp] theorem smGet_set_same (d : α) (m : SMap α) (k : Nat) (v : α) : smGet d (smSet d m k v) k = v := by
  unfold smSet; split
  · next h => rw [smGet_del_same, h]
  · exact smGet_ins_same d _ k v (smDel_fresh m k)
theorem smGet_set_other (d : α) (m : SMap α) {k j : Nat} (v : α) (h : j ≠ k) : smGet d (smSet d m k v) j = smGet d m j := by
  unfold smSet; split
  · exact smGet_del_other d m h
  · rw [smGet_ins_other d _ v h, smGet_del_other d m h]
theorem smGet_set (d : α) (m : SMap α) (k j : Nat) (v : α) : smGet d (smSet d m k v) j = if j = k then v else smGet d m j := by
  split
  · next h => rw [h, smGet_set_same]
  · next h => exact smGet_set_other d m v h
theorem smGet_setMany (d : α) (vs : List α) : ∀ (m : SMap α) (k j : Nat),
    smGet d (smSetMany d m k vs) j = if k ≤ j ∧ j < k + vs.length then vs.getD (j - k) d else smGet d m j := by
  induction vs with
  | nil => intro m k j; simp [smSetMany]
  | cons v vs ih =>
    intro m k j
    simp only [smSetMany, ih, smGet_set, List.length_cons]
    by_cases h1 : j = k
    · subst h1; simp
    · by_cases h2 : k + 1 ≤ j ∧ j < k + 1 + vs.length
      · have h3 : k ≤ j ∧ j < k + (vs.length + 1) := by omega
        rw [if_pos h2, if_pos h3]
        have : j - k = (j - (k + 1)) + 1 := by omega
        rw [this]; rfl
      · have h3 : ¬ (k ≤ j ∧ j < k + (vs.length + 1)) := by omega
        rw [if_neg h2, if_neg h3, if_neg h1]

-- the canonical form

/-- Every key of a map is above a bound. -/
def smAbove (b : Nat) (m : SMap α) : Prop := ∀ e ∈ m, b < e.1
omit [DecidableEq α] in
theorem smSortedFrom_some (b : Nat) (m : SMap α) : smSortedFrom (some b) m = true ↔ smAbove b m ∧ smSortedFrom none m = true := by
  induction m generalizing b with
  | nil => simp [smSortedFrom, smAbove]
  | cons e t ih =>
    obtain ⟨j, x⟩ := e
    simp only [smSortedFrom, Bool.and_eq_true, decide_eq_true_eq, Bool.true_and, smAbove, List.mem_cons, forall_eq_or_imp]
    constructor
    · rintro ⟨h1, h2⟩
      exact ⟨⟨h1, fun e he => Nat.lt_trans h1 (((ih j).1 h2).1 e he)⟩, h2⟩
    · rintro ⟨⟨h1, _⟩, h2⟩; exact ⟨h1, h2⟩
omit [DecidableEq α] in
theorem smSorted_cons (j : Nat) (x : α) (t : SMap α) : smSortedFrom none ((j, x) :: t) = true ↔ smAbove j t ∧ smSortedFrom none t = true := by
  rw [← smSortedFrom_some]; simp [smSortedFrom]
omit [DecidableEq α] in
theorem smDel_mem (m : SMap α) (k : Nat) (e : Nat × α) (h : e ∈ smDel m k) : e ∈ m := by
  induction m with
  | nil => simp [smDel] at h
  | cons q t ih =>
    obtain ⟨j, x⟩ := q
    by_cases hj : j = k
    · exact List.mem_cons_of_mem _ (ih (by simpa [smDel, hj] using h))
    · simp [smDel, hj] at h; rcases h with rfl | h
      · simp
      · exact List.mem_cons_of_mem _ (ih h)
omit [DecidableEq α] in
theorem smDel_sorted (m : SMap α) (k : Nat) (h : smSortedFrom none m = true) : smSortedFrom none (smDel m k) = true := by
  induction m with
  | nil => rfl
  | cons e t ih =>
    obtain ⟨j, x⟩ := e
    rw [smSorted_cons] at h
    by_cases hj : j = k
    · simpa [smDel, hj] using ih h.2
    · simp only [smDel, hj, if_false]; rw [smSorted_cons]
      exact ⟨fun e he => h.1 e (smDel_mem t k e he), ih h.2⟩
omit [DecidableEq α] in
theorem smIns_mem (m : SMap α) (k : Nat) (v : α) (e : Nat × α) (h : e ∈ smIns m k v) : e = (k, v) ∨ e ∈ m := by
  induction m with
  | nil => simpa [smIns] using h
  | cons q t ih =>
    obtain ⟨j, x⟩ := q
    by_cases hk : k < j
    · simpa [smIns, hk] using h
    · simp [smIns, hk] at h; rcases h with rfl | h
      · simp
      · rcases ih h with h | h
        · exact .inl h
        · exact .inr (List.mem_cons_of_mem _ h)
omit [DecidableEq α] in
theorem smIns_sorted (m : SMap α) (k : Nat) (v : α) (h : smSortedFrom none m = true) (hf : ∀ e ∈ m, e.1 ≠ k) :
    smSortedFrom none (smIns m k v) = true := by
  induction m with
  | nil => simp [smIns, smSortedFrom]
  | cons e t ih =>
    obtain ⟨j, x⟩ := e
    have hj : j ≠ k := hf (j, x) (by simp)
    by_cases hk : k < j
    · simp only [smIns, hk, if_true]; rw [smSorted_cons]
      refine ⟨?_, h⟩
      intro e he; rcases List.mem_cons.1 he with rfl | he
      · exact hk
      · exact Nat.lt_trans hk (((smSorted_cons j x t).1 h).1 e he)
    · simp only [smIns, hk, if_false]; rw [smSorted_cons] at h ⊢
      refine ⟨?_, ih h.2 (fun e he => hf e (by simp [he]))⟩
      intro e he; rcases smIns_mem t k v e he with rfl | he
      · exact Nat.lt_of_le_of_ne (Nat.le_of_not_lt hk) hj
      · exact h.1 e he
theorem smWf_iff (d : α) (m : SMap α) : smWf d m = true ↔ smSortedFrom none m = true ∧ ∀ e ∈ m, e.2 ≠ d := by
  simp [smWf, List.all_eq_true]
theorem smWf_nil (d : α) : smWf d ([] : SMap α) = true := by simp [smWf, smSortedFrom]
/-- A write keeps the canonical form. -/
theorem smWf_set (d : α) (m : SMap α) (k : Nat) (v : α) (h : smWf d m = true) : smWf d (smSet d m k v) = true := by
  rw [smWf_iff] at h ⊢
  have hd := smDel_sorted m k h.1
  unfold smSet; split
  · exact ⟨hd, fun e he => h.2 e (smDel_mem m k e he)⟩
  · next hv =>
    refine ⟨smIns_sorted _ k v hd (smDel_fresh m k), fun e he => ?_⟩
    rcases smIns_mem _ k v e he with rfl | he
    · exact hv
    · exact h.2 e (smDel_mem m k e he)
theorem smWf_setMany (d : α) (vs : List α) : ∀ (m : SMap α) (k : Nat), smWf d m = true → smWf d (smSetMany d m k vs) = true := by
  induction vs with
  | nil => intro m k h; exact h
  | cons v vs ih => intro m k h; exact ih _ _ (smWf_set d m k v h)
/-- Keeping some entries keeps the canonical form. -/
theorem smWf_filter (d : α) (p : Nat × α → Bool) (m : SMap α) (h : smWf d m = true) : smWf d (m.filter p) = true := by
  rw [smWf_iff] at h ⊢
  refine ⟨?_, fun e he => h.2 e (List.mem_of_mem_filter he)⟩
  have h1 := h.1
  clear h
  induction m with
  | nil => rfl
  | cons e t ih =>
    obtain ⟨j, x⟩ := e
    rw [smSorted_cons] at h1
    by_cases hp : p (j, x) = true
    · rw [List.filter_cons_of_pos hp, smSorted_cons]
      exact ⟨fun e he => h1.1 e (List.mem_of_mem_filter he), ih h1.2⟩
    · rw [List.filter_cons_of_neg hp]; exact ih h1.2

end Sys2Proof.Machine
end

