-- ==== Sys2Proof/Laws/State.lean ====
section
/-!
SUPPORT. Laws/State.lean: what each named update of the state and of a group leaves alone, one lemma per field.
-/
namespace Sys2Proof.Machine

-- setFn

@[simp] theorem setFn_agenda (s : State) (n : Nat) (x : Fn) : (setFn s n x).agenda = s.agenda := rfl
@[simp] theorem setFn_quantum (s : State) (n : Nat) (x : Fn) : (setFn s n x).quantum = s.quantum := rfl
@[simp] theorem setFn_g (s : State) (n : Nat) (x : Fn) : (setFn s n x).g = s.g := rfl
@[simp] theorem setFn_others (s : State) (n : Nat) (x : Fn) : (setFn s n x).others = s.others := rfl
@[simp] theorem setFn_teams (s : State) (n : Nat) (x : Fn) : (setFn s n x).teams = s.teams := rfl
@[simp] theorem setFn_launches (s : State) (n : Nat) (x : Fn) : (setFn s n x).launches = s.launches := rfl
@[simp] theorem setFn_packets (s : State) (n : Nat) (x : Fn) : (setFn s n x).packets = s.packets := rfl
@[simp] theorem setFn_trees (s : State) (n : Nat) (x : Fn) : (setFn s n x).trees = s.trees := rfl
@[simp] theorem setFn_mem (s : State) (n : Nat) (x : Fn) : (setFn s n x).mem = s.mem := rfl
@[simp] theorem setFn_memKey (s : State) (n : Nat) (x : Fn) : (setFn s n x).memKey = s.memKey := rfl
@[simp] theorem setFn_poison (s : State) (n : Nat) (x : Fn) : (setFn s n x).poison = s.poison := rfl
@[simp] theorem setFn_l1 (s : State) (n : Nat) (x : Fn) : (setFn s n x).l1 = s.l1 := rfl
@[simp] theorem setFn_icache (s : State) (n : Nat) (x : Fn) : (setFn s n x).icache = s.icache := rfl
@[simp] theorem setFn_tlb (s : State) (n : Nat) (x : Fn) : (setFn s n x).tlb = s.tlb := rfl
@[simp] theorem setFn_keys (s : State) (n : Nat) (x : Fn) : (setFn s n x).keys = s.keys := rfl
@[simp] theorem setFn_cmds (s : State) (n : Nat) (x : Fn) : (setFn s n x).cmds = s.cmds := rfl
@[simp] theorem setFn_copies (s : State) (n : Nat) (x : Fn) : (setFn s n x).copies = s.copies := rfl
@[simp] theorem setFn_trvs (s : State) (n : Nat) (x : Fn) : (setFn s n x).trvs = s.trvs := rfl
@[simp] theorem setFn_passes (s : State) (n : Nat) (x : Fn) : (setFn s n x).passes = s.passes := rfl
@[simp] theorem setFn_inserts (s : State) (n : Nat) (x : Fn) : (setFn s n x).inserts = s.inserts := rfl
@[simp] theorem setFn_handoffs (s : State) (n : Nat) (x : Fn) : (setFn s n x).handoffs = s.handoffs := rfl
@[simp] theorem setFn_frames (s : State) (n : Nat) (x : Fn) : (setFn s n x).frames = s.frames := rfl
@[simp] theorem setFn_encoded (s : State) (n : Nat) (x : Fn) : (setFn s n x).encoded = s.encoded := rfl
@[simp] theorem setFn_windows (s : State) (n : Nat) (x : Fn) : (setFn s n x).windows = s.windows := rfl
@[simp] theorem setFn_objs (s : State) (n : Nat) (x : Fn) : (setFn s n x).objs = s.objs := rfl
@[simp] theorem setFn_repsets (s : State) (n : Nat) (x : Fn) : (setFn s n x).repsets = s.repsets := rfl
@[simp] theorem setFn_fns (s : State) (n : Nat) (x : Fn) : (setFn s n x).fns = setAt s.fns n x := rfl
@[simp] theorem setFn_bases (s : State) (n : Nat) (x : Fn) : (setFn s n x).bases = s.bases := rfl
@[simp] theorem setFn_ranges (s : State) (n : Nat) (x : Fn) : (setFn s n x).ranges = s.ranges := rfl
@[simp] theorem setFn_mailq (s : State) (n : Nat) (x : Fn) : (setFn s n x).mailq = s.mailq := rfl
@[simp] theorem setFn_watch (s : State) (n : Nat) (x : Fn) : (setFn s n x).watch = s.watch := rfl
@[simp] theorem setFn_leases (s : State) (n : Nat) (x : Fn) : (setFn s n x).leases = s.leases := rfl
@[simp] theorem setFn_arrays (s : State) (n : Nat) (x : Fn) : (setFn s n x).arrays = s.arrays := rfl
@[simp] theorem setFn_chans (s : State) (n : Nat) (x : Fn) : (setFn s n x).chans = s.chans := rfl
@[simp] theorem setFn_dies (s : State) (n : Nat) (x : Fn) : (setFn s n x).dies = s.dies := rfl
@[simp] theorem setFn_cycleBase (s : State) (n : Nat) (x : Fn) : (setFn s n x).cycleBase = s.cycleBase := rfl
@[simp] theorem setFn_reserved (s : State) (n : Nat) (x : Fn) : (setFn s n x).reserved = s.reserved := rfl
@[simp] theorem setFn_edges (s : State) (n : Nat) (x : Fn) : (setFn s n x).edges = s.edges := rfl
@[simp] theorem setFn_boot (s : State) (n : Nat) (x : Fn) : (setFn s n x).boot = s.boot := rfl
@[simp] theorem setFn_carve (s : State) (n : Nat) (x : Fn) : (setFn s n x).carve = s.carve := rfl
@[simp] theorem setFn_measurement (s : State) (n : Nat) (x : Fn) : (setFn s n x).measurement = s.measurement := rfl
@[simp] theorem setFn_svn (s : State) (n : Nat) (x : Fn) : (setFn s n x).svn = s.svn := rfl
@[simp] theorem setFn_bootWord (s : State) (n : Nat) (x : Fn) : (setFn s n x).bootWord = s.bootWord := rfl
@[simp] theorem setFn_linksDown (s : State) (n : Nat) (x : Fn) : (setFn s n x).linksDown = s.linksDown := rfl
@[simp] theorem setFn_msix (s : State) (n : Nat) (x : Fn) : (setFn s n x).msix = s.msix := rfl
@[simp] theorem setFn_fabric (s : State) (n : Nat) (x : Fn) : (setFn s n x).fabric = s.fabric := rfl
@[simp] theorem setFn_ratomic (s : State) (n : Nat) (x : Fn) : (setFn s n x).ratomic = s.ratomic := rfl
@[simp] theorem setFn_heard (s : State) (n : Nat) (x : Fn) : (setFn s n x).heard = s.heard := rfl
@[simp] theorem setFn_hostData (s : State) (n : Nat) (x : Fn) : (setFn s n x).hostData = s.hostData := rfl
@[simp] theorem setFn_images (s : State) (n : Nat) (x : Fn) : (setFn s n x).images = s.images := rfl
@[simp] theorem setFn_thermalTrip (s : State) (n : Nat) (x : Fn) : (setFn s n x).thermalTrip = s.thermalTrip := rfl
@[simp] theorem setFn_now (s : State) (n : Nat) (x : Fn) : (setFn s n x).now = s.now := rfl
@[simp] theorem setFn_nextId (s : State) (n : Nat) (x : Fn) : (setFn s n x).nextId = s.nextId := rfl

-- updTeam

@[simp] theorem updTeam_agenda (s : State) (n : Nat) (f : Team → Team) : (updTeam s n f).agenda = s.agenda := rfl
@[simp] theorem updTeam_quantum (s : State) (n : Nat) (f : Team → Team) : (updTeam s n f).quantum = s.quantum := rfl
@[simp] theorem updTeam_g (s : State) (n : Nat) (f : Team → Team) : (updTeam s n f).g = s.g := rfl
@[simp] theorem updTeam_others (s : State) (n : Nat) (f : Team → Team) : (updTeam s n f).others = s.others := rfl
@[simp] theorem updTeam_teams (s : State) (n : Nat) (f : Team → Team) : (updTeam s n f).teams = updIf (fun t => decide (t.id = n)) f s.teams := rfl
@[simp] theorem updTeam_launches (s : State) (n : Nat) (f : Team → Team) : (updTeam s n f).launches = s.launches := rfl
@[simp] theorem updTeam_packets (s : State) (n : Nat) (f : Team → Team) : (updTeam s n f).packets = s.packets := rfl
@[simp] theorem updTeam_trees (s : State) (n : Nat) (f : Team → Team) : (updTeam s n f).trees = s.trees := rfl
@[simp] theorem updTeam_mem (s : State) (n : Nat) (f : Team → Team) : (updTeam s n f).mem = s.mem := rfl
@[simp] theorem updTeam_memKey (s : State) (n : Nat) (f : Team → Team) : (updTeam s n f).memKey = s.memKey := rfl
@[simp] theorem updTeam_poison (s : State) (n : Nat) (f : Team → Team) : (updTeam s n f).poison = s.poison := rfl
@[simp] theorem updTeam_l1 (s : State) (n : Nat) (f : Team → Team) : (updTeam s n f).l1 = s.l1 := rfl
@[simp] theorem updTeam_icache (s : State) (n : Nat) (f : Team → Team) : (updTeam s n f).icache = s.icache := rfl
@[simp] theorem updTeam_tlb (s : State) (n : Nat) (f : Team → Team) : (updTeam s n f).tlb = s.tlb := rfl
@[simp] theorem updTeam_keys (s : State) (n : Nat) (f : Team → Team) : (updTeam s n f).keys = s.keys := rfl
@[simp] theorem updTeam_cmds (s : State) (n : Nat) (f : Team → Team) : (updTeam s n f).cmds = s.cmds := rfl
@[simp] theorem updTeam_copies (s : State) (n : Nat) (f : Team → Team) : (updTeam s n f).copies = s.copies := rfl
@[simp] theorem updTeam_trvs (s : State) (n : Nat) (f : Team → Team) : (updTeam s n f).trvs = s.trvs := rfl
@[simp] theorem updTeam_passes (s : State) (n : Nat) (f : Team → Team) : (updTeam s n f).passes = s.passes := rfl
@[simp] theorem updTeam_inserts (s : State) (n : Nat) (f : Team → Team) : (updTeam s n f).inserts = s.inserts := rfl
@[simp] theorem updTeam_handoffs (s : State) (n : Nat) (f : Team → Team) : (updTeam s n f).handoffs = s.handoffs := rfl
@[simp] theorem updTeam_frames (s : State) (n : Nat) (f : Team → Team) : (updTeam s n f).frames = s.frames := rfl
@[simp] theorem updTeam_encoded (s : State) (n : Nat) (f : Team → Team) : (updTeam s n f).encoded = s.encoded := rfl
@[simp] theorem updTeam_windows (s : State) (n : Nat) (f : Team → Team) : (updTeam s n f).windows = s.windows := rfl
@[simp] theorem updTeam_objs (s : State) (n : Nat) (f : Team → Team) : (updTeam s n f).objs = s.objs := rfl
@[simp] theorem updTeam_repsets (s : State) (n : Nat) (f : Team → Team) : (updTeam s n f).repsets = s.repsets := rfl
@[simp] theorem updTeam_fns (s : State) (n : Nat) (f : Team → Team) : (updTeam s n f).fns = s.fns := rfl
@[simp] theorem updTeam_bases (s : State) (n : Nat) (f : Team → Team) : (updTeam s n f).bases = s.bases := rfl
@[simp] theorem updTeam_ranges (s : State) (n : Nat) (f : Team → Team) : (updTeam s n f).ranges = s.ranges := rfl
@[simp] theorem updTeam_mailq (s : State) (n : Nat) (f : Team → Team) : (updTeam s n f).mailq = s.mailq := rfl
@[simp] theorem updTeam_watch (s : State) (n : Nat) (f : Team → Team) : (updTeam s n f).watch = s.watch := rfl
@[simp] theorem updTeam_leases (s : State) (n : Nat) (f : Team → Team) : (updTeam s n f).leases = s.leases := rfl
@[simp] theorem updTeam_arrays (s : State) (n : Nat) (f : Team → Team) : (updTeam s n f).arrays = s.arrays := rfl
@[simp] theorem updTeam_chans (s : State) (n : Nat) (f : Team → Team) : (updTeam s n f).chans = s.chans := rfl
@[simp] theorem updTeam_dies (s : State) (n : Nat) (f : Team → Team) : (updTeam s n f).dies = s.dies := rfl
@[simp] theorem updTeam_cycleBase (s : State) (n : Nat) (f : Team → Team) : (updTeam s n f).cycleBase = s.cycleBase := rfl
@[simp] theorem updTeam_reserved (s : State) (n : Nat) (f : Team → Team) : (updTeam s n f).reserved = s.reserved := rfl
@[simp] theorem updTeam_edges (s : State) (n : Nat) (f : Team → Team) : (updTeam s n f).edges = s.edges := rfl
@[simp] theorem updTeam_boot (s : State) (n : Nat) (f : Team → Team) : (updTeam s n f).boot = s.boot := rfl
@[simp] theorem updTeam_carve (s : State) (n : Nat) (f : Team → Team) : (updTeam s n f).carve = s.carve := rfl
@[simp] theorem updTeam_measurement (s : State) (n : Nat) (f : Team → Team) : (updTeam s n f).measurement = s.measurement := rfl
@[simp] theorem updTeam_svn (s : State) (n : Nat) (f : Team → Team) : (updTeam s n f).svn = s.svn := rfl
@[simp] theorem updTeam_bootWord (s : State) (n : Nat) (f : Team → Team) : (updTeam s n f).bootWord = s.bootWord := rfl
@[simp] theorem updTeam_linksDown (s : State) (n : Nat) (f : Team → Team) : (updTeam s n f).linksDown = s.linksDown := rfl
@[simp] theorem updTeam_msix (s : State) (n : Nat) (f : Team → Team) : (updTeam s n f).msix = s.msix := rfl
@[simp] theorem updTeam_fabric (s : State) (n : Nat) (f : Team → Team) : (updTeam s n f).fabric = s.fabric := rfl
@[simp] theorem updTeam_ratomic (s : State) (n : Nat) (f : Team → Team) : (updTeam s n f).ratomic = s.ratomic := rfl
@[simp] theorem updTeam_heard (s : State) (n : Nat) (f : Team → Team) : (updTeam s n f).heard = s.heard := rfl
@[simp] theorem updTeam_hostData (s : State) (n : Nat) (f : Team → Team) : (updTeam s n f).hostData = s.hostData := rfl
@[simp] theorem updTeam_images (s : State) (n : Nat) (f : Team → Team) : (updTeam s n f).images = s.images := rfl
@[simp] theorem updTeam_thermalTrip (s : State) (n : Nat) (f : Team → Team) : (updTeam s n f).thermalTrip = s.thermalTrip := rfl
@[simp] theorem updTeam_now (s : State) (n : Nat) (f : Team → Team) : (updTeam s n f).now = s.now := rfl
@[simp] theorem updTeam_nextId (s : State) (n : Nat) (f : Team → Team) : (updTeam s n f).nextId = s.nextId := rfl

-- updLaunch

@[simp] theorem updLaunch_agenda (s : State) (n : Nat) (f : Launch → Launch) : (updLaunch s n f).agenda = s.agenda := rfl
@[simp] theorem updLaunch_quantum (s : State) (n : Nat) (f : Launch → Launch) : (updLaunch s n f).quantum = s.quantum := rfl
@[simp] theorem updLaunch_g (s : State) (n : Nat) (f : Launch → Launch) : (updLaunch s n f).g = s.g := rfl
@[simp] theorem updLaunch_others (s : State) (n : Nat) (f : Launch → Launch) : (updLaunch s n f).others = s.others := rfl
@[simp] theorem updLaunch_teams (s : State) (n : Nat) (f : Launch → Launch) : (updLaunch s n f).teams = s.teams := rfl
@[simp] theorem updLaunch_launches (s : State) (n : Nat) (f : Launch → Launch) : (updLaunch s n f).launches = updIf (fun l => decide (l.id = n)) f s.launches := rfl
@[simp] theorem updLaunch_packets (s : State) (n : Nat) (f : Launch → Launch) : (updLaunch s n f).packets = s.packets := rfl
@[simp] theorem updLaunch_trees (s : State) (n : Nat) (f : Launch → Launch) : (updLaunch s n f).trees = s.trees := rfl
@[simp] theorem updLaunch_mem (s : State) (n : Nat) (f : Launch → Launch) : (updLaunch s n f).mem = s.mem := rfl
@[simp] theorem updLaunch_memKey (s : State) (n : Nat) (f : Launch → Launch) : (updLaunch s n f).memKey = s.memKey := rfl
@[simp] theorem updLaunch_poison (s : State) (n : Nat) (f : Launch → Launch) : (updLaunch s n f).poison = s.poison := rfl
@[simp] theorem updLaunch_l1 (s : State) (n : Nat) (f : Launch → Launch) : (updLaunch s n f).l1 = s.l1 := rfl
@[simp] theorem updLaunch_icache (s : State) (n : Nat) (f : Launch → Launch) : (updLaunch s n f).icache = s.icache := rfl
@[simp] theorem updLaunch_tlb (s : State) (n : Nat) (f : Launch → Launch) : (updLaunch s n f).tlb = s.tlb := rfl
@[simp] theorem updLaunch_keys (s : State) (n : Nat) (f : Launch → Launch) : (updLaunch s n f).keys = s.keys := rfl
@[simp] theorem updLaunch_cmds (s : State) (n : Nat) (f : Launch → Launch) : (updLaunch s n f).cmds = s.cmds := rfl
@[simp] theorem updLaunch_copies (s : State) (n : Nat) (f : Launch → Launch) : (updLaunch s n f).copies = s.copies := rfl
@[simp] theorem updLaunch_trvs (s : State) (n : Nat) (f : Launch → Launch) : (updLaunch s n f).trvs = s.trvs := rfl
@[simp] theorem updLaunch_passes (s : State) (n : Nat) (f : Launch → Launch) : (updLaunch s n f).passes = s.passes := rfl
@[simp] theorem updLaunch_inserts (s : State) (n : Nat) (f : Launch → Launch) : (updLaunch s n f).inserts = s.inserts := rfl
@[simp] theorem updLaunch_handoffs (s : State) (n : Nat) (f : Launch → Launch) : (updLaunch s n f).handoffs = s.handoffs := rfl
@[simp] theorem updLaunch_frames (s : State) (n : Nat) (f : Launch → Launch) : (updLaunch s n f).frames = s.frames := rfl
@[simp] theorem updLaunch_encoded (s : State) (n : Nat) (f : Launch → Launch) : (updLaunch s n f).encoded = s.encoded := rfl
@[simp] theorem updLaunch_windows (s : State) (n : Nat) (f : Launch → Launch) : (updLaunch s n f).windows = s.windows := rfl
@[simp] theorem updLaunch_objs (s : State) (n : Nat) (f : Launch → Launch) : (updLaunch s n f).objs = s.objs := rfl
@[simp] theorem updLaunch_repsets (s : State) (n : Nat) (f : Launch → Launch) : (updLaunch s n f).repsets = s.repsets := rfl
@[simp] theorem updLaunch_fns (s : State) (n : Nat) (f : Launch → Launch) : (updLaunch s n f).fns = s.fns := rfl
@[simp] theorem updLaunch_bases (s : State) (n : Nat) (f : Launch → Launch) : (updLaunch s n f).bases = s.bases := rfl
@[simp] theorem updLaunch_ranges (s : State) (n : Nat) (f : Launch → Launch) : (updLaunch s n f).ranges = s.ranges := rfl
@[simp] theorem updLaunch_mailq (s : State) (n : Nat) (f : Launch → Launch) : (updLaunch s n f).mailq = s.mailq := rfl
@[simp] theorem updLaunch_watch (s : State) (n : Nat) (f : Launch → Launch) : (updLaunch s n f).watch = s.watch := rfl
@[simp] theorem updLaunch_leases (s : State) (n : Nat) (f : Launch → Launch) : (updLaunch s n f).leases = s.leases := rfl
@[simp] theorem updLaunch_arrays (s : State) (n : Nat) (f : Launch → Launch) : (updLaunch s n f).arrays = s.arrays := rfl
@[simp] theorem updLaunch_chans (s : State) (n : Nat) (f : Launch → Launch) : (updLaunch s n f).chans = s.chans := rfl
@[simp] theorem updLaunch_dies (s : State) (n : Nat) (f : Launch → Launch) : (updLaunch s n f).dies = s.dies := rfl
@[simp] theorem updLaunch_cycleBase (s : State) (n : Nat) (f : Launch → Launch) : (updLaunch s n f).cycleBase = s.cycleBase := rfl
@[simp] theorem updLaunch_reserved (s : State) (n : Nat) (f : Launch → Launch) : (updLaunch s n f).reserved = s.reserved := rfl
@[simp] theorem updLaunch_edges (s : State) (n : Nat) (f : Launch → Launch) : (updLaunch s n f).edges = s.edges := rfl
@[simp] theorem updLaunch_boot (s : State) (n : Nat) (f : Launch → Launch) : (updLaunch s n f).boot = s.boot := rfl
@[simp] theorem updLaunch_carve (s : State) (n : Nat) (f : Launch → Launch) : (updLaunch s n f).carve = s.carve := rfl
@[simp] theorem updLaunch_measurement (s : State) (n : Nat) (f : Launch → Launch) : (updLaunch s n f).measurement = s.measurement := rfl
@[simp] theorem updLaunch_svn (s : State) (n : Nat) (f : Launch → Launch) : (updLaunch s n f).svn = s.svn := rfl
@[simp] theorem updLaunch_bootWord (s : State) (n : Nat) (f : Launch → Launch) : (updLaunch s n f).bootWord = s.bootWord := rfl
@[simp] theorem updLaunch_linksDown (s : State) (n : Nat) (f : Launch → Launch) : (updLaunch s n f).linksDown = s.linksDown := rfl
@[simp] theorem updLaunch_msix (s : State) (n : Nat) (f : Launch → Launch) : (updLaunch s n f).msix = s.msix := rfl
@[simp] theorem updLaunch_fabric (s : State) (n : Nat) (f : Launch → Launch) : (updLaunch s n f).fabric = s.fabric := rfl
@[simp] theorem updLaunch_ratomic (s : State) (n : Nat) (f : Launch → Launch) : (updLaunch s n f).ratomic = s.ratomic := rfl
@[simp] theorem updLaunch_heard (s : State) (n : Nat) (f : Launch → Launch) : (updLaunch s n f).heard = s.heard := rfl
@[simp] theorem updLaunch_hostData (s : State) (n : Nat) (f : Launch → Launch) : (updLaunch s n f).hostData = s.hostData := rfl
@[simp] theorem updLaunch_images (s : State) (n : Nat) (f : Launch → Launch) : (updLaunch s n f).images = s.images := rfl
@[simp] theorem updLaunch_thermalTrip (s : State) (n : Nat) (f : Launch → Launch) : (updLaunch s n f).thermalTrip = s.thermalTrip := rfl
@[simp] theorem updLaunch_now (s : State) (n : Nat) (f : Launch → Launch) : (updLaunch s n f).now = s.now := rfl
@[simp] theorem updLaunch_nextId (s : State) (n : Nat) (f : Launch → Launch) : (updLaunch s n f).nextId = s.nextId := rfl

-- setCopy

@[simp] theorem setCopy_agenda (s : State) (c : Copy) : (setCopy s c).agenda = s.agenda := rfl
@[simp] theorem setCopy_quantum (s : State) (c : Copy) : (setCopy s c).quantum = s.quantum := rfl
@[simp] theorem setCopy_g (s : State) (c : Copy) : (setCopy s c).g = s.g := rfl
@[simp] theorem setCopy_others (s : State) (c : Copy) : (setCopy s c).others = s.others := rfl
@[simp] theorem setCopy_teams (s : State) (c : Copy) : (setCopy s c).teams = s.teams := rfl
@[simp] theorem setCopy_launches (s : State) (c : Copy) : (setCopy s c).launches = s.launches := rfl
@[simp] theorem setCopy_packets (s : State) (c : Copy) : (setCopy s c).packets = s.packets := rfl
@[simp] theorem setCopy_trees (s : State) (c : Copy) : (setCopy s c).trees = s.trees := rfl
@[simp] theorem setCopy_mem (s : State) (c : Copy) : (setCopy s c).mem = s.mem := rfl
@[simp] theorem setCopy_memKey (s : State) (c : Copy) : (setCopy s c).memKey = s.memKey := rfl
@[simp] theorem setCopy_poison (s : State) (c : Copy) : (setCopy s c).poison = s.poison := rfl
@[simp] theorem setCopy_l1 (s : State) (c : Copy) : (setCopy s c).l1 = s.l1 := rfl
@[simp] theorem setCopy_icache (s : State) (c : Copy) : (setCopy s c).icache = s.icache := rfl
@[simp] theorem setCopy_tlb (s : State) (c : Copy) : (setCopy s c).tlb = s.tlb := rfl
@[simp] theorem setCopy_keys (s : State) (c : Copy) : (setCopy s c).keys = s.keys := rfl
@[simp] theorem setCopy_cmds (s : State) (c : Copy) : (setCopy s c).cmds = s.cmds := rfl
@[simp] theorem setCopy_copies (s : State) (c : Copy) : (setCopy s c).copies = updIf (fun d => decide (d.id = c.id)) (fun _ => c) s.copies := rfl
@[simp] theorem setCopy_trvs (s : State) (c : Copy) : (setCopy s c).trvs = s.trvs := rfl
@[simp] theorem setCopy_passes (s : State) (c : Copy) : (setCopy s c).passes = s.passes := rfl
@[simp] theorem setCopy_inserts (s : State) (c : Copy) : (setCopy s c).inserts = s.inserts := rfl
@[simp] theorem setCopy_handoffs (s : State) (c : Copy) : (setCopy s c).handoffs = s.handoffs := rfl
@[simp] theorem setCopy_frames (s : State) (c : Copy) : (setCopy s c).frames = s.frames := rfl
@[simp] theorem setCopy_encoded (s : State) (c : Copy) : (setCopy s c).encoded = s.encoded := rfl
@[simp] theorem setCopy_windows (s : State) (c : Copy) : (setCopy s c).windows = s.windows := rfl
@[simp] theorem setCopy_objs (s : State) (c : Copy) : (setCopy s c).objs = s.objs := rfl
@[simp] theorem setCopy_repsets (s : State) (c : Copy) : (setCopy s c).repsets = s.repsets := rfl
@[simp] theorem setCopy_fns (s : State) (c : Copy) : (setCopy s c).fns = s.fns := rfl
@[simp] theorem setCopy_bases (s : State) (c : Copy) : (setCopy s c).bases = s.bases := rfl
@[simp] theorem setCopy_ranges (s : State) (c : Copy) : (setCopy s c).ranges = s.ranges := rfl
@[simp] theorem setCopy_mailq (s : State) (c : Copy) : (setCopy s c).mailq = s.mailq := rfl
@[simp] theorem setCopy_watch (s : State) (c : Copy) : (setCopy s c).watch = s.watch := rfl
@[simp] theorem setCopy_leases (s : State) (c : Copy) : (setCopy s c).leases = s.leases := rfl
@[simp] theorem setCopy_arrays (s : State) (c : Copy) : (setCopy s c).arrays = s.arrays := rfl
@[simp] theorem setCopy_chans (s : State) (c : Copy) : (setCopy s c).chans = s.chans := rfl
@[simp] theorem setCopy_dies (s : State) (c : Copy) : (setCopy s c).dies = s.dies := rfl
@[simp] theorem setCopy_cycleBase (s : State) (c : Copy) : (setCopy s c).cycleBase = s.cycleBase := rfl
@[simp] theorem setCopy_reserved (s : State) (c : Copy) : (setCopy s c).reserved = s.reserved := rfl
@[simp] theorem setCopy_edges (s : State) (c : Copy) : (setCopy s c).edges = s.edges := rfl
@[simp] theorem setCopy_boot (s : State) (c : Copy) : (setCopy s c).boot = s.boot := rfl
@[simp] theorem setCopy_carve (s : State) (c : Copy) : (setCopy s c).carve = s.carve := rfl
@[simp] theorem setCopy_measurement (s : State) (c : Copy) : (setCopy s c).measurement = s.measurement := rfl
@[simp] theorem setCopy_svn (s : State) (c : Copy) : (setCopy s c).svn = s.svn := rfl
@[simp] theorem setCopy_bootWord (s : State) (c : Copy) : (setCopy s c).bootWord = s.bootWord := rfl
@[simp] theorem setCopy_linksDown (s : State) (c : Copy) : (setCopy s c).linksDown = s.linksDown := rfl
@[simp] theorem setCopy_msix (s : State) (c : Copy) : (setCopy s c).msix = s.msix := rfl
@[simp] theorem setCopy_fabric (s : State) (c : Copy) : (setCopy s c).fabric = s.fabric := rfl
@[simp] theorem setCopy_ratomic (s : State) (c : Copy) : (setCopy s c).ratomic = s.ratomic := rfl
@[simp] theorem setCopy_heard (s : State) (c : Copy) : (setCopy s c).heard = s.heard := rfl
@[simp] theorem setCopy_hostData (s : State) (c : Copy) : (setCopy s c).hostData = s.hostData := rfl
@[simp] theorem setCopy_images (s : State) (c : Copy) : (setCopy s c).images = s.images := rfl
@[simp] theorem setCopy_thermalTrip (s : State) (c : Copy) : (setCopy s c).thermalTrip = s.thermalTrip := rfl
@[simp] theorem setCopy_now (s : State) (c : Copy) : (setCopy s c).now = s.now := rfl
@[simp] theorem setCopy_nextId (s : State) (c : Copy) : (setCopy s c).nextId = s.nextId := rfl

-- setCmd

@[simp] theorem setCmd_agenda (s : State) (c : Cmd) : (setCmd s c).agenda = s.agenda := rfl
@[simp] theorem setCmd_quantum (s : State) (c : Cmd) : (setCmd s c).quantum = s.quantum := rfl
@[simp] theorem setCmd_g (s : State) (c : Cmd) : (setCmd s c).g = s.g := rfl
@[simp] theorem setCmd_others (s : State) (c : Cmd) : (setCmd s c).others = s.others := rfl
@[simp] theorem setCmd_teams (s : State) (c : Cmd) : (setCmd s c).teams = s.teams := rfl
@[simp] theorem setCmd_launches (s : State) (c : Cmd) : (setCmd s c).launches = s.launches := rfl
@[simp] theorem setCmd_packets (s : State) (c : Cmd) : (setCmd s c).packets = s.packets := rfl
@[simp] theorem setCmd_trees (s : State) (c : Cmd) : (setCmd s c).trees = s.trees := rfl
@[simp] theorem setCmd_mem (s : State) (c : Cmd) : (setCmd s c).mem = s.mem := rfl
@[simp] theorem setCmd_memKey (s : State) (c : Cmd) : (setCmd s c).memKey = s.memKey := rfl
@[simp] theorem setCmd_poison (s : State) (c : Cmd) : (setCmd s c).poison = s.poison := rfl
@[simp] theorem setCmd_l1 (s : State) (c : Cmd) : (setCmd s c).l1 = s.l1 := rfl
@[simp] theorem setCmd_icache (s : State) (c : Cmd) : (setCmd s c).icache = s.icache := rfl
@[simp] theorem setCmd_tlb (s : State) (c : Cmd) : (setCmd s c).tlb = s.tlb := rfl
@[simp] theorem setCmd_keys (s : State) (c : Cmd) : (setCmd s c).keys = s.keys := rfl
@[simp] theorem setCmd_cmds (s : State) (c : Cmd) : (setCmd s c).cmds = updIf (fun d => decide (d.id = c.id)) (fun _ => c) s.cmds := rfl
@[simp] theorem setCmd_copies (s : State) (c : Cmd) : (setCmd s c).copies = s.copies := rfl
@[simp] theorem setCmd_trvs (s : State) (c : Cmd) : (setCmd s c).trvs = s.trvs := rfl
@[simp] theorem setCmd_passes (s : State) (c : Cmd) : (setCmd s c).passes = s.passes := rfl
@[simp] theorem setCmd_inserts (s : State) (c : Cmd) : (setCmd s c).inserts = s.inserts := rfl
@[simp] theorem setCmd_handoffs (s : State) (c : Cmd) : (setCmd s c).handoffs = s.handoffs := rfl
@[simp] theorem setCmd_frames (s : State) (c : Cmd) : (setCmd s c).frames = s.frames := rfl
@[simp] theorem setCmd_encoded (s : State) (c : Cmd) : (setCmd s c).encoded = s.encoded := rfl
@[simp] theorem setCmd_windows (s : State) (c : Cmd) : (setCmd s c).windows = s.windows := rfl
@[simp] theorem setCmd_objs (s : State) (c : Cmd) : (setCmd s c).objs = s.objs := rfl
@[simp] theorem setCmd_repsets (s : State) (c : Cmd) : (setCmd s c).repsets = s.repsets := rfl
@[simp] theorem setCmd_fns (s : State) (c : Cmd) : (setCmd s c).fns = s.fns := rfl
@[simp] theorem setCmd_bases (s : State) (c : Cmd) : (setCmd s c).bases = s.bases := rfl
@[simp] theorem setCmd_ranges (s : State) (c : Cmd) : (setCmd s c).ranges = s.ranges := rfl
@[simp] theorem setCmd_mailq (s : State) (c : Cmd) : (setCmd s c).mailq = s.mailq := rfl
@[simp] theorem setCmd_watch (s : State) (c : Cmd) : (setCmd s c).watch = s.watch := rfl
@[simp] theorem setCmd_leases (s : State) (c : Cmd) : (setCmd s c).leases = s.leases := rfl
@[simp] theorem setCmd_arrays (s : State) (c : Cmd) : (setCmd s c).arrays = s.arrays := rfl
@[simp] theorem setCmd_chans (s : State) (c : Cmd) : (setCmd s c).chans = s.chans := rfl
@[simp] theorem setCmd_dies (s : State) (c : Cmd) : (setCmd s c).dies = s.dies := rfl
@[simp] theorem setCmd_cycleBase (s : State) (c : Cmd) : (setCmd s c).cycleBase = s.cycleBase := rfl
@[simp] theorem setCmd_reserved (s : State) (c : Cmd) : (setCmd s c).reserved = s.reserved := rfl
@[simp] theorem setCmd_edges (s : State) (c : Cmd) : (setCmd s c).edges = s.edges := rfl
@[simp] theorem setCmd_boot (s : State) (c : Cmd) : (setCmd s c).boot = s.boot := rfl
@[simp] theorem setCmd_carve (s : State) (c : Cmd) : (setCmd s c).carve = s.carve := rfl
@[simp] theorem setCmd_measurement (s : State) (c : Cmd) : (setCmd s c).measurement = s.measurement := rfl
@[simp] theorem setCmd_svn (s : State) (c : Cmd) : (setCmd s c).svn = s.svn := rfl
@[simp] theorem setCmd_bootWord (s : State) (c : Cmd) : (setCmd s c).bootWord = s.bootWord := rfl
@[simp] theorem setCmd_linksDown (s : State) (c : Cmd) : (setCmd s c).linksDown = s.linksDown := rfl
@[simp] theorem setCmd_msix (s : State) (c : Cmd) : (setCmd s c).msix = s.msix := rfl
@[simp] theorem setCmd_fabric (s : State) (c : Cmd) : (setCmd s c).fabric = s.fabric := rfl
@[simp] theorem setCmd_ratomic (s : State) (c : Cmd) : (setCmd s c).ratomic = s.ratomic := rfl
@[simp] theorem setCmd_heard (s : State) (c : Cmd) : (setCmd s c).heard = s.heard := rfl
@[simp] theorem setCmd_hostData (s : State) (c : Cmd) : (setCmd s c).hostData = s.hostData := rfl
@[simp] theorem setCmd_images (s : State) (c : Cmd) : (setCmd s c).images = s.images := rfl
@[simp] theorem setCmd_thermalTrip (s : State) (c : Cmd) : (setCmd s c).thermalTrip = s.thermalTrip := rfl
@[simp] theorem setCmd_now (s : State) (c : Cmd) : (setCmd s c).now = s.now := rfl
@[simp] theorem setCmd_nextId (s : State) (c : Cmd) : (setCmd s c).nextId = s.nextId := rfl

-- setObj

@[simp] theorem setObj_agenda (s : State) (o : Obj) : (setObj s o).agenda = s.agenda := rfl
@[simp] theorem setObj_quantum (s : State) (o : Obj) : (setObj s o).quantum = s.quantum := rfl
@[simp] theorem setObj_g (s : State) (o : Obj) : (setObj s o).g = s.g := rfl
@[simp] theorem setObj_others (s : State) (o : Obj) : (setObj s o).others = s.others := rfl
@[simp] theorem setObj_teams (s : State) (o : Obj) : (setObj s o).teams = s.teams := rfl
@[simp] theorem setObj_launches (s : State) (o : Obj) : (setObj s o).launches = s.launches := rfl
@[simp] theorem setObj_packets (s : State) (o : Obj) : (setObj s o).packets = s.packets := rfl
@[simp] theorem setObj_trees (s : State) (o : Obj) : (setObj s o).trees = s.trees := rfl
@[simp] theorem setObj_mem (s : State) (o : Obj) : (setObj s o).mem = s.mem := rfl
@[simp] theorem setObj_memKey (s : State) (o : Obj) : (setObj s o).memKey = s.memKey := rfl
@[simp] theorem setObj_poison (s : State) (o : Obj) : (setObj s o).poison = s.poison := rfl
@[simp] theorem setObj_l1 (s : State) (o : Obj) : (setObj s o).l1 = s.l1 := rfl
@[simp] theorem setObj_icache (s : State) (o : Obj) : (setObj s o).icache = s.icache := rfl
@[simp] theorem setObj_tlb (s : State) (o : Obj) : (setObj s o).tlb = s.tlb := rfl
@[simp] theorem setObj_keys (s : State) (o : Obj) : (setObj s o).keys = s.keys := rfl
@[simp] theorem setObj_cmds (s : State) (o : Obj) : (setObj s o).cmds = s.cmds := rfl
@[simp] theorem setObj_copies (s : State) (o : Obj) : (setObj s o).copies = s.copies := rfl
@[simp] theorem setObj_trvs (s : State) (o : Obj) : (setObj s o).trvs = s.trvs := rfl
@[simp] theorem setObj_passes (s : State) (o : Obj) : (setObj s o).passes = s.passes := rfl
@[simp] theorem setObj_inserts (s : State) (o : Obj) : (setObj s o).inserts = s.inserts := rfl
@[simp] theorem setObj_handoffs (s : State) (o : Obj) : (setObj s o).handoffs = s.handoffs := rfl
@[simp] theorem setObj_frames (s : State) (o : Obj) : (setObj s o).frames = s.frames := rfl
@[simp] theorem setObj_encoded (s : State) (o : Obj) : (setObj s o).encoded = s.encoded := rfl
@[simp] theorem setObj_windows (s : State) (o : Obj) : (setObj s o).windows = s.windows := rfl
@[simp] theorem setObj_objs (s : State) (o : Obj) : (setObj s o).objs = updIf (fun x => decide (x.fn = o.fn ∧ x.num = o.num)) (fun _ => o) s.objs := rfl
@[simp] theorem setObj_repsets (s : State) (o : Obj) : (setObj s o).repsets = s.repsets := rfl
@[simp] theorem setObj_fns (s : State) (o : Obj) : (setObj s o).fns = s.fns := rfl
@[simp] theorem setObj_bases (s : State) (o : Obj) : (setObj s o).bases = s.bases := rfl
@[simp] theorem setObj_ranges (s : State) (o : Obj) : (setObj s o).ranges = s.ranges := rfl
@[simp] theorem setObj_mailq (s : State) (o : Obj) : (setObj s o).mailq = s.mailq := rfl
@[simp] theorem setObj_watch (s : State) (o : Obj) : (setObj s o).watch = s.watch := rfl
@[simp] theorem setObj_leases (s : State) (o : Obj) : (setObj s o).leases = s.leases := rfl
@[simp] theorem setObj_arrays (s : State) (o : Obj) : (setObj s o).arrays = s.arrays := rfl
@[simp] theorem setObj_chans (s : State) (o : Obj) : (setObj s o).chans = s.chans := rfl
@[simp] theorem setObj_dies (s : State) (o : Obj) : (setObj s o).dies = s.dies := rfl
@[simp] theorem setObj_cycleBase (s : State) (o : Obj) : (setObj s o).cycleBase = s.cycleBase := rfl
@[simp] theorem setObj_reserved (s : State) (o : Obj) : (setObj s o).reserved = s.reserved := rfl
@[simp] theorem setObj_edges (s : State) (o : Obj) : (setObj s o).edges = s.edges := rfl
@[simp] theorem setObj_boot (s : State) (o : Obj) : (setObj s o).boot = s.boot := rfl
@[simp] theorem setObj_carve (s : State) (o : Obj) : (setObj s o).carve = s.carve := rfl
@[simp] theorem setObj_measurement (s : State) (o : Obj) : (setObj s o).measurement = s.measurement := rfl
@[simp] theorem setObj_svn (s : State) (o : Obj) : (setObj s o).svn = s.svn := rfl
@[simp] theorem setObj_bootWord (s : State) (o : Obj) : (setObj s o).bootWord = s.bootWord := rfl
@[simp] theorem setObj_linksDown (s : State) (o : Obj) : (setObj s o).linksDown = s.linksDown := rfl
@[simp] theorem setObj_msix (s : State) (o : Obj) : (setObj s o).msix = s.msix := rfl
@[simp] theorem setObj_fabric (s : State) (o : Obj) : (setObj s o).fabric = s.fabric := rfl
@[simp] theorem setObj_ratomic (s : State) (o : Obj) : (setObj s o).ratomic = s.ratomic := rfl
@[simp] theorem setObj_heard (s : State) (o : Obj) : (setObj s o).heard = s.heard := rfl
@[simp] theorem setObj_hostData (s : State) (o : Obj) : (setObj s o).hostData = s.hostData := rfl
@[simp] theorem setObj_images (s : State) (o : Obj) : (setObj s o).images = s.images := rfl
@[simp] theorem setObj_thermalTrip (s : State) (o : Obj) : (setObj s o).thermalTrip = s.thermalTrip := rfl
@[simp] theorem setObj_now (s : State) (o : Obj) : (setObj s o).now = s.now := rfl
@[simp] theorem setObj_nextId (s : State) (o : Obj) : (setObj s o).nextId = s.nextId := rfl

-- setPass

@[simp] theorem setPass_agenda (s : State) (p : Pass) : (setPass s p).agenda = s.agenda := rfl
@[simp] theorem setPass_quantum (s : State) (p : Pass) : (setPass s p).quantum = s.quantum := rfl
@[simp] theorem setPass_g (s : State) (p : Pass) : (setPass s p).g = s.g := rfl
@[simp] theorem setPass_others (s : State) (p : Pass) : (setPass s p).others = s.others := rfl
@[simp] theorem setPass_teams (s : State) (p : Pass) : (setPass s p).teams = s.teams := rfl
@[simp] theorem setPass_launches (s : State) (p : Pass) : (setPass s p).launches = s.launches := rfl
@[simp] theorem setPass_packets (s : State) (p : Pass) : (setPass s p).packets = s.packets := rfl
@[simp] theorem setPass_trees (s : State) (p : Pass) : (setPass s p).trees = s.trees := rfl
@[simp] theorem setPass_mem (s : State) (p : Pass) : (setPass s p).mem = s.mem := rfl
@[simp] theorem setPass_memKey (s : State) (p : Pass) : (setPass s p).memKey = s.memKey := rfl
@[simp] theorem setPass_poison (s : State) (p : Pass) : (setPass s p).poison = s.poison := rfl
@[simp] theorem setPass_l1 (s : State) (p : Pass) : (setPass s p).l1 = s.l1 := rfl
@[simp] theorem setPass_icache (s : State) (p : Pass) : (setPass s p).icache = s.icache := rfl
@[simp] theorem setPass_tlb (s : State) (p : Pass) : (setPass s p).tlb = s.tlb := rfl
@[simp] theorem setPass_keys (s : State) (p : Pass) : (setPass s p).keys = s.keys := rfl
@[simp] theorem setPass_cmds (s : State) (p : Pass) : (setPass s p).cmds = s.cmds := rfl
@[simp] theorem setPass_copies (s : State) (p : Pass) : (setPass s p).copies = s.copies := rfl
@[simp] theorem setPass_trvs (s : State) (p : Pass) : (setPass s p).trvs = s.trvs := rfl
@[simp] theorem setPass_passes (s : State) (p : Pass) : (setPass s p).passes = updIf (fun q => decide (q.id = p.id)) (fun _ => p) s.passes := rfl
@[simp] theorem setPass_inserts (s : State) (p : Pass) : (setPass s p).inserts = s.inserts := rfl
@[simp] theorem setPass_handoffs (s : State) (p : Pass) : (setPass s p).handoffs = s.handoffs := rfl
@[simp] theorem setPass_frames (s : State) (p : Pass) : (setPass s p).frames = s.frames := rfl
@[simp] theorem setPass_encoded (s : State) (p : Pass) : (setPass s p).encoded = s.encoded := rfl
@[simp] theorem setPass_windows (s : State) (p : Pass) : (setPass s p).windows = s.windows := rfl
@[simp] theorem setPass_objs (s : State) (p : Pass) : (setPass s p).objs = s.objs := rfl
@[simp] theorem setPass_repsets (s : State) (p : Pass) : (setPass s p).repsets = s.repsets := rfl
@[simp] theorem setPass_fns (s : State) (p : Pass) : (setPass s p).fns = s.fns := rfl
@[simp] theorem setPass_bases (s : State) (p : Pass) : (setPass s p).bases = s.bases := rfl
@[simp] theorem setPass_ranges (s : State) (p : Pass) : (setPass s p).ranges = s.ranges := rfl
@[simp] theorem setPass_mailq (s : State) (p : Pass) : (setPass s p).mailq = s.mailq := rfl
@[simp] theorem setPass_watch (s : State) (p : Pass) : (setPass s p).watch = s.watch := rfl
@[simp] theorem setPass_leases (s : State) (p : Pass) : (setPass s p).leases = s.leases := rfl
@[simp] theorem setPass_arrays (s : State) (p : Pass) : (setPass s p).arrays = s.arrays := rfl
@[simp] theorem setPass_chans (s : State) (p : Pass) : (setPass s p).chans = s.chans := rfl
@[simp] theorem setPass_dies (s : State) (p : Pass) : (setPass s p).dies = s.dies := rfl
@[simp] theorem setPass_cycleBase (s : State) (p : Pass) : (setPass s p).cycleBase = s.cycleBase := rfl
@[simp] theorem setPass_reserved (s : State) (p : Pass) : (setPass s p).reserved = s.reserved := rfl
@[simp] theorem setPass_edges (s : State) (p : Pass) : (setPass s p).edges = s.edges := rfl
@[simp] theorem setPass_boot (s : State) (p : Pass) : (setPass s p).boot = s.boot := rfl
@[simp] theorem setPass_carve (s : State) (p : Pass) : (setPass s p).carve = s.carve := rfl
@[simp] theorem setPass_measurement (s : State) (p : Pass) : (setPass s p).measurement = s.measurement := rfl
@[simp] theorem setPass_svn (s : State) (p : Pass) : (setPass s p).svn = s.svn := rfl
@[simp] theorem setPass_bootWord (s : State) (p : Pass) : (setPass s p).bootWord = s.bootWord := rfl
@[simp] theorem setPass_linksDown (s : State) (p : Pass) : (setPass s p).linksDown = s.linksDown := rfl
@[simp] theorem setPass_msix (s : State) (p : Pass) : (setPass s p).msix = s.msix := rfl
@[simp] theorem setPass_fabric (s : State) (p : Pass) : (setPass s p).fabric = s.fabric := rfl
@[simp] theorem setPass_ratomic (s : State) (p : Pass) : (setPass s p).ratomic = s.ratomic := rfl
@[simp] theorem setPass_heard (s : State) (p : Pass) : (setPass s p).heard = s.heard := rfl
@[simp] theorem setPass_hostData (s : State) (p : Pass) : (setPass s p).hostData = s.hostData := rfl
@[simp] theorem setPass_images (s : State) (p : Pass) : (setPass s p).images = s.images := rfl
@[simp] theorem setPass_thermalTrip (s : State) (p : Pass) : (setPass s p).thermalTrip = s.thermalTrip := rfl
@[simp] theorem setPass_now (s : State) (p : Pass) : (setPass s p).now = s.now := rfl
@[simp] theorem setPass_nextId (s : State) (p : Pass) : (setPass s p).nextId = s.nextId := rfl

-- setTree

@[simp] theorem setTree_agenda (s : State) (n : Nat) (f : Tree → Tree) : (setTree s n f).agenda = s.agenda := rfl
@[simp] theorem setTree_quantum (s : State) (n : Nat) (f : Tree → Tree) : (setTree s n f).quantum = s.quantum := rfl
@[simp] theorem setTree_g (s : State) (n : Nat) (f : Tree → Tree) : (setTree s n f).g = s.g := rfl
@[simp] theorem setTree_others (s : State) (n : Nat) (f : Tree → Tree) : (setTree s n f).others = s.others := rfl
@[simp] theorem setTree_teams (s : State) (n : Nat) (f : Tree → Tree) : (setTree s n f).teams = s.teams := rfl
@[simp] theorem setTree_launches (s : State) (n : Nat) (f : Tree → Tree) : (setTree s n f).launches = s.launches := rfl
@[simp] theorem setTree_packets (s : State) (n : Nat) (f : Tree → Tree) : (setTree s n f).packets = s.packets := rfl
@[simp] theorem setTree_trees (s : State) (n : Nat) (f : Tree → Tree) : (setTree s n f).trees = updIf (fun t => decide (t.id = n)) f s.trees := rfl
@[simp] theorem setTree_mem (s : State) (n : Nat) (f : Tree → Tree) : (setTree s n f).mem = s.mem := rfl
@[simp] theorem setTree_memKey (s : State) (n : Nat) (f : Tree → Tree) : (setTree s n f).memKey = s.memKey := rfl
@[simp] theorem setTree_poison (s : State) (n : Nat) (f : Tree → Tree) : (setTree s n f).poison = s.poison := rfl
@[simp] theorem setTree_l1 (s : State) (n : Nat) (f : Tree → Tree) : (setTree s n f).l1 = s.l1 := rfl
@[simp] theorem setTree_icache (s : State) (n : Nat) (f : Tree → Tree) : (setTree s n f).icache = s.icache := rfl
@[simp] theorem setTree_tlb (s : State) (n : Nat) (f : Tree → Tree) : (setTree s n f).tlb = s.tlb := rfl
@[simp] theorem setTree_keys (s : State) (n : Nat) (f : Tree → Tree) : (setTree s n f).keys = s.keys := rfl
@[simp] theorem setTree_cmds (s : State) (n : Nat) (f : Tree → Tree) : (setTree s n f).cmds = s.cmds := rfl
@[simp] theorem setTree_copies (s : State) (n : Nat) (f : Tree → Tree) : (setTree s n f).copies = s.copies := rfl
@[simp] theorem setTree_trvs (s : State) (n : Nat) (f : Tree → Tree) : (setTree s n f).trvs = s.trvs := rfl
@[simp] theorem setTree_passes (s : State) (n : Nat) (f : Tree → Tree) : (setTree s n f).passes = s.passes := rfl
@[simp] theorem setTree_inserts (s : State) (n : Nat) (f : Tree → Tree) : (setTree s n f).inserts = s.inserts := rfl
@[simp] theorem setTree_handoffs (s : State) (n : Nat) (f : Tree → Tree) : (setTree s n f).handoffs = s.handoffs := rfl
@[simp] theorem setTree_frames (s : State) (n : Nat) (f : Tree → Tree) : (setTree s n f).frames = s.frames := rfl
@[simp] theorem setTree_encoded (s : State) (n : Nat) (f : Tree → Tree) : (setTree s n f).encoded = s.encoded := rfl
@[simp] theorem setTree_windows (s : State) (n : Nat) (f : Tree → Tree) : (setTree s n f).windows = s.windows := rfl
@[simp] theorem setTree_objs (s : State) (n : Nat) (f : Tree → Tree) : (setTree s n f).objs = s.objs := rfl
@[simp] theorem setTree_repsets (s : State) (n : Nat) (f : Tree → Tree) : (setTree s n f).repsets = s.repsets := rfl
@[simp] theorem setTree_fns (s : State) (n : Nat) (f : Tree → Tree) : (setTree s n f).fns = s.fns := rfl
@[simp] theorem setTree_bases (s : State) (n : Nat) (f : Tree → Tree) : (setTree s n f).bases = s.bases := rfl
@[simp] theorem setTree_ranges (s : State) (n : Nat) (f : Tree → Tree) : (setTree s n f).ranges = s.ranges := rfl
@[simp] theorem setTree_mailq (s : State) (n : Nat) (f : Tree → Tree) : (setTree s n f).mailq = s.mailq := rfl
@[simp] theorem setTree_watch (s : State) (n : Nat) (f : Tree → Tree) : (setTree s n f).watch = s.watch := rfl
@[simp] theorem setTree_leases (s : State) (n : Nat) (f : Tree → Tree) : (setTree s n f).leases = s.leases := rfl
@[simp] theorem setTree_arrays (s : State) (n : Nat) (f : Tree → Tree) : (setTree s n f).arrays = s.arrays := rfl
@[simp] theorem setTree_chans (s : State) (n : Nat) (f : Tree → Tree) : (setTree s n f).chans = s.chans := rfl
@[simp] theorem setTree_dies (s : State) (n : Nat) (f : Tree → Tree) : (setTree s n f).dies = s.dies := rfl
@[simp] theorem setTree_cycleBase (s : State) (n : Nat) (f : Tree → Tree) : (setTree s n f).cycleBase = s.cycleBase := rfl
@[simp] theorem setTree_reserved (s : State) (n : Nat) (f : Tree → Tree) : (setTree s n f).reserved = s.reserved := rfl
@[simp] theorem setTree_edges (s : State) (n : Nat) (f : Tree → Tree) : (setTree s n f).edges = s.edges := rfl
@[simp] theorem setTree_boot (s : State) (n : Nat) (f : Tree → Tree) : (setTree s n f).boot = s.boot := rfl
@[simp] theorem setTree_carve (s : State) (n : Nat) (f : Tree → Tree) : (setTree s n f).carve = s.carve := rfl
@[simp] theorem setTree_measurement (s : State) (n : Nat) (f : Tree → Tree) : (setTree s n f).measurement = s.measurement := rfl
@[simp] theorem setTree_svn (s : State) (n : Nat) (f : Tree → Tree) : (setTree s n f).svn = s.svn := rfl
@[simp] theorem setTree_bootWord (s : State) (n : Nat) (f : Tree → Tree) : (setTree s n f).bootWord = s.bootWord := rfl
@[simp] theorem setTree_linksDown (s : State) (n : Nat) (f : Tree → Tree) : (setTree s n f).linksDown = s.linksDown := rfl
@[simp] theorem setTree_msix (s : State) (n : Nat) (f : Tree → Tree) : (setTree s n f).msix = s.msix := rfl
@[simp] theorem setTree_fabric (s : State) (n : Nat) (f : Tree → Tree) : (setTree s n f).fabric = s.fabric := rfl
@[simp] theorem setTree_ratomic (s : State) (n : Nat) (f : Tree → Tree) : (setTree s n f).ratomic = s.ratomic := rfl
@[simp] theorem setTree_heard (s : State) (n : Nat) (f : Tree → Tree) : (setTree s n f).heard = s.heard := rfl
@[simp] theorem setTree_hostData (s : State) (n : Nat) (f : Tree → Tree) : (setTree s n f).hostData = s.hostData := rfl
@[simp] theorem setTree_images (s : State) (n : Nat) (f : Tree → Tree) : (setTree s n f).images = s.images := rfl
@[simp] theorem setTree_thermalTrip (s : State) (n : Nat) (f : Tree → Tree) : (setTree s n f).thermalTrip = s.thermalTrip := rfl
@[simp] theorem setTree_now (s : State) (n : Nat) (f : Tree → Tree) : (setTree s n f).now = s.now := rfl
@[simp] theorem setTree_nextId (s : State) (n : Nat) (f : Tree → Tree) : (setTree s n f).nextId = s.nextId := rfl

-- raiseVector

@[simp] theorem raiseVector_agenda (s : State) (fn v : Nat) : (raiseVector s fn v).agenda = s.agenda := rfl
@[simp] theorem raiseVector_quantum (s : State) (fn v : Nat) : (raiseVector s fn v).quantum = s.quantum := rfl
@[simp] theorem raiseVector_g (s : State) (fn v : Nat) : (raiseVector s fn v).g = s.g := rfl
@[simp] theorem raiseVector_others (s : State) (fn v : Nat) : (raiseVector s fn v).others = s.others := rfl
@[simp] theorem raiseVector_teams (s : State) (fn v : Nat) : (raiseVector s fn v).teams = s.teams := rfl
@[simp] theorem raiseVector_launches (s : State) (fn v : Nat) : (raiseVector s fn v).launches = s.launches := rfl
@[simp] theorem raiseVector_packets (s : State) (fn v : Nat) : (raiseVector s fn v).packets = s.packets := rfl
@[simp] theorem raiseVector_trees (s : State) (fn v : Nat) : (raiseVector s fn v).trees = s.trees := rfl
@[simp] theorem raiseVector_mem (s : State) (fn v : Nat) : (raiseVector s fn v).mem = s.mem := rfl
@[simp] theorem raiseVector_memKey (s : State) (fn v : Nat) : (raiseVector s fn v).memKey = s.memKey := rfl
@[simp] theorem raiseVector_poison (s : State) (fn v : Nat) : (raiseVector s fn v).poison = s.poison := rfl
@[simp] theorem raiseVector_l1 (s : State) (fn v : Nat) : (raiseVector s fn v).l1 = s.l1 := rfl
@[simp] theorem raiseVector_icache (s : State) (fn v : Nat) : (raiseVector s fn v).icache = s.icache := rfl
@[simp] theorem raiseVector_tlb (s : State) (fn v : Nat) : (raiseVector s fn v).tlb = s.tlb := rfl
@[simp] theorem raiseVector_keys (s : State) (fn v : Nat) : (raiseVector s fn v).keys = s.keys := rfl
@[simp] theorem raiseVector_cmds (s : State) (fn v : Nat) : (raiseVector s fn v).cmds = s.cmds := rfl
@[simp] theorem raiseVector_copies (s : State) (fn v : Nat) : (raiseVector s fn v).copies = s.copies := rfl
@[simp] theorem raiseVector_trvs (s : State) (fn v : Nat) : (raiseVector s fn v).trvs = s.trvs := rfl
@[simp] theorem raiseVector_passes (s : State) (fn v : Nat) : (raiseVector s fn v).passes = s.passes := rfl
@[simp] theorem raiseVector_inserts (s : State) (fn v : Nat) : (raiseVector s fn v).inserts = s.inserts := rfl
@[simp] theorem raiseVector_handoffs (s : State) (fn v : Nat) : (raiseVector s fn v).handoffs = s.handoffs := rfl
@[simp] theorem raiseVector_frames (s : State) (fn v : Nat) : (raiseVector s fn v).frames = s.frames := rfl
@[simp] theorem raiseVector_encoded (s : State) (fn v : Nat) : (raiseVector s fn v).encoded = s.encoded := rfl
@[simp] theorem raiseVector_windows (s : State) (fn v : Nat) : (raiseVector s fn v).windows = s.windows := rfl
@[simp] theorem raiseVector_objs (s : State) (fn v : Nat) : (raiseVector s fn v).objs = s.objs := rfl
@[simp] theorem raiseVector_repsets (s : State) (fn v : Nat) : (raiseVector s fn v).repsets = s.repsets := rfl
@[simp] theorem raiseVector_fns (s : State) (fn v : Nat) : (raiseVector s fn v).fns = s.fns := rfl
@[simp] theorem raiseVector_bases (s : State) (fn v : Nat) : (raiseVector s fn v).bases = s.bases := rfl
@[simp] theorem raiseVector_ranges (s : State) (fn v : Nat) : (raiseVector s fn v).ranges = s.ranges := rfl
@[simp] theorem raiseVector_mailq (s : State) (fn v : Nat) : (raiseVector s fn v).mailq = s.mailq := rfl
@[simp] theorem raiseVector_watch (s : State) (fn v : Nat) : (raiseVector s fn v).watch = s.watch := rfl
@[simp] theorem raiseVector_leases (s : State) (fn v : Nat) : (raiseVector s fn v).leases = s.leases := rfl
@[simp] theorem raiseVector_arrays (s : State) (fn v : Nat) : (raiseVector s fn v).arrays = s.arrays := rfl
@[simp] theorem raiseVector_chans (s : State) (fn v : Nat) : (raiseVector s fn v).chans = s.chans := rfl
@[simp] theorem raiseVector_dies (s : State) (fn v : Nat) : (raiseVector s fn v).dies = s.dies := rfl
@[simp] theorem raiseVector_cycleBase (s : State) (fn v : Nat) : (raiseVector s fn v).cycleBase = s.cycleBase := rfl
@[simp] theorem raiseVector_reserved (s : State) (fn v : Nat) : (raiseVector s fn v).reserved = s.reserved := rfl
@[simp] theorem raiseVector_edges (s : State) (fn v : Nat) : (raiseVector s fn v).edges = s.edges := rfl
@[simp] theorem raiseVector_boot (s : State) (fn v : Nat) : (raiseVector s fn v).boot = s.boot := rfl
@[simp] theorem raiseVector_carve (s : State) (fn v : Nat) : (raiseVector s fn v).carve = s.carve := rfl
@[simp] theorem raiseVector_measurement (s : State) (fn v : Nat) : (raiseVector s fn v).measurement = s.measurement := rfl
@[simp] theorem raiseVector_svn (s : State) (fn v : Nat) : (raiseVector s fn v).svn = s.svn := rfl
@[simp] theorem raiseVector_bootWord (s : State) (fn v : Nat) : (raiseVector s fn v).bootWord = s.bootWord := rfl
@[simp] theorem raiseVector_linksDown (s : State) (fn v : Nat) : (raiseVector s fn v).linksDown = s.linksDown := rfl
@[simp] theorem raiseVector_msix (s : State) (fn v : Nat) : (raiseVector s fn v).msix = (fn, v) :: s.msix := rfl
@[simp] theorem raiseVector_fabric (s : State) (fn v : Nat) : (raiseVector s fn v).fabric = s.fabric := rfl
@[simp] theorem raiseVector_ratomic (s : State) (fn v : Nat) : (raiseVector s fn v).ratomic = s.ratomic := rfl
@[simp] theorem raiseVector_heard (s : State) (fn v : Nat) : (raiseVector s fn v).heard = s.heard := rfl
@[simp] theorem raiseVector_hostData (s : State) (fn v : Nat) : (raiseVector s fn v).hostData = s.hostData := rfl
@[simp] theorem raiseVector_images (s : State) (fn v : Nat) : (raiseVector s fn v).images = s.images := rfl
@[simp] theorem raiseVector_thermalTrip (s : State) (fn v : Nat) : (raiseVector s fn v).thermalTrip = s.thermalTrip := rfl
@[simp] theorem raiseVector_now (s : State) (fn v : Nat) : (raiseVector s fn v).now = s.now := rfl
@[simp] theorem raiseVector_nextId (s : State) (fn v : Nat) : (raiseVector s fn v).nextId = s.nextId := rfl

-- stall

@[simp] theorem stall_agenda (s : State) : (stall s).agenda = s.agenda := rfl
@[simp] theorem stall_quantum (s : State) : (stall s).quantum = s.quantum := rfl
@[simp] theorem stall_g (s : State) : (stall s).g = { s.g with stalled := true } := rfl
@[simp] theorem stall_others (s : State) : (stall s).others = s.others := rfl
@[simp] theorem stall_teams (s : State) : (stall s).teams = s.teams := rfl
@[simp] theorem stall_launches (s : State) : (stall s).launches = s.launches := rfl
@[simp] theorem stall_packets (s : State) : (stall s).packets = s.packets := rfl
@[simp] theorem stall_trees (s : State) : (stall s).trees = s.trees := rfl
@[simp] theorem stall_mem (s : State) : (stall s).mem = s.mem := rfl
@[simp] theorem stall_memKey (s : State) : (stall s).memKey = s.memKey := rfl
@[simp] theorem stall_poison (s : State) : (stall s).poison = s.poison := rfl
@[simp] theorem stall_l1 (s : State) : (stall s).l1 = s.l1 := rfl
@[simp] theorem stall_icache (s : State) : (stall s).icache = s.icache := rfl
@[simp] theorem stall_tlb (s : State) : (stall s).tlb = s.tlb := rfl
@[simp] theorem stall_keys (s : State) : (stall s).keys = s.keys := rfl
@[simp] theorem stall_cmds (s : State) : (stall s).cmds = s.cmds := rfl
@[simp] theorem stall_copies (s : State) : (stall s).copies = s.copies := rfl
@[simp] theorem stall_trvs (s : State) : (stall s).trvs = s.trvs := rfl
@[simp] theorem stall_passes (s : State) : (stall s).passes = s.passes := rfl
@[simp] theorem stall_inserts (s : State) : (stall s).inserts = s.inserts := rfl
@[simp] theorem stall_handoffs (s : State) : (stall s).handoffs = s.handoffs := rfl
@[simp] theorem stall_frames (s : State) : (stall s).frames = s.frames := rfl
@[simp] theorem stall_encoded (s : State) : (stall s).encoded = s.encoded := rfl
@[simp] theorem stall_windows (s : State) : (stall s).windows = s.windows := rfl
@[simp] theorem stall_objs (s : State) : (stall s).objs = s.objs := rfl
@[simp] theorem stall_repsets (s : State) : (stall s).repsets = s.repsets := rfl
@[simp] theorem stall_fns (s : State) : (stall s).fns = s.fns := rfl
@[simp] theorem stall_bases (s : State) : (stall s).bases = s.bases := rfl
@[simp] theorem stall_ranges (s : State) : (stall s).ranges = s.ranges := rfl
@[simp] theorem stall_mailq (s : State) : (stall s).mailq = s.mailq := rfl
@[simp] theorem stall_watch (s : State) : (stall s).watch = s.watch := rfl
@[simp] theorem stall_leases (s : State) : (stall s).leases = s.leases := rfl
@[simp] theorem stall_arrays (s : State) : (stall s).arrays = s.arrays := rfl
@[simp] theorem stall_chans (s : State) : (stall s).chans = s.chans := rfl
@[simp] theorem stall_dies (s : State) : (stall s).dies = s.dies := rfl
@[simp] theorem stall_cycleBase (s : State) : (stall s).cycleBase = s.cycleBase := rfl
@[simp] theorem stall_reserved (s : State) : (stall s).reserved = s.reserved := rfl
@[simp] theorem stall_edges (s : State) : (stall s).edges = s.edges := rfl
@[simp] theorem stall_boot (s : State) : (stall s).boot = s.boot := rfl
@[simp] theorem stall_carve (s : State) : (stall s).carve = s.carve := rfl
@[simp] theorem stall_measurement (s : State) : (stall s).measurement = s.measurement := rfl
@[simp] theorem stall_svn (s : State) : (stall s).svn = s.svn := rfl
@[simp] theorem stall_bootWord (s : State) : (stall s).bootWord = s.bootWord := rfl
@[simp] theorem stall_linksDown (s : State) : (stall s).linksDown = s.linksDown := rfl
@[simp] theorem stall_msix (s : State) : (stall s).msix = s.msix := rfl
@[simp] theorem stall_fabric (s : State) : (stall s).fabric = s.fabric := rfl
@[simp] theorem stall_ratomic (s : State) : (stall s).ratomic = s.ratomic := rfl
@[simp] theorem stall_heard (s : State) : (stall s).heard = s.heard := rfl
@[simp] theorem stall_hostData (s : State) : (stall s).hostData = s.hostData := rfl
@[simp] theorem stall_images (s : State) : (stall s).images = s.images := rfl
@[simp] theorem stall_thermalTrip (s : State) : (stall s).thermalTrip = s.thermalTrip := rfl
@[simp] theorem stall_now (s : State) : (stall s).now = s.now := rfl
@[simp] theorem stall_nextId (s : State) : (stall s).nextId = s.nextId := rfl

-- setReg

@[simp] theorem setReg_id (h : Group) (r l : Nat) (v : Word) : (setReg h r l v).id = h.id := rfl
@[simp] theorem setReg_ctx (h : Group) (r l : Nat) (v : Word) : (setReg h r l v).ctx = h.ctx := rfl
@[simp] theorem setReg_core (h : Group) (r l : Nat) (v : Word) : (setReg h r l v).core = h.core := rfl
@[simp] theorem setReg_team (h : Group) (r l : Nat) (v : Word) : (setReg h r l v).team = h.team := rfl
@[simp] theorem setReg_grpix (h : Group) (r l : Nat) (v : Word) : (setReg h r l v).grpix = h.grpix := rfl
@[simp] theorem setReg_teamix (h : Group) (r l : Nat) (v : Word) : (setReg h r l v).teamix = h.teamix := rfl
@[simp] theorem setReg_ginteam (h : Group) (r l : Nat) (v : Word) : (setReg h r l v).ginteam = h.ginteam := rfl
@[simp] theorem setReg_phase (h : Group) (r l : Nat) (v : Word) : (setReg h r l v).phase = h.phase := rfl
@[simp] theorem setReg_hollow (h : Group) (r l : Nat) (v : Word) : (setReg h r l v).hollow = h.hollow := rfl
@[simp] theorem setReg_pos (h : Group) (r l : Nat) (v : Word) : (setReg h r l v).pos = h.pos := rfl
@[simp] theorem setReg_off (h : Group) (r l : Nat) (v : Word) : (setReg h r l v).off = h.off := rfl
@[simp] theorem setReg_clause (h : Group) (r l : Nat) (v : Word) : (setReg h r l v).clause = h.clause := rfl
@[simp] theorem setReg_active (h : Group) (r l : Nat) (v : Word) : (setReg h r l v).active = h.active := rfl
@[simp] theorem setReg_exited (h : Group) (r l : Nat) (v : Word) : (setReg h r l v).exited = h.exited := rfl
@[simp] theorem setReg_vacant (h : Group) (r l : Nat) (v : Word) : (setReg h r l v).vacant = h.vacant := rfl
@[simp] theorem setReg_rc (h : Group) (r l : Nat) (v : Word) : (setReg h r l v).rc = h.rc := rfl
@[simp] theorem setReg_rcblocks (h : Group) (r l : Nat) (v : Word) : (setReg h r l v).rcblocks = h.rcblocks := rfl
@[simp] theorem setReg_joinAt (h : Group) (r l : Nat) (v : Word) : (setReg h r l v).joinAt = h.joinAt := rfl
@[simp] theorem setReg_joinNext (h : Group) (r l : Nat) (v : Word) : (setReg h r l v).joinNext = h.joinNext := rfl
@[simp] theorem setReg_regs (h : Group) (r l : Nat) (v : Word) : (setReg h r l v).regs = smSet 0 h.regs (regKey r l) v := rfl
@[simp] theorem setReg_regPoison (h : Group) (r l : Nat) (v : Word) : (setReg h r l v).regPoison = smSet false h.regPoison (regKey r l) false := rfl
@[simp] theorem setReg_flags (h : Group) (r l : Nat) (v : Word) : (setReg h r l v).flags = h.flags := rfl
@[simp] theorem setReg_srseq (h : Group) (r l : Nat) (v : Word) : (setReg h r l v).srseq = h.srseq := rfl
@[simp] theorem setReg_origGrp (h : Group) (r l : Nat) (v : Word) : (setReg h r l v).origGrp = h.origGrp := rfl
@[simp] theorem setReg_origLane (h : Group) (r l : Nat) (v : Word) : (setReg h r l v).origLane = h.origLane := rfl
@[simp] theorem setReg_frags (h : Group) (r l : Nat) (v : Word) : (setReg h r l v).frags = h.frags := rfl
@[simp] theorem setReg_p (h : Group) (r l : Nat) (v : Word) : (setReg h r l v).p = h.p := rfl
@[simp] theorem setReg_m (h : Group) (r l : Nat) (v : Word) : (setReg h r l v).m = h.m := rfl
@[simp] theorem setReg_hnd (h : Group) (r l : Nat) (v : Word) : (setReg h r l v).hnd = h.hnd := rfl
@[simp] theorem setReg_trec (h : Group) (r l : Nat) (v : Word) : (setReg h r l v).trec = h.trec := rfl
@[simp] theorem setReg_trpos (h : Group) (r l : Nat) (v : Word) : (setReg h r l v).trpos = h.trpos := rfl
@[simp] theorem setReg_since (h : Group) (r l : Nat) (v : Word) : (setReg h r l v).since = h.since := rfl
@[simp] theorem setReg_trsince (h : Group) (r l : Nat) (v : Word) : (setReg h r l v).trsince = h.trsince := rfl
@[simp] theorem setReg_till (h : Group) (r l : Nat) (v : Word) : (setReg h r l v).till = h.till := rfl
@[simp] theorem setReg_trtill (h : Group) (r l : Nat) (v : Word) : (setReg h r l v).trtill = h.trtill := rfl
@[simp] theorem setReg_trheld (h : Group) (r l : Nat) (v : Word) : (setReg h r l v).trheld = h.trheld := rfl
@[simp] theorem setReg_trwait (h : Group) (r l : Nat) (v : Word) : (setReg h r l v).trwait = h.trwait := rfl
@[simp] theorem setReg_owed (h : Group) (r l : Nat) (v : Word) : (setReg h r l v).owed = h.owed := rfl
@[simp] theorem setReg_stq (h : Group) (r l : Nat) (v : Word) : (setReg h r l v).stq = h.stq := rfl
@[simp] theorem setReg_loads (h : Group) (r l : Nat) (v : Word) : (setReg h r l v).loads = h.loads := rfl
@[simp] theorem setReg_early (h : Group) (r l : Nat) (v : Word) : (setReg h r l v).early = h.early := rfl
@[simp] theorem setReg_tiles (h : Group) (r l : Nat) (v : Word) : (setReg h r l v).tiles = h.tiles := rfl
@[simp] theorem setReg_tstacks (h : Group) (r l : Nat) (v : Word) : (setReg h r l v).tstacks = h.tstacks := rfl
@[simp] theorem setReg_arv (h : Group) (r l : Nat) (v : Word) : (setReg h r l v).arv = h.arv := rfl
@[simp] theorem setReg_phases (h : Group) (r l : Nat) (v : Word) : (setReg h r l v).phases = h.phases := rfl
@[simp] theorem setReg_darv (h : Group) (r l : Nat) (v : Word) : (setReg h r l v).darv = h.darv := rfl
@[simp] theorem setReg_sarv (h : Group) (r l : Nat) (v : Word) : (setReg h r l v).sarv = h.sarv := rfl
@[simp] theorem setReg_waiting (h : Group) (r l : Nat) (v : Word) : (setReg h r l v).waiting = h.waiting := rfl
@[simp] theorem setReg_stalled (h : Group) (r l : Nat) (v : Word) : (setReg h r l v).stalled = h.stalled := rfl
@[simp] theorem setReg_tagWait (h : Group) (r l : Nat) (v : Word) : (setReg h r l v).tagWait = h.tagWait := rfl
@[simp] theorem setReg_idle (h : Group) (r l : Nat) (v : Word) : (setReg h r l v).idle = h.idle := rfl
@[simp] theorem setReg_preempt (h : Group) (r l : Nat) (v : Word) : (setReg h r l v).preempt = h.preempt := rfl
@[simp] theorem setReg_drainReq (h : Group) (r l : Nat) (v : Word) : (setReg h r l v).drainReq = h.drainReq := rfl
@[simp] theorem setReg_bobbin (h : Group) (r l : Nat) (v : Word) : (setReg h r l v).bobbin = h.bobbin := rfl

-- settled

@[simp] theorem settled_id (h : Group) : (settled h).id = h.id := rfl
@[simp] theorem settled_ctx (h : Group) : (settled h).ctx = h.ctx := rfl
@[simp] theorem settled_core (h : Group) : (settled h).core = h.core := rfl
@[simp] theorem settled_team (h : Group) : (settled h).team = h.team := rfl
@[simp] theorem settled_grpix (h : Group) : (settled h).grpix = h.grpix := rfl
@[simp] theorem settled_teamix (h : Group) : (settled h).teamix = h.teamix := rfl
@[simp] theorem settled_ginteam (h : Group) : (settled h).ginteam = h.ginteam := rfl
@[simp] theorem settled_phase (h : Group) : (settled h).phase = h.phase := rfl
@[simp] theorem settled_hollow (h : Group) : (settled h).hollow = h.hollow := rfl
@[simp] theorem settled_pos (h : Group) : (settled h).pos = h.pos := rfl
@[simp] theorem settled_off (h : Group) : (settled h).off = h.off := rfl
@[simp] theorem settled_clause (h : Group) : (settled h).clause = h.clause := rfl
@[simp] theorem settled_active (h : Group) : (settled h).active = h.active := rfl
@[simp] theorem settled_exited (h : Group) : (settled h).exited = h.exited := rfl
@[simp] theorem settled_vacant (h : Group) : (settled h).vacant = h.vacant := rfl
@[simp] theorem settled_rc (h : Group) : (settled h).rc = h.rc := rfl
@[simp] theorem settled_rcblocks (h : Group) : (settled h).rcblocks = h.rcblocks := rfl
@[simp] theorem settled_joinAt (h : Group) : (settled h).joinAt = h.joinAt := rfl
@[simp] theorem settled_joinNext (h : Group) : (settled h).joinNext = h.joinNext := rfl
@[simp] theorem settled_regs (h : Group) : (settled h).regs = h.regs := rfl
@[simp] theorem settled_regPoison (h : Group) : (settled h).regPoison = h.regPoison := rfl
@[simp] theorem settled_flags (h : Group) : (settled h).flags = h.flags := rfl
@[simp] theorem settled_srseq (h : Group) : (settled h).srseq = h.srseq := rfl
@[simp] theorem settled_origGrp (h : Group) : (settled h).origGrp = h.origGrp := rfl
@[simp] theorem settled_origLane (h : Group) : (settled h).origLane = h.origLane := rfl
@[simp] theorem settled_frags (h : Group) : (settled h).frags = h.frags := rfl
@[simp] theorem settled_p (h : Group) : (settled h).p = h.p := rfl
@[simp] theorem settled_m (h : Group) : (settled h).m = h.m := rfl
@[simp] theorem settled_hnd (h : Group) : (settled h).hnd = h.hnd := rfl
@[simp] theorem settled_trec (h : Group) : (settled h).trec = h.trec := rfl
@[simp] theorem settled_trpos (h : Group) : (settled h).trpos = h.trpos := rfl
@[simp] theorem settled_since (h : Group) : (settled h).since = h.since := rfl
@[simp] theorem settled_trsince (h : Group) : (settled h).trsince = h.trsince := rfl
@[simp] theorem settled_till (h : Group) : (settled h).till = h.till := rfl
@[simp] theorem settled_trtill (h : Group) : (settled h).trtill = h.trtill := rfl
@[simp] theorem settled_trheld (h : Group) : (settled h).trheld = h.trheld := rfl
@[simp] theorem settled_trwait (h : Group) : (settled h).trwait = h.trwait := rfl
@[simp] theorem settled_owed (h : Group) : (settled h).owed = h.owed := rfl
@[simp] theorem settled_stq (h : Group) : (settled h).stq = h.stq := rfl
@[simp] theorem settled_loads (h : Group) : (settled h).loads = h.loads := rfl
@[simp] theorem settled_early (h : Group) : (settled h).early = [] := rfl
@[simp] theorem settled_tiles (h : Group) : (settled h).tiles = h.tiles := rfl
@[simp] theorem settled_tstacks (h : Group) : (settled h).tstacks = h.tstacks := rfl
@[simp] theorem settled_arv (h : Group) : (settled h).arv = h.arv := rfl
@[simp] theorem settled_phases (h : Group) : (settled h).phases = h.phases := rfl
@[simp] theorem settled_darv (h : Group) : (settled h).darv = h.darv := rfl
@[simp] theorem settled_sarv (h : Group) : (settled h).sarv = h.sarv := rfl
@[simp] theorem settled_waiting (h : Group) : (settled h).waiting = .no := rfl
@[simp] theorem settled_stalled (h : Group) : (settled h).stalled = false := rfl
@[simp] theorem settled_tagWait (h : Group) : (settled h).tagWait = none := rfl
@[simp] theorem settled_idle (h : Group) : (settled h).idle = 0 := rfl
@[simp] theorem settled_preempt (h : Group) : (settled h).preempt = h.preempt := rfl
@[simp] theorem settled_drainReq (h : Group) : (settled h).drainReq = h.drainReq := rfl
@[simp] theorem settled_bobbin (h : Group) : (settled h).bobbin = h.bobbin := rfl

-- transfer

@[simp] theorem transfer_id (h : Group) (p : Nat) : (transfer h p).id = h.id := rfl
@[simp] theorem transfer_ctx (h : Group) (p : Nat) : (transfer h p).ctx = h.ctx := rfl
@[simp] theorem transfer_core (h : Group) (p : Nat) : (transfer h p).core = h.core := rfl
@[simp] theorem transfer_team (h : Group) (p : Nat) : (transfer h p).team = h.team := rfl
@[simp] theorem transfer_grpix (h : Group) (p : Nat) : (transfer h p).grpix = h.grpix := rfl
@[simp] theorem transfer_teamix (h : Group) (p : Nat) : (transfer h p).teamix = h.teamix := rfl
@[simp] theorem transfer_ginteam (h : Group) (p : Nat) : (transfer h p).ginteam = h.ginteam := rfl
@[simp] theorem transfer_phase (h : Group) (p : Nat) : (transfer h p).phase = .fetch := rfl
@[simp] theorem transfer_hollow (h : Group) (p : Nat) : (transfer h p).hollow = h.hollow := rfl
@[simp] theorem transfer_pos (h : Group) (p : Nat) : (transfer h p).pos = p := rfl
@[simp] theorem transfer_off (h : Group) (p : Nat) : (transfer h p).off = 0 := rfl
@[simp] theorem transfer_clause (h : Group) (p : Nat) : (transfer h p).clause = [] := rfl
@[simp] theorem transfer_active (h : Group) (p : Nat) : (transfer h p).active = h.active := rfl
@[simp] theorem transfer_exited (h : Group) (p : Nat) : (transfer h p).exited = h.exited := rfl
@[simp] theorem transfer_vacant (h : Group) (p : Nat) : (transfer h p).vacant = h.vacant := rfl
@[simp] theorem transfer_rc (h : Group) (p : Nat) : (transfer h p).rc = h.rc := rfl
@[simp] theorem transfer_rcblocks (h : Group) (p : Nat) : (transfer h p).rcblocks = h.rcblocks := rfl
@[simp] theorem transfer_joinAt (h : Group) (p : Nat) : (transfer h p).joinAt = h.joinAt := rfl
@[simp] theorem transfer_joinNext (h : Group) (p : Nat) : (transfer h p).joinNext = h.joinNext := rfl
@[simp] theorem transfer_regs (h : Group) (p : Nat) : (transfer h p).regs = h.regs := rfl
@[simp] theorem transfer_regPoison (h : Group) (p : Nat) : (transfer h p).regPoison = h.regPoison := rfl
@[simp] theorem transfer_flags (h : Group) (p : Nat) : (transfer h p).flags = h.flags := rfl
@[simp] theorem transfer_srseq (h : Group) (p : Nat) : (transfer h p).srseq = h.srseq := rfl
@[simp] theorem transfer_origGrp (h : Group) (p : Nat) : (transfer h p).origGrp = h.origGrp := rfl
@[simp] theorem transfer_origLane (h : Group) (p : Nat) : (transfer h p).origLane = h.origLane := rfl
@[simp] theorem transfer_frags (h : Group) (p : Nat) : (transfer h p).frags = h.frags := rfl
@[simp] theorem transfer_p (h : Group) (p : Nat) : (transfer h p).p = 0 := rfl
@[simp] theorem transfer_m (h : Group) (p : Nat) : (transfer h p).m = 0 := rfl
@[simp] theorem transfer_hnd (h : Group) (p : Nat) : (transfer h p).hnd = h.hnd := rfl
@[simp] theorem transfer_trec (h : Group) (p : Nat) : (transfer h p).trec = h.trec := rfl
@[simp] theorem transfer_trpos (h : Group) (p : Nat) : (transfer h p).trpos = h.trpos := rfl
@[simp] theorem transfer_since (h : Group) (p : Nat) : (transfer h p).since = h.since := rfl
@[simp] theorem transfer_trsince (h : Group) (p : Nat) : (transfer h p).trsince = h.trsince := rfl
@[simp] theorem transfer_till (h : Group) (p : Nat) : (transfer h p).till = h.till := rfl
@[simp] theorem transfer_trtill (h : Group) (p : Nat) : (transfer h p).trtill = h.trtill := rfl
@[simp] theorem transfer_trheld (h : Group) (p : Nat) : (transfer h p).trheld = h.trheld := rfl
@[simp] theorem transfer_trwait (h : Group) (p : Nat) : (transfer h p).trwait = h.trwait := rfl
@[simp] theorem transfer_owed (h : Group) (p : Nat) : (transfer h p).owed = h.owed := rfl
@[simp] theorem transfer_stq (h : Group) (p : Nat) : (transfer h p).stq = h.stq := rfl
@[simp] theorem transfer_loads (h : Group) (p : Nat) : (transfer h p).loads = h.loads := rfl
@[simp] theorem transfer_early (h : Group) (p : Nat) : (transfer h p).early = [] := rfl
@[simp] theorem transfer_tiles (h : Group) (p : Nat) : (transfer h p).tiles = h.tiles := rfl
@[simp] theorem transfer_tstacks (h : Group) (p : Nat) : (transfer h p).tstacks = h.tstacks := rfl
@[simp] theorem transfer_arv (h : Group) (p : Nat) : (transfer h p).arv = h.arv := rfl
@[simp] theorem transfer_phases (h : Group) (p : Nat) : (transfer h p).phases = h.phases := rfl
@[simp] theorem transfer_darv (h : Group) (p : Nat) : (transfer h p).darv = h.darv := rfl
@[simp] theorem transfer_sarv (h : Group) (p : Nat) : (transfer h p).sarv = h.sarv := rfl
@[simp] theorem transfer_waiting (h : Group) (p : Nat) : (transfer h p).waiting = .no := rfl
@[simp] theorem transfer_stalled (h : Group) (p : Nat) : (transfer h p).stalled = false := rfl
@[simp] theorem transfer_tagWait (h : Group) (p : Nat) : (transfer h p).tagWait = none := rfl
@[simp] theorem transfer_idle (h : Group) (p : Nat) : (transfer h p).idle = 0 := rfl
@[simp] theorem transfer_preempt (h : Group) (p : Nat) : (transfer h p).preempt = h.preempt := rfl
@[simp] theorem transfer_drainReq (h : Group) (p : Nat) : (transfer h p).drainReq = h.drainReq := rfl
@[simp] theorem transfer_bobbin (h : Group) (p : Nat) : (transfer h p).bobbin = h.bobbin := rfl

-- advance

@[simp] theorem advance_id (h : Group) (n : Nat) : (advance h n).id = h.id := by unfold advance; split <;> rfl
@[simp] theorem advance_ctx (h : Group) (n : Nat) : (advance h n).ctx = h.ctx := by unfold advance; split <;> rfl
@[simp] theorem advance_core (h : Group) (n : Nat) : (advance h n).core = h.core := by unfold advance; split <;> rfl
@[simp] theorem advance_team (h : Group) (n : Nat) : (advance h n).team = h.team := by unfold advance; split <;> rfl
@[simp] theorem advance_grpix (h : Group) (n : Nat) : (advance h n).grpix = h.grpix := by unfold advance; split <;> rfl
@[simp] theorem advance_teamix (h : Group) (n : Nat) : (advance h n).teamix = h.teamix := by unfold advance; split <;> rfl
@[simp] theorem advance_ginteam (h : Group) (n : Nat) : (advance h n).ginteam = h.ginteam := by unfold advance; split <;> rfl
@[simp] theorem advance_hollow (h : Group) (n : Nat) : (advance h n).hollow = h.hollow := by unfold advance; split <;> rfl
@[simp] theorem advance_active (h : Group) (n : Nat) : (advance h n).active = h.active := by unfold advance; split <;> rfl
@[simp] theorem advance_exited (h : Group) (n : Nat) : (advance h n).exited = h.exited := by unfold advance; split <;> rfl
@[simp] theorem advance_vacant (h : Group) (n : Nat) : (advance h n).vacant = h.vacant := by unfold advance; split <;> rfl
@[simp] theorem advance_rc (h : Group) (n : Nat) : (advance h n).rc = h.rc := by unfold advance; split <;> rfl
@[simp] theorem advance_rcblocks (h : Group) (n : Nat) : (advance h n).rcblocks = h.rcblocks := by unfold advance; split <;> rfl
@[simp] theorem advance_joinAt (h : Group) (n : Nat) : (advance h n).joinAt = h.joinAt := by unfold advance; split <;> rfl
@[simp] theorem advance_joinNext (h : Group) (n : Nat) : (advance h n).joinNext = h.joinNext := by unfold advance; split <;> rfl
@[simp] theorem advance_regs (h : Group) (n : Nat) : (advance h n).regs = h.regs := by unfold advance; split <;> rfl
@[simp] theorem advance_regPoison (h : Group) (n : Nat) : (advance h n).regPoison = h.regPoison := by unfold advance; split <;> rfl
@[simp] theorem advance_flags (h : Group) (n : Nat) : (advance h n).flags = h.flags := by unfold advance; split <;> rfl
@[simp] theorem advance_srseq (h : Group) (n : Nat) : (advance h n).srseq = h.srseq := by unfold advance; split <;> rfl
@[simp] theorem advance_origGrp (h : Group) (n : Nat) : (advance h n).origGrp = h.origGrp := by unfold advance; split <;> rfl
@[simp] theorem advance_origLane (h : Group) (n : Nat) : (advance h n).origLane = h.origLane := by unfold advance; split <;> rfl
@[simp] theorem advance_frags (h : Group) (n : Nat) : (advance h n).frags = h.frags := by unfold advance; split <;> rfl
@[simp] theorem advance_p (h : Group) (n : Nat) : (advance h n).p = 0 := by unfold advance; split <;> rfl
@[simp] theorem advance_m (h : Group) (n : Nat) : (advance h n).m = 0 := by unfold advance; split <;> rfl
@[simp] theorem advance_hnd (h : Group) (n : Nat) : (advance h n).hnd = h.hnd := by unfold advance; split <;> rfl
@[simp] theorem advance_trec (h : Group) (n : Nat) : (advance h n).trec = h.trec := by unfold advance; split <;> rfl
@[simp] theorem advance_trpos (h : Group) (n : Nat) : (advance h n).trpos = h.trpos := by unfold advance; split <;> rfl
@[simp] theorem advance_since (h : Group) (n : Nat) : (advance h n).since = h.since := by unfold advance; split <;> rfl
@[simp] theorem advance_trsince (h : Group) (n : Nat) : (advance h n).trsince = h.trsince := by unfold advance; split <;> rfl
@[simp] theorem advance_till (h : Group) (n : Nat) : (advance h n).till = h.till := by unfold advance; split <;> rfl
@[simp] theorem advance_trtill (h : Group) (n : Nat) : (advance h n).trtill = h.trtill := by unfold advance; split <;> rfl
@[simp] theorem advance_trheld (h : Group) (n : Nat) : (advance h n).trheld = h.trheld := by unfold advance; split <;> rfl
@[simp] theorem advance_trwait (h : Group) (n : Nat) : (advance h n).trwait = h.trwait := by unfold advance; split <;> rfl
@[simp] theorem advance_owed (h : Group) (n : Nat) : (advance h n).owed = h.owed := by unfold advance; split <;> rfl
@[simp] theorem advance_stq (h : Group) (n : Nat) : (advance h n).stq = h.stq := by unfold advance; split <;> rfl
@[simp] theorem advance_loads (h : Group) (n : Nat) : (advance h n).loads = h.loads := by unfold advance; split <;> rfl
@[simp] theorem advance_early (h : Group) (n : Nat) : (advance h n).early = if h.off + n < h.clause.length then h.early.filter (fun e => decide (h.off + n ≤ e.1)) else [] := by unfold advance; split <;> rfl
@[simp] theorem advance_tiles (h : Group) (n : Nat) : (advance h n).tiles = h.tiles := by unfold advance; split <;> rfl
@[simp] theorem advance_tstacks (h : Group) (n : Nat) : (advance h n).tstacks = h.tstacks := by unfold advance; split <;> rfl
@[simp] theorem advance_arv (h : Group) (n : Nat) : (advance h n).arv = h.arv := by unfold advance; split <;> rfl
@[simp] theorem advance_phases (h : Group) (n : Nat) : (advance h n).phases = h.phases := by unfold advance; split <;> rfl
@[simp] theorem advance_darv (h : Group) (n : Nat) : (advance h n).darv = h.darv := by unfold advance; split <;> rfl
@[simp] theorem advance_sarv (h : Group) (n : Nat) : (advance h n).sarv = h.sarv := by unfold advance; split <;> rfl
@[simp] theorem advance_waiting (h : Group) (n : Nat) : (advance h n).waiting = .no := by unfold advance; split <;> rfl
@[simp] theorem advance_stalled (h : Group) (n : Nat) : (advance h n).stalled = false := by unfold advance; split <;> rfl
@[simp] theorem advance_tagWait (h : Group) (n : Nat) : (advance h n).tagWait = none := by unfold advance; split <;> rfl
@[simp] theorem advance_idle (h : Group) (n : Nat) : (advance h n).idle = 0 := by unfold advance; split <;> rfl
@[simp] theorem advance_preempt (h : Group) (n : Nat) : (advance h n).preempt = h.preempt := by unfold advance; split <;> rfl
@[simp] theorem advance_drainReq (h : Group) (n : Nat) : (advance h n).drainReq = h.drainReq := by unfold advance; split <;> rfl
@[simp] theorem advance_bobbin (h : Group) (n : Nat) : (advance h n).bobbin = h.bobbin := by unfold advance; split <;> rfl

end Sys2Proof.Machine
end

