-- ==== Sys2Proof/Laws/Memory.lean ====
section
/-!
SUPPORT. Laws/Memory.lean: every operation on memory keeps its canonical form, and reset's memory has it.
-/
namespace Sys2Proof.Machine

/-- The physical memory of a state lies in its canonical form. -/
abbrev MemOk (s : State) : Prop := Memory.wf s.mem = true

theorem memOk_reset : MemOk State.reset := smWf_nil 0

/-- A fold keeps what each of its steps keeps. -/
theorem foldl_keeps {σ β : Type} (P : σ → Prop) (f : σ → β → σ) (h : ∀ s b, P s → P (f s b)) (l : List β) : ∀ s, P s → P (l.foldl f s) := by
  induction l with
  | nil => exact fun _ hs => hs
  | cons b l ih => exact fun s hs => ih _ (h s b hs)

-- only the list of bytes matters

@[simp] theorem setSramOf_mem (s : State) (h : Group) (rg : Bool) (m : Sram) : (setSramOf s h rg m).mem = s.mem := rfl
@[simp] theorem chipWrite_mem (s : State) (fn a : Nat) (bs : List Byte) : (chipWrite s fn a bs).mem = s.mem := rfl
@[simp] theorem setGroup_mem (s : State) (h : Group) : (setGroup s h).mem = s.mem := by unfold setGroup; split <;> rfl
@[simp] theorem invalClean_mem (s : State) (p : L1Sec → Bool) : (invalClean s p).mem = s.mem := rfl
@[simp] theorem l1Fill_mem (s : State) (core key sec : Nat) : (l1Fill s core key sec).mem = s.mem := by
  unfold l1Fill; split
  · rfl
  · dsimp only; split
    · rfl
    · split <;> rfl
@[simp] theorem acquire_mem (s : State) (sc : Scope) : (acquire s sc).mem = s.mem := by unfold acquire; split <;> rfl

-- writes

theorem rekey_memOk (s : State) (kv : Nat × Nat) (sec : Nat) (h : MemOk s) : MemOk (rekey s kv sec) := by
  unfold rekey; split
  · exact h
  · exact smWf_setMany 0 _ _ _ h
theorem rekeyMany_memOk (kv : Nat × Nat) (n : Nat) : ∀ (s : State) (sec : Nat), MemOk s → MemOk (rekeyMany s kv sec n) := by
  induction n with
  | zero => exact fun _ _ h => h
  | succ n ih => exact fun s sec h => ih _ _ (rekey_memOk s kv sec h)
theorem memWrite_memOk (s : State) (key a : Nat) (bs : List Byte) (h : MemOk s) : MemOk (memWrite s key a bs) :=
  smWf_setMany 0 _ _ _ (rekeyMany_memOk _ _ _ _ h)
theorem mergeDirty_memOk (s : State) (x : L1Sec) (h : MemOk s) : MemOk (mergeDirty s x) := by
  refine foldl_keeps (fun m => Memory.wf m = true) _ (fun m i hm => ?_) _ _ (rekey_memOk s _ _ h)
  split
  · exact smWf_set 0 _ _ _ hm
  · exact hm
theorem dirtyState_memOk (s : State) (x : L1Sec) (h : MemOk s) : MemOk (if isDirty x then mergeDirty s x else s) := by
  split
  · exact mergeDirty_memOk s x h
  · exact h
@[simp] theorem passPoison_mem (s : State) (x : L1Sec) : (passPoison s x).mem = s.mem := by unfold passPoison; split <;> rfl
theorem passPoison_memOk (s : State) (x : L1Sec) (h : MemOk s) : MemOk (passPoison s x) := by unfold MemOk; rw [passPoison_mem]; exact h
theorem writeBack_memOk (s : State) (x : L1Sec) (h : MemOk s) : MemOk (writeBack s x) := by
  have := passPoison_memOk _ x (dirtyState_memOk s x h)
  unfold writeBack; dsimp only; split <;> exact this
theorem evictSec_memOk (s : State) (x : L1Sec) (h : MemOk s) : MemOk (evictSec s x) := passPoison_memOk _ x (dirtyState_memOk s x h)
theorem cleanL1_memOk (s : State) (p : L1Sec → Bool) (h : MemOk s) : MemOk (cleanL1 s p) := foldl_keeps MemOk _ writeBack_memOk _ _ h
theorem flushL1_memOk (s : State) (p : L1Sec → Bool) (h : MemOk s) : MemOk (flushL1 s p) := foldl_keeps MemOk _ evictSec_memOk _ _ h
theorem callBack_memOk (s : State) (sec : Nat) (p : Nat → Bool) (h : MemOk s) : MemOk (callBack s sec p) := flushL1_memOk s _ h
theorem l1StoreSec_memOk (s : State) (core key sec off : Nat) (bs : List Byte) (h : MemOk s) : MemOk (l1StoreSec s core key sec off bs) := by
  have h1 := callBack_memOk s sec (fun c => decide (c ≠ core)) h
  unfold l1StoreSec; dsimp only
  split
  · split
    · exact h1
    · exact evictSec_memOk _ _ h1
  · exact h1
theorem l1Store_memOk (core key n : Nat) : ∀ (s : State) (a : Nat) (bs : List Byte), MemOk s → MemOk (l1Store core key n s a bs) := by
  induction n with
  | zero => exact fun _ _ _ h => h
  | succ n ih =>
    intro s a bs h
    unfold l1Store; split
    · exact h
    · exact ih _ _ _ (l1StoreSec_memOk s _ _ _ _ _ h)
-- error records (22 R402)

theorem ringWrite_memOk (s : State) (ring : Nat) (e : ErrRec) (fn time ms : Nat) (h : MemOk s) : MemOk (ringWrite s ring e fn time ms) := by
  unfold ringWrite; dsimp only; repeat' (first | exact h | split)
theorem writeRecord_memOk (s : State) (fn : Nat) (e : ErrRec) (time ms : Nat) (h : MemOk s) : MemOk (writeRecord s fn e time ms) := by
  unfold writeRecord; dsimp only; split
  · exact ringWrite_memOk _ _ _ _ _ _ h
  · exact ringWrite_memOk _ _ _ _ _ _ (ringWrite_memOk _ _ _ _ _ _ h)
theorem serveFrom_memOk (l : List AqEvent) : ∀ (kept : List AqEvent) (s : State), MemOk s → MemOk (serveFrom kept l s) := by
  induction l with
  | nil => exact fun _ _ h => h
  | cons e l ih =>
    intro kept s h
    unfold serveFrom; split
    · split
      · exact ih _ _ (writeRecord_memOk _ _ _ _ _ h)
      · exact ih _ _ h
      · exact ih _ _ h
    · exact ih _ _ h
theorem errorRecord_memOk (s : State) (fn : Nat) (e : ErrRec) (h : MemOk s) : MemOk (errorRecord s fn e) := by
  unfold errorRecord; dsimp only; split
  · exact h
  · exact serveFrom_memOk _ _ _ h
theorem walkRecord_memOk (s : State) (fn : Nat) (x : XErr) (va : Nat) (p : Option Nat) (h : MemOk s) : MemOk (walkRecord s fn x va p) := by
  unfold walkRecord; split
  · exact errorRecord_memOk _ _ _ h
  · exact h
theorem performStore_memOk (s : State) (h : Group) (e : StEntry) (hs : MemOk s) : MemOk (performStore s h e) := by
  unfold performStore; split
  · exact hs
  · exact hs
  · dsimp only; split <;> exact hs
  · refine l1Store_memOk _ _ _ _ _ _ ?_
    split
    · exact hs
    · split
      · exact hs
      · exact walkRecord_memOk _ _ _ _ _ hs
theorem drainStq_memOk (s : State) (h : MemOk s) : MemOk (drainStq s) :=
  foldl_keeps MemOk (fun t e => performStore t s.g e) (fun t e ht => performStore_memOk t s.g e ht) s.g.stq s h
theorem release_memOk (s : State) (sc : Scope) (h : MemOk s) : MemOk (release s sc) := by
  unfold release; split
  · exact h
  · dsimp only; split
    · exact cleanL1_memOk _ _ (drainStq_memOk s h)
    · exact drainStq_memOk s h
theorem acquire_memOk (s : State) (sc : Scope) (h : MemOk s) : MemOk (acquire s sc) := by unfold MemOk; rw [acquire_mem]; exact h
theorem agentWrite_memOk (s : State) (fn va : Nat) (bs : List Byte) (lin : Bool) (t : State) (e : agentWrite s fn va bs lin = .ok t) (h : MemOk s) : MemOk t := by
  unfold agentWrite at e; split at e
  · cases e
  · cases e
    refine foldl_keeps MemOk _ (fun t p ht => ?_) _ _ h
    dsimp only; split
    · exact ht
    · exact memWrite_memOk _ _ _ _ (foldl_keeps MemOk _ (fun u i hu => callBack_memOk u _ _ hu) _ _ ht)
theorem coreWrite_memOk (s : State) (va : Nat) (bs : List Byte) (t : State) (e : coreWrite s va bs = .ok t) (h : MemOk s) : MemOk t := by
  unfold coreWrite at e; split at e
  · cases e
  · cases e
    refine foldl_keeps MemOk _ (fun t p ht => ?_) _ _ h
    split
    · exact ht
    · exact l1Store_memOk _ _ _ _ _ _ ht

-- traps (23 R412, R414, R416)

theorem settleLease_memOk (s : State) (region : Nat) (h : MemOk s) : MemOk (settleLease s region) := by
  unfold settleLease; split
  · exact h
  · split <;> exact h
theorem dropDest_memOk (s : State) (c : Copy) (h : MemOk s) : MemOk (dropDest s c) := by
  unfold dropDest; dsimp only; split <;> exact h
theorem failRing_memOk (trap : Nat) (t : State) (c : Copy) (h : MemOk t) : MemOk (failRing trap t c) := by unfold failRing; dsimp only; split <;> exact h
theorem forgetWork_memOk (s t : State) (h : MemOk t) : MemOk (forgetWork s t) := h
theorem endLaunch_memOk (s : State) (l code trap : Nat) (h : MemOk s) : MemOk (endLaunch s l code trap) := by
  refine foldl_keeps MemOk _ settleLease_memOk _ _ (forgetWork_memOk _ _ ?_)
  refine foldl_keeps MemOk _ (fun t c ht => ?_) _ _ (foldl_keeps MemOk _ (fun t g ht => foldl_keeps MemOk _ (fun u e hu => performStore_memOk u g e hu) _ _ ht) _ _ h)
  exact dropDest_memOk _ c (failRing_memOk _ _ c ht)
theorem takeTrap_memOk (s : State) (t : TrapInfo) (h : MemOk s) : MemOk (takeTrap s t) := by
  have hw : MemOk (if t.fpos.isNone then walkRecord s s.g.ctx.fn ⟨t.code, t.detail⟩ (t.walk.getD t.addr) (some (s.g.core / 24)) else s) := by
    split
    · exact walkRecord_memOk _ _ _ _ _ h
    · exact h
  unfold takeTrap; split
  · exact h
  generalize (if t.fpos.isNone then walkRecord s s.g.ctx.fn ⟨t.code, t.detail⟩ (t.walk.getD t.addr) (some (s.g.core / 24)) else s) = u at hw ⊢
  dsimp only; split
  · exact endLaunch_memOk _ _ _ _ hw
  · split
    · exact endLaunch_memOk _ _ _ _ (walkRecord_memOk _ _ _ _ _ (drainStq_memOk u hw))
    · next s2 e =>
        have k : MemOk s2 := coreWrite_memOk { drainStq u with g := returnLoads (drainStq u).g } _ _ s2 e (drainStq_memOk u hw)
        exact k
theorem takeOwed_memOk (s : State) (e : Nat × Owed) (held : List Nat) (h : MemOk s) : MemOk (takeOwed s e held) := by
  unfold takeOwed; split
  · exact h
  · exact takeTrap_memOk _ _ h
theorem trapAfter_memOk (s v : State) (t : TrapInfo) (h : MemOk s) (hv : MemOk v) : MemOk (trapAfter s v t) := by
  unfold trapAfter; split
  · exact h
  · exact takeTrap_memOk _ _ hv
/-- An ALU instruction keeps the memory's form, whichever way it ends. -/
theorem alu_memOk (s : State) (n : Nat) (rs : List Nat) (d : Dst) (res : Nat → List Word × BitVec 5) (post : Group → Group) (h : MemOk s) :
    MemOk (alu s n rs d res post) := by
  unfold alu; dsimp only; split
  · exact takeTrap_memOk _ _ h
  · split
    · exact trapAfter_memOk _ _ _ h h
    · exact h

-- reads after writes, for a sector that is already under the key written with, or host memory

/-- The bytes written are the bytes read back under the same key index (R377). -/
theorem keyVal_memWrite (s : State) (key k a : Nat) (bs : List Byte) : keyVal (memWrite s key a bs) k = keyVal s k := by
  have : ∀ (n : Nat) (t : State) (kv : Nat × Nat) (sec : Nat), (rekeyMany t kv sec n).keys = t.keys := by
    intro n; induction n with
    | zero => intros; rfl
    | succ n ih => intro t kv sec; rw [rekeyMany, ih]; unfold rekey; split <;> rfl
  unfold keyVal memWrite; rw [this]

end Sys2Proof.Machine
end

