-- ==== Sys2Proof/Laws/Ops.lean ====
section
/-!
SUPPORT. Laws/Ops.lean: one lemma for each shared operation that says what it does: lanes and masks, register writes, moving
on, the checks before an access, the ALU pipeline, owed slots, requests, and which move a step takes.
-/
namespace Sys2Proof.Machine

-- lanes and masks

theorem mem_lanesOf (w : Nat) (m : BitVec 64) (l : Nat) : l ∈ lanesOf w m ↔ l < w ∧ m.getLsbD l = true := by
  simp [lanesOf]
theorem lanesOf_lt {w : Nat} {m : BitVec 64} {l : Nat} (h : l ∈ lanesOf w m) : l < 64 := by
  rw [mem_lanesOf] at h
  exact Nat.lt_of_not_le (fun k => by simp [BitVec.getLsbD_of_ge m l k] at h)
theorem mem_activeLanes (h : Group) (l : Nat) : l ∈ activeLanes h ↔ l < width h ∧ h.active.getLsbD l = true := mem_lanesOf _ _ _
theorem activeLanes_lt {h : Group} {l : Nat} (e : l ∈ activeLanes h) : l < 64 := lanesOf_lt e
/-- A lane is in the mask of a list exactly when it is in the list. -/
theorem getLsbD_maskOf (ls : List Nat) (l : Nat) (hl : l < 64) : (maskOf ls).getLsbD l = decide (l ∈ ls) := by
  induction ls with
  | nil => simp [maskOf]
  | cons a t ih =>
    simp only [maskOf, BitVec.getLsbD_or, ih, BitVec.getLsbD_shiftLeft, hl, decide_true, Bool.true_and, List.mem_cons, Bool.decide_or]
    congr 1
    by_cases e : l = a
    · simp [e]
    · simp only [e, decide_false]
      by_cases k : l < a
      · simp [k]
      · have : l - a ≠ 0 := by omega
        simp [k, BitVec.getLsbD_one, this]
/-- A flag is raised by a list of lanes exactly when some lane raises it. -/
theorem getLsbD_orFlags (fs : List (BitVec 5)) (b : Nat) : (orFlags fs).getLsbD b = fs.any (fun f => f.getLsbD b) := by
  induction fs with
  | nil => simp [orFlags]
  | cons a t ih => simp [orFlags, ih]

-- registers (02 R38, 23 R400)

theorem regKey_inj {r l r' l' : Nat} (h : l < 64) (h' : l' < 64) : regKey r l = regKey r' l' ↔ r = r' ∧ l = l' := by
  unfold regKey; omega
theorem gReg_setReg (h : Group) (r l r' l' : Nat) (v : Word) (hl : l < 64) (hl' : l' < 64) :
    gReg (setReg h r l v) r' l' = if r' = r ∧ l' = l then v else gReg h r' l' := by
  simp only [gReg, setReg, smGet_set, regKey_inj hl' hl]
theorem poison_setReg (h : Group) (r l r' l' : Nat) (v : Word) (hl : l < 64) (hl' : l' < 64) :
    smGet false (setReg h r l v).regPoison (regKey r' l') = if r' = r ∧ l' = l then false else smGet false h.regPoison (regKey r' l') := by
  simp only [setReg, smGet_set, regKey_inj hl' hl]
/-- A write of registers touches nothing else of the group. -/
theorem setRegs_frame (vs : List Word) : ∀ (h : Group) (r l : Nat),
    setRegs h r l vs = { h with regs := (setRegs h r l vs).regs, regPoison := (setRegs h r l vs).regPoison } := by
  induction vs with
  | nil => intro h r l; rfl
  | cons v vs ih => intro h r l; simp only [setRegs]; rw [ih]; rfl
theorem gReg_setRegs (vs : List Word) : ∀ (h : Group) (r l r' l' : Nat), l < 64 → l' < 64 →
    gReg (setRegs h r l vs) r' l' = if l' = l ∧ r ≤ r' ∧ r' < r + vs.length then vs.getD (r' - r) 0 else gReg h r' l' := by
  induction vs with
  | nil => intro h r l r' l' _ _; rw [if_neg (by simp)]; rfl
  | cons v vs ih =>
    intro h r l r' l' hl hl'
    simp only [setRegs]
    rw [ih _ _ _ _ _ hl hl', gReg_setReg _ _ _ _ _ _ hl hl']
    simp only [List.length_cons]
    by_cases e : l' = l ∧ r + 1 ≤ r' ∧ r' < r + 1 + vs.length
    · rw [if_pos e, if_pos (by omega), show r' - r = (r' - (r + 1)) + 1 by omega]; rfl
    · rw [if_neg e]
      by_cases k : r' = r ∧ l' = l
      · rw [if_pos k, if_pos (by omega), show r' - r = 0 by omega]; rfl
      · rw [if_neg k, if_neg (by omega)]
theorem poison_setRegs (vs : List Word) : ∀ (h : Group) (r l r' l' : Nat), l < 64 → l' < 64 →
    smGet false (setRegs h r l vs).regPoison (regKey r' l') = if l' = l ∧ r ≤ r' ∧ r' < r + vs.length then false else smGet false h.regPoison (regKey r' l') := by
  induction vs with
  | nil => intro h r l r' l' _ _; rw [if_neg (by simp)]; rfl
  | cons v vs ih =>
    intro h r l r' l' hl hl'
    simp only [setRegs]
    rw [ih _ _ _ _ _ hl hl', poison_setReg _ _ _ _ _ _ hl hl']
    simp only [List.length_cons]
    by_cases e : l' = l ∧ r + 1 ≤ r' ∧ r' < r + 1 + vs.length
    · rw [if_pos e, if_pos (by omega)]
    · rw [if_neg e]
      by_cases k : r' = r ∧ l' = l
      · rw [if_pos k, if_pos (by omega)]
      · rw [if_neg k, if_neg (by omega)]
@[simp] theorem writeDst_zero (h : Group) (l : Nat) (vs : List Word) : writeDst h .zero l vs = h := rfl
@[simp] theorem writeDst_reg (h : Group) (r l : Nat) (vs : List Word) : writeDst h (.reg r) l vs = setRegs h r l vs := rfl
@[simp] theorem writeLanes_zero (f : Nat → List Word) (ls : List Nat) : ∀ h : Group, writeLanes h .zero ls f = h := by
  induction ls with
  | nil => intro h; rfl
  | cons l ls ih => intro h; simp only [writeLanes, writeDst_zero]; exact ih h
/-- A write in a list of lanes touches nothing else of the group. -/
theorem writeLanes_frame (d : Dst) (f : Nat → List Word) (ls : List Nat) : ∀ h : Group,
    writeLanes h d ls f = { h with regs := (writeLanes h d ls f).regs, regPoison := (writeLanes h d ls f).regPoison } := by
  induction ls with
  | nil => intro h; rfl
  | cons l ls ih =>
    intro h
    simp only [writeLanes]
    rw [ih]
    cases d with
    | zero => rfl
    | reg r => simp only [writeDst_reg]; rw [setRegs_frame]
theorem gReg_writeLanes (k : Nat) (f : Nat → List Word) (ls : List Nat) : ∀ (h : Group) (r l : Nat), (∀ x ∈ ls, x < 64) → l < 64 →
    gReg (writeLanes h (.reg k) ls f) r l = if l ∈ ls ∧ k ≤ r ∧ r < k + (f l).length then (f l).getD (r - k) 0 else gReg h r l := by
  induction ls with
  | nil => intro h r l _ _; simp [writeLanes]
  | cons x ls ih =>
    intro h r l hx hl
    simp only [writeLanes, writeDst_reg]
    rw [ih _ _ _ (fun y hy => hx y (List.mem_cons_of_mem _ hy)) hl, gReg_setRegs _ _ _ _ _ _ (hx x List.mem_cons_self) hl]
    by_cases m : l ∈ ls
    · simp only [m, List.mem_cons, or_true, true_and]
      by_cases b : k ≤ r ∧ r < k + (f l).length
      · simp only [b, and_self, if_true]
      · rw [if_neg b, if_neg b]
        by_cases e : l = x
        · subst e; rw [if_neg (by simpa using b)]
        · rw [if_neg (by simp [e])]
    · simp only [m, List.mem_cons, or_false, false_and, if_false]
      by_cases e : l = x
      · subst e; rfl
      · simp [e]
theorem poison_writeLanes (k : Nat) (f : Nat → List Word) (ls : List Nat) : ∀ (h : Group) (r l : Nat), (∀ x ∈ ls, x < 64) → l < 64 →
    smGet false (writeLanes h (.reg k) ls f).regPoison (regKey r l) =
      if l ∈ ls ∧ k ≤ r ∧ r < k + (f l).length then false else smGet false h.regPoison (regKey r l) := by
  induction ls with
  | nil => intro h r l _ _; simp [writeLanes]
  | cons x ls ih =>
    intro h r l hx hl
    simp only [writeLanes, writeDst_reg]
    rw [ih _ _ _ (fun y hy => hx y (List.mem_cons_of_mem _ hy)) hl, poison_setRegs _ _ _ _ _ _ (hx x List.mem_cons_self) hl]
    by_cases m : l ∈ ls
    · simp only [m, List.mem_cons, or_true, true_and]
      by_cases b : k ≤ r ∧ r < k + (f l).length
      · simp only [b, and_self, if_true]
      · rw [if_neg b, if_neg b]
        by_cases e : l = x
        · subst e; rw [if_neg (by simpa using b)]
        · rw [if_neg (by simp [e])]
    · simp only [m, List.mem_cons, or_false, false_and, if_false]
      by_cases e : l = x
      · subst e; rfl
      · simp [e]
/-- A destination written in the active lanes reads as `wrote` says, in a group that differs only in its flags. -/
theorem gReg_writeActive (h : Group) (fl : BitVec 5) (d : Dst) (f : Nat → List Word) (r l : Nat) (hl : l < 64) :
    gReg (writeLanes { h with flags := fl } d (activeLanes h) f) r l = wrote h d f r l := by
  cases d with
  | zero => rw [writeLanes_zero]; rfl
  | reg k => rw [gReg_writeLanes _ _ _ _ _ _ (fun _ => activeLanes_lt) hl]; rfl
theorem poison_writeActive (h : Group) (fl : BitVec 5) (d : Dst) (f : Nat → List Word) (r l : Nat) (hl : l < 64) :
    smGet false (writeLanes { h with flags := fl } d (activeLanes h) f).regPoison (regKey r l) = wrotePoison h d f r l := by
  cases d with
  | zero => rw [writeLanes_zero]; rfl
  | reg k => rw [poison_writeLanes _ _ _ _ _ _ (fun _ => activeLanes_lt) hl]; rfl

-- moving on (02 R26)

theorem advance_inside {h : Group} {n : Nat} (k : h.off + n < h.clause.length) :
    advance h n = { settled { h with off := h.off + n, p := 0, m := 0 } with early := h.early.filter (fun e => decide (h.off + n ≤ e.1)) } := by unfold advance; rw [if_pos k]
theorem advance_past {h : Group} {n : Nat} (k : h.clause.length ≤ h.off + n) :
    advance h n = settled { goto_ h (afterBody h) with p := 0, m := 0 } := by unfold advance; rw [if_neg (by omega)]
@[simp] theorem gReg_advance (h : Group) (n r l : Nat) : gReg (advance h n) r l = gReg h r l := by simp [gReg]

-- checks that come before an instruction's own effect

theorem poisonLanes_nil {h : Group} {rs ls : List Nat} (c : ∀ l ∈ ls, ∀ r ∈ rs, smGet false h.regPoison (regKey r l) = false) : poisonLanes h rs ls = [] := by
  simp only [poisonLanes, List.filter_eq_nil_iff, List.any_eq_true, not_exists, not_and, Bool.not_eq_true]
  exact c
/-- POISON, or the rest of the instruction (R400). -/
theorem withRegs_clean {s : State} {rs ls : List Nat} (c : readsClean s rs ls) (k : State → Out) : withRegs s rs ls k = k s := by
  unfold withRegs; rw [poisonLanes_nil c]; rfl
theorem withRegs_bad {s : State} {rs ls : List Nat} (c : poisonLanes s.g rs ls ≠ []) (k : State → Out) :
    withRegs s rs ls k = .next (takeTrap s { code := 6, lanes := maskOf (poisonLanes s.g rs ls) }) := by
  unfold withRegs; simp [c]
/-- An access that no command or copy of its group holds goes on (R156). -/
theorem whenFree_unheld {s : State} {ivs : List Iv} (u : unheld s ivs) (k : State → Out) : whenFree s ivs k = k s := by
  obtain ⟨h, w⟩ := u
  have none_ (l : List Nat) (c : ∀ e ∈ s.g.owed, e.1 ∉ l) : owedServed s.g l = none := by
    have : s.g.owed.filter (fun e => l.contains e.1) = [] := by
      rw [List.filter_eq_nil_iff]; intro e he; simpa using c e he
    unfold owedServed; rw [this]; rfl
  unfold whenFree
  cases e : s.g.waiting with
  | held ops slots => simp only [none_ slots (w ops slots e), h]
  | _ => simp only [none_ [] (fun _ _ => List.not_mem_nil), h]
/-- A release at sys scope goes on when no remote write of the group is unacknowledged (R182). -/
theorem releaseReady_iff (s : State) (sc : Scope) : releaseReady s sc = true ↔ (sc = .sys → ∀ c ∈ s.copies, c.group = some s.g.id → c.awaiting = false) := by
  simp [releaseReady, remoteWrites]
  tauto
theorem whenOrdered_ready {s : State} {o : MOrd} {sc : Scope} (c : orderable s o sc) (k : State → Out) : whenOrdered s o sc k = k s := by
  obtain ⟨c1, c2⟩ := c
  unfold whenOrdered; rw [if_pos]
  cases o <;> simp_all [orderedNow, releaseReady_iff]
theorem failAt_none {l : List (Nat × Nat)} {f : Nat → Nat → Option XErr} (c : ∀ e ∈ l, f e.1 e.2 = none) : failAt l f = none := by
  have : l.filter (fun e => (f e.1 e.2).isSome) = [] := by
    rw [List.filter_eq_nil_iff]; intro e he; simp [c e he]
  unfold failAt; rw [this]
/-- The checks of R160 pass when every lane's address is aligned, lies in its space and translates. -/
theorem accessCheck_ok {s : State} {sp : Space} {n al : Nat} {p : Perm} {l : List (Nat × Nat)} (c : accessOk s sp n al p l) : accessCheck s sp n al p l = none := by
  have h1 : failAt l (fun _ a => if a % al ≠ 0 then some ⟨3, 0⟩ else none) = none :=
    failAt_none (fun e he => by simp [(c e he).1])
  have h2 : failAt l (fun _ a => if sp = .g ∧ 2251799813685248 ≤ a then some (pageFault Config.addressCause) else none) = none :=
    failAt_none (fun e he => if_neg (fun k => absurd ((c e he).2.1 k.1) (by omega)))
  have h3 : failAt l (fun _ a => if sp ≠ .g ∧ extent s sp < a + n then some ⟨7, 0⟩ else none) = none :=
    failAt_none (fun e he => if_neg (fun k => absurd ((c e he).2.2.1 k.1) (by omega)))
  unfold accessCheck
  rw [h1, h2, h3]
  rw [failAt_none (fun e he => by obtain ⟨_, _, _, ps, hp⟩ := c e he; simp [hp])]; rfl
theorem servingSlot_free {s : State} {k : Nat} (c : owedAt s.g k = none) (f : State → Out) : servingSlot s k f = f s := by unfold servingSlot; rw [c]
theorem servingSlot_owed {s : State} {k : Nat} {o : Owed} (c : owedAt s.g k = some o) (f : State → Out) : servingSlot s k f = .next (takeOwed s (k, o)) := by
  unfold servingSlot; rw [c]
theorem fenceReady_iff (s : State) (o : MOrd) (sc : Scope) :
    fenceReady s o sc = true ↔ (o = .rel ∨ s.g.loads = []) ∧ (o = .acq ∨ releaseReady s sc = true) := by simp [fenceReady]

theorem trapAfter_free {s v : State} {t : TrapInfo} (h : trapWaits v = false) : trapAfter s v t = takeTrap v t := by simp [trapAfter, h]
theorem trapAfter_waits {s v : State} {t : TrapInfo} (h : trapWaits v = true) : trapAfter s v t = stall s := by simp [trapAfter, h]
/-- The flags have no part in whether a trap waits. -/
theorem trapWaits_flags (s : State) (fl : BitVec 5) : trapWaits { s with g := { s.g with flags := fl } } = trapWaits s := rfl
/-- A lane that has not read before the others reads what stands now. -/
theorem loadLane_fresh {s : State} {byp : Bool} {sp : Space} {n lane addr : Nat} (h : s.g.early = []) :
    loadLane s byp sp n lane addr = loadParts s lane byp (partsD s sp lane addr n .r) := by simp [loadLane, h, findFirst]

-- the ALU pipeline (05 R94 to R96)

/-- An ALU instruction traps POISON, or traps FP with its flags raised (or waits, unchanged, for the trap), or writes its destination in every active lane. -/
theorem alu_cases (s : State) (n : Nat) (rs : List Nat) (d : Dst) (res : Nat → List Word × BitVec 5) (post : Group → Group) :
    let bad := poisonLanes s.g rs (activeLanes s.g)
    let fl := orFlags ((activeLanes s.g).map (fun l => (res l).2))
    (bad ≠ [] ∧ alu s n rs d res post = takeTrap s { code := 6, lanes := maskOf bad }) ∨
    (bad = [] ∧ fl &&& s.g.ctx.kernel.fptrap ≠ 0 ∧ alu s n rs d res post = trapAfter s { s with g := { s.g with flags := s.g.flags ||| fl } }
      { code := 15, detail := fl.toNat, lanes := maskOf ((activeLanes s.g).filter (fun l => (res l).2 &&& s.g.ctx.kernel.fptrap ≠ 0)) }) ∨
    (bad = [] ∧ fl &&& s.g.ctx.kernel.fptrap = 0 ∧ alu s n rs d res post =
      { s with g := advance (post (writeLanes { s.g with flags := s.g.flags ||| fl } d (activeLanes s.g) (fun l => (res l).1))) n }) := by
  intro bad fl
  by_cases b : bad = []
  · by_cases f : fl &&& s.g.ctx.kernel.fptrap = 0
    · exact .inr (.inr ⟨b, f, by unfold alu; simp [bad, fl] at b f ⊢; simp [b, f]⟩)
    · exact .inr (.inl ⟨b, f, by unfold alu; simp [bad, fl] at b f ⊢; simp [b, f]⟩)
  · exact .inl ⟨b, by unfold alu; simp [bad] at b ⊢; simp [b]⟩
/-- No lane raises a flag that is trapped exactly when none of the flags together is. -/
theorem orFlags_untrapped (fs : List (BitVec 5)) (m : BitVec 5) : orFlags fs &&& m = 0 ↔ ∀ f ∈ fs, f &&& m = 0 := by
  induction fs with
  | nil => simp [orFlags]
  | cons a t ih =>
    simp only [orFlags, List.forall_mem_cons, ← ih]
    constructor
    · intro h
      constructor <;> (ext i hi; have := congrArg (fun x => x.getLsbD i) h; simp at this ⊢; simp_all)
    · rintro ⟨h1, h2⟩
      ext i hi
      have e1 := congrArg (fun x => x.getLsbD i) h1
      have e2 := congrArg (fun x => x.getLsbD i) h2
      simp at e1 e2 ⊢
      exact fun h => h.elim e1 e2
/-- With clean operands and no trapped flag an ALU instruction of one result a lane completes as `WritesOnly` says. -/
theorem alu_writesOnly (s : State) (e : RegOp) (res : Nat → List Word × BitVec 5) (hr : ∀ l, (res l).1 = e.res s l) (hf : ∀ l, (res l).2 = e.raised s l)
    (hd : e.drawn s = false) (hc : e.cleared = false) (c : e.clean s) (u : e.untrapped s) : WritesOnly s (alu s e.words e.reads e.d res) e := by
  have cl : poisonLanes s.g e.reads (activeLanes s.g) = [] := poisonLanes_nil c
  have un : orFlags ((activeLanes s.g).map (fun l => (res l).2)) &&& s.g.ctx.kernel.fptrap = 0 := by
    rw [orFlags_untrapped]; intro f hfm
    obtain ⟨l, hl, rfl⟩ := List.mem_map.mp hfm
    rw [hf]; exact u l hl
  rcases alu_cases s e.words e.reads e.d res id with ⟨b, _⟩ | ⟨_, b, _⟩ | ⟨_, _, r⟩
  · exact absurd cl b
  · exact absurd un b
  · have hr' : (fun l => (res l).1) = e.res s := funext hr
    rw [hr'] at r
    rw [r]
    have fr := writeLanes_frame e.d (e.res s) (activeLanes s.g) { s.g with flags := s.g.flags ||| orFlags ((activeLanes s.g).map (fun l => (res l).2)) }
    refine ⟨?_, ?_, ?_, ?_, ?_, ?_⟩
    · simp only [id, advance_regs, advance_regPoison, advance_flags, advance_srseq]
      conv => lhs; rw [fr]
      rw [show (writeLanes { s.g with flags := s.g.flags ||| orFlags ((activeLanes s.g).map (fun l => (res l).2)) } e.d (activeLanes s.g) (e.res s)).flags = _ from congrArg Group.flags fr,
        show (writeLanes { s.g with flags := s.g.flags ||| orFlags ((activeLanes s.g).map (fun l => (res l).2)) } e.d (activeLanes s.g) (e.res s)).srseq = _ from congrArg Group.srseq fr]
    · intro r' l hl; simp only [id, gReg_advance]; exact gReg_writeActive _ _ _ _ _ _ hl
    · intro r' l hl; simp only [id, advance_regPoison]; exact poison_writeActive _ _ _ _ _ _ hl
    · intro b
      simp only [id, advance_flags, hc]
      rw [fr]
      simp only [BitVec.getLsbD_or, getLsbD_orFlags, List.any_map, Function.comp_def, hf, Bool.not_false, Bool.true_and]
    · simp only [id, advance_srseq, hd]; rw [fr]; rfl
    · intro key a; rfl

-- owed slots (23 R409)

/-- A full slot keeps the failure it reports and counts the further one. -/
theorem fillOwed_full {h : Group} {k : Nat} {x : Owed} (o : Owed) (c : owedAt h k = some x) :
    fillOwed h k o = { h with owed := updIf (fun e => decide (e.1 = k)) (fun e => (e.1, { x with more := min (x.more + 1) 65535 })) h.owed } := by
  unfold fillOwed; rw [c]
theorem fillOwed_empty {h : Group} {k : Nat} (o : Owed) (c : owedAt h k = none) : fillOwed h k o = { h with owed := insBy (fun e => [e.1]) (k, o) h.owed } := by
  unfold fillOwed; rw [c]
theorem owedServed_nil (h : Group) (ks : List Nat) (c : h.owed = []) : owedServed h ks = none := by simp [owedServed, c, minBy]

-- events of a group, and requests (21)

theorem withGroup_self (s : State) (f : State → State) : withGroup s s.g.id f = f s := by unfold withGroup; rw [if_pos rfl]
/-- A request that is asked as R394 and R395 require is served. -/
theorem request_asked {s : State} {fn op sub : Nat} {names : Bool} {used : Fn → List (Nat × Nat)} (k : Fn → State)
    (c : Asked s fn op sub names (used (getFn s fn))) : request fn op sub names used k s = .next (k (getFn s fn)) := by
  obtain ⟨r, p, n, z⟩ := c
  simp only [requestReady, Bool.and_eq_true, decide_eq_true_eq] at r
  obtain ⟨⟨⟨⟨r1, r2⟩, r3⟩, r4, r5⟩, r6⟩ := r
  simp only [request]
  rw [if_neg (by simp [r1, r3, r4, r5, r6]; omega), if_neg, if_neg (by simp [z])]
  rintro (⟨a, b⟩ | ⟨a, b, d⟩)
  · exact b (p a)
  · rcases n a with e | e
    · exact b e
    · exact d e

-- the step

/-- An event at the head of the agenda runs, on the state without that turn, while no channel retrains. -/
theorem step_event {s : State} {e : Instr} {l : List Turn} (a : s.agenda = .event e :: l) (h : isEvent e = true) (r : retraining s = none) :
    step s = exec e { s with agenda := l } := by
  have r' : retraining { s with agenda := l } = none := r
  unfold step; rw [a]; simp [takeTurn, runTurn, h, r']
/-- With no turn pending, a running package whose group has a move makes it. -/
theorem step_move {s : State} {m : Move} (a : s.agenda = []) (t : s.thermalTrip = false) (b : s.boot = .running) (r : retraining s = none) (f : fairTurnDue s = false)
    (h : groupMove s s.g = some m) : step s = doMove m s := by
  unfold step; rw [a]; simp [nextMove, t, b, r, f, h]
/-- A fair turn is due only between clauses. -/
theorem fairTurnDue_phase {s : State} (h : fairTurnDue s = true) : s.g.phase = .fetch := by simp [fairTurnDue] at h; exact h.2

end Sys2Proof.Machine
end

