-- ==== Sys2Proof/Laws/PerInstr.lean ====
section
/-!
SUPPORT. Laws/PerInstr.lean: a well-formed instruction occupies at most three words, its own and those of one literal (R37): one lemma
for each constructor; an event of the table has no word.
-/
namespace Sys2Proof.Laws.Encoding

set_option Elab.async false

def Statement (i : Instr) : Prop := i.wf = true → (encode i).length ≤ 3

-- the words of each format

theorem left {x y : Bool} (h : (x && y) = true) : x = true := (Bool.and_eq_true x y ▸ h).1
theorem right {x y : Bool} (h : (x && y) = true) : y = true := (Bool.and_eq_true x y ▸ h).2
theorem lits_le (a : Src) : (srcLits a).length ≤ 2 := by cases a <;> exact Nat.le_of_ble_eq_true rfl
theorem lits_two {a b : Src} (h : oneLit a b = true) : (srcLits a ++ srcLits b).length ≤ 2 := by
  cases a <;> cases b <;> first | exact Nat.le_of_ble_eq_true rfl | cases h
theorem lenT {op : Nat} {d : Dst} {a b : Src} {fn : Nat} (h : oneLit a b = true) : (wT op d a b fn).length ≤ 3 := Nat.succ_le_succ (lits_two h)
theorem lenS {op : Nat} {a b : Src} {fn : Nat} (h : oneLit a b = true) : (wS op a b fn).length ≤ 3 := Nat.succ_le_succ (lits_two h)
theorem lenMS {op : Nat} {t a : Src} {sz : Nat} {o : MOrd} {c : Scope} {e : Space} (h : oneLit t a = true) : (wMS op t a sz o c e).length ≤ 3 := Nat.succ_le_succ (lits_two h)
theorem lenU {op : Nat} {d : Dst} {a : Src} {fn : Nat} : (wU op d a fn).length ≤ 3 := Nat.succ_le_succ (lits_le a)
theorem lenA {op : Nat} {a : Src} {fn : Nat} : (wA op a fn).length ≤ 3 := Nat.succ_le_succ (lits_le a)
theorem lenI {op : Nat} {d : Dst} {a : Src} {imm : Nat} : (wI op d a imm).length ≤ 3 := Nat.succ_le_succ (lits_le a)
theorem lenM {op : Nat} {t : Dst} {a : Src} {sz : Nat} {o : MOrd} {c : Scope} {e : Space} : (wM op t a sz o c e).length ≤ 3 := Nat.succ_le_succ (lits_le a)
theorem lenLits {w : Word} {a : Src} : (w :: srcLits a).length ≤ 3 := Nat.succ_le_succ (lits_le a)
theorem lenOne {w : Word} : [w].length ≤ 3 := Nat.le_of_ble_eq_true rfl

-- the constructors

theorem add (a b c d e) : Statement (.add a b c d e) := fun h => lenT (right h)
theorem sub (a b c d e) : Statement (.sub a b c d e) := fun h => lenT (right h)
theorem mul (a b c d e) : Statement (.mul a b c d e) := fun h => lenT (right h)
theorem mulh (a b c d) : Statement (.mulh a b c d) := fun h => lenT (right h)
theorem mad (a b c d) : Statement (.mad a b c d) := fun h => lenT (right h)
theorem min (a b c d) : Statement (.min a b c d) := fun h => lenT (right h)
theorem max (a b c d) : Statement (.max a b c d) := fun h => lenT (right h)
theorem neg (a b c) : Statement (.neg a b c) := fun _ => lenU
theorem abs (a b c) : Statement (.abs a b c) := fun _ => lenU
theorem and (a b c d) : Statement (.and a b c d) := fun h => lenT (right h)
theorem or (a b c d) : Statement (.or a b c d) := fun h => lenT (right h)
theorem xor (a b c d) : Statement (.xor a b c d) := fun h => lenT (right h)
theorem andn (a b c d) : Statement (.andn a b c d) := fun h => lenT (right h)
theorem orn (a b c d) : Statement (.orn a b c d) := fun h => lenT (right h)
theorem xnor (a b c d) : Statement (.xnor a b c d) := fun h => lenT (right h)
theorem shl (a b c d) : Statement (.shl a b c d) := fun h => lenT (right h)
theorem shrN (a b c d) : Statement (.shrN a b c d) := fun h => lenT (right h)
theorem shrS (a b c d) : Statement (.shrS a b c d) := fun h => lenT (right h)
theorem rol (a b c d) : Statement (.rol a b c d) := fun h => lenT (right h)
theorem popc (a b c) : Statement (.popc a b c) := fun _ => lenU
theorem clz (a b c) : Statement (.clz a b c) := fun _ => lenU
theorem ctz (a b c) : Statement (.ctz a b c) := fun _ => lenU
theorem brev (a b c) : Statement (.brev a b c) := fun _ => lenU
theorem bfx (a b c d) : Statement (.bfx a b c d) := fun h => lenT (right h)
theorem bfi (a b c) : Statement (.bfi a b c) := fun h => lenT (right h)
theorem cmpeq32 (a b c d) : Statement (.cmpeq32 a b c d) := fun h => lenT (right h)
theorem cmpne32 (a b c d) : Statement (.cmpne32 a b c d) := fun h => lenT (right h)
theorem cmplt32 (a b c d) : Statement (.cmplt32 a b c d) := fun h => lenT (right h)
theorem cmple32 (a b c d) : Statement (.cmple32 a b c d) := fun h => lenT (right h)
theorem cmpgt32 (a b c d) : Statement (.cmpgt32 a b c d) := fun h => lenT (right h)
theorem cmpge32 (a b c d) : Statement (.cmpge32 a b c d) := fun h => lenT (right h)
theorem cmpeq64 (a b c d) : Statement (.cmpeq64 a b c d) := fun h => lenT (right h)
theorem cmpne64 (a b c d) : Statement (.cmpne64 a b c d) := fun h => lenT (right h)
theorem cmplt64 (a b c d) : Statement (.cmplt64 a b c d) := fun h => lenT (right h)
theorem cmple64 (a b c d) : Statement (.cmple64 a b c d) := fun h => lenT (right h)
theorem cmpgt64 (a b c d) : Statement (.cmpgt64 a b c d) := fun h => lenT (right h)
theorem cmpge64 (a b c d) : Statement (.cmpge64 a b c d) := fun h => lenT (right h)
theorem sel (a b c d) : Statement (.sel a b c d) := fun h => lenT (right h)
theorem mov (a b c) : Statement (.mov a b c) := fun _ => lenU
theorem lea (a b c d) : Statement (.lea a b c d) := fun h => lenT (right (left h))
theorem movs (a b) : Statement (.movs a b) := fun _ => lenOne
theorem rng (a b c) : Statement (.rng a b c) := fun _ => lenLits
theorem addImm32 (a b c) : Statement (.addImm32 a b c) := fun _ => lenI
theorem addImm64 (a b c) : Statement (.addImm64 a b c) := fun _ => lenI
theorem andImm (a b c) : Statement (.andImm a b c) := fun _ => lenI
theorem orImm (a b c) : Statement (.orImm a b c) := fun _ => lenI
theorem xorImm (a b c) : Statement (.xorImm a b c) := fun _ => lenI
theorem shlImm (a b c) : Statement (.shlImm a b c) := fun _ => lenI
theorem shrNImm (a b c) : Statement (.shrNImm a b c) := fun _ => lenI
theorem shrSImm (a b c) : Statement (.shrSImm a b c) := fun _ => lenI
theorem mulImm (a b c) : Statement (.mulImm a b c) := fun _ => lenI
theorem movImm (a b) : Statement (.movImm a b) := fun _ => lenOne
theorem addF (a b c d e) : Statement (.addF a b c d e) := fun h => lenT (right h)
theorem subF (a b c d e) : Statement (.subF a b c d e) := fun h => lenT (right h)
theorem mulF (a b c d e) : Statement (.mulF a b c d e) := fun h => lenT (right h)
theorem fma (a b c d e) : Statement (.fma a b c d e) := fun h => lenT (right h)
theorem minF (a b c d) : Statement (.minF a b c d) := fun h => lenT (right h)
theorem maxF (a b c d) : Statement (.maxF a b c d) := fun h => lenT (right h)
theorem cmpeqF (a b c d) : Statement (.cmpeqF a b c d) := fun h => lenT (right h)
theorem cmpneF (a b c d) : Statement (.cmpneF a b c d) := fun h => lenT (right h)
theorem cmpltF (a b c d) : Statement (.cmpltF a b c d) := fun h => lenT (right h)
theorem cmpleF (a b c d) : Statement (.cmpleF a b c d) := fun h => lenT (right h)
theorem cmpgtF (a b c d) : Statement (.cmpgtF a b c d) := fun h => lenT (right h)
theorem cmpgeF (a b c d) : Statement (.cmpgeF a b c d) := fun h => lenT (right h)
theorem cmpun (a b c d) : Statement (.cmpun a b c d) := fun h => lenT (right h)
theorem cmpor (a b c d) : Statement (.cmpor a b c d) := fun h => lenT (right h)
theorem negF (a b c) : Statement (.negF a b c) := fun _ => lenU
theorem absF (a b c) : Statement (.absF a b c) := fun _ => lenU
theorem rnd (a b c d) : Statement (.rnd a b c d) := fun _ => lenU
theorem rcp (a b c) : Statement (.rcp a b c) := fun _ => lenU
theorem rsq (a b c) : Statement (.rsq a b c) := fun _ => lenU
theorem sqrt (a b c) : Statement (.sqrt a b c) := fun _ => lenU
theorem exp2 (a b c) : Statement (.exp2 a b c) := fun _ => lenU
theorem log2 (a b c) : Statement (.log2 a b c) := fun _ => lenU
theorem sin (a b c) : Statement (.sin a b c) := fun _ => lenU
theorem cos (a b c) : Statement (.cos a b c) := fun _ => lenU
theorem tanh (a b c) : Statement (.tanh a b c) := fun _ => lenU
theorem cvt (a b c d e f) : Statement (.cvt a b c d e f) := fun _ => lenI
theorem cvts (a b c d) : Statement (.cvts a b c d) := fun _ => lenI
theorem packlo (a b c) : Statement (.packlo a b c) := fun h => lenT (right h)
theorem packhi (a b c) : Statement (.packhi a b c) := fun h => lenT (right h)
theorem shfl (a b c d) : Statement (.shfl a b c d) := fun h => lenT (right h)
theorem shflup (a b c d) : Statement (.shflup a b c d) := fun h => lenT (right h)
theorem shfldn (a b c d) : Statement (.shfldn a b c d) := fun h => lenT (right h)
theorem shflx (a b c d) : Statement (.shflx a b c d) := fun h => lenT (right h)
theorem vany (a b) : Statement (.vany a b) := fun _ => lenU
theorem vall (a b) : Statement (.vall a b) := fun _ => lenU
theorem vbal (a b) : Statement (.vbal a b) := fun _ => lenU
theorem vmatch (a b c) : Statement (.vmatch a b c) := fun h => lenT (right h)
theorem red (a b c) : Statement (.red a b c) := fun _ => lenU
theorem scan (a b c) : Statement (.scan a b c) := fun _ => lenU
theorem xscan (a b c) : Statement (.xscan a b c) := fun _ => lenU
theorem cvtb (a b c d) : Statement (.cvtb a b c d) := fun _ => lenI
theorem ld (a b c d e f) : Statement (.ld a b c d e f) := fun _ => lenM
theorem ldSigned (a b c d e f) : Statement (.ldSigned a b c d e f) := fun _ => lenM
theorem st (a b c d e f) : Statement (.st a b c d e f) := fun h => lenMS (right (left h))
theorem ldm (a b c d) : Statement (.ldm a b c d) := fun _ => lenI
theorem stm (a b c d) : Statement (.stm a b c d) := fun _ => lenI
theorem ldf (a b c d e) : Statement (.ldf a b c d e) := fun _ => lenM
theorem ldfe (a b c d e) : Statement (.ldfe a b c d e) := fun _ => lenM
theorem stef (a b c d e) : Statement (.stef a b c d e) := fun h => lenMS (right (left (left h)))
theorem setf (a b) : Statement (.setf a b) := fun _ => lenA
theorem sete (a b) : Statement (.sete a b) := fun _ => lenA
theorem trd (a b c) : Statement (.trd a b c) := fun _ => lenU
theorem atadd (a b c d e f) : Statement (.atadd a b c d e f) := fun _ => lenM
theorem atminS (a b c d e f) : Statement (.atminS a b c d e f) := fun _ => lenM
theorem atminN (a b c d e f) : Statement (.atminN a b c d e f) := fun _ => lenM
theorem atmaxS (a b c d e f) : Statement (.atmaxS a b c d e f) := fun _ => lenM
theorem atmaxN (a b c d e f) : Statement (.atmaxN a b c d e f) := fun _ => lenM
theorem atand (a b c d e f) : Statement (.atand a b c d e f) := fun _ => lenM
theorem ator (a b c d e f) : Statement (.ator a b c d e f) := fun _ => lenM
theorem atxor (a b c d e f) : Statement (.atxor a b c d e f) := fun _ => lenM
theorem atxch (a b c d e f) : Statement (.atxch a b c d e f) := fun _ => lenM
theorem atcas (a b c d e f) : Statement (.atcas a b c d e f) := fun _ => lenM
theorem atfadd (a b c d e) : Statement (.atfadd a b c d e) := fun _ => lenM
theorem faddCp (a b c d e) : Statement (.faddCp a b c d e) := fun _ => lenM
theorem fence (a b) : Statement (.fence a b) := fun _ => lenOne
theorem mma (a b c d) : Statement (.mma a b c d) := fun h => lenT (right h)
theorem mmap (a b c d) : Statement (.mmap a b c d) := fun h => lenT (right h)
theorem mconv (a b c d) : Statement (.mconv a b c d) := fun h => lenT (right h)
theorem mrd (a b c) : Statement (.mrd a b c) := fun _ => lenU
theorem mwr (a b c) : Statement (.mwr a b c) := fun _ => lenU
theorem mzero (a) : Statement (.mzero a) := fun _ => lenOne
theorem mst (a b c) : Statement (.mst a b c) := fun _ => lenU
theorem mtake (a) : Statement (.mtake a) := fun _ => lenOne
theorem mfree (a) : Statement (.mfree a) := fun _ => lenOne
theorem cpy (a b) : Statement (.cpy a b) := fun _ => lenU
theorem cpyn (a b c d) : Statement (.cpyn a b c d) := fun _ => lenU
theorem cpyr (a b) : Statement (.cpyr a b) := fun _ => lenU
theorem publish (a) : Statement (.publish a) := fun _ => lenA
theorem cpyq (a b) : Statement (.cpyq a b) := fun _ => lenU
theorem prim (a b) : Statement (.prim a b) := fun _ => lenU
theorem fins (a b) : Statement (.fins a b) := fun _ => lenU
theorem fpeek (a b c) : Statement (.fpeek a b c) := fun h => lenT (right h)
theorem fres (a b c d) : Statement (.fres a b c d) := fun h => lenT (right h)
theorem fclr (a b) : Statement (.fclr a b) := fun h => lenS (right h)
theorem encTile (a) : Statement (.encTile a) := fun _ => lenA
theorem trvbox (a b c) : Statement (.trvbox a b c) := fun _ => lenLits
theorem trvtri (a b c) : Statement (.trvtri a b c) := fun _ => lenLits
theorem trvpsh (a) : Statement (.trvpsh a) := fun _ => lenA
theorem trvpop (a) : Statement (.trvpop a) := fun _ => lenOne
theorem trvinstEnter (a) : Statement (.trvinstEnter a) := fun _ => lenA
theorem trvinstLeave : Statement (.trvinstLeave) := fun _ => lenOne
theorem trvrd (a b) : Statement (.trvrd a b) := fun _ => lenU
theorem bra (a) : Statement (.bra a) := fun _ => lenOne
theorem brt (a b) : Statement (.brt a b) := fun _ => lenOne
theorem brf (a b) : Statement (.brf a b) := fun _ => lenOne
theorem join (a) : Statement (.join a) := fun _ => lenOne
theorem dbrt (a b) : Statement (.dbrt a b) := fun _ => lenOne
theorem dbrf (a b) : Statement (.dbrf a b) := fun _ => lenOne
theorem call (a) : Statement (.call a) := fun _ => lenOne
theorem ret : Statement (.ret) := fun _ => lenOne
theorem exit : Statement (.exit) := fun _ => lenOne
theorem rett : Statement (.rett) := fun _ => lenOne
theorem brkpt : Statement (.brkpt) := fun _ => lenOne
theorem barGrp : Statement (.barGrp) := fun _ => lenOne
theorem barTeam (a) : Statement (.barTeam a) := fun _ => lenOne
theorem barArv (a) : Statement (.barArv a) := fun _ => lenOne
theorem barWait (a) : Statement (.barWait a) := fun _ => lenOne
theorem semacq (a b c) : Statement (.semacq a b c) := fun h => lenT (right h)
theorem semrel (a b) : Statement (.semrel a b) := fun h => lenS (right h)
theorem dbar (a) : Statement (.dbar a) := fun _ => lenA
theorem dbara (a) : Statement (.dbara a) := fun _ => lenA
theorem dbarw (a) : Statement (.dbarw a) := fun _ => lenA
theorem sbar (a) : Statement (.sbar a) := fun _ => lenA
theorem enq (a b c) : Statement (.enq a b c) := fun h => lenT (right h)
theorem regroup (a b c) : Statement (.regroup a b c) := fun _ => lenOne
theorem clauseFetch (a) : Statement (.clauseFetch a) := fun _ => Nat.zero_le 3
theorem waitMaskSatisfied (a) : Statement (.waitMaskSatisfied a) := fun _ => Nat.zero_le 3
theorem storeQueueDrain (a) : Statement (.storeQueueDrain a) := fun _ => Nat.zero_le 3
theorem loadDataReturn (a) : Statement (.loadDataReturn a) := fun _ => Nat.zero_le 3
theorem tagWaitSatisfied (a) : Statement (.tagWaitSatisfied a) := fun _ => Nat.zero_le 3
theorem tagTimeout (a) : Statement (.tagTimeout a) := fun _ => Nat.zero_le 3
theorem issueStallEnd (a) : Statement (.issueStallEnd a) := fun _ => Nat.zero_le 3
theorem tileBind (a) : Statement (.tileBind a) := fun _ => Nat.zero_le 3
theorem matrixStep (a b) : Statement (.matrixStep a b) := fun _ => Nat.zero_le 3
theorem mstPerform (a) : Statement (.mstPerform a) := fun _ => Nat.zero_le 3
theorem mzeroPerform (a) : Statement (.mzeroPerform a) := fun _ => Nat.zero_le 3
theorem engineOff (a b) : Statement (.engineOff a b) := fun _ => Nat.zero_le 3
theorem copyUnit (a) : Statement (.copyUnit a) := fun _ => Nat.zero_le 3
theorem turn (a) : Statement (.turn a) := fun _ => Nat.zero_le 3
theorem primitiveRasterise (a) : Statement (.primitiveRasterise a) := fun _ => Nat.zero_le 3
theorem fragmentInsert (a) : Statement (.fragmentInsert a) := fun _ => Nat.zero_le 3
theorem tileAccept (a) : Statement (.tileAccept a) := fun _ => Nat.zero_le 3
theorem frameEncode (a b c) : Statement (.frameEncode a b c) := fun _ => Nat.zero_le 3
theorem traversalResult (a) : Statement (.traversalResult a) := fun _ => Nat.zero_le 3
theorem regroupTimeout (a b c) : Statement (.regroupTimeout a b c) := fun _ => Nat.zero_le 3
theorem queueFetch (a b) : Statement (.queueFetch a b) := fun _ => Nat.zero_le 3
theorem queueTorn (a b) : Statement (.queueTorn a b) := fun _ => Nat.zero_le 3
theorem launchRelease (a) : Statement (.launchRelease a) := fun _ => Nat.zero_le 3
theorem teamPlace (a) : Statement (.teamPlace a) := fun _ => Nat.zero_le 3
theorem groupStop (a) : Statement (.groupStop a) := fun _ => Nat.zero_le 3
theorem bobbinSave (a) : Statement (.bobbinSave a) := fun _ => Nat.zero_le 3
theorem teamResume (a) : Statement (.teamResume a) := fun _ => Nat.zero_le 3
theorem launchComplete (a) : Statement (.launchComplete a) := fun _ => Nat.zero_le 3
theorem watchdog (a) : Statement (.watchdog a) := fun _ => Nat.zero_le 3
theorem hang (a b) : Statement (.hang a b) := fun _ => Nat.zero_le 3
theorem functionLevelReset (a) : Statement (.functionLevelReset a) := fun _ => Nat.zero_le 3
theorem pageWalk (a b) : Statement (.pageWalk a b) := fun _ => Nat.zero_le 3
theorem patrolRead (a b) : Statement (.patrolRead a b) := fun _ => Nat.zero_le 3
theorem channelStep (a) : Statement (.channelStep a) := fun _ => Nat.zero_le 3
theorem channelRetrainDone (a) : Statement (.channelRetrainDone a) := fun _ => Nat.zero_le 3
theorem thermal (a) : Statement (.thermal a) := fun _ => Nat.zero_le 3
theorem clockStepUp (a) : Statement (.clockStepUp a) := fun _ => Nat.zero_le 3
theorem thermalTrip (a) : Statement (.thermalTrip a) := fun _ => Nat.zero_le 3
theorem powerUp : Statement (.powerUp) := fun _ => Nat.zero_le 3
theorem powerRemoval : Statement (.powerRemoval) := fun _ => Nat.zero_le 3
theorem linkDown (a) : Statement (.linkDown a) := fun _ => Nat.zero_le 3
theorem linkRetry (a b) : Statement (.linkRetry a b) := fun _ => Nat.zero_le 3
theorem ptpEventMessage (a b) : Statement (.ptpEventMessage a b) := fun _ => Nat.zero_le 3
theorem hostBarAccess (a b c) : Statement (.hostBarAccess a b c) := fun _ => Nat.zero_le 3
theorem registerWrite (a b c) : Statement (.registerWrite a b c) := fun _ => Nat.zero_le 3
theorem fuse (a) : Statement (.fuse a) := fun _ => Nat.zero_le 3
theorem split (a) : Statement (.split a) := fun _ => Nat.zero_le 3
theorem move (a) : Statement (.move a) := fun _ => Nat.zero_le 3
theorem ways (a) : Statement (.ways a) := fun _ => Nat.zero_le 3
theorem keys (a) : Statement (.keys a) := fun _ => Nat.zero_le 3
theorem leaseLender (a) : Statement (.leaseLender a) := fun _ => Nat.zero_le 3
theorem leaseBorrower (a) : Statement (.leaseBorrower a) := fun _ => Nat.zero_le 3
theorem reclaim (a) : Statement (.reclaim a) := fun _ => Nat.zero_le 3
theorem leaseReturn (a) : Statement (.leaseReturn a) := fun _ => Nat.zero_le 3
theorem leaseNoticeExpiry (a) : Statement (.leaseNoticeExpiry a) := fun _ => Nat.zero_le 3
theorem leaseQuota (a) : Statement (.leaseQuota a) := fun _ => Nat.zero_le 3
theorem window (a) : Statement (.window a) := fun _ => Nat.zero_le 3
theorem admitEntry (a) : Statement (.admitEntry a) := fun _ => Nat.zero_le 3
theorem root (a) : Statement (.root a) := fun _ => Nat.zero_le 3
theorem invalRange (a) : Statement (.invalRange a) := fun _ => Nat.zero_le 3
theorem invalSpace (a) : Statement (.invalSpace a) := fun _ => Nat.zero_le 3
theorem keyload (a) : Statement (.keyload a) := fun _ => Nat.zero_le 3
theorem keyErase (a) : Statement (.keyErase a) := fun _ => Nat.zero_le 3
theorem queueCreate (a) : Statement (.queueCreate a) := fun _ => Nat.zero_le 3
theorem queueOpen (a) : Statement (.queueOpen a) := fun _ => Nat.zero_le 3
theorem queueClose (a) : Statement (.queueClose a) := fun _ => Nat.zero_le 3
theorem queueRestart (a) : Statement (.queueRestart a) := fun _ => Nat.zero_le 3
theorem objectCreate (a) : Statement (.objectCreate a) := fun _ => Nat.zero_le 3
theorem objectDestroy (a) : Statement (.objectDestroy a) := fun _ => Nat.zero_le 3
theorem objectRead (a) : Statement (.objectRead a) := fun _ => Nat.zero_le 3
theorem ageing (a) : Statement (.ageing a) := fun _ => Nat.zero_le 3
theorem pool (a) : Statement (.pool a) := fun _ => Nat.zero_le 3
theorem replsetRegister (a) : Statement (.replsetRegister a) := fun _ => Nat.zero_le 3
theorem replsetRelease (a) : Statement (.replsetRelease a) := fun _ => Nat.zero_le 3
theorem meter (a) : Statement (.meter a) := fun _ => Nat.zero_le 3
theorem capture (a) : Statement (.capture a) := fun _ => Nat.zero_le 3
theorem restore (a) : Statement (.restore a) := fun _ => Nat.zero_le 3
theorem ratomic (a) : Statement (.ratomic a) := fun _ => Nat.zero_le 3
theorem attest (a) : Statement (.attest a) := fun _ => Nat.zero_le 3
theorem cert (a) : Statement (.cert a) := fun _ => Nat.zero_le 3
theorem remoteCopyWrite (a b c d e) : Statement (.remoteCopyWrite a b c d e) := fun _ => Nat.zero_le 3
theorem cpyrAckTimeout (a) : Statement (.cpyrAckTimeout a) := fun _ => Nat.zero_le 3
theorem remoteAtomicMessage (a b c d e f g) : Statement (.remoteAtomicMessage a b c d e f g) := fun _ => Nat.zero_le 3
theorem startBarrierArrival (a b c) : Statement (.startBarrierArrival a b c) := fun _ => Nat.zero_le 3
theorem replicaTimeout (a b c) : Statement (.replicaTimeout a b c) := fun _ => Nat.zero_le 3
theorem coreDrain (a) : Statement (.coreDrain a) := fun _ => Nat.zero_le 3
theorem remoteAcknowledgement (a b) : Statement (.remoteAcknowledgement a b) := fun _ => Nat.zero_le 3
theorem hostWrite (a b) : Statement (.hostWrite a b) := fun _ => Nat.zero_le 3

end Sys2Proof.Laws.Encoding
end

