-- ==== Sys2Proof/Tests/Slice0.lean ====
section
/-!
SUPPORT. Tests/Slice0.lean: ill-formed terms, words of the spec decoded, and single steps with results that the spec states.
-/
namespace Sys2Proof.Tests

set_option Elab.async false

open Sys2Proof Sys2Proof.Machine

-- each check of WellFormed refuses a term

theorem test_wf_pair_aligned : (Instr.add (.reg 1) (.reg 2) (.reg 4) .s64 false).wf = false := by decide
theorem test_wf_register_range : (Instr.mov (.reg 120) .zero false).wf = false := by decide
theorem test_wf_last_pair : (Instr.mov (.reg 118) (.reg 118) true).wf = true := by decide
theorem test_wf_source_aligned : (Instr.mov (.reg 2) (.reg 3) true).wf = false := by decide
theorem test_wf_wide_literal : (Instr.mov (.reg 2) (.lit64 0) false).wf = false := by decide
theorem test_wf_two_literals : (Instr.and (.reg 2) (.lit32 0) (.lit32 1) false).wf = false := by decide
theorem test_wf_lea_shift : (Instr.lea (.reg 2) (.reg 4) .zero 5).wf = false := by decide
theorem test_wf_slot_selector : (Instr.movs (.reg 2) (.slot 8)).wf = false := by decide
theorem test_wf_rng_four : (Instr.rng (.reg 2) (.reg 4) (.reg 4)).wf = false := by decide
theorem test_wf_shift_amount : (Instr.shlImm (.reg 2) .zero 32).wf = false := by decide
theorem test_wf_cvt_types : (Instr.cvt (.reg 2) .zero .f32 .f32 .rne false).wf = false := by decide
theorem test_wf_cvts_slot : (Instr.cvts (.reg 2) .zero 8 true).wf = false := by decide
theorem test_wf_cvtb_slot : (Instr.cvtb (.reg 2) .zero 8 true).wf = false := by decide
theorem test_wf_load_release : (Instr.ld (.reg 2) (.reg 4) .b4 .rel .dev .g).wf = false := by decide
theorem test_wf_store_acquire : (Instr.st (.reg 2) (.reg 4) .b4 .acq .dev .g).wf = false := by decide
theorem test_wf_store_literal : (Instr.st (.lit64 0) (.reg 4) .b16 .rlx .grp .g).wf = false := by decide
theorem test_wf_global_address : (Instr.ld (.reg 2) (.reg 5) .b4 .rlx .grp .g).wf = false := by decide
theorem test_wf_offset : (Instr.ld (.reg 2) (.reg 5) .b4 .rlx .grp .s).wf = true := by decide
theorem test_wf_transfer_count : (Instr.ldm (.reg 2) .zero 33 .s).wf = false ∧ (Instr.stm (.reg 2) .zero 0 .s).wf = false := by decide
theorem test_wf_transfer_range : (Instr.stm (.reg 89) .zero 32 .s).wf = false ∧ (Instr.stm (.reg 88) .zero 32 .s).wf = true := by decide
theorem test_wf_transfer_apart : (Instr.ldm (.reg 2) (.reg 4) 3 .g).wf = false := by decide
theorem test_wf_tag_space : (Instr.ldf (.reg 2) .zero .rlx .grp .c).wf = false ∧ (Instr.stef .zero .zero .rlx .grp .g).wf = false := by decide
theorem test_wf_tag_order : (Instr.ldf (.reg 2) .zero .rel .grp .s).wf = false ∧ (Instr.stef .zero .zero .acq .grp .s).wf = false := by decide
theorem test_wf_atomic_space : (Instr.atcas (.reg 4) .zero true .rlx .grp .p).wf = false := by decide
theorem test_wf_cas_quad : (Instr.atcas (.reg 2) .zero true .rlx .grp .s).wf = false := by decide
theorem test_wf_fence : (Instr.fence .rlx .dev).wf = false := by decide
theorem test_wf_tile : (Instr.mtake 16).wf = false := by decide
theorem test_wf_copy_slot : (Instr.cpyn (.reg 2) (.reg 4) 8 false).wf = false := by decide
theorem test_wf_ray : (Instr.trvbox (.reg 2) (.reg 4) (.reg 6)).wf = false := by decide
theorem test_wf_condition : (Instr.brt 16 0).wf = false := by decide
theorem test_wf_barrier : (Instr.barTeam 16).wf = false := by decide
theorem test_wf_regroup_site : (Instr.regroup (.reg 2) 128 1).wf = false := by decide
theorem test_wf_regroup_registers : (Instr.regroup (.reg 2) 0 0).wf = false ∧ (Instr.regroup (.reg 2) 0 16).wf = false := by decide
theorem test_wf_event_engine : (Instr.engineOff 48 0).wf = false ∧ (Instr.engineOff 47 1).wf = true := by decide
theorem test_wf_event_queue : (Instr.queueFetch 16 256).wf = false ∧ (Instr.queueTorn 17 0).wf = false := by decide
theorem test_wf_event_slice : (Instr.hang 16 0).wf = false ∧ (Instr.hang 15 320).wf = false := by decide
theorem test_wf_event_function : (Instr.teamPlace 17).wf = false ∧ (Instr.functionLevelReset 17).wf = false := by decide
theorem test_wf_event_walk : (Instr.pageWalk (0, 0) (2 ^ 51)).wf = false ∧ (Instr.pageWalk (0, 16) 0).wf = false := by decide
theorem test_wf_event_channel : (Instr.channelStep 48).wf = false ∧ (Instr.channelRetrainDone 48).wf = false := by decide
theorem test_wf_event_die : (Instr.thermal 2).wf = false ∧ (Instr.clockStepUp 2).wf = false ∧ (Instr.thermalTrip 2).wf = false := by decide
theorem test_wf_event_link : (Instr.linkDown 2).wf = false ∧ (Instr.linkRetry (.beat 0 0 0 true) 10).wf = false := by decide
theorem test_wf_event_host : (Instr.hostBarAccess 0 (2 ^ 36) (.read 1)).wf = false ∧ (Instr.hostWrite (2 ^ 51) [0]).wf = false := by decide
theorem test_wf_event_request : (Instr.fuse 17).wf = false ∧ (Instr.cert 17).wf = false := by decide
theorem test_wf_event_package : (Instr.remoteCopyWrite 131072 0 0 0 []).wf = false ∧ (Instr.remoteAtomicMessage 0 17 0 0 0 0 0).wf = false := by decide
theorem test_wf_event_replica : (Instr.startBarrierArrival 0 (2 ^ 32) (0, 0)).wf = false ∧ (Instr.replicaTimeout 0 0 131072).wf = false := by decide

-- words that the spec writes out

/-- 03 R59: op 0x00, d 0, a LANE, b GRPIX. -/
theorem test_decode_add : decodesTo 0x0003CFA0 (.add (.reg 0) .lane .grpix .s32 false) := by unfold decodesTo; decide +kernel
/-- 05 R106: lea v6, v2, v9, 3. -/
theorem test_decode_lea : decodesTo 0x22181093 (.lea (.reg 6) (.reg 2) (.reg 9) 3) := by unfold decodesTo; decide +kernel
/-- 05 R117: movs v10, time. -/
theorem test_decode_movs : decodesTo 0x24280020 (.movs (.reg 10) .time) := by unfold decodesTo; decide +kernel
/-- 10 R204: ld.n32.g.acq.dev v3, [v6]. -/
theorem test_decode_ld : decodesTo 0x700C3258 (.ld (.reg 3) (.reg 6) .b4 .acq .dev .g) := by unfold decodesTo; decide +kernel
/-- 10 R208: stm.g v8, [v2], 20. -/
theorem test_decode_stm : decodesTo 0x78201013 (.stm (.reg 8) (.reg 2) 20 .g) := by unfold decodesTo; decide +kernel
/-- 10 R215: atadd.n32.g.rlx.dev v5, [v4]. -/
theorem test_decode_atadd : decodesTo 0x82142218 (.atadd (.reg 5) (.reg 4) false .rlx .dev .g) := by unfold decodesTo; decide +kernel
/-- 10 R218: fadd.cp.f32.g v2, [v4]. -/
theorem test_decode_faddcp : decodesTo 0x98082300 (.faddCp (.reg 2) (.reg 4) .rlx .grp .g) := by unfold decodesTo; decide +kernel
/-- 10 R223: fence.acq.dev, fence.rel.dev and fence.sc.sys. -/
theorem test_decode_fence : decodesTo 0x9A000058 (.fence .acq .dev) ∧ decodesTo 0x9A000098 (.fence .rel .dev) ∧ decodesTo 0x9A0000E0 (.fence .sc .sys) := by unfold decodesTo; decide +kernel
/-- 11: cpy v9, v4. -/
theorem test_decode_cpy : decodesTo 0xB2242000 (.cpy (.reg 9) (.reg 4)) := by unfold decodesTo; decide +kernel
/-- 17: trvinst.enter v9 and trvpop v12. -/
theorem test_decode_traversal : decodesTo 0xD4004800 (.trvinstEnter (.reg 9)) ∧ decodesTo 0xD2300000 (.trvpop (.reg 12)) := by unfold decodesTo; decide +kernel
/-- 14 R299 and 23: exit and rett. -/
theorem test_decode_exit : decodesTo 0xE6000001 .exit ∧ decodesTo 0xE6000002 .rett := by unfold decodesTo; decide +kernel
/-- 02 R40: op 0x1E is in no class. -/
theorem test_decode_refusal : refusedBy 0x3C000000 1 := by unfold refusedBy; decide +kernel


-- a word of every constructor, its fields placed by the tables of 02 and 03

def wordsIntegerA : List (Word × Instr) :=
    [(0x000C2874, .add (.reg 3) (.reg 5) (.reg 7) .s32 true),
     (0x02103783, .sub (.reg 4) (.reg 6) .zero .n64 false),
     (0x040BC895, .mul (.reg 2) .lane (.reg 9) .n32 true),
     (0x06082062, .mulh (.reg 2) (.reg 4) (.reg 6) .s64),
     (0x08041031, .mad (.reg 1) (.reg 2) (.reg 3) .n32),
     (0x0A041030, .min (.reg 1) (.reg 2) (.reg 3) .s32),
     (0x0DE01043, .max .zero (.reg 2) (.reg 4) .n64),
     (0x0E041800, .neg (.reg 1) (.reg 3) false),
     (0x0E083003, .abs (.reg 2) (.reg 6) true)]
def wordsIntegerB : List (Word × Instr) :=
    [(0x10041030, .and (.reg 1) (.reg 2) (.reg 3) false),
     (0x10082069, .or (.reg 2) (.reg 4) (.reg 6) true),
     (0x10041032, .xor (.reg 1) (.reg 2) (.reg 3) false),
     (0x10041033, .andn (.reg 1) (.reg 2) (.reg 3) false),
     (0x1008206C, .orn (.reg 2) (.reg 4) (.reg 6) true),
     (0x10041035, .xnor (.reg 1) (.reg 2) (.reg 3) false),
     (0x12041030, .shl (.reg 1) (.reg 2) (.reg 3) false),
     (0x12082035, .shrN (.reg 2) (.reg 4) (.reg 3) true),
     (0x12041032, .shrS (.reg 1) (.reg 2) (.reg 3) false)]
def wordsIntegerC : List (Word × Instr) :=
    [(0x12082037, .rol (.reg 2) (.reg 4) (.reg 3) true),
     (0x14041000, .popc (.reg 1) (.reg 2) false),
     (0x14041005, .clz (.reg 1) (.reg 2) true),
     (0x14041802, .ctz (.reg 1) (.reg 3) false),
     (0x14082007, .brev (.reg 2) (.reg 4) true),
     (0x16041031, .bfx (.reg 1) (.reg 2) (.reg 3) true),
     (0x18041030, .bfi (.reg 1) (.reg 2) (.reg 3))]
/-- 03 R57, R59: integer arithmetic, logic, shifts, counts and fields. -/
theorem test_decode_integer : (∀ p ∈ wordsIntegerA, decodesTo p.1 p.2) ∧ (∀ p ∈ wordsIntegerB, decodesTo p.1 p.2) ∧ (∀ p ∈ wordsIntegerC, decodesTo p.1 p.2) := by unfold decodesTo; decide +kernel
def wordsCompareA : List (Word × Instr) :=
    [(0x1A041030, .cmpeq32 (.reg 1) (.reg 2) (.reg 3) false),
     (0x1A041039, .cmpne32 (.reg 1) (.reg 2) (.reg 3) true),
     (0x1A041032, .cmplt32 (.reg 1) (.reg 2) (.reg 3) false),
     (0x1A04103B, .cmple32 (.reg 1) (.reg 2) (.reg 3) true),
     (0x1A041034, .cmpgt32 (.reg 1) (.reg 2) (.reg 3) false),
     (0x1A04103D, .cmpge32 (.reg 1) (.reg 2) (.reg 3) true),
     (0x1C041048, .cmpeq64 (.reg 1) (.reg 2) (.reg 4) true),
     (0x1C041041, .cmpne64 (.reg 1) (.reg 2) (.reg 4) false),
     (0x1C04104A, .cmplt64 (.reg 1) (.reg 2) (.reg 4) true)]
def wordsCompareB : List (Word × Instr) :=
    [(0x1C041043, .cmple64 (.reg 1) (.reg 2) (.reg 4) false),
     (0x1C04104C, .cmpgt64 (.reg 1) (.reg 2) (.reg 4) true),
     (0x1C041045, .cmpge64 (.reg 1) (.reg 2) (.reg 4) false)]
/-- 03 R59: op 0x0D and 0x0E, fn[2:0] the relation, fn[3] the signedness. -/
theorem test_decode_compare : (∀ p ∈ wordsCompareA, decodesTo p.1 p.2) ∧ (∀ p ∈ wordsCompareB, decodesTo p.1 p.2) := by unfold decodesTo; decide +kernel
def wordsMoveA : List (Word × Instr) :=
    [(0x1E041030, .sel (.reg 1) (.reg 2) (.reg 3) false),
     (0x20082001, .mov (.reg 2) (.reg 4) true),
     (0x22082054, .lea (.reg 2) (.reg 4) (.reg 5) 4),
     (0x26103080, .rng (.reg 4) (.reg 6) (.reg 8)),
     (0x280413E8, .addImm32 (.reg 1) (.reg 2) 1000),
     (0x2A0827FF, .addImm64 (.reg 2) (.reg 4) (-1)),
     (0x2C040FF0, .andImm (.reg 1) (.reg 1) (-16)),
     (0x2E041005, .orImm (.reg 1) (.reg 2) 5),
     (0x30041006, .xorImm (.reg 1) (.reg 2) 6)]
def wordsMoveB : List (Word × Instr) :=
    [(0x3204101F, .shlImm (.reg 1) (.reg 2) 31),
     (0x34041007, .shrNImm (.reg 1) (.reg 2) 7),
     (0x36041008, .shrSImm (.reg 1) (.reg 2) 8),
     (0x38041400, .mulImm (.reg 1) (.reg 2) (-1024)),
     (0x3A0403FF, .movImm (.reg 1) 1023),
     (0x56041030, .packlo (.reg 1) (.reg 2) (.reg 3)),
     (0x56041031, .packhi (.reg 1) (.reg 2) (.reg 3))]
/-- 03 R59: select, moves, address, random numbers, the I forms and the packs. -/
theorem test_decode_move : (∀ p ∈ wordsMoveA, decodesTo p.1 p.2) ∧ (∀ p ∈ wordsMoveB, decodesTo p.1 p.2) := by unfold decodesTo; decide +kernel
def wordsFloatA : List (Word × Instr) :=
    [(0x40041031, .addF (.reg 1) (.reg 2) (.reg 3) .f32 .rtz),
     (0x42041036, .subF (.reg 1) (.reg 2) (.reg 3) .f16 .rup),
     (0x4404103B, .mulF (.reg 1) (.reg 2) (.reg 3) .bf16 .rdn),
     (0x46041030, .fma (.reg 1) (.reg 2) (.reg 3) .f32 .rne),
     (0x48041034, .minF (.reg 1) (.reg 2) (.reg 3) .f16),
     (0x48041039, .maxF (.reg 1) (.reg 2) (.reg 3) .bf16),
     (0x4A041038, .cmpeqF (.reg 1) (.reg 2) (.reg 3) true),
     (0x4A041031, .cmpneF (.reg 1) (.reg 2) (.reg 3) false),
     (0x4A041032, .cmpltF (.reg 1) (.reg 2) (.reg 3) false)]
def wordsFloatB : List (Word × Instr) :=
    [(0x4A04103B, .cmpleF (.reg 1) (.reg 2) (.reg 3) true),
     (0x4A041034, .cmpgtF (.reg 1) (.reg 2) (.reg 3) false),
     (0x4A041035, .cmpgeF (.reg 1) (.reg 2) (.reg 3) false),
     (0x4A04103E, .cmpun (.reg 1) (.reg 2) (.reg 3) true),
     (0x4A041037, .cmpor (.reg 1) (.reg 2) (.reg 3) false),
     (0x4C041000, .negF (.reg 1) (.reg 2) .f32),
     (0x4C041009, .absF (.reg 1) (.reg 2) .bf16),
     (0x4E041006, .rnd (.reg 1) (.reg 2) .f16 .rup),
     (0x50041000, .rcp (.reg 1) (.reg 2) false)]
def wordsFloatC : List (Word × Instr) :=
    [(0x50041009, .rsq (.reg 1) (.reg 2) true),
     (0x50041002, .sqrt (.reg 1) (.reg 2) false),
     (0x5004100B, .exp2 (.reg 1) (.reg 2) true),
     (0x50041004, .log2 (.reg 1) (.reg 2) false),
     (0x5004100D, .sin (.reg 1) (.reg 2) true),
     (0x50041006, .cos (.reg 1) (.reg 2) false),
     (0x5004100F, .tanh (.reg 1) (.reg 2) true),
     (0x52041501, .cvt (.reg 1) (.reg 2) .f16 .f32 .rtz true),
     (0x52081AC7, .cvt (.reg 2) (.reg 3) .s64 .n8 .rup false)]
def wordsFloatD : List (Word × Instr) :=
    [(0x54041003, .cvts (.reg 1) (.reg 2) 3 false)]
/-- 03 R58, R59, R60: floating point, special functions and conversions. -/
theorem test_decode_float : (∀ p ∈ wordsFloatA, decodesTo p.1 p.2) ∧ (∀ p ∈ wordsFloatB, decodesTo p.1 p.2) ∧ (∀ p ∈ wordsFloatC, decodesTo p.1 p.2) ∧ (∀ p ∈ wordsFloatD, decodesTo p.1 p.2) := by unfold decodesTo; decide +kernel
def wordsXlaneA : List (Word × Instr) :=
    [(0x60041030, .shfl (.reg 1) (.reg 2) (.reg 3) false),
     (0x60082035, .shflup (.reg 2) (.reg 4) (.reg 3) true),
     (0x60041032, .shfldn (.reg 1) (.reg 2) (.reg 3) false),
     (0x60082037, .shflx (.reg 2) (.reg 4) (.reg 3) true),
     (0x62041000, .vany (.reg 1) (.reg 2)),
     (0x62041001, .vall (.reg 1) (.reg 2)),
     (0x62081802, .vbal (.reg 2) (.reg 3)),
     (0x62081843, .vmatch (.reg 2) (.reg 3) (.reg 4)),
     (0x64041001, .red (.reg 1) (.reg 2) .addF32)]
def wordsXlaneB : List (Word × Instr) :=
    [(0x66041002, .scan (.reg 1) (.reg 2) .minS32),
     (0x6808200B, .xscan (.reg 2) (.reg 4) .add64),
     (0x6A04100A, .cvtb (.reg 1) (.reg 2) 2 true)]
/-- 03 R61: the cross-lane opcodes. -/
theorem test_decode_xlane : (∀ p ∈ wordsXlaneA, decodesTo p.1 p.2) ∧ (∀ p ∈ wordsXlaneB, decodesTo p.1 p.2) := by unfold decodesTo; decide +kernel
def wordsMemoryA : List (Word × Instr) :=
    [(0x702015E0, .ld (.reg 8) (.reg 2) .b32 .sc .sys .g),
     (0x72041154, .ldSigned (.reg 1) (.reg 2) true .acq .team .p),
     (0x74100C89, .st (.reg 4) (.reg 1) .b16 .rel .core .s),
     (0x7620108F, .ldm (.reg 8) (.reg 2) 16 .p),
     (0x7820107F, .stm (.reg 8) (.reg 2) 32 .c),
     (0x7A041241, .ldf (.reg 1) (.reg 2) .acq .grp .s),
     (0x7C041292, .ldfe (.reg 1) (.reg 2) .rel .team .rg),
     (0x7E0412D9, .stef (.reg 1) (.reg 2) .sc .dev .s),
     (0x80001000, .setf (.reg 2) false)]
def wordsMemoryB : List (Word × Instr) :=
    [(0x80001005, .sete (.reg 2) true),
     (0x80041002, .trd (.reg 1) (.reg 2) false),
     (0x82082200, .atadd (.reg 2) (.reg 4) false .rlx .grp .g),
     (0x84082349, .atminS (.reg 2) (.reg 4) true .acq .core .s),
     (0x86082292, .atminN (.reg 2) (.reg 4) false .rel .team .rg),
     (0x880823DB, .atmaxS (.reg 2) (.reg 4) true .sc .dev .c),
     (0x8A082220, .atmaxN (.reg 2) (.reg 4) false .rlx .sys .g),
     (0x8C082341, .atand (.reg 2) (.reg 4) true .acq .grp .s),
     (0x8E08228A, .ator (.reg 2) (.reg 4) false .rel .core .rg)]
def wordsMemoryC : List (Word × Instr) :=
    [(0x900823D3, .atxor (.reg 2) (.reg 4) true .sc .team .c),
     (0x92082218, .atxch (.reg 2) (.reg 4) false .rlx .dev .g),
     (0x94101303, .atcas (.reg 4) (.reg 2) true .rlx .grp .c),
     (0x96041298, .atfadd (.reg 1) (.reg 2) .rel .dev .g),
     (0x98082300, .faddCp (.reg 2) (.reg 4) .rlx .grp .g),
     (0x9A0000E0, .fence .sc .sys)]
/-- 03 R62, R63: the memory opcodes; ord in [7:6], scp in [5:3], sp in [2:0]. -/
theorem test_decode_memory : (∀ p ∈ wordsMemoryA, decodesTo p.1 p.2) ∧ (∀ p ∈ wordsMemoryB, decodesTo p.1 p.2) ∧ (∀ p ∈ wordsMemoryC, decodesTo p.1 p.2) := by unfold decodesTo; decide +kernel
def wordsEngineA : List (Word × Instr) :=
    [(0xA004104F, .mma 15 (.reg 1) (.reg 2) (.reg 4)),
     (0xA2041047, .mmap 7 (.reg 1) (.reg 2) (.reg 4)),
     (0xA4041043, .mconv 3 (.reg 1) (.reg 2) (.reg 4)),
     (0xA6041001, .mrd 1 (.reg 1) (.reg 2)),
     (0xA8041002, .mwr 2 (.reg 1) (.reg 2)),
     (0xAA000004, .mzero 4),
     (0xAC041005, .mst 5 (.reg 1) (.reg 2)),
     (0xAE000006, .mtake 6),
     (0xB0000008, .mfree 8)]
def wordsEngineB : List (Word × Instr) :=
    [(0xB2242000, .cpy (.reg 9) (.reg 4)),
     (0xB424200D, .cpyn (.reg 9) (.reg 4) 5 true),
     (0xB6242000, .cpyr (.reg 9) (.reg 4)),
     (0xB8003000, .publish (.reg 6)),
     (0xBA242800, .cpyq (.reg 9) (.reg 5))]
/-- 03 R64: the engine opcodes, the tile in fn. -/
theorem test_decode_engine : (∀ p ∈ wordsEngineA, decodesTo p.1 p.2) ∧ (∀ p ∈ wordsEngineB, decodesTo p.1 p.2) := by unfold decodesTo; decide +kernel
def wordsGraphicsA : List (Word × Instr) :=
    [(0xC0082000, .prim (.reg 2) (.reg 4)),
     (0xC2101000, .fins (.reg 4) (.reg 2)),
     (0xC4101050, .fpeek (.reg 4) (.reg 2) (.reg 5)),
     (0xC6101051, .fres (.reg 4) (.reg 2) (.reg 5) true),
     (0xC8001050, .fclr (.reg 2) (.reg 5)),
     (0xCA001000, .encTile (.reg 2)),
     (0xCC500080, .trvbox (.reg 20) (.reg 0) (.reg 8)),
     (0xCE504020, .trvtri (.reg 20) (.reg 8) (.reg 2)),
     (0xD0001000, .trvpsh (.reg 2))]
def wordsGraphicsB : List (Word × Instr) :=
    [(0xD2300000, .trvpop (.reg 12)),
     (0xD4004800, .trvinstEnter (.reg 9)),
     (0xD4000001, .trvinstLeave),
     (0xD6084800, .trvrd (.reg 2) (.reg 9))]
/-- 03 R65: the graphics and traversal opcodes. -/
theorem test_decode_graphics : (∀ p ∈ wordsGraphicsA, decodesTo p.1 p.2) ∧ (∀ p ∈ wordsGraphicsB, decodesTo p.1 p.2) := by unfold decodesTo; decide +kernel
def wordsControlA : List (Word × Instr) :=
    [(0xD8100000, .bra (-1048576)),
     (0xDBE00003, .brt 15 3),
     (0xDC3FFFFD, .brf 1 (-3)),
     (0xDE00000C, .join 12),
     (0xE0400005, .dbrt 2 5),
     (0xE27FFFFB, .dbrf 3 (-5)),
     (0xE4000007, .call 7),
     (0xE6000000, .ret),
     (0xE6000001, .exit)]
def wordsControlB : List (Word × Instr) :=
    [(0xE6000002, .rett),
     (0xE6000003, .brkpt),
     (0xE8000000, .barGrp),
     (0xEA00000F, .barTeam 15),
     (0xEA000013, .barArv 3),
     (0xEA000024, .barWait 4),
     (0xEC041030, .semacq (.reg 1) (.reg 2) (.reg 3)),
     (0xEC001031, .semrel (.reg 2) (.reg 3)),
     (0xEC001002, .dbar (.reg 2))]
def wordsControlC : List (Word × Instr) :=
    [(0xEC001003, .dbara (.reg 2)),
     (0xEC001004, .dbarw (.reg 2)),
     (0xEC001005, .sbar (.reg 2)),
     (0xEE041040, .enq (.reg 1) (.reg 2) (.reg 4)),
     (0xF00407FF, .regroup (.reg 1) 127 15)]
/-- 03 R66: the control opcodes; a branch offset is signed. -/
theorem test_decode_control : (∀ p ∈ wordsControlA, decodesTo p.1 p.2) ∧ (∀ p ∈ wordsControlB, decodesTo p.1 p.2) ∧ (∀ p ∈ wordsControlC, decodesTo p.1 p.2) := by unfold decodesTo; decide +kernel

-- end of words

end Sys2Proof.Tests
end

