-- ==== Sys2Proof/Tests/Witness.lean ====
section
/-!
SUPPORT. Tests/Witness.lean: for each statement with hypotheses, states and operands that meet them.
-/
namespace Sys2Proof.Tests

set_option Elab.async false

open Sys2Proof Sys2Proof.Machine

-- helpers

theorem unheld_free {s : State} {ivs : List Iv} (h : holders s s.g.id s.nextId ivs = []) (w : s.g.waiting = .no) : unheld s ivs :=
  ⟨h, fun _ _ e => by rw [w] at e; cases e⟩
/-- The conditions of accessOk as a Bool. -/
def accessB (s : State) (sp : Space) (n al : Nat) (p : Perm) (l : List (Nat × Nat)) : Bool :=
  l.all (fun e => decide (e.2 % al = 0) && decide (sp = .g → e.2 < 2251799813685248) && decide (sp ≠ .g → e.2 + n ≤ extent s sp) &&
    match partsOf s sp e.1 e.2 n p with | .ok _ => true | .error _ => false)
theorem access_ok {s : State} {sp : Space} {n al : Nat} {p : Perm} {l : List (Nat × Nat)} (h : accessB s sp n al p l = true) : accessOk s sp n al p l := by
  intro e he
  have h1 := List.all_eq_true.mp h e he
  simp only [Bool.and_eq_true, decide_eq_true_eq] at h1
  refine ⟨h1.1.1.1, h1.1.1.2, h1.1.2, ?_⟩
  have h2 := h1.2
  split at h2
  · exact ⟨_, by assumption⟩
  · cases h2

theorem ok_of {ε α : Type} {e : Except ε α} (h : e.isOk = true) : ∃ v, e = .ok v := by
  cases e with
  | error _ => cases h
  | ok v => exact ⟨v, rfl⟩

theorem err_of {ε β α : Type} {e : Except (ε × β) α} (h : e.isOk = false) : ∃ x a, e = .error (x, a) := by
  cases e with
  | error v => exact ⟨v.1, v.2, rfl⟩
  | ok _ => cases h
theorem pair_of {α β : Type} {x : α × β} {b : β} (h : x.2 = b) : x = (x.1, b) := by
  cases x
  cases h
  rfl
theorem fails_of {α β γ : Type} {x : α × Option (β × γ)} (h : x.2.isSome = true) : ∃ t b c, x = (t, some (b, c)) := by
  obtain ⟨t, y⟩ := x
  cases y with
  | none => cases h
  | some y => exact ⟨t, y.1, y.2, rfl⟩

theorem spill_ok (lane : Nat) (all : Bool) : ∀ (ps : List (Nat × List Byte)) (s : State), (∀ c ∈ ps, (partOf s .p c.1 c.2.length .w).isOk = true) → (spillPieces lane all ps s).2 = none
  | [], _, _ => rfl
  | c :: cs, s, h => by
    obtain ⟨q, hq⟩ := ok_of (h c (List.mem_cons_self ..))
    unfold spillPieces
    rw [hq]
    exact spill_ok lane all cs _ (fun d hd => h d (List.mem_cons_of_mem _ hd))

-- a launch of one team on core 0 of slice 0, in a space mapped whole by one page

def fn0 : Fn :=
  { slices := [0], windows := [(0, 549755813888)], keyBlocks := 0xFF, spadWays := [0], cacheWays := [1], root := 0x10000001, pool := (0x4000000, 0x100000) }
def kern : Kernel :=
  { entry := 0x1000, handler := 0x2000, regs := 120, width := 16, team := 1, regroup := true, divblocks := 1, scratch := 1024, region := 1024, priv := 64, trav := 128 }
/-- Slots: 0 BFP8 in blocks of 16, 1 bfloat16, 2 binary16 with stochastic rounding. -/
def lrec0 : LaunchRec := { kernel := 0x3000, args := 0x3100, teams := 4, slots := [{ kind := 1, m := 8, block := 16 }, { kind := 4 }, { kind := 5, round := 4 }] }
def ctx0 : Ctx := { fn := 0, launch := 2, lrecVA := 0x3200, kernel := kern, lrec := lrec0, pbase := 0x100000, areas := 4, deadline := 5000 }
/-- Lanes 0 and 15 of 16 are active; lane 1 has exited. -/
def grp0 : Group :=
  { id := 1, ctx := ctx0, core := 0, team := 3, grpix := 1, teamix := 1, phase := .issue, pos := 0x1000, off := 1, clause := [0xB2000400, 0x00000000, 0x00000000], active := 0x8001, exited := 2,
    phases := List.replicate 16 0, regs := [(regKey 2 0, 64), (regKey 2 15, 128), (regKey 119 15, 7)] }
def team0 : Team := { id := 3, launch := 2, teamix := 1, region := 0, size := 1, bars := List.replicate 16 {} }
def launch0 : Launch := { id := 2, kind := 1, ctx := ctx0, nextTeam := 2, seq := 0, deadline := 5000, packet := List.replicate 64 0 }
def leaf0 : Nat := 0x70000000000000
/-- The base state: a group about to issue. -/
def st0 : State :=
  { State.reset with
    boot := .running, g := grp0, teams := [team0], launches := [launch0], fns := fn0 :: List.replicate 16 {}, bases := [(0, { value := 1000, set := true })], nextId := 10,
    tlb := [{ fn := 0, base := 0, size := 549755813888, leaf := leaf0 }], now := 1000000 }
/-- The base state with other contents of the issuing group. -/
def withG (f : Group → Group) : State := { st0 with g := f st0.g }

-- encodings and the step

/-- EncodeThenDecode, at the last pair and with a 64-bit literal. -/
theorem witness_encode : (Instr.add (.reg 118) (.reg 116) (.lit64 (-1)) .n64 true).wf = true ∧
    encode (.add (.reg 118) (.reg 116) (.lit64 (-1)) .n64 true) = [0x01DBA7F7, 0xFFFFFFFF, 0xFFFFFFFF] := by decide +kernel
/-- DecodeThenEncode, with a literal word to spare. -/
theorem witness_decode : decodeWord (DCtx.wide 0x01DBA7F7) 0x01DBA7F7 [5, 6, 7] = .ok (.add (.reg 118) (.reg 116) (.lit64 0x0000000600000005) .n64 true) ∧ litWords 0x01DBA7F7 ≤ 3 := by
  decide +kernel
/-- StepRunsDecoded: an instruction. -/
theorem witness_step : st0.agenda = [] ∧ st0.thermalTrip = false ∧ st0.boot = .running ∧ retraining st0 = none ∧ canIssue st0 st0.g = true ∧ instrAt st0.g = .ok (.add (.reg 0) (.reg 0) (.reg 0) .s32 false) := by
  decide +kernel
/-- StepRunsDecoded: a word of no class. -/
theorem witness_step_error : let s := withG (fun h => { h with clause := [0xB1000200, 0x3C000000] })
    s.agenda = [] ∧ s.thermalTrip = false ∧ s.boot = .running ∧ retraining s = none ∧ canIssue s s.g = true ∧ instrAt s.g = .error 1 := by decide +kernel
/-- StepRunsDecoded: an event at the head of the agenda. -/
theorem witness_step_event : ({ st0 with agenda := [.event (.thermalTrip 1)] } : State).agenda = .event (.thermalTrip 1) :: [] ∧ isEvent (.thermalTrip 1) = true ∧
    retraining { st0 with agenda := [.event (.thermalTrip 1)] } = none := by decide +kernel
/-- StepRunsDecoded: the last channel retrains. -/
theorem witness_step_retraining : let s := { st0 with chans := [(47, { training := true })] }
    s.agenda = [] ∧ s.thermalTrip = false ∧ s.boot = .running ∧ retraining s = some 47 := by decide +kernel
/-- AdvanceMovesOn: the last word of the clause, and past it. -/
theorem witness_advance : grp0.off + 1 < grp0.clause.length ∧ grp0.clause.length ≤ grp0.off + 2 := by decide
/-- StepKeepsMemoryCanonical: a byte of memory, and a step that goes on. -/
theorem witness_canonical : let s := { st0 with mem := [(7, 1)] }
    MemoryCanonical s ∧ ∃ t, step s = .next t := ⟨by unfold MemoryCanonical; decide +kernel, _, rfl⟩

-- register instructions

theorem witness_integer : ∃ e, intSpec (.mad (.reg 118) (.reg 118) .lane .s64) = some e ∧ e.able st0 ∧ e.clean st0 ∧ e.untrapped st0 :=
  ⟨_, rfl, trivial, by unfold RegOp.clean; decide +kernel, by unfold RegOp.untrapped; decide +kernel⟩
theorem witness_compare : ∃ e, compareSpec (.cmple64 (.reg 119) (.reg 118) (.lit32 (-1)) false) = some e ∧ e.able st0 ∧ e.clean st0 ∧ e.untrapped st0 :=
  ⟨_, rfl, trivial, by unfold RegOp.clean; decide +kernel, by unfold RegOp.untrapped; decide +kernel⟩
theorem witness_bit : ∃ e, bitSpec (.orn .zero (.reg 0) (.reg 118) true) = some e ∧ e.able st0 ∧ e.clean st0 ∧ e.untrapped st0 :=
  ⟨_, rfl, trivial, by unfold RegOp.clean; decide +kernel, by unfold RegOp.untrapped; decide +kernel⟩
theorem witness_shift : ∃ e, shiftSpec (.bfi (.reg 119) (.reg 2) (.reg 119)) = some e ∧ e.able st0 ∧ e.clean st0 ∧ e.untrapped st0 :=
  ⟨_, rfl, trivial, by unfold RegOp.clean; decide +kernel, by unfold RegOp.untrapped; decide +kernel⟩
theorem witness_move : ∃ e, moveSpec (.movs (.reg 119) .flagsclr) = some e ∧ e.able st0 ∧ e.clean st0 ∧ e.untrapped st0 :=
  ⟨_, rfl, trivial, by unfold RegOp.clean; decide +kernel, by unfold RegOp.untrapped; decide +kernel⟩
theorem witness_float : ∃ e, floatSpec (.fma (.reg 119) (.reg 2) (.lit32 0x3F800000) .f16 .rup) = some e ∧ e.able st0 ∧ e.clean st0 ∧ e.untrapped st0 :=
  ⟨_, rfl, trivial, by unfold RegOp.clean; decide +kernel, by unfold RegOp.untrapped; decide +kernel⟩
theorem witness_float_compare : ∃ e, floatCompareSpec (.cmpun (.reg 119) (.reg 2) (.reg 3) true) = some e ∧ e.able st0 ∧ e.clean st0 ∧ e.untrapped st0 :=
  ⟨_, rfl, trivial, by unfold RegOp.clean; decide +kernel, by unfold RegOp.untrapped; decide +kernel⟩
theorem witness_special : ∃ e, specialSpec (.rsq (.reg 119) (.reg 119) false) = some e ∧ e.able st0 ∧ e.clean st0 ∧ e.untrapped st0 :=
  ⟨_, rfl, trivial, by unfold RegOp.clean; decide +kernel, by unfold RegOp.untrapped; decide +kernel⟩
/-- CVTS into a slot that rounds stochastically: its operand check passes. -/
theorem witness_convert : ∃ e, convertSpec (.cvts (.reg 119) (.reg 2) 2 false) = some e ∧ e.able st0 ∧ e.clean st0 ∧ e.untrapped st0 :=
  ⟨_, rfl, by dsimp only [cvtsOp]; decide +kernel, by unfold RegOp.clean; decide +kernel, by unfold RegOp.untrapped; decide +kernel⟩
theorem witness_block : ∃ e, convertSpec (.cvtb (.reg 119) (.reg 2) 0 true) = some e ∧ e.able st0 ∧ e.clean st0 ∧ e.untrapped st0 :=
  ⟨_, rfl, by dsimp only [cvtbOp]; decide +kernel, by unfold RegOp.clean; decide +kernel, by unfold RegOp.untrapped; decide +kernel⟩
theorem witness_shuffle : ∃ e, shuffleSpec (.shfldn (.reg 118) (.reg 118) (.reg 119) true) = some e ∧ e.able st0 ∧ e.clean st0 ∧ e.untrapped st0 :=
  ⟨_, rfl, trivial, by unfold RegOp.clean; decide +kernel, by unfold RegOp.untrapped; decide +kernel⟩
theorem witness_vote : ∃ e, voteSpec (.vmatch (.reg 118) (.reg 2) (.reg 119)) = some e ∧ e.able st0 ∧ e.clean st0 ∧ e.untrapped st0 :=
  ⟨_, rfl, trivial, by unfold RegOp.clean; decide +kernel, by unfold RegOp.untrapped; decide +kernel⟩
theorem witness_tree : ∃ e, treeSpec (.xscan (.reg 119) (.reg 2) .addF32) = some e ∧ e.able st0 ∧ e.clean st0 ∧ e.untrapped st0 :=
  ⟨_, rfl, trivial, by unfold RegOp.clean; decide +kernel, by unfold RegOp.untrapped; decide +kernel⟩
/-- RegisterInstructionsTrap: lane 15 reads an error. -/
theorem witness_poisoned : let s := withG (fun h => { h with regPoison := [(regKey 119 15, true)] })
    ∃ e, regSpec (.mov (.reg 0) (.reg 119) false) = some e ∧ e.able s ∧ 15 ∈ activeLanes s.g ∧ 119 ∈ e.reads ∧ smGet false s.g.regPoison (regKey 119 15) = true :=
  ⟨_, rfl, trivial, by decide +kernel, by decide +kernel, by decide +kernel⟩
/-- RegisterInstructionsTrap: infinity less infinity is invalid, and the flag is enabled. -/
theorem witness_flag_trap : let s := withG (fun h => { h with ctx := { h.ctx with kernel := { h.ctx.kernel with fptrap := 31 } } })
    ∃ e, regSpec (.subF (.reg 0) (.lit32 0x7F800000) (.lit32 0x7F800000) .f32 .rne) = some e ∧ e.able s ∧ e.clean s ∧ ¬ e.untrapped s :=
  ⟨_, rfl, trivial, by unfold RegOp.clean; decide +kernel, by unfold RegOp.untrapped; decide +kernel⟩

/-- A tester request of the group is to write v118 and v119. -/
def pairReq : TrvReq := { id := 3, group := 1, launch := 2, region := 0, tri := false, lane := 15, d := .reg 118, ray := [], addr := 0x8000, first := 3, pos := 0x1000, off := 1 }
/-- RegisterInstructionsTrap: the same while a tester request is to write the trap's pair. -/
theorem witness_flag_waits : let s := { withG (fun h => { h with ctx := { h.ctx with kernel := { h.ctx.kernel with fptrap := 31 } } }) with trvs := [pairReq] }
    ∃ e, regSpec (.subF (.reg 0) (.lit32 0x7F800000) (.lit32 0x7F800000) .f32 .rne) = some e ∧ e.able s ∧ e.clean s ∧ ¬ e.untrapped s ∧ trapWaits s = true :=
  ⟨_, rfl, trivial, by unfold RegOp.clean; decide +kernel, by unfold RegOp.untrapped; decide +kernel, by decide +kernel⟩

-- memory instructions

theorem on_two {α : Type} {p : α → Prop} {a b : α} (h : p a) (k : p b) : ∀ v ∈ [a, b], p v := by
  intro v hv
  simp only [List.mem_cons, List.not_mem_nil, or_false] at hv
  rcases hv with rfl | rfl
  · exact h
  · exact k
/-- LoadsComplete: global memory with ord sc at dev scope. -/
theorem witness_load : ∃ e, loadSpec (.ld (.reg 118) (.reg 2) .b8 .sc .dev .g) = some e ∧ readsClean st0 (srcRegs e.a (addrWords e.sp)) (activeLanes st0.g) ∧
    unheld st0 (accessIvs e.sp e.n false (laneAddrs st0.g e.a e.sp)) ∧ (∀ v ∈ [st0, before st0 e.o e.sc], accessOk v e.sp e.n e.n .r (laneAddrs st0.g e.a e.sp)) ∧ orderable st0 e.o e.sc ∧
    ∀ l ∈ activeLanes st0.g, loadLane (before st0 e.o e.sc) (bypasses e.o e.sc) e.sp e.n l (laneAddr st0.g e.a e.sp l) = some (List.replicate 8 0) :=
  ⟨_, rfl, by unfold readsClean; decide +kernel, unheld_free (by decide +kernel) rfl, on_two (access_ok (by decide +kernel)) (access_ok (by decide +kernel)), by unfold orderable; decide +kernel, by decide +kernel⟩
/-- LoadsComplete: the last word of region memory. -/
theorem witness_load_region : ∃ e, loadSpec (.ldSigned (.reg 119) (.lit32 1022) true .rlx .grp .rg) = some e ∧ readsClean st0 (srcRegs e.a (addrWords e.sp)) (activeLanes st0.g) ∧
    unheld st0 (accessIvs e.sp e.n false (laneAddrs st0.g e.a e.sp)) ∧ (∀ v ∈ [st0, before st0 e.o e.sc], accessOk v e.sp e.n e.n .r (laneAddrs st0.g e.a e.sp)) ∧ orderable st0 e.o e.sc ∧
    ∀ l ∈ activeLanes st0.g, loadLane (before st0 e.o e.sc) (bypasses e.o e.sc) e.sp e.n l (laneAddr st0.g e.a e.sp l) = some [0, 0] :=
  ⟨_, rfl, by unfold readsClean; decide +kernel, unheld_free (by decide +kernel) rfl, on_two (access_ok (by decide +kernel)) (access_ok (by decide +kernel)), by unfold orderable; decide +kernel, by decide +kernel⟩
/-- MemoryEventsComplete: a load, and stores to a scratchpad, to the chip scratchpad and to memory. -/
def stored (sp : Space) : StEntry := { lane := 15, sp := sp, addr := 1020, va := 1020, key := 0, df := false, data := [1, 2, 3, 4], all := false }
theorem witness_return : (withG (fun h => { h with loads := [{ writes := [(regKey 119 15, 5)], holds := [119] }] })).g.loads = { writes := [(regKey 119 15, 5)], holds := [119] } :: [] := rfl
/-- MemoryEventsComplete: the instruction at the group's position waits for that load alone. -/
theorem witness_return_wait : let s := withG (fun h => { h with loads := [{ writes := [(regKey 2 15, 5)], holds := [2] }], clause := [0xB1400200, 0x7A041241] })
    s.g.phase = .issue ∧ registerWait s s.g = true ∧ registerWait s { s.g with loads := [] } = false := by decide +kernel
theorem witness_drain : let s := withG (fun h => { h with stq := [stored .s, stored .g] })
    s.g.stq = stored .s :: [stored .g] ∧ (stored .s).sp = (if false then .rg else .s) ∧ (getTeam s s.g.team).isSome = true := by decide +kernel
theorem witness_drain_region : let s := withG (fun h => { h with stq := [stored .rg] })
    s.g.stq = stored .rg :: [] ∧ (stored .rg).sp = (if true then .rg else .s) ∧ (getTeam s s.g.team).isSome = true := by decide +kernel
theorem witness_drain_chip : let s := withG (fun h => { h with stq := [stored .c] })
    s.g.stq = stored .c :: [] ∧ (stored .c).sp = .c ∧ s.g.ctx.fn < s.fns.length := by decide +kernel
theorem witness_drain_memory : let s := withG (fun h => { h with stq := [stored .g] })
    let t := { s with l1 := [{ core := 0, sec := 31, data := List.replicate 32 7, dirty := List.replicate 32 false, valid := true, key := 0 }] }
    t.g.stq = stored .g :: [] ∧ (stored .g).df = false ∧ l1Whole t ∧ l1Quiet t t.g.core (stored .g).key (stored .g).addr (stored .g).data.length := by
  unfold l1Whole l1Quiet; decide +kernel
/-- StoresComplete: 32 bytes to private memory, in two parts, with ord rel. -/
theorem witness_store : 32 = 2 ^ encSz .b32 ∧ readsClean st0 (srcRegs (.reg 112) ((32 + 3) / 4) ++ srcRegs (.lit32 32) (addrWords .p)) (activeLanes st0.g) ∧
    unheld st0 (accessIvs .p 32 true (laneAddrs st0.g (.lit32 32) .p)) ∧ (∀ v ∈ [st0, before st0 .rel .sys], accessOk v .p 32 32 .w (laneAddrs st0.g (.lit32 32) .p)) ∧ orderable st0 .rel .sys :=
  ⟨rfl, by unfold readsClean; decide +kernel, unheld_free (by decide +kernel) rfl, on_two (access_ok (by decide +kernel)) (access_ok (by decide +kernel)), by unfold orderable; decide +kernel⟩
/-- TransfersComplete: 32 registers from unit 3 on. -/
theorem witness_transfer : let s := withG (fun h => { h with p := 24 })
    s.g.p = 8 * 3 ∧ s.g.preempt = false ∧ s.agenda = [] ∧ readsClean s (srcRegs (.reg 2) (addrWords .g)) (activeLanes s.g) ∧ unheld s (accessIvs .g (4 * 32) false (laneAddrs s.g (.reg 2) .g)) ∧
      ∀ u < 4, 3 ≤ u → 8 * u < 32 → unitCheck s true .g (8 * u) (min 8 (32 - 8 * u)) (laneAddrs s.g (.reg 2) .g) = none :=
  ⟨rfl, rfl, rfl, by unfold readsClean; decide +kernel, unheld_free (by decide +kernel) rfl, by decide +kernel⟩
theorem witness_transfer_store : let s := withG (fun h => { h with p := 0 })
    s.g.p = 8 * 0 ∧ s.g.preempt = false ∧ s.agenda = [] ∧ readsClean s (srcRegs .zero (addrWords .p) ++ dstRegs (.reg 111) 9) (activeLanes s.g) ∧
      unheld s (accessIvs .p (4 * 9) true (laneAddrs s.g .zero .p)) ∧ ∀ u < 2, 0 ≤ u → 8 * u < 9 → unitCheck s false .p (8 * u) (min 8 (9 - 8 * u)) (laneAddrs s.g .zero .p) = none :=
  ⟨rfl, rfl, rfl, by unfold readsClean; decide +kernel, unheld_free (by decide +kernel) rfl, by decide +kernel⟩
/-- TagOperationsComplete: two words apart, full. -/
def taggedSram : Sram := { bytes := [(64, 9)], full := [(16, true), (32, true)] }
def stTag (full : Bool) : State := { st0 with teams := [{ team0 with scratch := [(0, if full then taggedSram else {})] }] }
theorem witness_tag_full : let s := stTag true
    let s' := tagState s .ldfe (.reg 2) .acq .team .s
    TagReady s .ldfe (.reg 2) .acq .team false .s ∧ (∀ l ∈ activeLanes s.g, tagFull (sramOf s' s.g false) (4 * (laneAddr s.g (.reg 2) .s l / 4)) = true) ∧
      ∀ l ∈ activeLanes s.g, ∀ j ∈ activeLanes s.g, laneAddr s.g (.reg 2) .s l / 4 = laneAddr s.g (.reg 2) .s j / 4 → l = j :=
  ⟨⟨rfl, rfl, by decide +kernel, by unfold readsClean; decide +kernel, unheld_free (by decide +kernel) rfl, access_ok (by decide +kernel), by unfold orderable; decide +kernel, by decide +kernel⟩,
    by decide +kernel, by decide +kernel⟩
theorem witness_tag_empty : let s := stTag false
    let s' := tagState s .stef (.reg 2) .rel .sys .s
    TagReady s .stef (.reg 2) .rel .sys false .s ∧ readsClean s (srcRegs (.reg 119) 1) (activeLanes s.g) ∧
      ∀ l ∈ activeLanes s.g, tagFull (sramOf s' s.g false) (4 * (laneAddr s.g (.reg 2) .s l / 4)) = false :=
  ⟨⟨rfl, rfl, by decide +kernel, by unfold readsClean; decide +kernel, unheld_free (by decide +kernel) rfl, access_ok (by decide +kernel), by unfold orderable; decide +kernel, by decide +kernel⟩,
    by unfold readsClean; decide +kernel, by decide +kernel⟩
/-- TagOperationsComplete: lane 15 waits for a word that is empty. -/
theorem witness_tag_stalls : let s := stTag false
    let s' := tagState s .ldf (.reg 2) .rlx .core .s
    TagReady s .ldf (.reg 2) .rlx .core false .s ∧ 15 ∈ activeLanes s.g ∧ tagFull (sramOf s' s.g false) (4 * (laneAddr s.g (.reg 2) .s 15 / 4)) = decide (TagOp.ldf = .stef) :=
  ⟨⟨rfl, rfl, by decide +kernel, by unfold readsClean; decide +kernel, unheld_free (by decide +kernel) rfl, access_ok (by decide +kernel), by unfold orderable; decide +kernel, by decide +kernel⟩,
    by decide +kernel, by decide +kernel⟩
theorem witness_tag_set : let s := stTag true
    readsClean s (srcRegs (.reg 2) 1) (activeLanes s.g) ∧ (getTeam s s.g.team).isSome = true ∧ accessOk s .rg 4 4 .w (laneAddrs s.g (.reg 2) .rg) ∧ accessOk s .rg 4 4 .r (laneAddrs s.g (.reg 2) .rg) :=
  ⟨by unfold readsClean; decide +kernel, by decide +kernel, access_ok (by decide +kernel), access_ok (by decide +kernel)⟩
theorem performs_two (e : AtomicOp) (s : State) (l j : Nat × Nat) (h1 : s.g.m.getLsbD l.1 = false) (y1 : Nat) (v1 : State)
    (a1 : atomicPlace s e.sp l.2 e.n (fun z => e.new s.g l.1 (BitVec.ofNat 64 z)) = .ok (y1, v1)) (b1 : y1 < 2 ^ (8 * e.n))
    (w : State) (hw : w = { v1 with g := { writeDst v1.g e.t l.1 (e.back (BitVec.ofNat 64 y1)) with m := v1.g.m ||| (1#64 <<< l.1) } })
    (h2 : w.g.m.getLsbD j.1 = false) (y2 : Nat) (v2 : State)
    (a2 : atomicPlace w e.sp j.2 e.n (fun z => e.new w.g j.1 (BitVec.ofNat 64 z)) = .ok (y2, v2)) (b2 : y2 < 2 ^ (8 * e.n)) (hs : e.sp ≠ .g) : ∃ u, e.performs [l, j] s u := by
  refine ⟨{ v2 with g := { writeDst v2.g e.t j.1 (e.back (BitVec.ofNat 64 y2)) with m := v2.g.m ||| (1#64 <<< j.1) } }, ?_⟩
  unfold AtomicOp.performs
  rw [if_neg (by rw [h1]; decide)]
  refine ⟨y1, v1, b1, fun h => absurd h hs, a1, ?_⟩
  rw [← hw]
  unfold AtomicOp.performs
  rw [if_neg (by rw [h2]; decide)]
  exact ⟨y2, v2, b2, fun h => absurd h hs, a2, rfl⟩
/-- AtomicsComplete: each lane performs in a scratchpad. -/
theorem witness_atomic : ∃ e u, atomicSpec (.atcas (.reg 116) (.reg 2) true .rel .core .s) = some e ∧ readsClean st0 (srcRegs e.a (addrWords e.sp) ++ dstRegs e.t e.reads) (lanesLeft st0.g) ∧
    unheld st0 (accessIvs e.sp e.n true (addrsLeft st0.g e.a e.sp)) ∧ (∀ v ∈ [st0, drainStq (before st0 e.o e.sc)], accessOk v e.sp e.n e.n .rw (addrsLeft st0.g e.a e.sp)) ∧ orderable st0 e.o e.sc ∧ e.performs (addrsLeft st0.g e.a e.sp) (drainStq (before st0 e.o e.sc)) u := by
  obtain ⟨u, hu⟩ := performs_two (casOp (.reg 116) (.reg 2) true .rel .core .s) (drainStq (before st0 .rel .core)) (0, 64) (15, 128) (by decide +kernel) 0 _ rfl (by decide) _ rfl (by decide +kernel) 0 _ rfl (by decide) (by decide)
  have h : addrsLeft st0.g (.reg 2) .s = [(0, 64), (15, 128)] := by decide +kernel
  exact ⟨_, u, rfl, by unfold readsClean; decide +kernel, unheld_free (by decide +kernel) rfl, on_two (access_ok (by decide +kernel)) (access_ok (by decide +kernel)), by unfold orderable; decide +kernel, h ▸ hu⟩
/-- AtomicsComplete: global memory that is no host page. -/
theorem witness_atomic_global : ∀ l ∈ lanesLeft st0.g, hostPage st0 (laneAddr st0.g (.reg 2) .g l) = false := by decide +kernel
/-- AtomicsComplete: a place in region memory with no error, and one with an error. -/
theorem witness_place : (getTeam st0 st0.g.team).isSome = true ∧ (∀ y : Nat, ((fun y : Nat => natLe 4 (y + 1)) y).length = 4) ∧ sramPoisoned (sramOf st0 st0.g true) 1020 4 = false :=
  ⟨by decide +kernel, fun _ => rfl, by decide +kernel⟩
theorem witness_place_poisoned : let s := { st0 with teams := [{ team0 with rg := { poison := [(255, true)] } }] }
    (getTeam s s.g.team).isSome = true ∧ sramPoisoned (sramOf s s.g true) 1020 4 = true := by decide +kernel
/-- FenceCompletes: with no load, waiting for one, and for a remote write of the group. -/
theorem witness_fence_remote : ∃ c ∈ ({ st0 with copies := [{ (default : Copy) with kind := .cpyr, group := some 1, awaiting := true }] } : State).copies, c.group = some st0.g.id ∧ c.awaiting = true := by
  decide +kernel
theorem witness_fence : st0.g.loads = [] ∧ (∃ x ∈ ({ st0 with l1 := [{ core := 0, sec := 31, data := List.replicate 32 7, dirty := List.replicate 32 true, valid := true, key := 0 }] } : State).l1, x.core = st0.g.core ∧ covered .dev x.sec = true) ∧ st0.copies = [] ∧ (MOrd.acq ≠ .rel ∧ (withG (fun h => { h with loads := [{ writes := [], holds := [] }] })).g.loads ≠ []) := by decide +kernel
/-- FenceCompletes: the last byte of a dirty sector. -/
theorem witness_fence_dirty : let s : State := { st0 with l1 := [{ core := 0, sec := 31, data := List.replicate 32 7, dirty := List.replicate 31 false ++ [true], valid := true, key := 511 }] }
    ∃ x ∈ (drainStq s).l1, x.core = s.g.core ∧ covered .team x.sec = true ∧ (∀ y ∈ (drainStq s).l1, y.core = x.core → y.sec = x.sec → y = x) ∧ x.dirty.getD 31 false = true ∧ x.dirty.getD 30 false = false := by decide +kernel
/-- AddressChecksTrap: each check by the first address that fails it. -/
theorem witness_misaligned : [(0, 64), (15, 1023)].filter (fun x : Nat × Nat => x.2 % 2 ≠ 0) = (15, 1023) :: [] := by decide
theorem witness_address_range : (∀ x ∈ [(0, 64), (15, 2251799813685248)], x.2 % 4 = 0) ∧ [(0, 64), (15, 2251799813685248)].filter (fun x : Nat × Nat => 2251799813685248 ≤ x.2) = (15, 2251799813685248) :: [] := by decide
theorem witness_untranslated : let s := { st0 with tlb := [{ fn := 0, base := 0, size := 32768, leaf := leaf0 }] }
    (∀ y ∈ [(0, 64), (15, 2251799813685247)], y.2 % 1 = 0 ∧ y.2 < 2251799813685248) ∧
      [(0, 64), (15, 2251799813685247)].filter (fun y => !(translate s s.g.ctx.fn y.2 .r).toBool) = (15, 2251799813685247) :: [] ∧ translate s s.g.ctx.fn 2251799813685247 .r = .error ⟨4, 1⟩ := by decide +kernel
theorem witness_extent : (∀ x ∈ [(0, 1020), (15, 1024)], x.2 % 4 = 0) ∧ (Space.rg ≠ .g) ∧ [(0, 1020), (15, 1024)].filter (fun x => extent st0 .rg < x.2 + 4) = (15, 1024) :: [] := by decide +kernel
theorem witness_trapped_access : readsClean st0 (srcRegs (.lit32 1) (addrWords .s)) (activeLanes st0.g) ∧ unheld st0 (accessIvs .s (2 ^ encSz .b4) false (laneAddrs st0.g (.lit32 1) .s)) ∧
    accessCheck st0 .s (2 ^ encSz .b4) (2 ^ encSz .b4) .r (laneAddrs st0.g (.lit32 1) .s) = some { code := 3, addr := 1, lanes := 0x8001 } :=
  ⟨by unfold readsClean; decide +kernel, unheld_free (by decide +kernel) rfl, by decide +kernel⟩
theorem witness_trapped_store : readsClean st0 (srcRegs .zero ((2 ^ encSz .b4 + 3) / 4) ++ srcRegs (.lit32 1024) (addrWords .s)) (activeLanes st0.g) ∧
    unheld st0 (accessIvs .s (2 ^ encSz .b4) true (laneAddrs st0.g (.lit32 1024) .s)) ∧
    accessCheck st0 .s (2 ^ encSz .b4) (2 ^ encSz .b4) .w (laneAddrs st0.g (.lit32 1024) .s) = some { code := 7, addr := 1024, lanes := 0x8001 } :=
  ⟨by unfold readsClean; decide +kernel, unheld_free (by decide +kernel) rfl, by decide +kernel⟩

-- control (14)

/-- BranchesComplete: the highest condition register, from lane 0. -/
theorem witness_branch : readsClean st0 [15] [firstLane st0.g] ∧ st0.g.pos < 2251799813685248 ∧ 0 ≤ (st0.g.pos : Int) + 4 * (-1024#21).toInt := by unfold readsClean; decide +kernel
def rcKept (n : Nat) : List RcEntry := List.replicate n { mask := 0xFFFF, target := 0x1800, deferred := false }
def stRc (n : Nat) : State := withG (fun h => { h with rc := rcKept n })
theorem witness_call : (stRc 31).g.rc.length < 32 := by decide +kernel
/-- BranchesComplete: the stack on chip is full, with no block left, with one, and with one that does not translate. -/
def stSpill (blocks : Nat) (mapped : Bool) : State := let s := withG (fun h => { h with rc := rcKept 32, rcblocks := blocks }); if mapped then s else { s with tlb := [] }
theorem witness_call_full : let s := stSpill 1 true
    32 ≤ s.g.rc.length ∧ s.g.ctx.kernel.divblocks ≤ s.g.rcblocks := by decide +kernel
theorem witness_call_spill : let s := stSpill 0 true
    ∃ t, 32 ≤ s.g.rc.length ∧ s.g.rcblocks < s.g.ctx.kernel.divblocks ∧ spillWrite s 0 true (spillBase s.g + 512 * s.g.rcblocks) (s.g.rc.reverse.map rcBytes).flatten = (t, none) :=
  ⟨_, by decide +kernel, by decide +kernel, pair_of (spill_ok _ _ _ _ (List.all_eq_true.mp (by decide +kernel)))⟩
theorem witness_call_spill_error : let s := stSpill 0 false
    32 ≤ s.g.rc.length ∧ s.g.rcblocks < s.g.ctx.kernel.divblocks ∧ ∃ t x a, spillWrite s 0 true (spillBase s.g + 512 * s.g.rcblocks) (s.g.rc.reverse.map rcBytes).flatten = (t, some (x, a)) :=
  ⟨by decide +kernel, by decide +kernel, fails_of (by decide +kernel)⟩
theorem witness_return_pop : let s := stRc 1
    s.g.rc = { mask := 0xFFFF, target := 0x1800, deferred := false } :: [] ∧ s.g.rcblocks = 0 ∧ (0xFFFF#64) &&& liveMask s.g ≠ 0 := by decide +kernel
theorem witness_return_empty : st0.g.rc = [] := rfl
/-- BranchesComplete: the entry popped holds no live lane, above another and alone. -/
theorem witness_return_dead : (2#64) &&& liveMask st0.g = 0 ∧ (withG (fun h => { h with rc := { mask := 2, target := 0x1800, deferred := false } :: rcKept 1 })).g.rc = { mask := 2, target := 0x1800, deferred := false } :: rcKept 1 ∧
    (∀ x ∈ (rcKept 1).head?, x.deferred = false) ∧ st0.g.rcblocks = 0 := by decide +kernel
/-- BranchesComplete: a deferred entry comes to the top, of a clause whose last two words are a JOIN and a DBRT. -/
def stExposed : State :=
  { withG (fun h => { h with rc := [{ mask := 1, target := 0x1800, deferred := false }, { mask := 0xFFFF, target := 0x1400, deferred := true }] }) with mem := smSetMany 0 [] 0x1400 (bytesOfWords [0xB2A00400, 0xDE000003, 0xE0000005]) }
def stPopped : State := icacheDrop { stExposed with
  g := transfer { stExposed.g with rc := [{ mask := 0xFFFF, target := 0x1400, deferred := true }], rcblocks := stExposed.g.rcblocks, active := (1#64) &&& liveMask stExposed.g } 0x1800 } stExposed.g.core
theorem witness_return_exposes : (1#64) &&& liveMask stExposed.g ≠ 0 ∧ ∃ t c, readClause stPopped 0x1400 = .ok (t, c) ∧ clauseJoin 0x1400 c = some (0x140C, 0x140C) := by
  have h : ((readClause stPopped 0x1400).toOption.map (fun r => clauseJoin 0x1400 r.2)) = some (some (0x140C, 0x140C)) := by decide +kernel
  refine ⟨by decide +kernel, ?_⟩
  generalize readClause stPopped 0x1400 = x at h
  cases x with
  | error _ => cases h
  | ok r => exact ⟨r.1, r.2, rfl, Option.some.inj h⟩
/-- BranchesComplete: the last entry on chip above a block of zeros in the spill area, which reads or does not translate. -/
def stFill (mapped : Bool) : State :=
  let s := withG (fun h => { h with rc := rcKept 1, rcblocks := 1 })
  { s with tlb := if mapped then s.tlb else [] }
theorem witness_return_fill : let s := stFill true
    s.g.rcblocks = 0 + 1 ∧ spillRead s (firstLane s.g) (spillBase s.g + 512 * 0) 512 = .ok (List.replicate 512 0) := ⟨rfl, by decide +kernel⟩
theorem witness_return_fill_live : (((List.range 32).map (fun i => rcOf (((List.replicate 512 0).drop (16 * i)).take 16))).reverse).head?.all (fun x => !x.deferred) = true ∧ (0xFFFF#64) &&& liveMask (stFill true).g ≠ 0 := by
  decide +kernel
/-- BranchesComplete: a block whose top entry is deferred, over that clause, in the spill area. -/
def stFillDeferred : State :=
  { withG (fun h => { h with rc := [{ mask := 2, target := 0x1800, deferred := false }], rcblocks := 1 }) with
    mem := smSetMany 0 (smSetMany 0 [] 0x1400 (bytesOfWords [0xB2A00400, 0xDE000003, 0xE0000005])) (spillBase st0.g + 496) (rcBytes { mask := 0xFFFF, target := 0x1400, deferred := true }) }
def fillBlock : List Byte := List.replicate 496 0 ++ rcBytes { mask := 0xFFFF, target := 0x1400, deferred := true }
theorem witness_return_fill_deferred : let s := stFillDeferred
    s.g.rcblocks = 0 + 1 ∧ spillRead s (firstLane s.g) (spillBase s.g + 512 * 0) 512 = .ok fillBlock ∧
      (((List.range 32).map (fun i => rcOf ((fillBlock.drop (16 * i)).take 16))).reverse).head? = some { mask := 0xFFFF, target := 0x1400, deferred := true } ∧ (2#64) &&& liveMask s.g = 0 := by
  decide +kernel
theorem witness_return_fill_error : let s := stFill false
    s.g.rcblocks = 0 + 1 ∧ ∃ x a, spillRead s (firstLane s.g) (spillBase s.g + 512 * 0) 512 = .error (x, a) := ⟨rfl, err_of (by decide +kernel)⟩
/-- BranchesComplete: a position past the last address. -/
theorem witness_branch_far : let s := withG (fun h => { h with phase := .fetch, off := 0, clause := [], pos := 2251799813685248 })
    s.g.phase = .fetch ∧ s.g.hollow = false ∧ atJoin s.g = false ∧ 2251799813685248 ≤ s.g.pos := by decide +kernel
theorem witness_return_deferred : ∃ e rest, (withG (fun h => { h with rc := [{ mask := 1, target := 0x1800, deferred := true }] })).g.rc = e :: rest ∧ e.deferred = true := ⟨_, _, rfl, rfl⟩
theorem witness_breakpoint : afterBody st0.g < 2251799813685248 := by decide +kernel
/-- DivergenceCompletes: no lane takes the branch, every lane does, lane 15 alone does. -/
theorem witness_divergence_none : readsClean st0 [0] (activeLanes st0.g) ∧ ∀ l ∈ activeLanes st0.g, ¬ (gReg st0.g 0 l).getLsbD 0 = true := by unfold readsClean; decide +kernel
theorem witness_divergence_all : readsClean st0 [0] (activeLanes st0.g) ∧ activeLanes st0.g ≠ [] ∧ st0.g.active &&& ~~~ fullMask (width st0.g) = 0 ∧ ∀ l ∈ activeLanes st0.g, (gReg st0.g 0 l).getLsbD 0 = false := by
  unfold readsClean; decide +kernel
theorem witness_divergence_split : let s := withG (fun h => { h with regs := [(regKey 15 15, 1)], rc := rcKept 31 })
    let t := maskOf ((activeLanes s.g).filter (fun l => decide ((gReg s.g 15 l).getLsbD 0 = true)))
    readsClean s [15] (activeLanes s.g) ∧ t ≠ 0 ∧ s.g.active &&& ~~~ t ≠ 0 ∧ s.g.rc.length < 32 := by unfold readsClean; decide +kernel
/-- DivergenceCompletes: no block is left, one is, and one that does not translate; lane 15 alone takes the branch. -/
theorem witness_divergence_full : ∀ b ∈ [0, 1], let s := { stSpill b true with g := { (stSpill b true).g with regs := [(regKey 15 15, 1)] } }
    readsClean s [15] (activeLanes s.g) ∧ maskOf ((activeLanes s.g).filter (fun l => decide ((gReg s.g 15 l).getLsbD 0 = true))) = 0x8000 ∧ s.g.active &&& ~~~ (0x8000#64) ≠ 0 ∧ 32 ≤ s.g.rc.length ∧
      (if b = 1 then s.g.ctx.kernel.divblocks ≤ s.g.rcblocks else s.g.rcblocks < s.g.ctx.kernel.divblocks) := by unfold readsClean; decide +kernel
/-- ExitCompletes: a store waited for, an owed trap, a join to go to, and the end of the slot. -/
def owed0 : Owed := { code := 4, unit := 5, pos := 0x1000, off := 1, addr := 0x5000, lanes := 1, done := 0, detail := 1, more := 0, remote := false, seq := 3 }
theorem witness_exit_waits : exitWaits (withG (fun h => { h with stq := [stored .g] })) = true := by decide +kernel
theorem witness_exit_owed : let s := withG (fun h => { h with owed := [(19, owed0)] })
    exitWaits s = false ∧ owedServed s.g slotsAll = some (19, owed0) := by decide +kernel
theorem witness_exit_join : let s := stRc 1
    exitWaits s = false ∧ s.g.owed = [] ∧ s.inserts = [] ∧ s.g.ctx.frag = false ∧ s.g.rc = { mask := 0xFFFF, target := 0x1800, deferred := false } :: [] := by decide +kernel
theorem witness_exit_slot : exitWaits st0 = false ∧ st0.g.owed = [] ∧ st0.inserts = [] ∧ st0.g.ctx.frag = false ∧ st0.g.rc = [] ∧ st0.windows = [] ∧ st0.g.ctx.repl = false ∧
    ∀ x ∈ st0.launches, x.nextTeam < x.ctx.lrec.teams := by decide +kernel
/-- TrapReturnCompletes: outside the handler, and inside it with a record in memory. -/
theorem witness_rett_outside : st0.g.hnd = false := rfl
def stHandler : State := { withG (fun h => { h with hnd := true, trec := 0x106000, pos := 0x2000 }) with mem := [(0x106000, 0x04), (0x106001, 0x10), (0x106020, 0x01), (0x106021, 0x80), (0x106080, 9)] }
theorem witness_rett : let s := stHandler
    let v : State := { drainStq s with g := returnLoads (drainStq s).g }
    ∃ b, s.g.hnd = true ∧ pairInFlight s = false ∧ s.inserts = [] ∧ coreRead v s.g.trec (128 + 8 * width s.g) = .ok b ∧ (readRecord b).depth = rcDepth s.g ∧ (readRecord b).roff = 0 ∧
      (readRecord b).rpos = 0x1004 ∧ ∀ e ∈ s.g.rc.head?, e.deferred = false := by
  refine ⟨(coreRead stHandler 0x106000 256).toOption.getD [], ?_⟩
  decide +kernel
theorem witness_rett_depth : let s := { stHandler with g := { stHandler.g with rc := rcKept 1 } }
    let v : State := { drainStq s with g := returnLoads (drainStq s).g }
    ∃ b, s.g.hnd = true ∧ pairInFlight s = false ∧ coreRead v s.g.trec (128 + 8 * width s.g) = .ok b ∧ (readRecord b).depth ≠ rcDepth s.g := by
  refine ⟨(coreRead stHandler 0x106000 256).toOption.getD [], ?_⟩
  decide +kernel
theorem witness_rett_pair : let s := { stHandler with trvs := [pairReq] }
    s.g.hnd = true ∧ pairInFlight s = true := by decide +kernel

-- barriers and objects (14)

theorem witness_bar_grp : liveMask st0.g &&& ~~~ st0.g.active ≠ 0 ∧ liveMask (withG (fun h => { h with exited := 0x7FFE })).g &&& ~~~ st0.g.active = 0 := by decide +kernel
/-- BarriersComplete: the last of three, one ended and one arrived; and the first of them. -/
def team3 (arrived ended : BitVec 16) : Team := { team0 with size := 3, bars := List.replicate 15 {} ++ [{ phase := 4, arrived := arrived }], ended := ended }
def stBar (arrived ended : BitVec 16) (arv : BitVec 16) : State :=
  { withG (fun h => { h with ginteam := 2, arv := arv, phases := List.replicate 15 0 ++ [3] }) with teams := [team3 arrived ended] }
theorem witness_bar_last : let s := stBar 1 2 0
    getTeam s s.g.team = some (team3 1 2) ∧ 15 < (team3 1 2).bars.length ∧ s.g.ginteam < (team3 1 2).size ∧ (team3 1 2).size ≤ 16 ∧ s.g.arv.getLsbD 15 = false ∧ s.g.waiting = .no ∧
      othersArrived (team3 1 2) ((team3 1 2).bars.getD 15 {}) s.g.ginteam := by unfold othersArrived; decide +kernel
theorem witness_bar_first : let s := stBar 0 0 0
    getTeam s s.g.team = some (team3 0 0) ∧ s.g.ginteam < (team3 0 0).size ∧ s.g.arv.getLsbD 15 = false ∧ s.g.waiting = .no ∧ ¬ othersArrived (team3 0 0) ((team3 0 0).bars.getD 15 {}) s.g.ginteam := by
  unfold othersArrived; decide +kernel
theorem witness_bar_waiting : let s := { stBar 4 0 0 with g := { (stBar 4 0 0).g with waiting := .barTeam 15 4 } }
    getTeam s s.g.team = some (team3 4 0) ∧ s.g.waiting = .barTeam 15 4 := by decide +kernel
theorem witness_bar_open : let s := stBar 4 0 0x8000
    getTeam s s.g.team = some (team3 4 0) ∧ s.g.arv.getLsbD 15 = true ∧ s.g.waiting = .no := by decide +kernel
/-- SemaphoresComplete: the whole value is taken; too little stands, and another waits already; a release under a waiter. -/
def sem (v : Nat) (w : List (Nat × Nat)) : Obj := { fn := 0, num := 16777215, barrier := false, value := v, count := 0, arrived := 0, waiters := w, corrupt := false }
def stSem (v : Nat) (w : List (Nat × Nat)) : State := { st0 with objs := [sem v w] }
theorem witness_semaphore : let s := stSem 5 []
    readsClean s (srcRegs (.lit32 16777215) 1 ++ srcRegs (.reg 2) 1) [firstLane s.g] ∧ HasObj s (sem 5 []) ∧ syncArg s.g (.lit32 16777215) = 16777215 ∧ syncArg s.g (.lit32 5) = 5 ∧ 5 ≤ (sem 5 []).value ∧
      s.g.waiting = .no ∧ s.g.preempt = false := by unfold readsClean HasObj; decide +kernel
theorem witness_semaphore_wait : let s := stSem 4 []
    HasObj s (sem 4 []) ∧ s.g.waiting = .no ∧ (sem 4 []).value < 5 := by unfold HasObj; decide +kernel
theorem witness_semaphore_behind : let s := stSem 4 [(7, 6)]
    HasObj s (sem 4 [(7, 6)]) ∧ (∀ w ∈ (sem 4 [(7, 6)]).waiters.head?, preempted s w.1 = false ∧ (sem 4 [(7, 6)]).value < w.2) ∧
      ∀ w ∈ (sem 4 [(7, 6)]).waiters.head?, preempted s w.1 = false ∧ min ((sem 4 [(7, 6)]).value + 1) 4294967295 < w.2 := by
  unfold HasObj; decide +kernel
/-- SemaphoresComplete: a release that serves the head waiter exactly, another waiting behind it; and a waiting SEMACQ at the head of the line. -/
def waiter0 : Group := { grp0 with id := 7, waiting := .semaphore 16777215 (.reg 119) 2 }
theorem witness_semaphore_grant : let s := { stSem 4 [(7, 5), (8, 1)] with others := [waiter0] }
    HasObj s (sem 4 [(7, 5), (8, 1)]) ∧ waiter0 ∈ s.others ∧ getGroup s 7 = some waiter0 ∧ (∀ x ∈ s.others, x.id ≠ s.g.id) ∧ waiter0.phase = .issue ∧ waiter0.preempt = false ∧ 5 ≤ 5 ∧
      ∀ w ∈ ([(8, 1)] : List (Nat × Nat)).head?, preempted s w.1 = false ∧ 5 - 5 < w.2 := by unfold HasObj; decide +kernel
theorem witness_semaphore_granted : let s := { stSem 5 [(1, 5)] with g := { (stSem 5 [(1, 5)]).g with waiting := .semaphore 16777215 (.reg 119) 2 } }
    readsClean s (srcRegs (.lit32 16777215) 1 ++ srcRegs (.reg 2) 1) [firstLane s.g] ∧ HasObj s (sem 5 [(1, 5)]) ∧ s.g.waiting = .semaphore 16777215 (.reg 119) 2 ∧ s.g.preempt = false ∧
      (sem 5 [(1, 5)]).waiters = (s.g.id, 5) :: [] := by unfold readsClean HasObj; decide +kernel
/-- SharedBarriersComplete: the last arrival, one before it, an open arrival on the object. -/
def dbarObj (arrived : Nat) : Obj := { fn := 0, num := 5, barrier := true, value := 7, count := 3, arrived := arrived, waiters := [], corrupt := false }
def stDbar (arrived : Nat) (darv : Option (Nat × Nat)) : State := { withG (fun h => { h with darv := darv }) with objs := [dbarObj arrived] }
theorem witness_dbar : ∀ n ∈ [1, 2], let s := stDbar n none
    readsClean s (srcRegs (.lit32 5) 1) [firstLane s.g] ∧ HasObj s (dbarObj n) ∧ syncArg s.g (.lit32 5) = (dbarObj n).num ∧ s.g.waiting = .no ∧ s.g.darv = none := by unfold readsClean HasObj; decide +kernel
theorem witness_dbar_open : ∀ n ∈ [6, 7], let s := stDbar 0 (some (5, n))
    readsClean s (srcRegs (.lit32 5) 1) [firstLane s.g] ∧ HasObj s (dbarObj 0) ∧ syncArg s.g (.lit32 5) = (dbarObj 0).num ∧ s.g.darv = some ((dbarObj 0).num, n) := by unfold readsClean HasObj; decide +kernel
def rep0 (done : Bool) : RepSet := { fn := 0, gen := 9, members := [(1, 0)], arrived := [], local_ := 2, completed := done, done := [] }
def stRep (done : Bool) : State := { withG (fun h => { h with ctx := { h.ctx with repl := true, gen := 9 } }) with repsets := [rep0 done] }
theorem witness_sbar : ∀ b, let s := stRep b
    readsClean s (srcRegs (.lit32 9) 1) [firstLane s.g] ∧ s.g.waiting = .no ∧ s.g.sarv = none ∧ s.g.ctx.repl = true ∧ syncArg s.g (.lit32 9) = s.g.ctx.gen ∧ repOf s s.g.ctx.fn s.g.ctx.gen = some (rep0 b) ∧
      (rep0 b).completed = b ∧ (rep0 b).local_ + 1 < s.g.ctx.lrec.teams * s.g.ctx.kernel.team ∧ releaseReady s .sys = true := by unfold readsClean; decide +kernel
/-- SharedBarriersComplete: the last local arrival, as the last share of all and with another outstanding; and a remote write that the release waits for. -/
def repLast (arrived : List (Nat × Nat)) : RepSet :=
  { rep0 false with members := [(Config.packageNumber, 0), (Config.packageNumber + 1, 0)], arrived := arrived, local_ := 3 }
def stLast (arrived : List (Nat × Nat)) : State := { stRep false with repsets := [repLast arrived] }
theorem witness_sbar_last (arrived : List (Nat × Nat)) : let s := stLast arrived
    repOf s s.g.ctx.fn s.g.ctx.gen = some (repLast arrived) ∧ (repLast arrived).completed = false ∧ (repLast arrived).local_ + 1 = s.g.ctx.lrec.teams * s.g.ctx.kernel.team ∧ releaseReady s .sys = true :=
  ⟨rfl, rfl, rfl, rfl⟩
theorem witness_sbar_share : (∀ m ∈ (repLast [(Config.packageNumber + 1, 0)]).members, m = (Config.packageNumber, 0) ∨ m ∈ (repLast [(Config.packageNumber + 1, 0)]).arrived) ∧
    ∃ m ∈ (repLast []).members, m ≠ (Config.packageNumber, 0) ∧ m ∉ (repLast []).arrived := by
  refine ⟨?_, (Config.packageNumber + 1, 0), by simp [repLast], by simp, by simp [repLast]⟩
  simp [repLast]
theorem witness_sbar_stall : let s := { stRep false with copies := [{ (default : Copy) with kind := .cpyr, group := some 1, awaiting := true }] }
    s.g.ctx.repl = true ∧ syncArg s.g (.lit32 9) = s.g.ctx.gen ∧ releaseReady s .sys = false := by decide +kernel
theorem witness_sbar_misuse : st0.g.ctx.repl = false ∧ syncArg (stRep true).g (.lit32 8) ≠ (stRep true).g.ctx.gen := by decide +kernel
/-- BarrierMisuses: the cases that no witness above shows, and a delivered trap. -/
theorem witness_misuse : let s := stDbar 0 (some (6, 0))
    HasObj s (dbarObj 0) ∧ syncArg s.g (.lit32 5) = (dbarObj 0).num ∧ (∀ n, s.g.darv ≠ some ((dbarObj 0).num, n)) ∧ (∀ i n, s.g.waiting ≠ .dbar i n) := by
  refine ⟨by unfold HasObj; decide +kernel, by decide +kernel, fun n h => ?_, fun _ _ h => ?_⟩
  · have h1 : (6 : Nat) = 5 := congrArg Prod.fst (Option.some.inj h)
    cases h1
  · cases h
theorem witness_misuse_delivered : st0.g.hnd = false ∧ (takeTrap st0 { code := 9, detail := 6 }).g.hnd = true := by decide +kernel
/-- EnqCompletes: a card whose checksum is that of sixty zeros, for a queue with room, a full one and a stopped one. -/
def queue0 : Queue := { ring := 0x8000, lg := 4, dev := true, rd := 3, wix := 0x9000, rix := 0x9040, opened := true }
def stEnq (q : Queue) : State := { st0 with mem := [(0x5002, 0x45), (0x5003, 0xA4), (0x9000, 19)], fns := { fn0 with queues := [(255, q)] } :: List.replicate 16 {} }
theorem witness_enq : ∃ card, let s := stEnq { queue0 with rd := 4 }
    readsClean s (srcRegs (.lit32 0x5000) 2 ++ srcRegs (.reg 2) 1) [firstLane s.g] ∧ s = cleanL1 s (fun x => decide (x.core = s.g.core) && covered .dev x.sec) ∧ syncArg s.g (.lit32 255) = 255 ∧
      { queue0 with rd := 4 } = queueOf (getFn s s.g.ctx.fn) 255 ∧ queue0.opened = true ∧ queue0.dev = true ∧ (src64 s.g false (.lit32 0x5000) (firstLane s.g)).toNat % 64 = 0 ∧
      coreRead s (src64 s.g false (.lit32 0x5000) (firstLane s.g)).toNat 64 = .ok card ∧ crcOk card = true := by
  refine ⟨[0, 0, 0x45, 0xA4] ++ List.replicate 60 0, ?_⟩
  unfold readsClean; decide +kernel
theorem witness_enq_full : let s := stEnq queue0
    agentRead s s.g.ctx.fn queue0.wix 4 = .ok [19, 0, 0, 0] ∧ queueSlots queue0 ≤ (leNat [19, 0, 0, 0] + 4294967296 - queue0.rd) % 4294967296 ∧ queue0.stop = false := by decide +kernel
/-- EnqCompletes: a card is posted; a tree at its limit. -/
theorem witness_enq_room : ∃ v w, let s := stEnq { queue0 with rd := 4 }
    agentRead s s.g.ctx.fn queue0.wix 4 = .ok [19, 0, 0, 0] ∧ ¬ (queueSlots queue0 ≤ (leNat [19, 0, 0, 0] + 4294967296 - 4) % 4294967296) ∧ ((treeOf_ s 0).map (·.count)).getD 0 ≠ 4294967295 ∧
      agentWrite s s.g.ctx.fn (slotVA { queue0 with rd := 4 } 19) (natLe 2 (19 / queueSlots queue0 % 65536) ++ ([0, 0, 0x45, 0xA4] ++ List.replicate 60 0).drop 2) = .ok v ∧
      agentWrite v s.g.ctx.fn queue0.wix (natLe 4 20) = .ok w :=
  ⟨(agentWrite (stEnq { queue0 with rd := 4 }) 0 (slotVA { queue0 with rd := 4 } 19) (natLe 2 (19 / queueSlots queue0 % 65536) ++ ([0, 0, 0x45, 0xA4] ++ List.replicate 60 0).drop 2)).toOption.getD st0, _, by decide +kernel,
    by decide +kernel, by decide +kernel, by decide +kernel, (ok_of (by decide +kernel)).choose_spec⟩
theorem witness_enq_tree : let s := { stEnq { queue0 with rd := 4 } with trees := [{ id := 7, fn := 0, count := 4294967295, status := 0 }], launches := [{ launch0 with tree := 7 }] }
    ((getLaunch s s.g.ctx.launch).map (·.tree)).getD 0 = 7 ∧ ((treeOf_ s 7).map (·.count)).getD 0 = 4294967295 := by decide +kernel
theorem witness_enq_stopped : (queueOf (getFn (stEnq { queue0 with stop := true }) 0) 255).stop = true := by decide +kernel
/-- RegroupCompletes: two threads with keys in lanes 0 and 15. -/
theorem witness_regroup : let s := withG (fun h => { h with clause := [0xB1A00200, 0xF01007FF] })
    instrAt s.g = .ok (.regroup (.reg 4) 127 15) ∧ s.g.phase = .issue ∧ s.g.hollow = false ∧ s.g.stq = [] ∧ s.g.owed = [] ∧ s.trvs = [] ∧ s.handoffs = [] ∧ s.cmds = [] ∧ s.copies = [] ∧ s.windows = [] ∧
      s.g.arv = 0 ∧ s.g.rc = [] ∧ s.g.rcblocks = 0 ∧ s.g.regPoison = [] ∧ (∀ h ∈ s.others, h.core ≠ s.g.core ∧ h.id ≠ s.g.id) ∧ activeLanes s.g ≠ [] ∧ s.g.preempt = false ∧ s.g.ctx.frag = false := by decide +kernel
/-- RegroupCompletes: 33 threads of three keys for three slots of 16, where the key of one thread is mixed with one of 16. -/
theorem witness_deal : let l : List Mover := (List.range 33).map (fun i => { og := 0, ol := i, key := if i < 16 then 3 else if i < 32 then 7 else 255, regs := [], poison := false, stack := {} })
    l.length ≤ 16 * 3 ∧ (∀ m ∈ l, m.key < 256) ∧ (l.filter (fun m => decide (m.key = 255))).length = 1 := by decide +kernel
/-- RegroupCompletes: the group arrives in lanes 0 and 15, its core's other slot of the grid is hollow, and a third slot has not arrived. -/
def stWindow : State :=
  { withG (fun h => { h with clause := [0xB1A00200, 0xF01007FF], phase := .window }) with
    others := [{ grp0 with id := 5, grpix := 0, ginteam := 1, hollow := true, phase := .stopped }, { grp0 with id := 6, grpix := 2, ginteam := 2 }]
    windows := [{ core := 0, launch := 2, site := 127, opened := 0, arrivals := [1] }], dies := List.replicate 2 { cycles := 4096, clock := 19 } }
theorem witness_window_starts : let s := stWindow
    let parts : List Group := [{ grp0 with id := 5, grpix := 0, ginteam := 1, hollow := true, phase := .stopped }, s.g]
    ∃ w, s.windows = [w] ∧ w.opened + 4096 ≤ coreCycles s w.core ∧ ((allGroups s).map (·.id)).Nodup ∧ parts.Pairwise (fun h k => h.grpix < k.grpix) ∧ (∃ h ∈ parts, h.hollow = false) ∧
      (∀ h, h ∈ parts ↔ h ∈ allGroups s ∧ h.ctx.launch = w.launch ∧ h.core = w.core ∧ h.phase ≠ .none ∧ h.phase ≠ .saved ∧ h.ctx.frag = false ∧ h.preempt = false ∧
        (h.id ∈ w.arrivals ∨ (h.hollow = true ∧ h.phase ≠ .placed))) ∧ (∀ h ∈ parts, regroupFault s h = 0 ∧ width h = 16) ∧
      (∀ h ∈ parts, h.hollow = false → regroupOf h = (.reg 4, 120) ∧ afterBody h = 0x1008 ∧ h.pos + 4 * h.off = 0x1004 ∧ readsClean { s with g := h } (List.range 120 ++ dstRegs (.reg 4) 1) (activeLanes h)) := by
  intro s parts
  refine ⟨_, rfl, by decide +kernel, by decide +kernel, by decide +kernel, by decide +kernel, ?_, by decide +kernel, by unfold readsClean; decide +kernel⟩
  have h1 : ∀ h ∈ parts, h ∈ allGroups s ∧ h.ctx.launch = 2 ∧ h.core = 0 ∧ h.phase ≠ .none ∧ h.phase ≠ .saved ∧ h.ctx.frag = false ∧ h.preempt = false ∧ (h.id ∈ [1] ∨ (h.hollow = true ∧ h.phase ≠ .placed)) := by decide +kernel
  have h2 : ∀ h ∈ allGroups s, (h.id ∈ [1] ∨ (h.hollow = true ∧ h.phase ≠ .placed)) → h ∈ parts := by decide +kernel
  exact fun h => ⟨h1 h, fun k => h2 h k.1 k.2.2.2.2.2.2.2⟩
/-- RegroupCompletes: the last slot of a team of 16 arrives, where one slot has ended, one is hollow and the others have arrived. -/
theorem witness_hollow : let m : Team := { team0 with size := 16, bars := List.replicate 16 { arrived := 0x3FFF }, ended := 0x8000, hollow := 0x4000 }
    15 < m.bars.length ∧ ∀ i, i < m.size → i = 0 ∨ (m.bars.getD 15 {}).arrived.getLsbD i = true ∨ m.ended.getLsbD i = true ∨ m.hollow.getLsbD i = true := by decide +kernel

-- traps (23)

/-- TrapEntry: no page for the record. -/
theorem witness_trap_record : let s := { st0 with tlb := [] }
    let v : State := { drainStq s with g := returnLoads (drainStq s).g }
    s.g.ctx.kernel.handler ≠ 0 ∧ s.g.hnd = false ∧ pairInFlight s = false ∧ ∃ y a, coreWrite v (trapArea v.g) (trapRecord v.g { code := 3, addr := 1, lanes := 1 }) = .error (y, a) :=
  ⟨by decide, rfl, by decide +kernel, err_of (by decide +kernel)⟩
/-- TrapEntry: no handler, and a handler with a record area that can be written. -/
theorem witness_trap_end : let s := withG (fun h => { h with ctx := { h.ctx with kernel := { h.ctx.kernel with handler := 0 } } })
    s.g.ctx.kernel.handler = 0 := rfl
theorem witness_trap_entry : let v : State := { drainStq st0 with g := returnLoads (drainStq st0).g }
    ∃ u, st0.g.ctx.kernel.handler ≠ 0 ∧ st0.g.hnd = false ∧ pairInFlight st0 = false ∧ coreWrite v (trapArea v.g) (trapRecord v.g { code := 3, addr := 1, lanes := 1 }) = .ok u :=
  ⟨(coreWrite { drainStq st0 with g := returnLoads (drainStq st0).g } (trapArea st0.g) (trapRecord st0.g { code := 3, addr := 1, lanes := 1 })).toOption.getD st0, by decide, rfl, by decide +kernel, by decide +kernel⟩
theorem witness_trap_pair : let s := { st0 with trvs := [pairReq] }
    s.g.ctx.kernel.handler ≠ 0 ∧ s.g.hnd = false ∧ pairInFlight s = true := by decide +kernel
/-- TrapRecordsAndOwedTraps: every field at the top of its range. -/
theorem witness_record : let h : Group := { grp0 with pos := 2251799813685247, off := 63, p := 31, rcblocks := 2047 }
    h.pos < 2251799813685248 ∧ h.off < 64 ∧ h.p < 32 ∧ rcDepth h < 65536 ∧ (255 < 256 ∧ 65535 < 65536 ∧ 18446744073709551615 < 18446744073709551616) := by decide +kernel
theorem witness_owed : let h : Group := { grp0 with owed := [(3, owed0)] }
    owedAt h 3 = some owed0 ∧ owedAt h 4 = none ∧ owedServed h slotsEng = some (3, owed0) ∧ owedServed h [19] = none := by decide +kernel
def owedTop : Owed :=
  { owed0 with pos := 2251799813685247, off := 63, code := 255, unit := 255, more := 65535, addr := 18446744073709551615, detail := 18446744073709551615, done := 18446744073709551615 }
theorem witness_owed_record : trapWaits st0 = false ∧ st0.g.pos < 2251799813685248 ∧ st0.g.off < 64 ∧ (let o := owedTop
    o.pos < 2251799813685248 ∧ o.off < 64 ∧ o.code < 256 ∧ o.unit < 256 ∧ o.more < 65536 ∧ o.addr < 18446744073709551616 ∧ o.detail < 18446744073709551616 ∧ o.done < 18446744073709551616) := by decide +kernel
theorem witness_record_lane : (0x8000#64).getLsbD 15 = true ∧ (∀ j < 15, (0x8000#64).getLsbD j = false) ∧ 15 < width grp0 := by decide +kernel
/-- LaunchEnds: groups of the launch and of another, and a team of the other. -/
theorem witness_launch : let s := { st0 with teams := [team0, { team0 with id := 4, launch := 7 }], others := [{ grp0 with id := 5 }, { grp0 with id := 6, team := 4, ctx := { ctx0 with launch := 7 } }] }
    (∃ h ∈ s.others, h.ctx.launch ≠ 2) ∧ (∃ x ∈ s.launches, x.id = 2) ∧ ∃ x ∈ s.teams, x.launch ≠ 2 ∧ ∀ h ∈ allGroups s, h.ctx.launch = 2 → h.phase ≠ .none → h.team ≠ x.id := by decide +kernel


-- the matrix engines (07)

def tile0 (m : Nat) : Tile := { m := m, elems := [(elemKey 0 0, 0x3F800000)], poison := [] }
/-- The group holds tiles; r4 holds the control word of a product with M = N = 1, K = 16 and both operands in slot 1. -/
def stTiles (ms : List Nat) : State :=
  withG (fun h => { h with tiles := ms.map tile0, regs := [(regKey 2 0, 64), (regKey 2 15, 128), (regKey 4 0, 0x04800000), (regKey 119 15, 7)] })
/-- TilesComplete: the tile held, a free one, the file full, and a group that waits. -/
theorem witness_tiles : holdsTile (stTiles [7]).g 7 = true ∧ holdsTile st0.g 15 = false ∧ tileFree (stTiles [8, 9, 10, 11, 12, 13, 14]) 15 = true ∧
    (let s := { st0 with others := [{ grp0 with id := 5, tiles := (List.range 8).map tile0 }] }; holdsTile s.g 7 = false ∧ tileFree s 7 = false) := by decide +kernel
theorem witness_tile_bind : let s := withG (fun h => { h with stalled := true, clause := [0xB1600200, 0xAE000006] })
    holdsTile s.g 6 = false ∧ tileFree s 6 = true ∧ s.g.phase = .issue ∧ s.g.stalled = true ∧ s.g.preempt = false ∧ instrAt s.g = .ok (.mtake 6) := by decide +kernel
theorem witness_tile_elements : let s := stTiles [0, 15]
    tileBusy s s.g.id 15 = false ∧ owedAt s.g 15 = none ∧ tileOf s.g 15 = some (tile0 15) ∧ readsClean s (dstRegs (.reg 119) 1 ++ srcRegs (.reg 2) 1) (activeLanes s.g) ∧
      ∀ l ∈ activeLanes s.g, smGet false (tile0 15).poison (selKey (src32 s.g (.reg 2) l)) = false := by unfold readsClean; decide +kernel
def cmd0 (kind : CmdKind) : Cmd :=
  { id := 3, group := 1, launch := 2, region := 0, kind := kind, word := 0, tile := 15, ctl := 0x04800000, a := 0, b := 1, shape := [], steps := 0, started := true, attempts := 0, attempts2 := 0, array := 1, serial := false, pos := 0x1000, off := 1 }
theorem witness_tile_busy : let s := { stTiles [0, 15] with cmds := [cmd0 .mma] }
    holdsTile s.g 15 = true ∧ tileBusy s s.g.id 15 = true := by decide +kernel
theorem witness_tile_owed : let s := { stTiles [15] with g := { (stTiles [15]).g with owed := [(15, owed0)] } }
    holdsTile s.g 15 = true ∧ tileBusy s s.g.id 15 = false ∧ owedAt s.g 15 = some owed0 := by decide +kernel
/-- TilesComplete: the slot of an MMAP that failed stands for tile 15, which owes nothing itself, or a trap of a later command. -/
theorem witness_tile_pair : ∀ l ∈ [[], [(15, { owed0 with seq := 4 })]], let s := { stTiles [15] with g := { (stTiles [15]).g with owed := (7, { owed0 with pair := true }) :: l } }
    let x : Owed := { owed0 with pair := true }
    (8 ≤ 15 ∧ (owedAt s.g (15 - 8)).filter (·.pair) = some x) ∧ holdsTile s.g 15 = true ∧ tileBusy s s.g.id 15 = false ∧ ∀ o ∈ owedAt s.g 15, x.seq < o.seq := by decide +kernel
/-- MatrixCommandsComplete: MMA of tile 15, and MMAP of the last pair of tiles. -/
theorem witness_product : ∃ e, cmdSpec (.mma 15 (.reg 4) (.lit32 31) .zero) = some e ∧ readsClean (stTiles [15]) e.reads [firstLane (stTiles [15]).g] ∧ e.able (stTiles [15]) ∧ e.inBounds (stTiles [15]) ∧
    noArray (stTiles [15]) = false ∧ owedAt (stTiles [15]).g e.tile = none ∧
    ¬ (boardRoom (stTiles [15]) (cmdIvs (stTiles [15]).g.ctx.lrec.slots (e.cmd (stTiles [15]))).length = false ∨ queueFull (stTiles [15]) (e.cmd (stTiles [15])).region (e.cmd (stTiles [15])).array (decide (e.kind = .mmap)) = true) :=
  ⟨_, rfl, by unfold readsClean; decide +kernel, by dsimp only [productCmd]; unfold boundSlot descFits; decide +kernel, by unfold CmdOp.inBounds; decide +kernel, by decide +kernel, by decide +kernel, by decide +kernel⟩
theorem witness_product_pair : let s := { stTiles [7, 15] with cmds := List.replicate 32 { cmd0 .mmap with id := 1, tile := 7, array := 0 } }
    ∃ e, cmdSpec (.mmap 7 (.reg 4) (.lit32 31) .zero) = some e ∧ readsClean s e.reads [firstLane s.g] ∧ e.able s ∧ e.inBounds s ∧ noArray s = false ∧ owedAt s.g e.tile = none ∧
      queueFull s (e.cmd s).region (e.cmd s).array (decide (e.kind = .mmap)) = true :=
  ⟨_, rfl, by unfold readsClean; decide +kernel, by dsimp only [productCmd]; unfold boundSlot descFits; decide +kernel, by unfold CmdOp.inBounds; decide +kernel, by decide +kernel, by decide +kernel, by decide +kernel⟩
/-- MatrixCommandsComplete: MCONV with a shape record of one row and column, one channel group, at byte 992 of region memory. -/
def shape0 : List Byte := [0, 0, 0, 0, 0, 0, 0, 0, 1, 0, 1, 0, 16, 0, 1, 1, 1, 1, 1, 1, 0, 0, 1, 0, 0, 0, 0, 0, 0, 0, 0, 0]
def stConv : State := { stTiles [15] with teams := [{ team0 with rg := { bytes := smSetMany 0 [] 992 shape0 } }] }
theorem witness_conv : ∃ e, cmdSpec (.mconv 15 (.reg 4) (.lit32 992) (.lit32 31)) = some e ∧ readsClean stConv e.reads [firstLane stConv.g] ∧ e.able stConv ∧ e.inBounds stConv ∧ noArray stConv = false :=
  ⟨_, rfl, by unfold readsClean; decide +kernel,
    ⟨by decide +kernel, by decide +kernel, by unfold boundSlot; decide +kernel, by unfold boundSlot; decide +kernel, by unfold descFits; decide +kernel, by decide +kernel, by decide +kernel, by decide +kernel, by decide +kernel,
      unheld_free (by decide +kernel) rfl, by decide +kernel, by decide +kernel⟩,
    by unfold CmdOp.inBounds; decide +kernel, by decide +kernel⟩
/-- MatrixCommandsComplete: MST with conversion, and MZERO, of a tile that owes a trap. -/
def stOwing : State := { stTiles [15] with g := { (stTiles [15]).g with regs := [(regKey 4 0, 0x04000F7F)], owed := [(15, owed0)] } }
theorem witness_tile_store : ∃ e, cmdSpec (.mst 15 (.reg 4) .zero) = some e ∧ readsClean stOwing e.reads [firstLane stOwing.g] ∧ e.able stOwing ∧ e.inBounds stOwing ∧ noArray stOwing = false ∧ (owedAt stOwing.g e.tile).isSome = true :=
  ⟨_, rfl, by unfold readsClean; decide +kernel, by dsimp only [storeCmd]; unfold descFits; decide +kernel, by unfold CmdOp.inBounds; decide +kernel, by decide +kernel, by decide +kernel⟩
theorem witness_tile_zero : ∃ e, cmdSpec (.mzero 15) = some e ∧ readsClean stOwing e.reads [firstLane stOwing.g] ∧ e.able stOwing ∧ e.inBounds stOwing ∧ noArray stOwing = false ∧ (owedAt stOwing.g e.tile).isSome = true :=
  ⟨_, rfl, by unfold readsClean; decide +kernel, by dsimp only [zeroCmd]; decide +kernel, by unfold CmdOp.inBounds; decide +kernel, by decide +kernel, by decide +kernel⟩
/-- MatrixCommandsComplete: an MMAP whose second tile owes, and a command of the second tile of one that failed. -/
theorem witness_owing : (owedAt stOwing.g (7 + 8) ≠ none) ∧ let s := { stTiles [15] with g := { (stTiles [15]).g with owed := [(7, { owed0 with pair := true })] } }
    8 ≤ 15 ∧ ∃ o, owedAt s.g (15 - 8) = some o ∧ o.pair = true := by decide +kernel
/-- MatrixCommandsComplete: a command for the lent array of an active lease. -/
theorem witness_lent : let s := { st0 with leases := [{ id := 11, lender := 1, rcd := List.replicate 64 0, granted := true, noticeEnd := 0, host := 0, key := 11 }], arrays := [(11, { lease := some 11 })] }
    ∃ l, leaseAt s 0 = some l ∧ leaseState l ≠ 3 := by decide +kernel
/-- StepAccumulates: the last element of a tile, in a step and not in it. -/
theorem witness_accumulate : (List.replicate 128 ([] : List FVal)).length ≤ 128 ∧ 127 < 128 ∧ (127 < (List.replicate 128 ([] : List FVal)).length ∧ ¬ 127 < (List.replicate 127 ([] : List FVal)).length) := by decide +kernel
/-- MatrixEventsComplete: a step of a started product, its last attempt, a store and a clearing. -/
def stCmd (c : Cmd) : State := { stTiles [15] with cmds := [c] }
/-- What the statement's clauses ask of a command and its array. -/
def stepping (s : State) (c : Cmd) (arr per : Nat) : Prop :=
  findFirst (fun x => decide (x.id = c.id)) s.cmds = some c ∧ getGroup s c.group = some s.g ∧ servedBy s c = some arr ∧ cmdReady s c = true ∧ c.started = true ∧ c.array ≠ 2 ∧
    stepsPer s.g.ctx.lrec.slots c = per
theorem witness_matrix_step : ∀ n ∈ [0, 1, 2], let c := { cmd0 .mma with attempts := n }
    let s := stCmd c
    ∃ v, stepping s c 1 1 ∧ twoHalves c = false ∧ c.steps < 1 ∧ halfTries c false = n ∧ stepTiles (setCmd (setGroup s s.g) c) s.g c [(false, 1)] = .ok v := by
  intro n hn c s
  refine ⟨(stepTiles (setCmd (setGroup s s.g) c) s.g c [(false, 1)]).toOption.getD {}, ?_⟩
  unfold stepping
  simp only [List.mem_cons, List.not_mem_nil, or_false] at hn
  rcases hn with rfl | rfl | rfl <;> decide +kernel
/-- Both halves of an MMAP run, on their first tries and on engine 1's last. -/
theorem witness_matrix_halves : ∀ n ∈ [0, 2], let c := { cmd0 .mmap with tile := 7, ctl := 0x048000FF, attempts2 := n }
    let s := { stTiles [7, 15] with cmds := [c] }
    ∃ v, stepping s c 1 1 ∧ twoHalves c = true ∧ bothServe s c.region = true ∧ c.steps < 1 ∧ c.steps2 < 1 ∧ halfTries c true = n ∧
      stepTiles (setCmd (setGroup s s.g) c) s.g c [(false, 0), (true, 1)] = .ok v := by
  intro n hn c s
  refine ⟨(stepTiles (setCmd (setGroup s s.g) c) s.g c [(false, 0), (true, 1)]).toOption.getD {}, ?_⟩
  unfold stepping
  simp only [List.mem_cons, List.not_mem_nil, or_false] at hn
  rcases hn with rfl | rfl <;> decide +kernel
/-- One array alone serves, with the first half to do and with the second. -/
theorem witness_matrix_serial : ∀ n ∈ [0, 1], let c := { cmd0 .mmap with tile := 7, ctl := 0x048000FF, steps := n }
    let s := { stTiles [7, 15] with cmds := [c], arrays := [(1, { out := true })] }
    stepping s c 0 1 ∧ twoHalves c = true ∧ bothServe s c.region = false ∧ c.steps2 < 1 ∧ (stepTiles (setCmd (setGroup s s.g) c) s.g c [(decide (n = 1), 0)]).isOk = true := by
  intro n hn c s
  unfold stepping
  simp only [List.mem_cons, List.not_mem_nil, or_false] at hn
  rcases hn with rfl | rfl <;> decide +kernel
/-- A step that reads poisoned operand memory. -/
theorem witness_matrix_error : let c := cmd0 .mma
    let s := { stCmd c with teams := [{ team0 with rg := { poison := [(0, true)] } }] }
    stepping s c 1 1 ∧ ∃ x a, stepTiles (setCmd (setGroup s s.g) c) s.g c [(false, 1)] = .error (x, a) := by
  unfold stepping
  exact ⟨by decide +kernel, err_of (by decide +kernel)⟩
/-- MatrixEventsComplete: on a lent array, with the meters at their tops, a step that is the last and each try of it. -/
def lentTop : Lease := { id := 11, lender := 1, rcd := List.replicate 32 0 ++ List.replicate 16 255 ++ List.replicate 16 0, granted := true, noticeEnd := 0, host := 0, key := 11 }
theorem witness_matrix_lent : ∀ n ∈ [0, 2], let c := { cmd0 .mma with array := 2, attempts := n }
    let s := { stCmd c with leases := [lentTop], arrays := [(11, { lease := some 11 })] }
    ∃ v, findFirst (fun x => decide (x.id = c.id)) s.cmds = some c ∧ getGroup s c.group = some s.g ∧ servedBy s c = some 11 ∧ cmdReady s c = true ∧ c.started = true ∧ leaseAt s c.region = some lentTop ∧
      (∀ x ∈ s.leases, x.id = lentTop.id → x = lentTop) ∧ lentTop.rcd.length = 64 ∧ c.steps < stepsPer s.g.ctx.lrec.slots c ∧ halfTries c false = n ∧
      stepTiles (setCmd (setGroup s s.g) c) s.g c [(false, 11)] = .ok v := by
  intro n hn c s
  refine ⟨(stepTiles (setCmd (setGroup s s.g) c) s.g c [(false, 11)]).toOption.getD {}, ?_⟩
  simp only [List.mem_cons, List.not_mem_nil, or_false] at hn
  rcases hn with rfl | rfl <;> decide +kernel
theorem witness_matrix_store : ∀ k ∈ [CmdKind.mst, CmdKind.mzero], let s := stCmd { cmd0 k with started := false }
    findFirst (fun x => decide (x.id = 3)) s.cmds = some { cmd0 k with started := false } ∧ getGroup s 1 = some s.g ∧ servedBy s { cmd0 k with started := false } = some 1 ∧
      cmdReady s { cmd0 k with started := false } = true ∧ tileOf s.g 15 = some (tile0 15) ∧ (tile0 15).poison = [] ∧
      ∀ v ∈ cmdIvs s.g.ctx.lrec.slots { cmd0 k with started := false }, v.chip = true → v.hi ≤ chipExtent (getFn s 0) := by decide +kernel
/-- MatrixEventsComplete: the eighth mismatch just inside the window. -/
theorem witness_engine_off : let s := { st0 with arrays := [(95, { residues := 1073741823 :: List.replicate 7 0 })] }
    (arrAt s (arrKey 47 1)).out = false ∧ (arrAt s (arrKey 47 1)).residues = 1073741823 :: List.replicate 7 0 ∧ 7 ≤ (List.replicate 7 0).length ∧ 1073741823 - (List.replicate 7 0).getD 6 0 < 1073741824 ∧
      ∀ c ∈ s.cmds, c.started = false := by decide +kernel


-- copies (11)

/-- The base state with bytes at an address of its space. -/
def stAt (a : Nat) (bs : List Byte) : State := { st0 with mem := smSetMany 0 [] a bs }
/-- Two rows of 32 bytes at 0x8000 into region memory; one row of 16 block elements; four bytes to package 1. -/
def cpyRec : List Byte := natLe 8 0x8000 ++ natLe 8 0 ++ natLe 4 32 ++ natLe 4 2 ++ natLe 4 64 ++ natLe 4 32 ++ [16] ++ List.replicate 31 0
def cpynRec : List Byte := natLe 8 0x8000 ++ natLe 8 0 ++ natLe 4 16 ++ natLe 4 1 ++ natLe 4 0 ++ natLe 4 32 ++ [16] ++ List.replicate 15 0 ++ natLe 8 0x9000 ++ natLe 8 512
def cpyrRec : List Byte := natLe 8 0x8000 ++ natLe 8 0x9000 ++ natLe 4 4 ++ natLe 4 1 ++ List.replicate 20 0 ++ natLe 4 1 ++ List.replicate 16 0
/-- CopiesComplete: the conditions on a record, for each of the three. -/
theorem free_entry (s : State) (fn : Nat) (h : (getFn s fn).ring = []) : freeEntry (getFn s fn) = some ((Config.copyEntry (getFn s fn).nextCopy + 0) % 4096) := by
  unfold freeEntry
  rw [h, (List.range_succ_eq_map : List.range 4096 = 0 :: (List.range 4095).map Nat.succ), List.map_cons]
  exact if_pos rfl
theorem witness_copy : let s := stAt 0x6000 cpyRec
    let s1 := release s .dev
    ∃ e k, copySpec (.cpy (.reg 4) (.lit32 0x6000)) = some e ∧ readsClean s (srcRegs e.a 2) [firstLane s.g] ∧ (src64 s.g false e.a (firstLane s.g)).toNat = 0x6000 ∧ coreRead s1 0x6000 64 = .ok cpyRec ∧
      copyBad e.kind (e.slot s.g) e.compact cpyRec = false ∧ copyMisaligned e.kind e.compact cpyRec = false ∧ (∀ v ∈ copyRecIvs e.kind (e.slot s.g) cpyRec, ivBound s1 v = true) ∧
      (copyRecIvs e.kind (e.slot s.g) cpyRec).any (·.chip) = false ∧ pickEngine s1 s.g.ctx.fn = some 0 ∧ freeEntry (getFn s1 s.g.ctx.fn) = some k ∧
      shareFull s1 (regionOf s.g.core) (queuedCopy s e.kind 0 k cpyRec 0 (e.slot s.g) e.compact s.g.ctx.lrec.skey) = false ∧ boardRoom s1 (copyRecIvs e.kind (e.slot s.g) cpyRec).length = true :=
  ⟨_, _, rfl, by unfold readsClean; decide +kernel, by decide +kernel, by decide +kernel, by decide +kernel, by decide +kernel, by decide +kernel, by decide +kernel, by decide +kernel, free_entry _ _ rfl, by decide +kernel, by decide +kernel⟩
theorem witness_copy_number : let s := stAt 0x6000 cpynRec
    let s1 := release s .dev
    ∃ e k, copySpec (.cpyn (.reg 4) (.lit32 0x6000) 0 false) = some e ∧ readsClean s (srcRegs e.a 2) [firstLane s.g] ∧ (src64 s.g false e.a (firstLane s.g)).toNat = 0x6000 ∧ coreRead s1 0x6000 64 = .ok cpynRec ∧
      copyBad e.kind (e.slot s.g) e.compact cpynRec = false ∧ copyMisaligned e.kind e.compact cpynRec = false ∧ (∀ v ∈ copyRecIvs e.kind (e.slot s.g) cpynRec, ivBound s1 v = true) ∧
      (copyRecIvs e.kind (e.slot s.g) cpynRec).any (·.chip) = false ∧ pickEngine s1 s.g.ctx.fn = some 0 ∧ freeEntry (getFn s1 s.g.ctx.fn) = some k ∧
      shareFull s1 (regionOf s.g.core) (queuedCopy s e.kind 0 k cpynRec 0 (e.slot s.g) e.compact s.g.ctx.lrec.skey) = false ∧ boardRoom s1 (copyRecIvs e.kind (e.slot s.g) cpynRec).length = true :=
  ⟨_, _, rfl, by unfold readsClean; decide +kernel, by decide +kernel, by decide +kernel, by decide +kernel, by decide +kernel, by decide +kernel, by decide +kernel, by decide +kernel, free_entry _ _ rfl, by decide +kernel, by decide +kernel⟩
theorem witness_copy_remote : let s := stAt 0x6000 cpyrRec
    let s1 := release s .dev
    ∃ e k, copySpec (.cpyr (.reg 4) (.lit32 0x6000)) = some e ∧ readsClean s (srcRegs e.a 2) [firstLane s.g] ∧ (src64 s.g false e.a (firstLane s.g)).toNat = 0x6000 ∧ coreRead s1 0x6000 64 = .ok cpyrRec ∧
      copyBad e.kind (e.slot s.g) e.compact cpyrRec = false ∧ copyMisaligned e.kind e.compact cpyrRec = false ∧ copyRecIvs e.kind (e.slot s.g) cpyrRec = [] ∧
      pickEngine s1 s.g.ctx.fn = some 0 ∧ freeEntry (getFn s1 s.g.ctx.fn) = some k ∧ shareFull s1 (regionOf s.g.core) (queuedCopy s e.kind 0 k cpyrRec 0 (e.slot s.g) e.compact s.g.ctx.lrec.skey) = false ∧ boardRoom s1 0 = true :=
  ⟨_, _, rfl, by unfold readsClean; decide +kernel, by decide +kernel, by decide +kernel, by decide +kernel, by decide +kernel, by decide +kernel, by decide +kernel, free_entry _ _ rfl, by decide +kernel, by decide +kernel⟩
/-- CopiesComplete: PUBLISH of one page, and CPYQ. -/
theorem witness_publish : readsClean st0 (srcRegs (.lit32 0x8000) 2) [firstLane st0.g] ∧ (src64 st0.g false (.lit32 0x8000) (firstLane st0.g)).toNat % 32768 = 0 ∧
    pickEngine (release st0 .dev) st0.g.ctx.fn = some 0 ∧ readsClean st0 (srcRegs (.reg 119) 1) (activeLanes st0.g) := by unfold readsClean; decide +kernel
/-- CopyEventsComplete: the second unit of CPY, the only one of CPYR, one awaited, a write for this package and a turn of one page. -/
def copy0 (kind : CopyKind) (r : List Byte) : Copy :=
  { id := 3, fn := 0, kind := kind, group := some 1, launch := 2, core := 0, team := some 3, entry := 9, rcd := r, desc := 0x8000, slot := { kind := 1, m := 8, block := 16 }, compact := false, skey := 0, eng := 0, done := 0,
    started := false, awaiting := false, sent := 0, pos := 0x1000, off := 1 }
def stCopy (c : Copy) : State := { st0 with copies := [c], mem := smSetMany 0 [] 0x8040 [5, 6] }
theorem witness_copy_unit : let c := { copy0 .cpy cpyRec with done := 32, started := true }
    let s := stCopy c
    let v := setEntry (setCopy s { c with started := true }) { c with started := true } 1 0
    ∃ bs u, findFirst (fun x => decide (x.id = c.id)) s.copies = some c ∧ copyReady s c = true ∧ unitBytes v { c with started := true } (unitAt c) = .ok bs ∧ writeUnit v { c with started := true } (unitAt c) bs = .ok u :=
  ⟨[5, 6] ++ List.replicate 30 0, _, by decide +kernel, by decide +kernel, by decide +kernel, rfl⟩
theorem witness_copy_unit_remote : let c := copy0 .cpyr cpyrRec
    let s := stCopy c
    let v := setEntry (setCopy s { c with started := true }) { c with started := true } 1 0
    ∃ bs, findFirst (fun x => decide (x.id = c.id)) s.copies = some c ∧ copyReady s c = true ∧ unitBytes v { c with started := true } (unitAt c) = .ok bs :=
  ⟨List.replicate 4 0, by decide +kernel, by decide +kernel, by decide +kernel⟩
theorem witness_copy_answer : let c := { copy0 .cpyr (natLe 8 0x8000 ++ natLe 8 0x9000 ++ natLe 4 4 ++ natLe 4 2 ++ List.replicate 20 0 ++ natLe 4 1 ++ List.replicate 16 0) with started := true, awaiting := true }
    let s := stCopy c
    c.id ≠ 0 ∧ waitingUnit s c.id = some c ∧ c.done + (unitAt c).n < copyTotal c := by decide +kernel
theorem witness_copy_last : let c := { copy0 .cpyr cpyrRec with started := true, awaiting := true }
    let s := stCopy c
    c.id ≠ 0 ∧ waitingUnit s c.id = some c ∧ c.done + (unitAt c).n = copyTotal c ∧ c.group.isSome = true ∧ c.fn < s.fns.length := by decide +kernel
theorem witness_copy_write : let s := { st0 with fns := { fn0 with admission := [(255, (1, 5, true))] } :: List.replicate 16 {} }
    running s = true ∧ (getFn s 0).slices ≠ [] ∧ admitted s 0 1 5 = true ∧ admitted s 0 2 5 = false ∧ ∃ t, agentWrite (heardFrom s 1) 0 0x9000 [1, 2, 3, 4] true = .ok t :=
  ⟨by decide +kernel, by decide +kernel, by decide +kernel, by decide +kernel, _, rfl⟩
/-- A tree of one table a level, whose leaf for 0x8000 has bit 55. -/
def tree0 (leaf : Nat) : List (Nat × Byte) := smSetMany 0 (smSetMany 0 (smSetMany 0 [] 0x10000000 (natLe 8 0x10010001)) 0x10010000 (natLe 8 0x10020001)) 0x10020008 (natLe 8 leaf)
def stTurn : State := { st0 with copies := [copy0 .publish []], tlb := [{ fn := 0, base := 0x8000, size := 32768, leaf := 0xF0000000020003 }], mem := tree0 0xF0000000020003 }
/-- AddressChecksTrap: a walk to the page at 0x8000 by an entry of level 0, the error of its entry, and each check of the root, of a pointer and of a leaf. -/
def stWalk (e : Nat) : State := { st0 with tlb := [], mem := tree0 e }
theorem witness_walk_ok : tlbFind (stWalk 0x10000000000003) 0 0xFFFF = none ∧ walk (stWalk 0x10000000000003) 0 0xFFFF = .ok (0x10000000000003, 0, 0x10020008, 0) ∧
    (∀ b ∈ permBits .r, bitOf 0x10000000000003 b = true) ∧ (∃ b ∈ permBits .rw, bitOf 0x10000000000003 b = false) := by decide +kernel
theorem witness_walk_poisoned : memPoisoned { stWalk 3 with poison := [(0x10020008 / 32, true)] } 0x10020008 8 = true ∧
    walk { stWalk 3 with poison := [(0x10020008 / 32, true)] } 0 0xFFFF = .error ⟨6, 7⟩ := by decide +kernel
theorem witness_walk_root : let root (f : Fn) := firstCheck (pointerChecks f false f.root)
    root fn0 = none ∧ root { fn0 with root := 0 } = some ⟨4, 1⟩ ∧ root { fn0 with root := 0x10000010000001 } = some ⟨4, 2⟩ ∧
    root { fn0 with windows := [(0, 0x10000000), (0x10008000, 0x8000)] } = some ⟨5, 5⟩ ∧ root { fn0 with keyBlocks := 0xFE } = some ⟨5, 6⟩ := by decide +kernel
theorem witness_walk_entry :
    ∀ p ∈ ([(2, ⟨4, 1⟩), (0x200000000000003, ⟨4, 2⟩), (1, ⟨4, 3⟩), (0x80000000008003, ⟨4, 3⟩), (0x8000000003, ⟨5, 5⟩), (0x803, ⟨5, 6⟩)] : List (Nat × XErr)),
    memPoisoned (stWalk p.1) 0x10020008 8 = false ∧ walk (stWalk p.1) 0 0xFFFF = .error p.2 := by decide +kernel
theorem witness_walk_large : firstCheck (leafChecks fn0 1 0x80000000000003) = some ⟨4, 3⟩ ∧ firstCheck (leafChecks fn0 1 0x4000003) = some ⟨4, 3⟩ ∧ firstCheck (leafChecks fn0 2 3) = none := by decide +kernel
theorem witness_turn : let c := copy0 .publish []
    findFirst (fun x => decide (x.id = c.id)) stTurn.copies = some c ∧ turnReady stTurn c = true ∧ pubPages c = 1 ∧ walk stTurn c.fn (pubBase c) = .ok (0xF0000000020003, 0, 0x10020008, 0) ∧
      bitOf 0xF0000000020003 55 = true ∧ stTurn.l1 = [] := by decide +kernel


-- graphics (12)

/-- The base state with bytes at several addresses; r4 of lane 0 holds 0x6000. -/
def stMem (l : List (Nat × List Byte)) : State :=
  { withG (fun h => { h with regs := [(regKey 2 0, 64), (regKey 2 15, 128), (regKey 4 0, 0x6000), (regKey 119 15, 7)] }) with mem := l.foldl (fun m e => smSetMany 0 m e.1 e.2) [] }
def zerosB (n : Nat) : List Byte := List.replicate n 0
/-- A pass over 16 by 16 pixels with one attribute and a buffer of two records, its launch record and kernel record. -/
def passRec : List Byte := natLe 8 0x7000 ++ natLe 8 0x100000 ++ natLe 4 256 ++ natLe 4 0 ++ natLe 2 16 ++ natLe 2 16 ++ [1] ++ zerosB 35
def fragRec : List Byte := natLe 8 0x7100 ++ zerosB 120
def fragKernel : List Byte := natLe 8 0x1000 ++ natLe 8 0 ++ [15, 0, 1, 0] ++ zerosB 44
def stPass : State := stMem [(0x6000, passRec), (0x7000, fragRec), (0x7100, fragKernel)]
/-- GraphicsCommandsComplete: the first PRIM of a launch fills the buffer, and one of a launch that has a pass. -/
theorem witness_prim : let s := stPass
    let s1 := release s .dev
    ∃ recs, readsClean s (dstRegs (.reg 4) 2) [firstLane s.g] ∧ readsClean s (srcRegs (.reg 2) 2) (activeLanes s.g) ∧ (dst64 s.g (.reg 4) (firstLane s.g)).toNat = 0x6000 ∧
      (∀ p ∈ boundPass s1 s.g.ctx.launch, p.va = 0x6000) ∧ readPass s1 s.g.ctx.fn 0x6000 = .ok (passRec, fragRec, fragKernel) ∧
      passRecordsOk passRec fragRec fragKernel (getFn s1 s.g.ctx.fn).slices.length = true ∧ 128 * (activeLanes s.g).length ≤ paSize passRec ∧ readPrims s1 s.g.ctx.fn (laneAddrs s.g (.reg 2) .g) = .ok recs ∧
      (∀ q ∈ s.passes, q.slice = 0) ∧ 128 * (0 + (activeLanes s.g).length) ≤ paSize passRec := by
  refine ⟨[zerosB 128, zerosB 128], ?_⟩
  unfold readsClean; decide +kernel
def triangle : List Byte := natLe 4 0 ++ natLe 4 0 ++ natLe 4 0 ++ natLe 4 0x41000000 ++ natLe 4 0 ++ natLe 4 0 ++ natLe 4 0 ++ natLe 4 0x41000000 ++ zerosB 96
def pass0 : Pass := { newPass stPass 0x6000 passRec fragRec fragKernel with id := 4, prims := [{ grpix := 1, seq := 2, place := 1, rcd := triangle }] }
theorem witness_prim_bound : let s := { stPass with passes := [pass0], g := { stPass.g with active := 0x8000, regs := [(regKey 2 15, 128), (regKey 4 15, 0x6000)] } }
    boundPass (release s .dev) s.g.ctx.launch = some pass0 ∧ pass0.va = 0x6000 ∧ (dst64 s.g (.reg 4) (firstLane s.g)).toNat = 0x6000 ∧ (∀ q ∈ s.passes, q.slice = pass0.slice → q.id = pass0.id) ∧
      128 * (pass0.prims.length + (activeLanes s.g).length) ≤ paSize pass0.rcd := by decide +kernel
/-- A target of 16384 by 16384 pixels, eight nodes a list; pixel (64, 0) has an empty list and pixel (128, 0) one node. -/
def target0 : List Byte := natLe 8 0x10000 ++ natLe 8 0x20000 ++ natLe 2 16384 ++ natLe 2 16384 ++ [0x48, 0] ++ zerosB 42
def node0 : LNode := { idx := 0, color := 0x3C00, depth := 0x3F000000, cover := 255, flags := 0 }
def bin0 : List Byte := natLe 8 0x30000 ++ zerosB 248 ++ [1, 0, 0, 0] ++ natLe 2 65535 ++ natLe 2 1 ++ zerosB 56
def stTarget : State := let s := stMem [(0x6000, target0), (0x10100, natLe 4 1048560), (0x10200, natLe 4 1), (0x20280, bin0), (0x30000, nodeBytes node0 noIndex)]
  { s with g := { s.g with frags := [(0, { x := 16383, y := 16383 }), (15, { x := 0, y := 0 })] } }
theorem witness_fins : let s := { stTarget with inserts := [{ (default : Insert) with group := 9 }] }
    owedAt s.g 18 = none ∧ readsClean s (srcRegs (.lit32 0x6000) 2) [firstLane s.g] ∧ readsClean s (dstRegs (.reg 116) 4) (activeLanes s.g) ∧ readTarget s (.lit32 0x6000) = .ok (0x6000, target0) ∧
      fragOf s.g 0 = some { x := 16383, y := 16383 } ∧ fragOf s.g 15 = some {} ∧ activeLanes s.g = [0, 15] ∧ 16383 < tgW target0 ∧ 16383 < tgH target0 ∧ ∀ r ∈ s.inserts, r.group ≠ s.g.id := by unfold readsClean; decide +kernel
theorem witness_lists : let s := stTarget
    owedAt s.g 18 = none ∧ readsClean s (srcRegs (.lit32 0x6000) 2) [firstLane s.g] ∧ readsClean s (srcRegs (.reg 2) 1) (activeLanes s.g) ∧ readTarget s (.lit32 0x6000) = .ok (0x6000, target0) ∧
      (∀ l ∈ activeLanes s.g, pixX (src32 s.g (.reg 2) l) < tgW target0 ∧ pixY (src32 s.g (.reg 2) l) < tgH target0) ∧
      ∀ l ∈ activeLanes s.g, readList s s.g.ctx.fn target0 (pixX (src32 s.g (.reg 2) l)) (pixY (src32 s.g (.reg 2) l)) = .ok (if l = 0 then { bin := zerosB 320, nodes := [] } else { bin := bin0, nodes := [node0] }) := by
  unfold readsClean; decide +kernel
/-- GraphicsCommandsComplete: lanes 0 and 15 clear one list, which lane 15 then finds empty. -/
def stClear : State := { stTarget with g := { stTarget.g with regs := [(regKey 2 0, 128), (regKey 2 15, 128)] } }
theorem witness_clear : ∃ v rs, activeLanes stClear.g = [0, 15] ∧ clearedInTurn stClear.g (.reg 2) target0 (activeLanes stClear.g) stClear v rs := by
  let w (r : LList) : List (Nat × List Byte) := clearWrites target0 128 0 r
  let v1 := (stageWrites 0 (w { bin := bin0, nodes := [node0] }) stClear).toOption.getD st0
  let r2 := (readList v1 0 target0 128 0).toOption.getD { bin := [], nodes := [] }
  let v2 := (stageWrites 0 (w r2) v1).toOption.getD st0
  refine ⟨v2, [(0, { bin := bin0, nodes := [node0] }), (15, r2)], by decide +kernel, ?_⟩
  rw [show activeLanes stClear.g = [0, 15] by decide +kernel]
  exact ⟨{ bin := bin0, nodes := [node0] }, v1, [(15, r2)], by decide +kernel, by decide +kernel, ⟨r2, v2, [], by decide +kernel, by decide +kernel, ⟨rfl, rfl⟩, rfl⟩, rfl⟩
/-- A frame of 72 by 72 pixels, of which the tile is the last corner. -/
def tileRec : List Byte := natLe 8 0x8000 ++ natLe 4 32 ++ [1, 0, 1, 1] ++ natLe 4 5 ++ natLe 4 0 ++ natLe 8 0x6100 ++ zerosB 32
def streamRec : List Byte := [1, 0] ++ natLe 2 72 ++ natLe 2 72 ++ natLe 2 0 ++ natLe 4 0 ++ natLe 4 0 ++ natLe 8 0x40000 ++ natLe 4 65536 ++ zerosB 36
def stFrame : State := stMem [(0x6000, tileRec), (0x6100, streamRec), (0x8000, [7])]
theorem witness_tile_handoff : let s := stFrame
    let s1 := release s .dev
    owedAt s.g 19 = none ∧ readsClean s (srcRegs (.lit32 0x6000) 2) [firstLane s.g] ∧ (src64 s.g false (.lit32 0x6000) (firstLane s.g)).toNat = 0x6000 ∧ coreRead s1 0x6000 64 = .ok tileRec ∧ tileRecOk tileRec = true ∧
      coreRead s1 (tlStream tileRec) 64 = .ok streamRec ∧ streamOk streamRec (getFn s1 s.g.ctx.fn).slices.length = true ∧ 64 * tlTx tileRec < smW streamRec ∧ 64 * tlTy tileRec < smH streamRec := by
  unfold readsClean; decide +kernel
/-- GraphicsEventsComplete. -/
theorem witness_rasterise : let s := { stPass with passes := [pass0] }
    passOf s pass0.id = some pass0 ∧ nextPrim s pass0 = some { grpix := 1, seq := 2, place := 1, rcd := triangle } := by decide +kernel
def insert0 : Insert :=
  { id := 3, group := 1, launch := 2, fn := 0, pass := 4, lane := 15, seq := 6, fins := 3, px := 128, py := 0, node := [0x3C00, 0, 0x3F000000, 255], targetVA := 0x6000, target := target0, parked := false,
    code := 0, cause := 0, pos := 0x1000, off := 1 }
def stInsert : State := { stTarget with inserts := [insert0], passes := [{ pass0 with live := [(128, 6), (128, 7)] }] }
def writes0 : List (Nat × List Byte) := (insertWrites stInsert insert0.fn insert0.target insert0.px insert0.py insert0.node).toOption.getD []
theorem witness_insert : ∃ u, findFirst (fun x => decide (x.id = insert0.id)) stInsert.inserts = some insert0 ∧ insert0.parked = false ∧ insertFree stInsert insert0 = true ∧ (∀ x ∈ stInsert.inserts, x.parked = false) ∧
      insertWrites stInsert insert0.fn insert0.target insert0.px insert0.py insert0.node = .ok writes0 ∧ stageWrites insert0.fn writes0 stInsert = .ok u :=
  ⟨_, by decide +kernel, by decide +kernel, by decide +kernel, by decide +kernel, by decide +kernel, (ok_of (by decide +kernel)).choose_spec⟩
/-- GraphicsEventsComplete: of four nodes the second pair has the least separation, the third has the same; a channel of each rule, one of zeros, and one that is no number. -/
def lnode (idx : Nat) (depth : Word) : LNode := { idx := idx, color := 0x3C00380034003000, depth := depth, cover := 0x81, flags := 0 }
def lnodes0 : List LNode := [lnode 4 0, lnode 65535 0x3F800000, lnode 5 0x3FC00000, lnode 6 0x40000000]
theorem witness_merge : lnodes0[1]? = some (lnode 65535 0x3F800000) ∧ lnodes0[1 + 1]? = some (lnode 5 0x3FC00000) ∧
    (∀ j, j < 3 → ∀ a b, lnodes0[j]? = some a → lnodes0[j + 1]? = some b → sepLt (sepOf a.depth b.depth) (sepOf (0x3F800000 : Word) 0x3FC00000) = false ∧
      (j < 1 → sepLt (sepOf (0x3F800000 : Word) 0x3FC00000) (sepOf a.depth b.depth) = true)) ∧ lnodes0[3 + 1]? = none := by
  refine ⟨rfl, rfl, ?_, rfl⟩
  intro j hj a b ha hb
  match j, hj with
  | 0, _ => cases ha; cases hb; decide +kernel
  | 1, _ => cases ha; cases hb; decide +kernel
  | 2, _ => cases ha; cases hb; decide +kernel
theorem witness_separations : (∃ m n x y, fF32.read 0 = .fin m x ∧ fF32.read 0x80000000 = .fin n y ∧ x.lt y = false ∧ y.lt x = false) ∧ ∃ m n x y, fF32.read 0 = .fin m x ∧ fF32.read 1 = .fin n y ∧ x.lt y = true :=
  ⟨⟨_, _, _, _, rfl, rfl, by decide +kernel, by decide +kernel⟩, ⟨_, _, _, _, rfl, rfl, by decide +kernel⟩⟩
theorem witness_channels : (∃ u v w x y a, fF16.read 0x3C00 = .fin u x ∧ fF16.read 0x3800 = .fin v y ∧ fF16.read 0x3C00 = .fin w a ∧ (Q.add (Q.mul (Q.sub ⟨1, 1⟩ a) y) x).isZero = false ∧ x.isZero = false ∧
      (Q.add (Q.mul ⟨popN 8 0x81, 8⟩ x) (Q.mul ⟨popN 8 1, 8⟩ y)).isZero = false) ∧ (∃ u x, fF16.read 0x8000 = .fin u x ∧ x.isZero = true) ∧ (fF16.read 0x7C01).isNan = true :=
  ⟨⟨_, _, _, _, _, _, rfl, rfl, rfl, by decide +kernel, by decide +kernel, by decide +kernel⟩, ⟨_, _, rfl, by decide +kernel⟩, by decide +kernel⟩
def handoff0 : HandOff := { id := 3, group := 1, launch := 2, fn := 0, deadline := 5000, tile := tileRec, stream := streamRec, pos := 0x1000, off := 1 }
theorem witness_tile_accept : let s := { stFrame with handoffs := [handoff0], encoded := [(0, 0x6100, 4)] }
    ∃ px, findFirst (fun x => decide (x.id = handoff0.id)) s.handoffs = some handoff0 ∧ tilePixels s handoff0 = .ok px ∧ startedUpTo s handoff0.fn (tlStream handoff0.tile) ≤ tlFrame handoff0.tile :=
  ⟨7 :: zerosB 255, by decide +kernel, by decide +kernel, by decide +kernel⟩
def frame0 : Frame := { fn := 0, stream := 0x6100, frame := 5, tiles := [(0, []), (1, []), (2, []), (3, [])], rcd := streamRec, deadline := 5000, error := false, launches := [2] }
theorem witness_frame : let s := { stFrame with frames := [frame0, { frame0 with frame := 6 }] }
    findFirst (fun x => decide (x.fn = frame0.fn ∧ x.stream = frame0.stream ∧ x.frame = frame0.frame)) s.frames = some frame0 ∧ frameReady s frame0 = true ∧ frameFirst s frame0 = true ∧
      agentRead s frame0.fn frame0.stream 64 = .ok streamRec := by decide +kernel


-- traversal (17)

/-- TraversalTestsComplete: triangle records at 64 and 128; and 254 requests of the region before the two. -/
def trv0 : TrvReq := { id := 3, group := 1, launch := 2, region := 0, tri := false, lane := 63, d := .reg 118, ray := List.replicate 8 0x3F800000, addr := 0x8000, first := 3, pos := 0x1000, off := 1 }
theorem witness_tests : let s := { st0 with trvs := List.replicate 254 trv0 }
    owedAt s.g 17 = none ∧ readsClean s (dstRegs (.reg 112) 8 ++ srcRegs (.reg 2) 2) (activeLanes s.g) ∧
      (∀ l ∈ activeLanes s.g, (src64 s.g false (.reg 2) l).toNat % (if true then 64 else 128) = 0 ∧ (src64 s.g false (.reg 2) l).toNat < 2251799813685248) ∧
      (s.trvs.filter (fun r => decide (r.region = regionOf s.g.core))).length + (activeLanes s.g).length ≤ 256 := by unfold readsClean; decide +kernel
theorem witness_tests_box : ∀ l ∈ activeLanes st0.g, (src64 st0.g false (.lit32 0x8000) l).toNat % (if false then 64 else 128) = 0 ∧ (src64 st0.g false (.lit32 0x8000) l).toNat < 2251799813685248 := by decide +kernel
theorem witness_test_result : let s := { st0 with trvs := [trv0] }
    findFirst (fun x => decide (x.id = trv0.id)) s.trvs = some trv0 ∧ trv0.group = s.g.id ∧ trv0.lane < 64 ∧ trv0.fault = none := by decide +kernel
theorem witness_test_failed : let r : TrvReq := { trv0 with fault := some (5, 1) }
    let s := { st0 with trvs := [r] }
    findFirst (fun x => decide (x.id = r.id)) s.trvs = some r ∧ r.group = s.g.id ∧ r.lane < 64 ∧ r.fault = some (5, 1) ∧ ¬ (5 = 6 ∧ 1 = 7) ∧ owedAt s.g 17 = none := by decide +kernel
/-- TraversalStackCompletes: a push of two threads, and one past the spill area in a kernel that traps on it. -/
def nodeE : DWord := 0x4000000000000007
def instE : DWord := 0x8000000000000009
def stStack (trap : Bool) (k : TStack) : State := withG (fun h => { h with tstacks := [(0, k), (15, k)], ctx := { h.ctx with kernel := { h.ctx.kernel with travtrap := trap } } })
theorem witness_stack : let s := stStack false { entries := List.replicate 15 nodeE }
    ∃ e u rs, stackSpec (.trvpsh (.reg 2)) = some e ∧ owedAt s.g 17 = none ∧ readsClean s e.reads (activeLanes s.g) ∧ (∀ l ∈ activeLanes s.g, e.able s.g l) ∧
      eachStack e.step (activeLanes s.g) s [] = .ok (u, rs) ∧ s.g.ctx.kernel.travtrap = false :=
  have h := ok_of (show (eachStack (fun t l => pushEntry t l (1#2 ++ (src64 t.g false (.reg 2) l).extractLsb' 0 62)) (activeLanes (stStack false { entries := List.replicate 15 nodeE }).g) (stStack false { entries := List.replicate 15 nodeE }) []).isOk = true by decide +kernel)
  ⟨_, h.choose.1, h.choose.2, rfl, by decide +kernel, by unfold readsClean; decide +kernel, fun _ _ => trivial, h.choose_spec, rfl⟩
def full0 : TStack := { entries := List.replicate 16 nodeE, blocks := 1 }
theorem witness_stack_depth : ∃ u r rs, eachStack (fun t l => pushEntry t l nodeE) (activeLanes (stStack true full0).g) (stStack true full0) [] = .ok (u, r :: rs) ∧ r.2.depth = true ∧ r.1 < 64 ∧
    (stStack true full0).g.ctx.kernel.travtrap = true := by
  have h : ((eachStack (fun t l => pushEntry t l nodeE) (activeLanes (stStack true full0).g) (stStack true full0) []).toOption.map (fun x => x.2.map (fun r => (r.1, r.2.depth)))) = some [(0, true), (15, true)] := by decide +kernel
  generalize eachStack (fun t l => pushEntry t l nodeE) (activeLanes (stStack true full0).g) (stStack true full0) [] = x at h ⊢
  match x, h with
  | .ok (u, r :: rs), h =>
    simp only [Except.toOption, Option.map_some, List.map_cons, Option.some.injEq, List.cons.injEq, Prod.mk.injEq] at h
    exact ⟨u, r, rs, rfl, h.1.2, by rw [h.1.1]; decide, rfl⟩
theorem witness_stack_pair : trapWaits (stStack true full0) = false ∧ trapWaits { stStack true full0 with trvs := [pairReq] } = true := by decide +kernel
/-- One thread's stack: an ended walk; the sixteenth entry; a block spilled; past the spill area; leaving an instance; empty. -/
theorem witness_thread_ended : (stackOf (stStack false { entries := [2] }).g 15).entries = 2 :: [] ∧ (2 : DWord).extractLsb' 62 2 = 0#2 := by decide +kernel
theorem witness_thread_room : ∀ n ∈ [0, 15], ((stackOf (stStack false { entries := List.replicate n nodeE }).g 15).entries.head?.all (fun e => decide (e.extractLsb' 62 2 ≠ 0#2))) = true ∧
    (stackOf (stStack false { entries := List.replicate n nodeE }).g 15).entries.length < 16 := by decide +kernel
theorem witness_thread_spill : let s := stStack false { entries := List.replicate 9 nodeE ++ instE :: List.replicate 6 nodeE }
    let k := stackOf s.g 15
    ∃ t u, 16 ≤ k.entries.length ∧ k.blocks < stackCap s.g ∧ k.entries.head?.all (fun e => decide (e.extractLsb' 62 2 ≠ 0#2)) = true ∧
      areaWrite s 15 (stackArea s.g 15 + 64 + 64 * k.blocks) ((k.entries.drop 8).reverse.map (fun e => natLe 8 e.toNat)).flatten = .ok t ∧
      writeHeader t 15 { entries := nodeE :: k.entries.take 8, blocks := k.blocks + 1, base := some 9 } = .ok u ∧ topInst (k.entries.drop 8) = some 9 := by
  let s := stStack false { entries := List.replicate 9 nodeE ++ instE :: List.replicate 6 nodeE }
  refine ⟨(areaWrite s 15 (stackArea s.g 15 + 64 + 64 * 0) (((stackOf s.g 15).entries.drop 8).reverse.map (fun e => natLe 8 e.toNat)).flatten).toOption.getD st0, ?_⟩
  exact ⟨_, by decide +kernel, by decide +kernel, by decide +kernel, by decide +kernel, (ok_of (by decide +kernel)).choose_spec, by decide +kernel⟩
theorem witness_thread_depth : let s := stStack false full0
    ∃ u, 16 ≤ (stackOf s.g 15).entries.length ∧ stackCap s.g ≤ (stackOf s.g 15).blocks ∧ writeHeader s 15 { entries := [2], blocks := 0, base := none } = .ok u :=
  ⟨_, by decide +kernel, by decide +kernel, (ok_of (by decide +kernel)).choose_spec⟩
theorem witness_thread_leave : let s := stStack false { entries := [nodeE, instE, nodeE], blocks := 1 }
    let k := stackOf s.g 15
    ∃ u, (topInst k.entries).isSome = true ∧ (k.entries.dropWhile (fun e => decide (e.extractLsb' 62 2 ≠ 2#2))).drop 1 = [nodeE] ∧ writeHeader s 15 { k with entries := [nodeE] } = .ok u :=
  ⟨_, by decide +kernel, by decide +kernel, (ok_of (by decide +kernel)).choose_spec⟩
theorem witness_thread_empty : ∃ u, (stackOf st0.g 15).entries = [] ∧ (stackOf st0.g 15).blocks = 0 ∧ writeHeader st0 15 (stackOf st0.g 15) = .ok u :=
  ⟨_, by decide +kernel, by decide +kernel, (ok_of (by decide +kernel)).choose_spec⟩


-- how a group comes to issue (02, 10, 13, 15)

/-- GroupEventsComplete: a clause of one word, a word that is no header, and the arrival at a join. -/
def stFetch (w : Word) (f : Group → Group) : State := { withG (fun h => f { h with phase := .fetch, off := 0, clause := [] }) with mem := smSetMany 0 [] 0x1000 (bytesOfWords [w]) }
theorem witness_fetch : let s := stFetch 0xB1000200 id
    ∃ t, s.g.phase = .fetch ∧ s.g.hollow = false ∧ atJoin s.g = false ∧ readClause s s.g.pos = .ok (t, [0xB1000200, 0]) := by
  have h : ((readClause (stFetch 0xB1000200 id) 0x1000).toOption.map (·.2)) = some [0xB1000200, 0] := by decide +kernel
  refine ⟨((readClause (stFetch 0xB1000200 id) 0x1000).toOption.map (·.1)).getD st0, rfl, rfl, by decide +kernel, ?_⟩
  generalize hx : readClause (stFetch 0xB1000200 id) 0x1000 = x at h ⊢
  match x, h with
  | .ok (t, c), h =>
    simp only [Except.toOption, Option.map_some, Option.some.injEq] at h
    subst h
    exact hx
theorem witness_fetch_error : ∃ x a, readClause (stFetch 0xB1000201 id) (stFetch 0xB1000201 id).g.pos = .error (x, a) := ⟨_, _, rfl⟩
theorem witness_fetch_join : let s := stFetch 0 (fun h => { h with active := 0 })
    s.g.phase = .fetch ∧ s.g.hollow = false ∧ atJoin s.g = true := by decide +kernel
/-- GroupEventsComplete: the mask holds, names an owed trap, and does not hold. -/
def stWait (w : Word) (f : Group → Group) : State := withG (fun h => f { h with phase := .waitMask, off := 0, clause := [w, 0] })
theorem witness_mask : (let s := stWait 0xB10F8200 id; s.g.phase = .waitMask ∧ s.g.preempt = false ∧ maskHolds s s.g = true ∧ owedServed s.g (maskSlots s.g) = none) ∧
    (let s := stWait 0xB1008200 (fun h => { h with stq := [stored .g] }); s.g.phase = .waitMask ∧ maskHolds s s.g = false) ∧ (let s := stWait 0xB10F8200 (fun h => { h with preempt := true }); s.g.phase = .waitMask ∧ s.g.preempt = true) ∧
    (let s := stWait 0xB1080200 (fun h => { h with owed := [(19, owed0)] }); maskHolds s s.g = true ∧ owedServed s.g (maskSlots s.g) = some (19, owed0)) := by decide +kernel
/-- GroupEventsComplete: a tag wait before and at its limit, and what stops, drains or hangs. -/
theorem witness_tag_wait : ∀ n ∈ [0, 1048575, 1048576], let s := withG (fun h => { h with clause := [0xB1400200, 0x7A041241], tagWait := some n })
    s.g.phase = .issue ∧ s.g.preempt = false ∧ s.g.tagWait = some n ∧ instrAt s.g = .ok (.ldf (.reg 1) (.reg 2) .acq .grp .s) := by decide +kernel
theorem witness_stop : (let s := withG (fun h => { h with preempt := true }); stoppable s.g = true ∧ s.windows = [] ∧ s.g.waiting = .no) ∧
    residentGroup st0.g = true ∧ st0.g.preempt = false ∧ st0.g.phase ≠ .placed ∧ st0.g.hollow = false ∧ poolTakes st0 0 [st0.g] = true ∧ (let s := withG (fun h => { h with idle := 2147483648 }); residentGroup s.g = true ∧ 2147483648 ≤ s.g.idle) := by decide +kernel
def window0 : Window := { core := 383, launch := 2, site := 0x1000, opened := 7, arrivals := [1] }
theorem witness_window : ∀ n ∈ [7, 4103], let s := { st0 with windows := [window0], dies := [{}, { cycles := n }] }
    s.windows.filter (fun x => decide (x.core = window0.core ∧ x.launch = window0.launch)) = [window0] ∧ coreCycles s 383 = n := by decide +kernel

-- the front end (15)

/-- FrontEndCompletes: the packet of the last index of an index space, whole and torn. -/
def queue1 (torn : Option Nat) : Queue := { queue0 with rd := 4294967295, tornAt := torn }
def stQueue (torn : Option Nat) (p : List Byte) : State :=
  { st0 with mem := smSetMany 0 [] 0x83C0 p, fns := { Tests.fn0 with queues := [(255, queue1 torn)] } :: List.replicate 16 {}, dies := [{ cycles := 5000 }, {}] }
def packet0 : List Byte := [255, 255, 0x45, 0xA4] ++ zerosB 60
theorem witness_queue : let s := stQueue none packet0
    let s1 := setFn s 0 { getFn s 0 with served := 255 }
    queue1 none = queueOf (getFn s 0) 255 ∧ 0 < s.fns.length ∧ (queue1 none).opened = true ∧ (queue1 none).stop = false ∧ agentRead s 0 (slotVA (queue1 none) (queue1 none).rd) 64 = .ok packet0 ∧ (getFn s 0).quiesced = false ∧
      nextQueue s 0 = some 255 ∧ agentRead s1 0 (slotVA (queue1 none) (queue1 none).rd) 64 = .ok packet0 ∧ agentRead s1 0 (queue1 none).wix 4 = .ok (zerosB 4) ∧
      (leNat (zerosB 4) + 4294967296 - (queue1 none).rd) % 4294967296 = 1 ∧ packetWhole (queue1 none) (queue1 none).rd packet0 = true := by decide +kernel
theorem witness_queue_torn : ∀ q ∈ [queue1 none, queue1 (some 4096)], let s := stQueue q.tornAt [254, 255, 0x45, 0xA4]
    q = queueOf (getFn s 0) 255 ∧ q.opened = true ∧ q.stop = false ∧ agentRead s 0 (slotVA q q.rd) 64 = .ok ([254, 255, 0x45, 0xA4] ++ zerosB 60) ∧ packetWhole q q.rd ([254, 255, 0x45, 0xA4] ++ zerosB 60) = false ∧ nextQueue (stQueue none [254, 255, 0x45, 0xA4]) 0 = some 255 ∧ q.tornAt ∈ [none, some 4096] := by decide +kernel
def packet1 : Packet := { id := 3, fn := 0, queue := some 255, ix := 0, va := 0x8000, bytes := [0, 0, 0x45, 0xA4] ++ zerosB 60, tree := 3, order := 3 }
theorem witness_release : let s := { st0 with packets := [packet1] }
    findFirst (fun x => decide (x.id = packet1.id)) s.packets = some packet1 ∧ canRelease s packet1 = true ∧
      ∀ x ∈ s.packets, x.fn = packet1.fn → canRelease s x = true → lexLt (releaseKey x) (releaseKey packet1) = false := by decide +kernel
theorem witness_complete : let l := { launch0 with stopped := true, code := 4, trap := 255, offset := 65535, status := 0x5000, packet := zerosB 64 }
    let s := { st0 with launches := [l] }
    ∃ u, getLaunch s l.id = some l ∧ launchDone s l = true ∧ l.node = 0 ∧ l.status ≠ 0 ∧ vaOk l.status 8 = true ∧ treeOf_ s l.tree = none ∧ pkRepl l.packet = false ∧
      agentWrite s l.fn l.status (natLe 8 (l.code + 256 * l.trap + 65536 * l.offset + (if l.deadline < (baseOf s l.fn).value then 4294967296 else 0) +
          (if l.krec then 8589934592 else 0) + (if l.nrec then 34359738368 else 0))) = .ok u :=
  ⟨_, by decide +kernel, by decide +kernel, rfl, by decide, by decide +kernel, by decide +kernel, by decide +kernel, (ok_of (by decide +kernel)).choose_spec⟩
/-- PlacementCompletes: a team of sixteen groups; a save of a small group; a placed one. -/
def launch16 : Launch := { launch0 with kind := 0, ctx := { ctx0 with kernel := { kern with team := 16 } } }
def stPlace : State := { st0 with launches := [launch16] }
theorem witness_place_team : ∃ x cores, (getFn stPlace 0).quiesced = false ∧ settleTeams stPlace = stPlace ∧ evictionDue stPlace 0 (regionsOf (getFn stPlace 0)) = none ∧ readyAll stPlace 0 = [x] ∧
    firstFit stPlace (regionsOf (getFn stPlace 0)) [x] = some (x, 0, cores) ∧ (∃ la, x.src = .fresh la ∧ la.ctx.kernel.team = cores.length) :=
  ⟨{ key := launchKey stPlace launch16 2, src := .fresh launch16 }, [1, 2, 3, 4, 5, 6, 7, 0, 1, 2, 3, 4, 5, 6, 7, 0], by decide +kernel, by decide +kernel, by decide +kernel, by decide +kernel, by decide +kernel, _, rfl,
    by decide +kernel⟩
def stSave : State := withG (fun h => { h with phase := .stopped, preempt := true, ctx := { h.ctx with kernel := { h.ctx.kernel with regs := 8, scratch := 256, region := 256 } } })
theorem witness_save : ∃ a, getGroup stSave stSave.g.id = some stSave.g ∧ saveReady stSave stSave.g = true ∧
    findRun (getFn stSave stSave.g.ctx.fn).pool (getFn stSave stSave.g.ctx.fn).bobbins (bobbinBytes stSave stSave.g).length = some a ∧ stSave.windows = [] :=
  ⟨0x4000000, by decide +kernel, by decide +kernel, by decide +kernel, rfl⟩
theorem witness_resume : let s := withG (fun h => { h with phase := .placed, bobbin := some 0x4000000 })
    (teamGroups s 3).filter (fun h => decide (h.phase = .placed)) = [s.g] ∧ bobbinBad s s.g = false ∧ s.g.hollow = false ∧ (∀ e ∈ s.g.rc.head?, e.deferred = false) ∧
      boardTakes s [s.g] = true ∧ inService s (arrKey (regionOf s.g.core) 0) = true := by decide +kernel
/-- ResetsComplete: a slice whose tester stands still for 100 ms, its launch running there; units that do not, and a free slice. -/
def stHang : State := { st0 with trvs := [trv0], watch := [(9, 1000, [[3]])], now := 100001000 }
theorem witness_reset : fnOfSlice stHang 0 = some 0 ∧ hangs stHang 0 0 9 = true ∧ (∃ l ∈ stHang.launches, l.stopped = false ∧ touchesSlice stHang 0 l = true) ∧ 0 < stHang.fns.length ∧
    (fnOfSlice stHang 0 = some 0 ∧ hangs stHang 0 0 8 = false) ∧ fnOfSlice stHang 15 = none ∧ eventTurn stHang (.hang 0 9) = true ∧ .hang 0 8 ∉ stHang.mailq ∧ stHang.boot = .running ∧ eventTurn stHang (.reset 0) = true ∧ State.reset.boot ≠ .running ∧
    (let s := { stHang with mailq := [.request 0] }; hangs s 0 0 9 = true ∧ eventTurn s (.hang 0 9) = false ∧ eventTurn s (.reset 0) = false) := by decide +kernel
/-- ResetsComplete: a lease that the function borrows is active. -/
theorem witness_reset_lease : let s := { stHang with leases := [lentTop] }
    s.boot = .running ∧ eventTurn s (.reset 0) = true ∧ (∃ q ∈ (getFn s 0).slices, fnOfSlice s q = some 0) ∧ (∀ x ∈ s.leases, x.rcd.length = 64) ∧
      ∃ x ∈ s.leases, x.granted = true ∧ fieldAt x.rcd 2 1 % 32 = 0 ∧ leaseState x < 2 := by decide +kernel

-- memory, clocks, power, links and the host (19 to 22)

/-- MemoryAndPowerComplete: a walk, the last sector of the package and the next, a channel and a die at their limits. -/
theorem witness_walk : let s := { stTurn with tlb := [] }
    tlbFind s 0 0xFFFF = none ∧ walk s 0 0xFFFF = .ok (0xF0000000020003, 0, 0x10020008, 0) := by decide +kernel
theorem witness_patrol : running st0 = true ∧ running State.reset = false ∧ 9663676415 < 9663676416 ∧ 9663676416 ≤ 9663676416 := by decide +kernel
theorem witness_channel : let c : Chan := { rate := 32, errors := 4097, due := true }
    let s := { st0 with chans := [(47, c)] }
    running s = true ∧ c = smGet {} s.chans 47 ∧ 47 < 48 ∧ c.due = true ∧ 24 < c.rate := by decide +kernel
theorem witness_clock : ∀ n ∈ [10, 11, 19], let s := { st0 with dies := [{}, { clock := n }] }
    s.dies[1]? = some { clock := n } ∧ (({ clock := n } : Die).changed) + 1000000 ≤ s.now := by decide +kernel
theorem witness_power_up : State.reset.boot = .rom ∧ fieldAt (memRead State.reset aqmalKey State.reset.bootWord.toNat 16) 0 4 ≠ 0x4C4D5141 := by decide +kernel
/-- HostAndLinksComplete: a message of the path that a partition uses sets a base, or slews one; a message of the other path. -/
theorem witness_ptp : ∀ b, let s := { st0 with bases := [(0, { value := 5, set := b })] }
    running s = true ∧ Config.fabricTime 0 = Config.fabricTime 0 ∧ (!Config.fabricTime 0) ≠ Config.fabricTime 0 ∧ (getFn s 0).slices.Nodup ∧ 0 ∈ (getFn s 0).slices ∧ (smGet {} s.bases 0).set = b :=
  fun b => ⟨by cases b <;> decide +kernel, rfl, by cases Config.fabricTime 0 <;> decide, by cases b <;> decide +kernel, by cases b <;> decide +kernel, by cases b <;> decide +kernel⟩
/-- HostAndLinksComplete. -/
theorem witness_delivered : let x : L1Sec := { core := 0, sec := 31, data := List.replicate 32 7, dirty := List.replicate 32 false, valid := true, key := 5 }
    l1Find { st0 with l1 := [x] } 0 31 = some x ∧ x.key = 5 ∧ x.dirty = List.replicate 32 false ∧ isHostSec 31 = false ∧ isHostSec (hostBase / 32) = true := by decide +kernel
theorem witness_links : let s := { st0 with linksDown := [7, 3] }
    s.linksDown.length = 2 ∧ s.linksDown.getD 0 0 < linkModules 0 ∧ s.linksDown.getD 1 0 < linkModules 1 := by decide +kernel
theorem witness_host : running st0 = true ∧ 16 < st0.fns.length ∧ 0x8000 + 2 ≤ 68719476736 ∧ agentRead st0 0 0x8000 2 = .ok [0, 0] ∧ (∃ t, agentWrite st0 0 0x8000 [1, 2] = .ok t) ∧ 65533 + [(1 : Byte), 2, 3].length ≤ 65536 ∧
    2251799813685247 + [(1 : Byte)].length ≤ 2251799813685248 ∧ st0.l1 = [] :=
  ⟨by decide +kernel, by decide +kernel, by decide, by decide +kernel, ok_of (by decide +kernel), by decide, by decide, rfl⟩

-- requests (18, 21)

/-- A function with a posted request, its args by offset; fn is its number. -/
def asks (f : Fn) (op sub : Nat) (args : List (Nat × List Byte)) : Fn :=
  { f with bar0 := args.foldl (fun m e => smSetMany 0 m e.1 e.2) (smSetMany 0 (smSetMany 0 [] 0 (natLe 4 1)) 8 (natLe 2 op ++ natLe 2 0 ++ natLe 1 sub)) }
def fn1 : Fn := { slices := [1], windows := [(0x8000, 32768)], keyBlocks := 0xFF00, cacheWays := [5, 6] }
/-- The base state with two functions, of which one asks. -/
def stAsk (fn op sub : Nat) (args : List (Nat × List Byte)) (l : List Nat) : State :=
  let g : Fn := { fn1 with leaving := l }
  { st0 with fns := if fn = 0 then asks Tests.fn0 op sub args :: g :: List.replicate 15 {} else Tests.fn0 :: asks g op sub args :: List.replicate 15 {} }
theorem asked_of {s : State} {fn op sub : Nat} {names : Bool} {used : List (Nat × Nat)} (h : (requestReady s fn op sub && (!(physicalOnly op) || decide (fn = 0)) && (!names || decide (fn = 0 ∨ arg (getFn s fn) 16 1 = fn)) &&
    restZero (getFn s fn) used) = true) : Asked s fn op sub names used := by
  simp only [Bool.and_eq_true, Bool.or_eq_true, Bool.not_eq_true', decide_eq_true_eq] at h
  obtain ⟨⟨⟨h1, h2⟩, h3⟩, h4⟩ := h
  exact ⟨h1, fun e => by rcases h2 with h2 | h2; · rw [e] at h2; cases h2
                         · exact h2, fun e => by rcases h3 with h3 | h3; · rw [e] at h3; cases h3
                                                 · exact h3, h4⟩
/-- RequestsAreAnswered: a virtual function that asks for FUSE, one that names another, and a byte that no request names. -/
theorem witness_answers : (∀ e ∈ ({ st0 with mailq := [.request 1, .request 0] } : State).mailq, ∃ k, e = .request k) ∧ 16 < st0.fns.length ∧ 65535 < 65536 ∧ 256 ≤ 256 ∧ (requestReady (stAsk 1 1 0 [] []) 1 1 0 = true ∧ physicalOnly 1 = true) ∧
    (let s := stAsk 1 0x12 1 [(16, [0])] []; requestReady s 1 0x12 1 = true ∧ arg (getFn s 1) 16 1 ≠ 1) ∧
    (let s := stAsk 0 0x12 1 [(16, [1]), (255, [1])] []; requestReady s 0 0x12 1 = true ∧ restZero (getFn s 0) [(16, 1)] = false) :=
  ⟨on_two ⟨1, rfl⟩ ⟨0, rfl⟩, by decide +kernel⟩
/-- PartitionRequestsComplete. -/
theorem witness_fuse : let s := stAsk 0 0x01 0 [(16, [1, 2]), (24, [2, 15])] []
    let f := getFn s 0
    Asked s 0 0x01 0 true [(16, 2), (24, min (arg f 17 1) 16)] ∧ arg f 16 1 = 1 ∧ fuseStatus s 1 (arg f 17 1) (fuseList f) = 0 := ⟨asked_of (by decide +kernel), by decide +kernel, by decide +kernel⟩
theorem witness_split : let s := stAsk 0 0x02 0 [(16, [1]), (24, [1])] [1]
    let f := getFn s 0
    Asked s 0 0x02 0 true [(16, 1), (24, 2)] ∧ maskSlices (getFn s 1) (arg f 24 2) = [1] ∧ arg f 24 2 ≠ 0 ∧ arg f 24 2 < 2 ^ (getFn s 1).slices.length ∧ cachesOk (withoutSlices (getFn s 1) [1]) = true ∧ splitBusy s 1 [1] = false ∧ splitDrained s 1 [1] = true ∧
      (getFn s 1).leaving = [1] := ⟨asked_of (by decide +kernel), by decide +kernel⟩
theorem witness_move_slice : let s := stAsk 0 0x03 0 [(16, [1]), (24, [0, 15])] [1]
    let f := getFn s 0
    Asked s 0 0x03 0 true [(16, 1), (24, 2)] ∧ (getFn s 1).slices[arg f 24 1]? = some 1 ∧ arg f 25 1 < 16 ∧ targetFree s 1 0 1 (arg f 25 1) = true ∧ leaseOn s 1 = false ∧
      regionBusy s (fun r => decide (sliceOfRegion r = 1)) = false ∧ (getFn s 1).leaving = [1] := ⟨asked_of (by decide +kernel), by decide +kernel⟩
theorem witness_ways : let s := stAsk 0 0x04 0 [(16, [1, 0, 1]), (20, [64])] []
    let f := getFn s 0
    Asked s 0 0x04 0 true [(16, 3), (20, 4)] ∧ maskWays (arg f 17 1) (arg f 20 4) = [6] ∧ arg f 17 1 < 2 ∧ arg f 18 1 < 2 ∧ onDie (getFn s 1) (arg f 17 1) = true ∧ (∀ w ∈ [6], (fnOfWay s w).isSome = true) ∧
      waysOk s ((List.zip (List.range s.fns.length) s.fns).map (fun e => afterWays 1 (decide (arg f 18 1 = 1)) [6] e.1 e.2)) = true := ⟨asked_of (by decide +kernel), by decide +kernel⟩
theorem witness_keys : let s := stAsk 0 0x05 0 [(16, [1, 16]), (25, [0x80])] []
    let f := getFn s 0
    Asked s 0 0x05 0 true [(16, 2), (24, 16)] ∧ arg f 17 1 < s.fns.length ∧ arg f 17 1 < 17 ∧ 1 ≠ arg f 17 1 ∧ BitVec.ofNat 128 (arg f 24 16) &&& ~~~ (getFn s 1).keyBlocks = 0 ∧ BitVec.ofNat 128 (arg f 24 16) ≠ 0 :=
  ⟨asked_of (by decide +kernel), by decide +kernel⟩
/-- LeaseRequestsComplete: function 1 lends an array of slice 1 to region 0 of function 0. -/
def leaseRec (state : Byte) (quota busy : Nat) : List Byte := [1, 6, 0, 0] ++ zerosB 4 ++ natLe 8 quota ++ natLe 8 0 ++ natLe 4 10000000 ++ zerosB 4 ++ natLe 8 busy ++ natLe 8 0 ++ [state] ++ zerosB 15
def lease0 (state : Byte) (quota busy : Nat) (granted : Bool) : Lease := { id := 11, lender := 1, rcd := leaseRec state quota busy, granted := granted, noticeEnd := 1000000, host := 0, key := 11 }
def stLease (s : State) (l : Lease) : State := { s with leases := [l], arrays := if l.granted then [(11, { lease := some 11 })] else [] }
theorem witness_lease_offer : let s := stAsk 1 0x06 0 [(24, leaseRec 0 0 0)] []
    Asked s 1 0x06 0 false [(24, 64)] ∧ leaseRecOk (argBytes (getFn s 1) 24 64) 1 = true ∧ leasePlace s 1 (argBytes (getFn s 1) 24 64) = some (0, 11) ∧ leaseTaken s 0 11 = false := ⟨asked_of (by decide +kernel), by decide +kernel⟩
theorem witness_lease_grant : let l := lease0 0 0 0 false
    let s := stLease (stAsk 0 0x06 1 [(24, [11])] []) l
    leaseOf s (arg (getFn s 0) 24 4) = some l ∧ Asked s 0 0x06 1 false [(24, 4)] ∧ lsBfn l.rcd = 0 ∧ l.granted = false ∧ leasePlace s l.lender l.rcd = some (0, l.key) ∧ leaseTaken s 0 l.key = false :=
  ⟨by decide +kernel, asked_of (by decide +kernel), by decide +kernel⟩
theorem witness_lease_reclaim : let l := lease0 0 0 0 true
    let s := stLease (stAsk 1 0x07 0 [(24, [11])] []) l
    leaseOf s (arg (getFn s 1) 24 4) = some l ∧ Asked s 1 0x07 0 false [(24, 4)] ∧ l.lender = 1 ∧ l.granted = true ∧ leaseState l = 0 := ⟨by decide +kernel, asked_of (by decide +kernel), by decide +kernel⟩
theorem witness_lease_return : ∀ st ∈ [(0 : Byte), 1], let l := lease0 st 0 0 true
    let s := stLease (stAsk 0 0x08 0 [(24, [11])] []) l
    leaseOf s (arg (getFn s 0) 24 4) = some l ∧ requestReady s 0 0x08 0 = true ∧ restZero (getFn s 0) [(24, 4)] = true ∧ lsBfn l.rcd = 0 ∧ l.granted = true ∧ leaseState l < 2 ∧ 48 < l.rcd.length := by decide +kernel
theorem witness_meter : let l := lease0 0 0 0 true
    let s := stLease (stAsk 1 0x17 0 [(24, [11])] []) l
    leaseOf s (arg (getFn s 1) 24 4) = some l ∧ Asked s 1 0x17 0 false [(24, 4)] ∧ l.lender = 1 := ⟨by decide +kernel, asked_of (by decide +kernel), by decide +kernel⟩
theorem witness_lease_end : (let l := lease0 1 0 0 true; let s := stLease st0 l; leaseOf s l.id = some l ∧ l.granted = true ∧ leaseState l = 1 ∧ l.noticeEnd ≤ s.now ∧ eventTurn s (.notice l.id) = true ∧ ∀ c ∈ s.cmds, c.region = l.host → c.array ≠ 2) ∧
    (let l := lease0 0 9 9 true; leaseState l = 0 ∧ quotaSpent l = true ∧ eventTurn (stLease st0 l) (.quota l.id) = true) := by decide +kernel
/-- MemoryRequestsComplete. -/
theorem witness_window_request : let s := stAsk 0 0x10 0 [(16, [1, 15]), (24, natLe 8 0x8000), (32, natLe 8 0x8000)] []
    let f := getFn s 0
    Asked s 0 0x10 0 true [(16, 2), (24, 16)] ∧ arg f 16 1 = 1 ∧ arg f 17 1 < 16 ∧ arg f 24 8 % 32768 = 0 ∧ arg f 32 8 % 32768 = 0 ∧ arg f 32 8 ≠ 0 ∧ spaRange (arg f 24 8) (arg f 32 8) = true ∧
      meetsCarve s (arg f 24 8) (arg f 32 8) = false := ⟨asked_of (by decide +kernel), by decide +kernel⟩
theorem witness_admit_request : let s := stAsk 0 0x10 1 [(16, [16]), (18, natLe 2 255), (20, natLe 4 0x8021FFFF)] []
    let f := getFn s 0
    Asked s 0 0x10 1 true [(16, 1), (18, 6)] ∧ arg f 16 1 < s.fns.length ∧ arg f 16 1 < 17 ∧ arg f 18 2 < 256 ∧ bits (arg f 20 4) 30 22 = 0 ∧ bits (arg f 20 4) 21 17 < 17 := ⟨asked_of (by decide +kernel), by decide +kernel⟩
theorem witness_root_request : let s := stAsk 1 0x11 0 [(24, natLe 8 0x8801)] []
    Asked s 1 0x11 0 false [(24, 8)] ∧ 1 < s.fns.length ∧ rootOk (getFn s 1) (arg (getFn s 1) 24 8) = true := ⟨asked_of (by decide +kernel), by decide +kernel⟩
theorem witness_inval_request : let s := stAsk 1 0x12 0 [(16, [1]), (24, natLe 8 2251799813652480), (32, natLe 8 32768)] []
    let f := getFn s 1
    Asked s 1 0x12 0 true [(16, 1), (24, 16)] ∧ arg f 16 1 < 17 ∧ arg f 24 8 % 32768 = 0 ∧ arg f 32 8 % 32768 = 0 ∧ arg f 24 8 + arg f 32 8 ≤ 2251799813685248 := ⟨asked_of (by decide +kernel), by decide +kernel⟩
theorem witness_inval_space : Asked (stAsk 1 0x12 1 [(16, [1])] []) 1 0x12 1 true [(16, 1)] := asked_of (by decide +kernel)
theorem witness_key_request : ∀ sub ∈ [0, 1], let s := stAsk 1 0x13 sub [(24, natLe 2 1023)] []
    Asked s 1 0x13 sub false (if sub = 0 then [(24, 2), (32, 32)] else [(24, 2)]) ∧ arg (getFn s 1) 24 2 < 8192 ∧ hasKey (getFn s 1) (arg (getFn s 1) 24 2) = true := by
  intro sub h
  simp only [List.mem_cons, List.not_mem_nil, or_false] at h
  rcases h with rfl | rfl <;> exact ⟨asked_of (by decide +kernel), by decide +kernel⟩
/-- ObjectRequestsComplete. -/
def descriptor0 : List Byte := natLe 8 0x8000 ++ [4, 1, 0, 0] ++ natLe 4 0 ++ natLe 8 0x9000 ++ natLe 8 0x9040
theorem witness_queue_create : let s := stAsk 1 0x14 0 [(24, [255]), (32, descriptor0)] []
    Asked s 1 0x14 0 false [(24, 1), (32, 32)] ∧ queueDescOk (argBytes (getFn s 1) 32 32) = true ∧ (queueOf (getFn s 1) (arg (getFn s 1) 24 1)).opened = false := ⟨asked_of (by decide +kernel), by decide +kernel⟩
theorem witness_queue_request : ∀ sub ∈ [1, 2, 3], let s := { st0 with fns := asks { Tests.fn0 with queues := [(255, queue0)] } 0x14 sub [(24, [255])] :: List.replicate 16 {} }
    requestReady s 0 0x14 sub = true ∧ restZero (getFn s 0) [(24, 1)] = true ∧ 4 ≤ (queueOf (getFn s 0) (arg (getFn s 0) 24 1)).lg := by decide +kernel
theorem witness_object_create : ∀ k ∈ [0, 1], let s := { stAsk 0 0x15 0 [(24, [BitVec.ofNat 8 k]), (28, [3])] [] with objs := [dbarObj 0] }
    requestReady s 0 0x15 0 = true ∧ restZero (getFn s 0) [(24, 1), (28, 4)] = true ∧ arg (getFn s 0) 24 1 = k ∧ (k = 1 → arg (getFn s 0) 28 4 ≠ 0) ∧ (objNums s 0).length < 16777216 := by decide +kernel
theorem witness_object_held : ∀ b ∈ [true, false], let s := { stAsk 0 0x15 1 [(24, natLe 4 16777215)] [] with objs := [sem 4 (if b then [(7, 6)] else [])] }
    requestReady s 0 0x15 1 = true ∧ restZero (getFn s 0) [(24, 4)] = true ∧ objFind s 0 (arg (getFn s 0) 24 4) = some (sem 4 (if b then [(7, 6)] else [])) ∧ objHeld s (sem 4 (if b then [(7, 6)] else [])) = b := by decide +kernel
theorem witness_object_read : let s := { stAsk 0 0x15 2 [(24, natLe 4 16777215)] [] with objs := [sem 4 []] }
    Asked s 0 0x15 2 false [(24, 4)] ∧ objFind s 0 (arg (getFn s 0) 24 4) = some (sem 4 []) := ⟨asked_of (by decide +kernel), by decide +kernel⟩
theorem witness_ageing : ∀ n ∈ [1000000, 1000000000], let s := stAsk 1 0x16 0 [(24, natLe 8 n)] []
    requestReady s 1 0x16 0 = true ∧ restZero (getFn s 1) [(24, 8)] = true ∧ arg (getFn s 1) 24 8 = n := by decide +kernel
theorem witness_pool : let s := stAsk 1 0x16 1 [(24, natLe 8 0x8000), (32, natLe 8 0x8000)] []
    let f := getFn s 1
    Asked s 1 0x16 1 false [(24, 16)] ∧ arg f 24 8 % 32768 = 0 ∧ arg f 32 8 % 32768 = 0 ∧ inWindow f (arg f 24 8) (arg f 32 8) = true ∧ f.bobbins = [] := ⟨asked_of (by decide +kernel), by decide +kernel⟩
theorem witness_replicas : let s := stAsk 1 0x16 2 [(24, natLe 4 9 ++ [64])] []
    let f := getFn s 1
    Asked s 1 0x16 2 false [(24, 5), (32, 3 * min (arg f 28 1) 64)] ∧ 1 ≤ arg f 28 1 ∧ arg f 28 1 ≤ 64 ∧ (∀ i < 64, bits (repMember f i) 23 22 = 0 ∧ bits (repMember f i) 21 17 < 17) ∧ repOf s 1 (arg f 24 4) = none :=
  ⟨asked_of (by decide +kernel), by decide +kernel⟩
theorem witness_replicas_release : let s := { stAsk 0 0x16 3 [(24, natLe 4 9)] [] with repsets := [rep0 true] }
    Asked s 0 0x16 3 false [(24, 4)] ∧ repOf s 0 (arg (getFn s 0) 24 4) = some (rep0 true) := ⟨asked_of (by decide +kernel), by decide +kernel⟩
/-- PackageRequestsComplete. -/
theorem witness_replicas_done : (∀ m ∈ ({ rep0 true with done := [(1, 0)] } : RepSet).members, m ∈ ({ rep0 true with done := [(1, 0)] } : RepSet).done) := by decide
theorem witness_identity : Asked (stAsk 1 0x20 0 [(24, List.replicate 32 7)] []) 1 0x20 0 false [(24, 32)] ∧ Asked (stAsk 1 0x21 0 [] []) 1 0x21 0 false [] := ⟨asked_of (by decide +kernel), asked_of (by decide +kernel)⟩
theorem witness_ratomic : let s := stAsk 0 0x1A 0 [(16, natLe 4 0x21FFFF ++ [0x4A, 8]), (24, natLe 8 2251799813685240), (40, [5])] []
    let f := getFn s 0
    Asked s 0 0x1A 0 false ([(16, 6), (24, 16)] ++ (if arg f 20 1 = 0x4A then [(40, 8)] else [])) ∧ bits (arg f 16 4) 31 22 = 0 ∧ bits (arg f 16 4) 21 17 < 17 ∧
      remoteOpOk (arg f 24 8) (arg f 20 1) (arg f 21 1) = true ∧ arg f 24 8 < 2251799813685248 ∧ s.ratomic = none := ⟨asked_of (by decide +kernel), by decide +kernel⟩
theorem witness_ratomic_answer : ({ st0 with ratomic := some 3 } : State).ratomic = some 3 := rfl
theorem witness_remote_atomic : let s := { st0 with fns := { Tests.fn0 with admission := [(255, (1, 0, true))] } :: List.replicate 16 {} }
    ∃ q, running s = true ∧ admitted s 0 1 0 = true ∧ (getFn s 0).slices ≠ [] ∧ translate s 0 0x8004 .rw = .ok q ∧ remoteOpOk 0x8004 0x41 4 = true ∧ q.spa < hostBase ∧ s.l1 = [] ∧ memPoisoned s q.spa 4 = false :=
  ⟨{ spa := 0x8004, key := 0, df := false, leaf := leaf0 }, by decide +kernel⟩
theorem witness_replica_answer : let r : RepSet := { rep0 false with members := [(Config.packageNumber + 1, 0)] }
    let s := { st0 with repsets := [r] }
    repOf s 0 9 = some r ∧ r.members.filter (fun m => decide (m.1 = Config.packageNumber + 1)) = [(Config.packageNumber + 1, 0)] ∧ Config.packageNumber + 1 ≠ Config.packageNumber :=
  ⟨rfl, List.filter_cons_of_pos (decide_eq_true rfl), Nat.succ_ne_self _⟩
theorem witness_capture : ∀ n ∈ [0, 1048576], let s0 := stAsk 0 0x18 0 [(16, [1]), (24, natLe 8 0x8000), (32, natLe 8 n)] []
    let s := setFn s0 1 { getFn s0 1 with quiesced := true }
    requestReady s 0 0x18 0 = true ∧ restZero (getFn s 0) [(16, 1), (24, 16)] = true ∧ arg (getFn s 0) 16 1 = 1 ∧ fnBusy s 1 = false ∧ (getFn s 1).quiesced = true ∧ fnDrained s 1 = true := by decide +kernel
/-- No image fits in no bytes. -/
theorem witness_capture_room (s : State) (fn va : Nat) : writeImage s fn va 0 = .error s := by simp [writeImage, imageHeader, natLe]
def digest0 : List Byte := sha256 []
def snapshot0 : Snapshot := { (default : Snapshot) with digest := digest0, keyBlocks := 0xFF00 }
def image0 : List Byte := natLe 4 0x4D47494D ++ natLe 4 64 ++ natLe 2 1 ++ [1, 1, 0, 8] ++ natLe 2 0 ++ zerosB 16 ++ digest0
def stRestore (bs : List Byte) : State :=
  { stAsk 0 0x19 0 [(16, [1]), (24, natLe 8 0x8000), (32, natLe 8 64)] [] with
    mem := smSetMany 0 [] 0x8000 bs, bases := [(1, { set := true })], images := [snapshot0], launches := [], tlb := [{ fn := 1, base := 0, size := 549755813888, leaf := leaf0 }] }
theorem witness_restore : (let s := stRestore image0
    requestReady s 0 0x19 0 = true ∧ restZero (getFn s 0) [(16, 1), (24, 16)] = true ∧ readImage s 1 (arg (getFn s 0) 24 8) (arg (getFn s 0) 32 8) = .ok (image0, []) ∧ restoreOk s 1 image0 [] = true ∧
      ((allGroups (loadSnapshot s 1 (snapshotFor s image0 []))).filter (fun g => decide (g.ctx.fn = 1 ∧ g.phase = .saved))) = [] ∧
      ∀ v, placeBobbins 1 [] v = some v) ∧
    (let s := stRestore []; readImage s 1 (arg (getFn s 0) 24 8) (arg (getFn s 0) 32 8) = .error s) :=
  ⟨⟨by decide +kernel, by decide +kernel, by decide +kernel, by decide +kernel, by decide +kernel, fun _ => rfl⟩, by decide +kernel⟩

end Sys2Proof.Tests
end

