-- ==== Sys2Proof/Tests/Values.lean ====
section
/-!
SUPPORT. Tests/Values.lean: more witnesses: numbers and their roundings, the bytes that loads and atomics find, joins, returns from a handler, frames.
-/
namespace Sys2Proof.Tests

set_option Elab.async false

open Sys2Proof Sys2Proof.Machine

/-- FloatInstructionsComplete: the least denormal, the largest finite value, an infinity and a NaN; sums and products that are and are not zero; a number that RND rounds. -/
theorem witness_read : fE4M3 ∈ formats ∧ 0x7E < 2 ^ fE4M3.bitsN ∧ 0x7E / 2 ^ fE4M3.fb % 2 ^ fE4M3.eb = fE4M3.emax ∧ 0x7E % 2 ^ fE4M3.fb + 1 ≠ 2 ^ fE4M3.fb ∧ fF16 ∈ formats ∧ 0x0001 / 2 ^ fF16.fb % 2 ^ fF16.eb = 0 ∧
    0xFC00 / 2 ^ fF16.fb % 2 ^ fF16.eb = fF16.emax ∧ fF16.noInf = false := by decide
theorem witness_sums : (⟨1, 1⟩ : Q).val + (⟨1, 16777216⟩ : Q).val ≠ 0 ∧ (⟨3, 2⟩ : Q).val + (⟨-6, 4⟩ : Q).val = 0 ∧ (⟨1, 1⟩ : Q).val * (⟨1, 3⟩ : Q).val ≠ 0 ∧ (⟨0, 1⟩ : Q).val * (⟨1, 3⟩ : Q).val = 0 ∧
    (⟨1, 2⟩ : Q).val * (⟨1, 2⟩ : Q).val + (⟨-1, 4⟩ : Q).val = 0 ∧ (⟨1, 2⟩ : Q).val * (⟨1, 2⟩ : Q).val + (⟨-1, 8⟩ : Q).val ≠ 0 := by norm_num [Q.val]
theorem witness_specials : ((FVal.inf false).isInf = true ∧ (FVal.fin true ⟨0, 1⟩).isZero = true) ∧ (FVal.nan true).isNan = true ∧ (FVal.fin false ⟨1, 1⟩).isNan = false ∧ (FVal.fin false ⟨1, 1⟩).isInf = false := by decide
theorem witness_rnd : ∃ q, fF16.read 0xB800 = .fin true q ∧ q.num ≠ 0 := ⟨_, rfl, by decide⟩
/-- SpecialsAndConversionsComplete: RCP of 3 and of 0; a float and an integer type. -/
theorem witness_rcp : (∃ q, fF32.read 0x40400000 = .fin false q ∧ q.num ≠ 0) ∧ (∃ q, fF32.read 0x80000000 = .fin true q ∧ q.num = 0) := ⟨⟨_, rfl, by decide⟩, _, rfl, by decide⟩
theorem witness_kinds : cvtKind .e5m2 = .flt fE5M2 ∧ cvtKind .n8 = .int 8 false := ⟨rfl, rfl⟩
/-- CrossLaneComplete: leaves that are numbers, and a sum of zero. -/
theorem witness_leaves : (∃ p, fF32.read (ftzIn true fF32 0x80000001) = .fin true p ∧ p.val = 0) ∧ ∃ q, fF32.read (ftzIn true fF32 0x3F800000) = .fin false q ∧ q.val ≠ 0 := by
  refine ⟨⟨_, rfl, ?_⟩, _, rfl, ?_⟩ <;> norm_num [Q.val, Fmt.mag, Q.neg, Q.mul, Q.pow2, fF32, ftzIn, Fmt.isDenormal, bitOf]
/-- LoadsComplete and TransfersComplete: the last bytes of a scratchpad and of the chip's, a page that no L1 holds, and one whose sector the core's L1 holds dirty; a thread's 32 bytes; a queued store. -/
theorem witness_reads : st0.g.early = [] ∧ st0.g.stq = [] ∧ sramPoisoned (sramOf st0 st0.g false) 1020 4 = false ∧ chipPoisoned (getFn st0 st0.g.ctx.fn) 4194296 8 = false ∧
    (∃ q, translate st0 st0.g.ctx.fn 549755813856 .r = .ok q ∧ memPoisoned st0 q.spa 32 = false) ∧ (∀ x ∈ st0.l1, x.core ≠ st0.g.core) ∧
    (∃ q r, translate st0 st0.g.ctx.fn (threadAddr st0.g 15 32) .r = .ok q ∧ translate st0 st0.g.ctx.fn (threadAddr st0.g 15 (32 + 16)) .r = .ok r ∧ memPoisoned st0 q.spa 16 = false ∧ memPoisoned st0 r.spa 16 = false) := by
  refine ⟨rfl, rfl, by decide +kernel, by decide +kernel, ⟨_, rfl, by decide +kernel⟩, by decide +kernel, _, _, rfl, rfl, by decide +kernel, by decide +kernel⟩
def dirtySec : L1Sec := { core := 0, sec := 31, data := List.replicate 32 7, dirty := List.replicate 28 false ++ List.replicate 4 true, valid := false, key := 0 }
theorem witness_reads_held : let s := { st0 with l1 := [dirtySec] }
    ∃ q, translate s s.g.ctx.fn 1020 .r = .ok q ∧ l1Find s s.g.core (q.spa / 32) = some dirtySec ∧ dirtySec.key = q.key ∧ dirtySec.poison = false ∧ q.spa % 32 + 4 ≤ 32 ∧
      ∀ i, i < 4 → dirtySec.dirty.getD (q.spa % 32 + i) false = true := ⟨_, rfl, by decide +kernel, by decide +kernel, by decide +kernel, by decide +kernel, by decide +kernel⟩
theorem witness_reads_queued : let e : StEntry := { lane := 15, sp := .g, addr := 1020, va := 1020, key := 0, df := false, data := [1, 2, 3, 4], all := false }
    let s := withG (fun h => { h with stq := [e] })
    s.g.early = [] ∧ s.g.stq = [] ++ [e] ∧ e.data.length = 4 ∧ ∃ p, translate s s.g.ctx.fn 1020 .r = .ok p ∧ p.spa = e.addr := ⟨rfl, rfl, rfl, _, rfl, by decide +kernel⟩
theorem witness_words : ∃ e, loadSpec (.ld .zero .zero .b16 .rlx .grp .s) = some e ∧ e.n = 16 ∧ ∃ f, loadSpec (.ldSigned .zero .zero true .rlx .grp .s) = some f ∧ f.n = 2 := ⟨_, rfl, rfl, _, rfl, rfl⟩
/-- AtomicsComplete: the last word of the chip scratchpad, sound and in error; a global word that no core holds dirty, in error, and one that another core holds dirty. -/
theorem witness_place_chip : st0.g.ctx.fn < st0.fns.length ∧ chipPoisoned (getFn st0 0) 4194300 4 = false ∧
    chipPoisoned (getFn { st0 with fns := { fn0 with chipPoison := [(131071, true)] } :: List.replicate 16 {} } 0) 4194300 4 = true := by decide +kernel
theorem witness_place_global : ∃ q, translate st0 st0.g.ctx.fn 1016 .rw = .ok q ∧ q.spa % 32 + 8 ≤ 32 ∧ st0.l1.filter (fun x => decide (x.sec = q.spa / 32) && isDirty x) = [] ∧ memPoisoned st0 q.spa 8 = false ∧
    memPoisoned { st0 with poison := [(31, true)] } q.spa 8 = true := ⟨_, rfl, by decide +kernel, by decide +kernel, by decide +kernel, by decide +kernel⟩
theorem witness_place_recalled : let x : L1Sec := { dirtySec with core := 4 }
    let s := { st0 with l1 := [x] }
    ∃ q, translate s s.g.ctx.fn 1016 .rw = .ok q ∧ s.l1.filter (fun x => decide (x.sec = q.spa / 32) && isDirty x) = [x] ∧ x.key = q.key ∧ x.poison = false ∧ memPoisoned s q.spa 8 = false :=
  ⟨_, rfl, by decide +kernel, by decide +kernel, by decide +kernel, by decide +kernel⟩
/-- BranchesComplete: a deferred entry comes to the top, of words that are no clause; of one without a JOIN. -/
theorem witness_return_fault : ∀ c ∈ [[0, 0, 0], [0xB2A00400, 0xE0000005, 0xE0000005]], let s := { stExposed with mem := smSetMany 0 [] 0x1400 (bytesOfWords c) }
    let v : State := { s with g := transfer { s.g with rc := [{ mask := 0xFFFF, target := 0x1400, deferred := true }], rcblocks := 0, active := (1#64) &&& liveMask s.g } 0x1800 }
    (1#64) &&& liveMask s.g ≠ 0 ∧ (∃ y, joinFault v 0x1400 = some y) ∧ trapWaits v = false := by
  intro c hc
  simp only [List.mem_cons, List.not_mem_nil, or_false] at hc
  rcases hc with rfl | rfl <;> exact ⟨by decide +kernel, Option.isSome_iff_exists.mp (by decide +kernel), by decide +kernel⟩
/-- BranchesComplete: arrivals at the join under a deferred entry, with and without lanes that went the other way; under another entry, above none, above a deferred one. -/
def stJoin (rc : List RcEntry) (act : BitVec 64) : State :=
  { withG (fun h => { h with rc := rc, phase := .fetch, off := 0, clause := [], pos := 0x1800, joinAt := 0x1800, joinNext := 0x1500, active := act }) with
    mem := smSetMany 0 [] 0x1400 (bytesOfWords [0xB2A00400, 0xDE000003, 0xE0000005]) }
theorem witness_join_deferred : ∀ b : Bool, let s := stJoin [{ mask := 0x8001, target := 0x1400, deferred := true }] (if b then 0x8001 else 0x8000)
    s.g.phase = .fetch ∧ s.g.hollow = false ∧ atJoin s.g = true ∧ decide ((0x8001 : BitVec 64) &&& liveMask s.g &&& ~~~ s.g.active = 0) = b := by decide +kernel
theorem witness_join_pop : ∀ rest ∈ [[], rcKept 1, [{ mask := 0xFFFF, target := 0x1400, deferred := true }]], let s := stJoin ({ mask := 0x8001, target := 0x1800, deferred := false } :: rest) 0x8000
    s.g.phase = .fetch ∧ s.g.hollow = false ∧ atJoin s.g = true ∧ s.g.rcblocks = 0 ∧ s.g.active ≠ 0 ∧ (0x8001#64) &&& liveMask s.g ≠ 0 := by decide +kernel
theorem witness_join_fault : let s := { stJoin [{ mask := 0x8001, target := 0x1800, deferred := false }, { mask := 0xFFFF, target := 0x1400, deferred := true }] 0x8000 with mem := [] }
    let v : State := { s with g := transfer { s.g with rc := [{ mask := 0xFFFF, target := 0x1400, deferred := true }], rcblocks := 0, active := (0x8001#64) &&& liveMask s.g } 0x1800 }
    atJoin s.g = true ∧ ∃ y, joinFault v 0x1400 = some y := ⟨by decide +kernel, Option.isSome_iff_exists.mp (by decide +kernel)⟩
theorem witness_join_dead : let s := stJoin [{ mask := 2, target := 0x1800, deferred := false }] 0
    atJoin s.g = true ∧ (2#64) &&& liveMask s.g = 0 := by decide +kernel
/-- TrapReturnCompletes: the last instruction of the clause at 0x1400, and past it; a deferred entry on top, of that clause. -/
def stHandlerAt (off : Byte) (rc : List RcEntry) : State :=
  { withG (fun h => { h with hnd := true, trec := 0x106000, pos := 0x2000, rc := rc, trpos := (0x1400, 2) }) with
    mem := smSetMany 0 [] 0x1400 (bytesOfWords [0xB2A00400, 0xDE000003, 0xE0000005]) ++ [(0x106001, 0x14), (0x106008, off), (0x10600E, BitVec.ofNat 8 rc.length), (0x106020, 0x01), (0x106021, 0x80), (0x106080, 9)] }
def recordAt (off : Byte) (rc : List RcEntry) : List Byte := (coreRead (stHandlerAt off rc) 0x106000 256).toOption.getD []
theorem witness_rett_inside : ∀ off ∈ [(2 : Byte), 3], let s := stHandlerAt off []
    let v : State := { drainStq s with g := returnLoads (drainStq s).g }
    let b := recordAt off []
    s.g.hnd = true ∧ pairInFlight s = false ∧ (∀ x ∈ s.inserts, x.group ≠ s.g.id) ∧ coreRead v s.g.trec (128 + 8 * width s.g) = .ok b ∧ (readRecord b).depth = rcDepth s.g ∧ (readRecord b).roff = off.toNat ∧
      (readRecord b).rpos = 0x1400 ∧ (readClause v 0x1400).isOk = true ∧ ((readClause v 0x1400).toOption.bind (fun x => clauseStarts x.2)) = some [1, 2] := by decide +kernel
theorem witness_rett_deferred : let s := stHandlerAt 2 [{ mask := 0xFFFF, target := 0x1400, deferred := true }]
    let b := recordAt 2 [{ mask := 0xFFFF, target := 0x1400, deferred := true }]
    (readRecord b).depth = rcDepth s.g ∧ ((readClause (icacheDrop s s.g.core) 0x1400).toOption.map (fun r => clauseJoin 0x1400 r.2)) = some (some (0x140C, 0x140C)) := by decide +kernel
/-- RegroupCompletes: an open arrival and a stack that is not empty. -/
theorem witness_regroup_state : let s := withG (fun h => { h with clause := [0xB1A00200, 0xF01007FF], arv := 0x8000, rc := rcKept 1 })
    instrAt s.g = .ok (.regroup (.reg 4) 127 15) ∧ s.g.phase = .issue ∧ s.g.stq = [] ∧ s.g.owed = [] ∧ s.trvs = [] ∧ s.handoffs = [] ∧ s.windows = [] ∧ (∀ h ∈ s.others, h.core ≠ s.g.core ∧ h.id ≠ s.g.id) ∧
      (1 + 0 + 4 : Nat) = (if s.g.arv ≠ 0 then 1 else 0) + (if (∃ c ∈ s.cmds, c.group = s.g.id) ∨ (∃ c ∈ s.copies, c.group = some s.g.id) then 2 else 0) + (if s.g.rc ≠ [] ∨ s.g.rcblocks ≠ 0 then 4 else 0) := by decide +kernel
/-- GraphicsEventsComplete: a frame that has begun, with a byte more left than the ring takes, with as many, and with none to write. -/
def begun0 (n : Nat) : Frame := { frame0 with rest := some (List.replicate n 7), total := 9999 }
def ringRec (wr : Nat) : List Byte := [1, 0] ++ natLe 2 72 ++ natLe 2 72 ++ natLe 2 0 ++ natLe 4 0 ++ natLe 4 0 ++ natLe 8 0x40000 ++ natLe 4 64 ++ natLe 4 0 ++ natLe 4 wr ++ zerosB 28
def stRing (n wr : Nat) (bad : Bool) : State := { stMem [(0x6100, ringRec wr)] with frames := [begun0 n], poison := if bad then [(8192 + wr / 32, true)] else [] }
def stBegun (n wr : Nat) (bad : Bool) : State := keepFrame (stRing n wr bad) (begun0 n) ((List.replicate n 7).drop (min n (63 - wr))) 9999
theorem witness_ring : ∀ e ∈ [(4, 60), (3, 60), (3, 63)], let s := stRing e.1 e.2 false
    findFirst (fun x => decide (x.fn = (begun0 e.1).fn ∧ x.stream = (begun0 e.1).stream ∧ x.frame = (begun0 e.1).frame)) s.frames = some (begun0 e.1) ∧ frameReady s (begun0 e.1) = true ∧ frameFirst s (begun0 e.1) = true ∧
      agentRead s 0 0x6100 64 = .ok (ringRec e.2) ∧ min e.1 (64 - 1 - (fieldAt (ringRec e.2) 32 4 % max 64 1 + 64 - fieldAt (ringRec e.2) 28 4 % max 64 1) % max 64 1) = min e.1 (63 - e.2) := by decide +kernel
/-- The state after the ring's bytes and wr have been written. -/
def wroteRing (n : Nat) : State := (agentMerge (ringBytes (stBegun n 60 false) 0 0x40000 64 60 [7, 7, 7]).1 0 (0x6100 + 32) (natLe 4 ((60 + 3) % 64))).toOption.getD st0
theorem witness_ring_written : ∀ n ∈ [3, 4], (ringBytes (stBegun n 60 false) 0 0x40000 64 60 [7, 7, 7]).2 = none ∧
    (agentMerge (ringBytes (stBegun n 60 false) 0 0x40000 64 60 [7, 7, 7]).1 0 (0x6100 + 32) (natLe 4 ((60 + 3) % 64))).isOk = true ∧
    (agentMerge (dropFrame (wroteRing n) (begun0 n)) 0 (0x6100 + 40) (natLe 8 5)).isOk = true := by decide +kernel
theorem witness_ring_failed : (ringBytes (stBegun 3 60 true) 0 0x40000 64 60 [7, 7, 7]).2 = some (⟨6, 0⟩, 0x4003C) ∧
    (agentMerge (dropFrame (laneRecord (ringBytes (stBegun 3 60 true) 0 0x40000 64 60 [7, 7, 7]).1 (begun0 3) ⟨6, 0⟩ 0x4003C) (begun0 3)) 0 (0x6100 + 40) (natLe 8 5)).isOk = true := by decide +kernel

end Sys2Proof.Tests
end

/-!
Branches (14 R294) and divergent branches (R295), with the entries that they push (13 R279, R280).
-/
namespace Sys2Proof.Machine

-- targets (02 R34)

/-- The integer target wraps to the sum of bit vectors: four times an offset is the offset shifted by two. -/
theorem branchTarget_eq_targetOf (h : Group) (off : BitVec 21) : branchTarget h.pos off = targetOf h off := by
  have shifted : (off.signExtend 64 <<< 2 : BitVec 64) = BitVec.ofInt 64 (4 * off.toInt) := by
    rw [BitVec.shiftLeft_eq_mul_twoPow, BitVec.signExtend, BitVec.mul_comm, BitVec.ofInt_mul]; rfl
  have sum : BitVec.ofNat 64 h.pos + off.signExtend 64 <<< 2 = BitVec.ofInt 64 (h.pos + 4 * off.toInt) := by
    rw [shifted, BitVec.ofInt_add, BitVec.ofInt_natCast]
  rw [targetOf, sum, BitVec.toNat_ofInt]; rfl

-- lanes and masks

theorem getLsbD_fullMask (w l : Nat) (hl : l < 64) : (fullMask w).getLsbD l = decide (l < w) := by
  rw [fullMask, BitVec.getLsbD_ofNat, Nat.testBit_two_pow_sub_one]; simp [hl]

theorem maskOf_ne_zero {ls : List Nat} {l : Nat} (mem : l ∈ ls) (lt : l < 64) : maskOf ls ≠ 0 := by
  intro z
  have bit := getLsbD_maskOf ls l lt
  simp [z, mem] at bit

/-- The mask of the active lanes covers an active set that lies below the width. -/
theorem active_diff_maskOf_activeLanes {h : Group} (below : h.active &&& ~~~ fullMask (width h) = 0) : h.active &&& ~~~ maskOf (activeLanes h) = 0 := by
  refine BitVec.eq_of_getLsbD_eq fun i hi => ?_
  have bit := congrArg (·.getLsbD i) below
  simp only [BitVec.getLsbD_and, BitVec.getLsbD_not, getLsbD_fullMask _ _ hi] at bit
  simp only [BitVec.getLsbD_and, BitVec.getLsbD_not, getLsbD_maskOf _ _ hi, mem_activeLanes]
  by_cases a : h.active.getLsbD i = true <;> simp_all

-- the branches of a whole group (R294)

theorem exec_bra (off : BitVec 21) (s : State) : exec (.bra off) s = .next { s with g := transfer s.g (targetOf s.g off) } := by
  rw [← branchTarget_eq_targetOf]; rfl

theorem exec_join (off : BitVec 21) (s : State) : exec (.join off) s = .next { s with g := advance s.g 1 } := rfl

theorem exec_uniform (c : Nat) (off : BitVec 21) (want : Bool) (s : State) : exec (if want then .brt c off else .brf c off) s = uniform c off want s := by
  cases want <;> rfl

/-- With a clean register the lowest active lane decides for every active lane. -/
theorem uniform_clean {s : State} {c : Nat} (clean : readsClean s [c] [firstLane s.g]) (off : BitVec 21) (want : Bool) :
    uniform c off want s = .next { s with g := transfer s.g (if (gReg s.g c (firstLane s.g)).getLsbD 0 = want then targetOf s.g off else afterBody s.g) } := by
  rw [uniform, withRegs_clean clean, apply_ite (transfer s.g), branchTarget_eq_targetOf]; rfl

-- pushes on the reconvergence stack (13 R279, R280)

/-- A push while the stack on chip has room. -/
theorem pushRc_room {s : State} (room : s.g.rc.length < 32) (e : RcEntry) : pushRc s e = .ok { s with g := { s.g with rc := e :: s.g.rc } } := by
  rw [pushRc, if_pos room]

/-- A push onto a full stack with no block left. -/
theorem pushRc_exhausted {s : State} (full : 32 ≤ s.g.rc.length) (none_left : s.g.ctx.kernel.divblocks ≤ s.g.rcblocks) (e : RcEntry) :
    pushRc s e = .error (s, { code := 18 }) := by
  rw [pushRc, if_neg (by omega), if_pos none_left]

/-- A push onto a full stack whose entries the next block takes. -/
theorem pushRc_spilled {s u : State} (full : 32 ≤ s.g.rc.length) (left : s.g.rcblocks < s.g.ctx.kernel.divblocks)
    (spill : spillWrite s 0 true (spillBase s.g + 512 * s.g.rcblocks) (s.g.rc.reverse.map rcBytes).flatten = (u, none)) (e : RcEntry) :
    pushRc s e = .ok { u with g := { u.g with rc := [e], rcblocks := u.g.rcblocks + 1 } } := by
  rw [pushRc, if_neg (by omega), if_neg (by omega), spill]

/-- A push onto a full stack whose spill a page refuses: what was written before stands. -/
theorem pushRc_refused {s u : State} {x : XErr} {a : Nat} (full : 32 ≤ s.g.rc.length) (left : s.g.rcblocks < s.g.ctx.kernel.divblocks)
    (spill : spillWrite s 0 true (spillBase s.g + 512 * s.g.rcblocks) (s.g.rc.reverse.map rcBytes).flatten = (u, some (x, a))) (e : RcEntry) :
    pushRc s e = .error (u, { code := x.code, detail := x.cause, addr := a }) := by
  rw [pushRc, if_neg (by omega), if_neg (by omega), spill]

-- the divergent branches (R295)

/-- The lanes that a divergent branch on register c sends to its target. -/
def takers (h : Group) (c : Nat) (want : Bool) : List Nat := (activeLanes h).filter (fun l => decide ((gReg h c l).getLsbD 0 = want))

/-- The entry that a divergent branch pushes where the lanes disagree. -/
def deferredEntry (h : Group) : RcEntry := { mask := h.active, target := h.pos, deferred := true }

/-- The join of a divergent branch: the target of the JOIN before it. -/
def namedJoin (h : Group) : Nat := targetOf h (BitVec.ofNat 21 (h.clause.getD (h.off - 1) 0).toNat)

theorem exec_divergent (c : Nat) (off : BitVec 21) (want : Bool) (s : State) : exec (if want then .dbrt c off else .dbrf c off) s = divergent c off want s := by
  cases want <;> rfl

section
variable {s : State} {c : Nat} {want : Bool} (clean : readsClean s [c] (activeLanes s.g)) (off : BitVec 21)
include clean

/-- No lane takes the branch: the group goes on past the body. -/
theorem divergent_none (none_take : ∀ l ∈ activeLanes s.g, ¬ (gReg s.g c l).getLsbD 0 = want) :
    divergent c off want s = .next { s with g := transfer s.g (afterBody s.g) } := by
  have nobody : maskOf (takers s.g c want) = 0 := by
    rw [takers, List.filter_eq_nil_iff.mpr fun l hl => by simpa using none_take l hl]; rfl
  rw [divergent, withRegs_clean clean]
  exact if_pos nobody

/-- Every lane takes the branch: the group goes to its target. -/
theorem divergent_all (some_active : activeLanes s.g ≠ []) (below : s.g.active &&& ~~~ fullMask (width s.g) = 0)
    (all_take : ∀ l ∈ activeLanes s.g, (gReg s.g c l).getLsbD 0 = want) : divergent c off want s = .next { s with g := transfer s.g (targetOf s.g off) } := by
  have everybody : takers s.g c want = activeLanes s.g := List.filter_eq_self.mpr fun l hl => decide_eq_true (all_take l hl)
  obtain ⟨l, hl⟩ := List.exists_mem_of_ne_nil _ some_active
  have taken : maskOf (takers s.g c want) ≠ 0 := everybody ▸ maskOf_ne_zero hl (activeLanes_lt hl)
  have nobody_left : s.g.active &&& ~~~ maskOf (takers s.g c want) = 0 := everybody ▸ active_diff_maskOf_activeLanes below
  rw [divergent, withRegs_clean clean, ← branchTarget_eq_targetOf]
  exact (if_neg taken).trans (if_pos nobody_left)

section
variable (taken : maskOf (takers s.g c want) ≠ 0) (left : s.g.active &&& ~~~ maskOf (takers s.g c want) ≠ 0)
include taken left

/-- The lanes disagree and the entry is pushed: those that take the branch go on at its target, and the join becomes current. -/
theorem divergent_pushed {u : State} (push : pushRc s (deferredEntry s.g) = .ok u) :
    divergent c off want s = .next { u with g := transfer { u.g with joinAt := namedJoin s.g, joinNext := afterBody s.g, active := maskOf (takers s.g c want) } (targetOf s.g off) } := by
  rw [divergent, withRegs_clean clean, namedJoin, ← branchTarget_eq_targetOf, ← branchTarget_eq_targetOf]
  refine (if_neg taken).trans ((if_neg left).trans ?_)
  rw [← deferredEntry, push]; rfl

/-- The lanes disagree and the push fails. -/
theorem divergent_unpushed {u : State} {x : TrapInfo} (push : pushRc s (deferredEntry s.g) = .error (u, x)) : divergent c off want s = .next (takeTrap u x) := by
  rw [divergent, withRegs_clean clean]
  refine (if_neg taken).trans ((if_neg left).trans ?_)
  rw [← deferredEntry, push]

end
end

/-- Settles O27: each clause is the lemma about its branch; where the lanes disagree, that of the push decides. -/
theorem divergenceCompletes : Obligations.DivergenceCompletes := by
  intro s off c want
  refine ⟨exec_join off s, exec_bra off s, fun clean => ?_, fun clean => ?_⟩
  · rw [exec_uniform, uniform_clean clean]
  · dsimp only
    rw [exec_divergent]
    refine ⟨divergent_none clean off, divergent_all clean off, ?_⟩
    rintro t j u rfl taken left rfl
    refine ⟨fun room => ?_, fun full none_left => ?_, fun full some_left => ⟨fun spill => ?_, fun x a spill => ?_⟩⟩
    · exact divergent_pushed clean off taken left (pushRc_room room _)
    · exact divergent_unpushed clean off taken left (pushRc_exhausted full none_left _)
    · exact divergent_pushed clean off taken left (pushRc_spilled full some_left spill _)
    · exact divergent_unpushed clean off taken left (pushRc_refused full some_left spill _)

end Sys2Proof.Machine

/-!
Barrier misuses (14 R303), and what a trap leaves of the barriers, the objects and the open arrivals (23 R412).
-/
namespace Sys2Proof.Machine

-- the misuses that an instruction finds

theorem barArv_misuse {s : State} {id : Nat} (arrived : s.g.arv.getLsbD id = true) : exec (.barArv id) s = .next (misuse s 1) :=
  congrArg Host.Outcome.next (if_pos arrived)

theorem barTeam_misuse {s : State} {id : Nat} (arrived : s.g.arv.getLsbD id = true) (fresh : ∀ i n, s.g.waiting ≠ .barTeam i n) :
    exec (.barTeam id) s = .next (misuse s 1) := by
  show execBarTeam id s = _
  unfold execBarTeam
  split
  · next i n waits => exact absurd waits (fresh i n)
  · rw [if_pos arrived]

theorem barWait_misuse {s : State} {id : Nat} (missing : s.g.arv.getLsbD id = false) : exec (.barWait id) s = .next (misuse s 2) :=
  congrArg Host.Outcome.next (if_pos (by simp [missing]))

theorem barGrp_misuse {s : State} (apart : liveMask s.g &&& ~~~ s.g.active ≠ 0) : exec .barGrp s = .next (misuse s 3) :=
  congrArg Host.Outcome.next (if_pos apart)

theorem findFirst_eq_head_filter {α : Type} (p : α → Bool) (l : List α) : findFirst p l = (l.filter p).head? := by
  induction l with
  | nil => rfl
  | cons x l ih => by_cases h : p x = true <;> simp [findFirst, h, ih]

/-- Where one test picks a single element and a second test accepts it, the two together find it. -/
theorem findFirst_and_of_filter {α : Type} {p q : α → Bool} {l : List α} {x : α} (only : l.filter p = [x]) (accepted : q x = true) :
    findFirst (fun y => p y && q y) l = some x := by
  have both : l.filter (fun y => p y && q y) = (l.filter p).filter q := by simp only [List.filter_filter, Bool.and_comm]
  rw [findFirst_eq_head_filter, both, only]
  simp [accepted]

theorem objOf_hasObj {s : State} {o : Obj} {kind : Bool} (has : HasObj s o) (own : o.fn = s.g.ctx.fn) (is_kind : o.barrier = kind) (small : o.num < 16777216) :
    objOf s o.num kind = some o := by
  unfold objOf
  rw [if_neg (by omega), ← own]
  exact findFirst_and_of_filter has (by simp [is_kind])

section
variable {s : State} {a : Src} (clean : readsClean s (srcRegs a 1) [firstLane s.g])
include clean

section
variable {o : Obj} (sound : o.corrupt = false) (names : objOf s (syncArg s.g a) true = some o)
include sound names

theorem dbara_misuse (arrived : s.g.darv.isSome = true) : exec (.dbara a) s = .next (misuse s 4) := by
  show execDbara a s = _
  rw [execDbara, withRegs_clean clean, names]
  simp [sound, arrived]

theorem dbar_misuse (arrived : s.g.darv.isSome = true) (fresh : ∀ i n, s.g.waiting ≠ .dbar i n) : exec (.dbar a) s = .next (misuse s 4) := by
  show execDbar a s = _
  unfold execDbar
  split
  · next i n waits => exact absurd waits (fresh i n)
  · rw [withRegs_clean clean, names]
    simp [sound, arrived]

theorem dbarw_misuse (missing : ∀ n, s.g.darv ≠ some (o.num, n)) : exec (.dbarw a) s = .next (misuse s 5) := by
  show execDbarw a s = _
  rw [execDbarw, withRegs_clean clean, names]
  cases arrival : s.g.darv with
  | none => simp [sound]
  | some e =>
    obtain ⟨num, n⟩ := e
    have other : num ≠ o.num := fun same => missing n (same ▸ arrival)
    simp [sound, other]

end

theorem sbar_misuse (fresh : ∀ n, s.g.waiting ≠ .sbar n) (wrong : s.g.ctx.repl = false ∨ syncArg s.g a ≠ s.g.ctx.gen) : exec (.sbar a) s = .next (misuse s 6) := by
  show execSbar a s = _
  unfold execSbar
  split
  · next n waits => exact absurd waits (fresh n)
  · rw [withRegs_clean clean, if_pos (by simpa using wrong)]

end

-- what a trap leaves alone

/-- What R303 speaks of when it says that no arrival is made: the objects and replica sets, the barriers of every team, and the current group's team and open arrivals; and whether that
group is in its handler. -/
structure SyncView where
  objs : List Obj
  repsets : List RepSet
  bars : Nat → Option (List Bar)
  team : Nat
  arv : BitVec 16
  darv : Option (Nat × Nat)
  sarv : Option Nat
  hnd : Bool

def syncView (s : State) : SyncView where
  objs := s.objs
  repsets := s.repsets
  bars id := (getTeam s id).map (·.bars)
  team := s.g.team
  arv := s.g.arv
  darv := s.g.darv
  sarv := s.g.sarv
  hnd := s.g.hnd

theorem barAt_syncView (s : State) (k : Nat) : barAt s k = (((syncView s).bars (syncView s).team).map (fun l => l.getD k {})).getD {} := by
  simp [barAt, syncView, Function.comp_def]

theorem syncView_foldl {β : Type} {f : State → β → State} (step : ∀ s b, syncView (f s b) = syncView s) (l : List β) (s : State) : syncView (l.foldl f s) = syncView s :=
  foldl_keeps (fun t => syncView t = syncView s) f (fun t b kept => (step t b).trans kept) l s rfl

-- stores through an L1 (08 R168, R169)

theorem syncView_rekey (s : State) (kv : Nat × Nat) (sec : Nat) : syncView (rekey s kv sec) = syncView s := by
  unfold rekey; split <;> rfl

theorem syncView_passPoison (s : State) (x : L1Sec) : syncView (passPoison s x) = syncView s := by
  unfold passPoison; split <;> rfl

theorem syncView_evictSec (s : State) (x : L1Sec) : syncView (evictSec s x) = syncView s := by
  have merged : syncView (if isDirty x then mergeDirty s x else s) = syncView s := by
    split
    · exact syncView_rekey s _ _
    · rfl
  exact (syncView_passPoison _ x).trans merged

theorem syncView_callBack (s : State) (sec : Nat) (p : Nat → Bool) : syncView (callBack s sec p) = syncView s := syncView_foldl syncView_evictSec _ s

theorem syncView_l1StoreSec (s : State) (core key sec off : Nat) (bs : List Byte) : syncView (l1StoreSec s core key sec off bs) = syncView s := by
  have called := syncView_callBack s sec (fun c => decide (c ≠ core))
  unfold l1StoreSec; dsimp only
  split
  · split
    · exact called
    · exact (syncView_evictSec _ _).trans called
  · exact called

theorem syncView_l1Store (core key n : Nat) : ∀ (s : State) (a : Nat) (bs : List Byte), syncView (l1Store core key n s a bs) = syncView s := by
  induction n with
  | zero => exact fun _ _ _ => rfl
  | succ n ih =>
    intro s a bs
    unfold l1Store; split
    · rfl
    · exact (ih _ _ _).trans (syncView_l1StoreSec s _ _ _ _ _)

theorem syncView_coreWrite {s t : State} {va : Nat} {bs : List Byte} (wrote : coreWrite s va bs = .ok t) : syncView t = syncView s := by
  unfold coreWrite at wrote; split at wrote
  · cases wrote
  · cases wrote
    refine syncView_foldl (fun t p => ?_) _ _
    split
    · rfl
    · exact syncView_l1Store _ _ _ _ _ _

-- error records (22 R402)

theorem syncView_ringWrite (s : State) (ring : Nat) (e : ErrRec) (fn time ms : Nat) : syncView (ringWrite s ring e fn time ms) = syncView s := by
  unfold ringWrite; dsimp only
  split
  · rfl
  · split <;> rfl

theorem syncView_writeRecord (s : State) (fn : Nat) (e : ErrRec) (time ms : Nat) : syncView (writeRecord s fn e time ms) = syncView s := by
  unfold writeRecord; dsimp only; split
  · exact syncView_ringWrite _ _ _ _ _ _
  · exact (syncView_ringWrite _ _ _ _ _ _).trans (syncView_ringWrite _ _ _ _ _ _)

theorem syncView_serveFrom (l : List AqEvent) : ∀ (kept : List AqEvent) (s : State), syncView (serveFrom kept l s) = syncView s := by
  induction l with
  | nil => exact fun _ _ => rfl
  | cons e l ih =>
    intro kept s
    unfold serveFrom; split
    · split
      · exact (ih _ _).trans (syncView_writeRecord _ _ _ _ _)
      · exact ih _ _
      · exact ih _ _
    · exact ih _ _

theorem syncView_walkRecord (s : State) (fn : Nat) (x : XErr) (va : Nat) (p : Option Nat) : syncView (walkRecord s fn x va p) = syncView s := by
  unfold walkRecord; split
  · unfold errorRecord; dsimp only; split
    · rfl
    · exact syncView_serveFrom _ _ _
  · rfl

-- stores that leave their queue (08 R168, R177)

/-- A test that an update of the elements does not touch finds the updated element. -/
theorem findFirst_updIf {α : Type} {p q : α → Bool} {f : α → α} (same : ∀ x, p (f x) = p x) (l : List α) :
    findFirst p (updIf q f l) = (findFirst p l).map (fun x => if q x then f x else x) := by
  induction l with
  | nil => rfl
  | cons x l ih =>
    have head : p (if q x then f x else x) = p x := by split <;> simp [same]
    simp only [updIf, List.map_cons, findFirst, head]
    split
    · rfl
    · exact ih

/-- A store to a team's SRAM leaves the team's barriers alone. -/
theorem syncView_setSramOf (s : State) (h : Group) (rg : Bool) (m : Sram) : syncView (setSramOf s h rg m) = syncView s := by
  have bars (id : Nat) : (getTeam (setSramOf s h rg m) id).map (·.bars) = (getTeam s id).map (·.bars) := by
    unfold getTeam setSramOf
    rw [updTeam_teams, findFirst_updIf (by intro t; cases rg <;> rfl), Option.map_map]
    congr 1
    funext t
    simp only [Function.comp_apply]
    split
    · cases rg <;> rfl
    · rfl
  exact congrArg (fun b => { syncView s with bars := b }) (funext bars)

theorem syncView_performStore (s : State) (h : Group) (e : StEntry) : syncView (performStore s h e) = syncView s := by
  unfold performStore; split
  · exact syncView_setSramOf _ _ _ _
  · exact syncView_setSramOf _ _ _ _
  · dsimp only; split <;> rfl
  · refine (syncView_l1Store _ _ _ _ _ _).trans ?_
    split
    · rfl
    · split
      · rfl
      · exact syncView_walkRecord _ _ _ _ _

theorem syncView_drainStq (s : State) : syncView (drainStq s) = syncView s :=
  syncView_foldl (fun t e => syncView_performStore t s.g e) s.g.stq s

/-- A fold whose steps write registers alone does so itself. -/
theorem foldl_regs_frame {β : Type} {f : Group → β → Group} (step : ∀ h b, f h b = { h with regs := (f h b).regs, regPoison := (f h b).regPoison }) (l : List β) :
    ∀ h : Group, l.foldl f h = { h with regs := (l.foldl f h).regs, regPoison := (l.foldl f h).regPoison } := by
  induction l with
  | nil => exact fun _ => rfl
  | cons b l ih =>
    intro h
    rw [List.foldl_cons, ih, step]

/-- The data of loads goes to registers alone. -/
theorem returnLoads_frame (h : Group) : returnLoads h = { h with regs := (returnLoads h).regs, regPoison := (returnLoads h).regPoison, loads := [] } := by
  have returned := foldl_regs_frame (f := returnLoad) (fun h x => foldl_regs_frame (fun _ _ => rfl) x.writes h) h.loads h
  unfold returnLoads
  rw [returned]

-- traps (23 R412, R414, R416)

theorem syncView_failRing (trap : Nat) (t : State) (c : Copy) : syncView (failRing trap t c) = syncView t := by
  unfold failRing; dsimp only; split <;> rfl

theorem syncView_dropDest (s : State) (c : Copy) : syncView (dropDest s c) = syncView s := by
  unfold dropDest; dsimp only; split <;> rfl

theorem syncView_settleLease (s : State) (region : Nat) : syncView (settleLease s region) = syncView s := by
  unfold settleLease; split
  · rfl
  · split <;> rfl

/-- The end of a launch brings no group into its handler: the current one stays as it is, or its slot is empty. -/
theorem endLaunch_outside {s : State} (out : s.g.hnd = false) (l code trap : Nat) : (endLaunch s l code trap).g.hnd = false := by
  unfold endLaunch
  dsimp only
  refine (congrArg SyncView.hnd (syncView_foldl syncView_settleLease _ _)).trans ?_
  show Group.hnd (if _ then _ else _) = false
  split
  · rfl
  · refine (congrArg SyncView.hnd (syncView_foldl (fun t c => ?_) _ _)).trans ((congrArg SyncView.hnd (syncView_foldl (fun t h => ?_) _ s)).trans out)
    · exact (syncView_dropDest _ c).trans (syncView_failRing _ _ c)
    · exact syncView_foldl (fun u e => syncView_performStore u h e) _ _

/-- The state in which a trap is taken: a walk that met poison has left its record (R375). -/
def trapWalked (s : State) (x : TrapInfo) : State :=
  if x.fpos.isNone then walkRecord s s.g.ctx.fn ⟨x.code, x.detail⟩ (x.walk.getD x.addr) (some (s.g.core / 24)) else s

theorem syncView_trapWalked (s : State) (x : TrapInfo) : syncView (trapWalked s x) = syncView s := by
  unfold trapWalked; split
  · exact syncView_walkRecord _ _ _ _ _
  · rfl

/-- What the group issued before a trap completes first: its stores drain and its loads return (R407, R410). -/
theorem syncView_settledAccesses (s : State) : syncView { drainStq s with g := returnLoads (drainStq s).g } = syncView s := by
  rw [returnLoads_frame]
  exact syncView_drainStq s

/-- A trap that brings its group into the handler changes nothing else of the view: the other outcomes, a wait and the end of the launch, leave the group outside. -/
theorem takeTrap_syncView {s : State} (x : TrapInfo) (out : s.g.hnd = false) (inside : (takeTrap s x).g.hnd = true) :
    syncView (takeTrap s x) = { syncView s with hnd := true } := by
  have ends {u : State} (same : syncView u = syncView s) (l code trap : Nat) : (endLaunch u l code trap).g.hnd ≠ true := by
    rw [endLaunch_outside ((congrArg SyncView.hnd same).trans out)]; exact Bool.false_ne_true
  have walked := syncView_trapWalked s x
  have saved := (syncView_settledAccesses (trapWalked s x)).trans walked
  unfold takeTrap at inside ⊢
  rw [← trapWalked] at inside ⊢
  split at inside
  · exact absurd inside (by simp [out])
  next free =>
  rw [if_neg free]
  dsimp only at inside ⊢
  split at inside
  · exact absurd inside (ends walked _ _ _)
  next handled =>
  rw [if_neg handled]
  split at inside
  · exact absurd inside (ends ((syncView_walkRecord _ _ _ _ _).trans saved) _ _ _)
  next v wrote =>
  rw [writeLanes_frame]
  exact congrArg (fun w : SyncView => { w with hnd := true }) ((syncView_coreWrite wrote).trans saved)

/-- Settles O33: each misuse is found by its instruction, and a trap that is delivered keeps the view of what the barriers hold. An arrival counts as open until its BAR.WAIT,
also once its phase has completed: that is the model's choice (log entry 76), which the clause of BAR.ARV and BAR.TEAM rests on. -/
theorem barrierMisuses : Obligations.BarrierMisuses := by
  intro s id a o
  refine ⟨fun arrived => ⟨barArv_misuse arrived, barTeam_misuse arrived⟩, barWait_misuse, barGrp_misuse,
    fun clean => ⟨fun has own is_barrier sound small names => ?_, sbar_misuse clean⟩, ?_⟩
  · have found : objOf s (syncArg s.g a) true = some o := names ▸ objOf_hasObj has own is_barrier small
    exact ⟨fun arrived => ⟨dbara_misuse clean sound found arrived, dbar_misuse clean sound found arrived⟩, dbarw_misuse clean sound found⟩
  · rintro n t rfl out inside
    have kept := takeTrap_syncView _ out inside
    refine ⟨congrArg SyncView.objs kept, congrArg SyncView.repsets kept, congrArg SyncView.arv kept, congrArg SyncView.darv kept, congrArg SyncView.sarv kept, fun k => ?_⟩
    rw [barAt_syncView, barAt_syncView s, kept]

end Sys2Proof.Machine
